-- ==== Sys2Proof/Word.lean ====
section
/-! DEFINITION. The word types of the block: bytes, 16-bit words, request words (00_scope.md R11, R13). -/

namespace Sys2Proof

/-- One byte of a frame, of `DATA` or of the discovered table. -/
abbrev Byte := BitVec 8

/-- One 16-bit word: a command operand, a word read or written, a raw value to decode. -/
abbrev Word16 := BitVec 16

/-- One 64-bit request word, as the host writes it to `REQ` (30_encoding.md R70). -/
abbrev Request := BitVec 64

end Sys2Proof
end

