-- ==== Sys2Proof/Config.lean ====
section
/-! DEFINITION. What an instance of the block fixes (the parameters of 00_scope.md R10, R12) and the free values:
opaque constants with no body, for what the spec leaves to the environment. -/

namespace Sys2Proof

/-- The parameter `NUM`: the arithmetic of the value decoders (43_codec.md R180). -/
inductive NumDomain where
  /-- IEEE 754 binary64, rounded to nearest, ties to even. -/
  | binary64
  /-- Exact rational arithmetic. -/
  | exact
  deriving DecidableEq, Repr

/-- Transfer shape of a catalog entry, in the order of its codes 0 to 7 (30_encoding.md R95). -/
inductive Shape where
  | noData | byte | word | variableBlock | fixed14Block | processCallQuery | processCallCoefficients | profileBlock
  deriving DecidableEq, Repr

/-- Unit of a catalog entry, in the order of its codes 0 to 7 (R95). Only `bits` influences the block. -/
inductive Units where
  | volts | amperes | milliseconds | degreesC | watts | bits | string | none
  deriving DecidableEq, Repr

/-- One entry of `CATALOG` (R12, R95). Flag bit 0 is summary-worthy, bit 1 is-status-register, bit 2
vout-relative-format. The tag is the list of its characters' codes; an empty tag marks the sentinel. -/
structure CatalogEntry where
  code  : Word16
  shape : Shape
  unit  : Units
  flags : BitVec 3
  tag   : List Byte
  deriving DecidableEq, Repr

/-- The entries before the sentinel: "detection of end of catalog must use tag emptiness" (R12). The spec says that a
sentinel terminates the list and not what a list without one is: there the model takes every entry (DESIGN CHOICE,
log 16). -/
def beforeSentinel (es : List CatalogEntry) : List CatalogEntry :=
  es.takeWhile fun e => !e.tag.isEmpty

/-- No two entries have the same code (R12, I7). -/
def codesDistinct : List CatalogEntry → Bool
  | [] => true
  | e :: es => es.all (fun x => x.code != e.code) && codesDistinct es

/-- A catalog the spec admits: the list as it is given, its sentinel included, together with the check that no two
entries before the sentinel have the same code (R12: such a catalog is refused as a parameter). -/
structure Catalog where
  given    : List CatalogEntry := []
  distinct : codesDistinct (beforeSentinel given) = true := by rfl
  deriving DecidableEq, Repr, Inhabited

/-- The entries of a catalog, in catalog order, without the sentinel and what follows it (R12); all of them where the list
holds no sentinel (log 16). -/
def Catalog.entries (c : Catalog) : List CatalogEntry := beforeSentinel c.given

/-- The five `CMD_*` codes other than `CMD_PAGE` are core codes and pairwise distinct (R10, D10). -/
def commandCodesOk (capability query voutMode coefficients pmbusRevision : Byte) : Bool :=
  [capability, query, voutMode, coefficients, pmbusRevision].all (fun c => c.toNat ≤ 0xFD)
    && decide [capability, query, voutMode, coefficients, pmbusRevision].Nodup

/-- The command codes the block's own logic uses (R10, 20_memory.md R56), together with the check a parameter set
must pass; `CMD_PAGE` takes no part in it. -/
structure CommandCodes where
  page          : Byte
  capability    : Byte
  query         : Byte
  voutMode      : Byte
  coefficients  : Byte
  pmbusRevision : Byte
  ok : commandCodesOk capability query voutMode coefficients pmbusRevision = true
  deriving DecidableEq, Repr

/-- `DATA` holds every length the block operations admit: up to 255 bytes from index 0 (20_memory.md R54, 40_transport.md
R113, R117). The spec gives no rule for a smaller buffer (DESIGN CHOICE, log 21). -/
def dataSizeOk (bytes : Nat) : Bool := 255 ≤ bytes

/-- The parameter `DATA_SIZE` (R10), together with that check. -/
structure DataSize where
  bytes : Nat
  ok    : dataSizeOk bytes = true
  deriving DecidableEq, Repr

/-- The parameters of one block instance (R10). Fixed for its lifetime; no step writes them. `SLOT_COUNT` is not among
them: "The slot count is architectural (256, one per 8-bit code)" (93_implementation_defined.md I23; log 17). -/
structure Params where
  /-- Adapter capability bitmask `CAPS` (10_state.md R24). -/
  caps           : Byte
  /-- Native block transaction limit `BLOCK_LIMIT`. -/
  blockLimit     : Nat
  /-- The command catalog. -/
  catalog        : Catalog
  /-- The command codes. -/
  codes          : CommandCodes
  /-- Bit of the device CAPABILITY byte that advertises PEC (30_encoding.md R99). -/
  capPecBit      : Fin 8
  /-- VOUT_MODE bits 7:5 that mean linear (R93). -/
  voutLinearMode : BitVec 3
  /-- Arithmetic of the decoders. -/
  num            : NumDomain
  /-- Bytes in the host data buffer `DATA` (10_state.md R37). -/
  dataSize       : DataSize
  deriving DecidableEq, Repr

/-- Failure causes the oracle may draw (40_transport.md R102, 60_exceptions.md R252 codes 1 to 5 and 8). -/
inductive OracleCause where
  | nakAddr | nakData | timeout | arbLost | busError | adapterOther
  deriving DecidableEq, Repr

/-- The oracle's answer to one transaction (R102), or the adapter that never answers (R109, R293). The bytes are the
device-driven bytes in wire order, a count byte and a PEC byte included where the frame has them. The frame fixes how
many it takes; a list that is shorter reads as continued with 0x00 and what is left over is not on the wire, so every
answer R102 admits is a value of this type (DESIGN CHOICE, safe, log 4). -/
inductive BusAnswer where
  | complete (bytes : List Byte)
  | fail (k : OracleCause)
  | never
  deriving DecidableEq, Repr, Inhabited

/-- The adapter capability bitmask of the instance: OPEN (R10). Free value (log 1). -/
opaque Config.caps : Byte

/-- The command catalog of the instance: OPEN (R10). Free value (log 1). -/
opaque Config.catalog : Catalog

/-- The bus oracle: the answer to the transaction made at draw `n`, where the state lists none (R9, I1; log 3). -/
opaque Config.busAnswer : Nat → BusAnswer

/-- The byte an operation that reads `DATA` at draw `n` finds at index `i`, where nobody has written it (R37, I3;
log 10). -/
opaque Config.unwrittenByte : Nat → Nat → Byte

/-- The TU's CRC accumulator after the frame of draw `n`, where that frame was not completed (R43, R102; log 8). -/
opaque Config.crcAfterFailure : Nat → Byte

/-- The binary64 pattern of a NaN (R180 names IEEE 754, which leaves it open; R181 (3): none arises; log 11). -/
opaque Config.nanPattern : BitVec 64

/-- The default command codes of R10 (all but PAGE's general knowledge in the spec, G8; log 2). -/
def Config.codes : CommandCodes where
  page := 0x00#8
  capability := 0x19#8
  query := 0x1A#8
  voutMode := 0x20#8
  coefficients := 0x30#8
  pmbusRevision := 0x98#8
  ok := by decide

/-- The parameters at power-on of the instance `State.reset` describes: the defaults of R10 and, for what R10 leaves
OPEN, the free values above (log 1, log 2). -/
def Config.params : Params where
  caps := Config.caps
  blockLimit := 32
  catalog := Config.catalog
  codes := Config.codes
  capPecBit := 7
  voutLinearMode := 0b000#3
  num := .binary64
  dataSize := { bytes := 256, ok := by decide }

end Sys2Proof
end

