-- ==== Sys2Proof/Syntax.lean ====
section
/-! DEFINITION. The 23 operations of the opcode map (30_encoding.md R71), each with the operands its row of R75 names. -/

namespace Sys2Proof

/-- One operation of the block. Every operand has the width of its field in the request word (R70, R75); a field an
operation does not read is not an operand of it (R72). -/
inductive Instr where
  /-- OPEN: start a session with a 7-bit address and a PEC request (44_session.md R221). -/
  | openSession (addr : BitVec 7) (pec : Bool)
  /-- SCAN: the scan sequence, steps (a) to (e) (R222). -/
  | scan
  /-- PAGE_SELECT: write the PAGE command (R228). -/
  | pageSelect (page : Byte)
  /-- REPORT: enter the Reporting state (R229). -/
  | report
  /-- CLOSE: end the session (R231). -/
  | closeSession
  /-- GET_SESSION: read back the session registers (R230). -/
  | getSession
  /-- QUICK_PRESENCE: probe the address (40_transport.md R110). -/
  | quickPresence
  /-- READ_BYTE (R111). -/
  | readByte (cmd : Word16)
  /-- READ_WORD (R112). -/
  | readWord (cmd : Word16)
  /-- READ_BLOCK into `DATA` with a buffer of `maxLen` bytes (R113, R114). -/
  | readBlock (cmd : Word16) (maxLen : BitVec 12)
  /-- WRITE_BYTE (R115). -/
  | writeByte (cmd : Word16) (value : Byte)
  /-- WRITE_WORD (R116). -/
  | writeWord (cmd : Word16) (value : Word16)
  /-- WRITE_BLOCK of the first `len` bytes of `DATA` (R117). -/
  | writeBlock (cmd : Word16) (len : BitVec 12)
  /-- CHECK_SUPPORT: negotiate one command (41_query.md R140). -/
  | checkSupport (cmd : Word16)
  /-- FETCH_COEFFICIENTS of one direction, the whole `ARG` field (42_coefficients.md R160). -/
  | fetchCoefficients (cmd : Word16) (direction : Word16)
  /-- GET_SLOT: read back a slot (R166). -/
  | getSlot (cmd : Word16)
  /-- GET_COEF: read back a coefficient set (R167). -/
  | getCoef (cmd : Word16) (direction : Word16)
  /-- CLASSIFY a command (43_codec.md R185). -/
  | classify (cmd : Word16)
  /-- DECODE a raw value by the command's class (R203). -/
  | decodeValue (cmd : Word16) (raw : Word16)
  /-- DECODE_LINEAR11 (R190). -/
  | decodeLinear11 (raw : Word16)
  /-- DECODE_DIRECT with the command's read-direction coefficients (R193). -/
  | decodeDirect (cmd : Word16) (raw : Word16)
  /-- DECODE_VOUT (R196). -/
  | decodeVout (raw : Word16)
  /-- DECODE_BITMAP (R202). -/
  | decodeBitmap (raw : Word16)
  deriving DecidableEq, Repr

end Sys2Proof
end

