-- ==== Sys2Proof/WellFormed.lean ====
section
/-! DEFINITION. Which operations have operands in the ranges the spec gives (60_exceptions.md R255, checks 3 and 4),
and which request words are legal (30_encoding.md R73). Every term of `Instr` can be encoded; one that is not
well formed is an operation the block ends with INVALID_ARGUMENT or NOT_IMPLEMENTED. -/

namespace Sys2Proof

/-- A core command code: 0x0000 to 0x00FD (20_memory.md R55). -/
def coreCode (cmd : Word16) : Bool := cmd.toNat ≤ 0xFD

/-- A 7-bit address outside the reserved set of 20_memory.md R52. -/
def openableAddress (a : BitVec 7) : Bool :=
  0x08 < a.toNat && a.toNat < 0x78
    && !(a.toNat == 0x0C) && !(a.toNat == 0x28) && !(a.toNat == 0x37) && !(a.toNat == 0x61)

/-- A length operand the block admits: 1 to 255 (40_transport.md R113, R117). -/
def usableLength (n : BitVec 12) : Bool := 1 ≤ n.toNat && n.toNat ≤ 255

/-- A direction operand: write = 0 or read = 1, the whole field (42_coefficients.md R160). -/
def usableDirection (d : Word16) : Bool := d.toNat ≤ 1

/-- The operands pass checks (3) and (4) of R255. CHECK_SUPPORT admits an extended code: it answers Unknown (R141). -/
def Instr.wellFormed : Instr → Bool
  | .openSession addr _ => openableAddress addr
  | .scan => true
  | .pageSelect _ => true
  | .report => true
  | .closeSession => true
  | .getSession => true
  | .quickPresence => true
  | .readByte cmd => coreCode cmd
  | .readWord cmd => coreCode cmd
  | .readBlock cmd maxLen => usableLength maxLen && coreCode cmd
  | .writeByte cmd _ => coreCode cmd
  | .writeWord cmd _ => coreCode cmd
  | .writeBlock cmd len => usableLength len && coreCode cmd
  | .checkSupport _ => true
  | .fetchCoefficients cmd direction => usableDirection direction && coreCode cmd
  | .getSlot cmd => coreCode cmd
  | .getCoef cmd direction => usableDirection direction && coreCode cmd
  | .classify cmd => coreCode cmd
  | .decodeValue cmd _ => coreCode cmd
  | .decodeLinear11 _ => true
  | .decodeDirect cmd _ => coreCode cmd
  | .decodeVout _ => true
  | .decodeBitmap _ => true

/-- The operation codes of the opcode map (R71). -/
def definedOps : List Byte :=
  [0x01#8, 0x02#8, 0x03#8, 0x04#8, 0x05#8, 0x06#8,
   0x10#8, 0x11#8, 0x12#8, 0x13#8, 0x14#8, 0x15#8, 0x16#8,
   0x20#8, 0x21#8, 0x22#8, 0x23#8,
   0x30#8, 0x31#8, 0x32#8, 0x33#8, 0x34#8, 0x35#8]

/-- A legal request word: its `OP` is listed and its `RSV` field is zero (R73). -/
def Request.legal (w : Request) : Bool :=
  definedOps.contains (w.extractLsb' 0 8) && w.extractLsb' 52 12 == 0#12

end Sys2Proof
end

