-- ==== Sys2Proof/Decode.lean ====
section
/-! DEFINITION. The decoder of request words (30_encoding.md R70 to R75), total on any 64 bits and rejecting by name,
and the encoder written from the same fields. -/

namespace Sys2Proof

/-- Why a request word is illegal (R73). -/
inductive DecodeError where
  /-- `RSV` is not zero. -/
  | reservedNotZero
  /-- `OP` is not in the opcode map. -/
  | undefinedOp
  deriving DecidableEq, Repr

/-- Field `OP`, bits 7:0. -/
def opField (w : Request) : Byte := w.extractLsb' 0 8

/-- Field `CMD`, bits 23:8. -/
def cmdField (w : Request) : Word16 := w.extractLsb' 8 16

/-- Field `ARG`, bits 39:24. -/
def argField (w : Request) : Word16 := w.extractLsb' 24 16

/-- Field `LEN`, bits 51:40. -/
def lenField (w : Request) : BitVec 12 := w.extractLsb' 40 12

/-- Field `RSV`, bits 63:52. -/
def rsvField (w : Request) : BitVec 12 := w.extractLsb' 52 12

/-- `ARG[7:0]`: a page or a byte value. -/
def argLow (arg : Word16) : Byte := arg.extractLsb' 0 8

/-- `ARG[6:0]`: the address operand of OPEN. -/
def argAddr (arg : Word16) : BitVec 7 := arg.extractLsb' 0 7

/-- `ARG[7]`: the PEC request of OPEN. -/
def argPec (arg : Word16) : Bool := arg.getLsbD 7

/-- The operation of an `OP` value with its operand fields (R71, R75); none where `OP` is undefined. -/
def operation (op : Byte) (cmd arg : Word16) (len : BitVec 12) : Option Instr :=
  match op.toNat with
  | 0x01 => some (.openSession (argAddr arg) (argPec arg))
  | 0x02 => some .scan
  | 0x03 => some (.pageSelect (argLow arg))
  | 0x04 => some .report
  | 0x05 => some .closeSession
  | 0x06 => some .getSession
  | 0x10 => some .quickPresence
  | 0x11 => some (.readByte cmd)
  | 0x12 => some (.readWord cmd)
  | 0x13 => some (.readBlock cmd len)
  | 0x14 => some (.writeByte cmd (argLow arg))
  | 0x15 => some (.writeWord cmd arg)
  | 0x16 => some (.writeBlock cmd len)
  | 0x20 => some (.checkSupport cmd)
  | 0x21 => some (.fetchCoefficients cmd arg)
  | 0x22 => some (.getSlot cmd)
  | 0x23 => some (.getCoef cmd arg)
  | 0x30 => some (.classify cmd)
  | 0x31 => some (.decodeValue cmd arg)
  | 0x32 => some (.decodeLinear11 arg)
  | 0x33 => some (.decodeDirect cmd arg)
  | 0x34 => some (.decodeVout arg)
  | 0x35 => some (.decodeBitmap arg)
  | _ => none

/-- Decode a request word (R70 to R75): illegal when `RSV` is not zero or `OP` is undefined (R73). -/
def decode (w : Request) : Except DecodeError Instr :=
  if rsvField w = 0#12 then
    match operation (opField w) (cmdField w) (argField w) (lenField w) with
    | some i => .ok i
    | none => .error .undefinedOp
  else .error .reservedNotZero

/-- Assemble a request word `(0, LEN, ARG, CMD, OP)` (R70; the assembler sets `RSV` to zero, R76). -/
def pack (op : Byte) (cmd arg : Word16) (len : BitVec 12) : Request :=
  0#12 ++ len ++ arg ++ cmd ++ op

/-- An `ARG` field that holds one byte operand; the assembler sets the ignored bits to zero (R76). -/
def byteArg (b : Byte) : Word16 := 0#8 ++ b

/-- The `ARG` field of OPEN: address in bits 6:0, PEC request in bit 7 (R75). -/
def openArg (addr : BitVec 7) (pec : Bool) : Word16 := 0#8 ++ BitVec.ofBool pec ++ addr

/-- Encode an operation, every field it does not use zero (R71, R75, R76). -/
def encode : Instr → Request
  | .openSession addr pec => pack 0x01#8 0 (openArg addr pec) 0
  | .scan => pack 0x02#8 0 0 0
  | .pageSelect page => pack 0x03#8 0 (byteArg page) 0
  | .report => pack 0x04#8 0 0 0
  | .closeSession => pack 0x05#8 0 0 0
  | .getSession => pack 0x06#8 0 0 0
  | .quickPresence => pack 0x10#8 0 0 0
  | .readByte cmd => pack 0x11#8 cmd 0 0
  | .readWord cmd => pack 0x12#8 cmd 0 0
  | .readBlock cmd maxLen => pack 0x13#8 cmd 0 maxLen
  | .writeByte cmd value => pack 0x14#8 cmd (byteArg value) 0
  | .writeWord cmd value => pack 0x15#8 cmd value 0
  | .writeBlock cmd len => pack 0x16#8 cmd 0 len
  | .checkSupport cmd => pack 0x20#8 cmd 0 0
  | .fetchCoefficients cmd direction => pack 0x21#8 cmd direction 0
  | .getSlot cmd => pack 0x22#8 cmd 0 0
  | .getCoef cmd direction => pack 0x23#8 cmd direction 0
  | .classify cmd => pack 0x30#8 cmd 0 0
  | .decodeValue cmd raw => pack 0x31#8 cmd raw 0
  | .decodeLinear11 raw => pack 0x32#8 0 raw 0
  | .decodeDirect cmd raw => pack 0x33#8 cmd raw 0
  | .decodeVout raw => pack 0x34#8 0 raw 0
  | .decodeBitmap raw => pack 0x35#8 0 raw 0

/-- The operation the decoder reads from the table's numbering of a request's bits: one 64-bit word, bit 0 its least
significant bit; bits above `nbits` are zero. A request is one 64-bit word (R77, R78), so a wider one is none. -/
def decodeTableWord (nbits w : Nat) : Option Instr :=
  if nbits ≤ 64 then
    match decode (BitVec.ofNat 64 (w % 2 ^ nbits)) with
    | .ok i => some i
    | .error _ => none
  else none

end Sys2Proof
end

