-- ==== Sys2Proof/Machine/State.lean ====
section
/-! DEFINITION. The state of the block (10_state.md), the reasons a step can stop, and the state after power-on reset
(70_reset_and_hazards.md R280). -/

namespace Sys2Proof.Machine

/-- `SESSION_STATE` (R21), in the order of its codes 0 to 4; codes 5 to 7 are never written. -/
inductive SessionState where
  | unopened | attached | scanned | reporting | closed
  deriving DecidableEq, Repr

/-- `SLOT[c]` (R30), in the order of its codes 0 to 2; code 3 is never written. -/
inductive Slot where
  | notProbed | unsupported | resolved
  deriving DecidableEq, Repr

/-- `STATUS` (60_exceptions.md R250), in the order of its codes 0 to 8. -/
inductive Status where
  | ok | transportError | protocolViolation | unsupported | notImplemented | invalidArgument | sizeExceeded
  | illegalOp | illegalState
  deriving DecidableEq, Repr

/-- `CAUSE` (R252), in the order of its codes 0 to 8. -/
inductive Cause where
  | noCause | nakAddr | nakData | timeout | arbLost | busError | pecMismatch | noCapability | adapterOther
  deriving DecidableEq, Repr

/-- `VALUE_KIND` (10_state.md R39), in the order of its codes 0 to 3. -/
inductive ValueKind where
  | raw | real | uint | bits
  deriving DecidableEq, Repr

/-- `VALUE` (R39): a 64-bit word, or the exact rational of a REAL value under `NUM = EXACT`. -/
inductive Value where
  | word (w : BitVec 64)
  | rational (q : ℚ)
  deriving DecidableEq, Repr

/-- One coefficient set `COEF[c][d]` (R33): `R` read as signed 8 bits, `M` and `B` as signed 16 bits, and the validity
flag `V`. -/
structure CoefSet where
  r : Byte
  m : Word16
  b : Word16
  v : Bool
  deriving DecidableEq, Repr

/-- A cleared coefficient set (R280). -/
def CoefSet.cleared : CoefSet := { r := 0#8, m := 0#16, b := 0#16, v := false }

/-- A direction of a coefficient set (R33): write = 0, read = 1. -/
inductive Direction where
  | write | read
  deriving DecidableEq, Repr

/-- Both coefficient sets of one code. -/
structure CoefPair where
  write : CoefSet
  read  : CoefSet
  deriving DecidableEq, Repr

/-- `DATA` (R37): the bytes the host or the block has written, as (index, byte) pairs with strictly rising indexes below
`DATA_SIZE`. An index that is not listed has no value of its own: reading it is a free draw. -/
abbrev Memory := List Host.Cell

/-- One bus transaction the TU is asked for, with its arguments (40_transport.md R100). -/
inductive BusReq where
  | quick
  | readByte (c : Byte) (pec : Bool)
  | readWord (c : Byte) (pec : Bool)
  | writeByte (c : Byte) (v : Byte) (pec : Bool)
  | writeWord (c : Byte) (v : Word16) (pec : Bool)
  | processCall (c : Byte) (v : Word16) (pec : Bool)
  | blockRead (c : Byte) (pec : Bool)
  | blockWrite (c : Byte) (bytes : List Byte) (pec : Bool)
  | blockProcessCall (c : Byte) (bytes : List Byte) (pec : Bool)
  | raw (bytes : List Byte) (count : Nat)
  deriving DecidableEq, Repr

/-- How a transaction ended on the bus: not completed, with the oracle's cause, or completed, with the device-driven
bytes before the PEC byte (a count byte included) and the PEC byte on the wire, if the frame had one. -/
inductive BusEnd where
  | failed (k : OracleCause)
  | completed (device : List Byte) (pec : Option Byte)
  deriving DecidableEq, Repr

/-- One transaction as it was put on the bus, to the 7-bit address of the session. -/
structure Transaction where
  addr : BitVec 7
  req  : BusReq
  ended : BusEnd
  deriving DecidableEq, Repr

/-- One action of the host (10_state.md R45): it writes one byte of `DATA`, or a request word to `REQ`. -/
inductive HostAction where
  | writeData (index : Nat) (value : Byte)
  | request (w : Request)
  deriving DecidableEq, Repr

/-- The state of one block instance with its parameters and the two other agents' sides of its interfaces. -/
structure State where
  /-- The parameters of the instance (R46: not architectural state; no step writes them; log 1). -/
  params : Params
  /-- `SESSION_STATE` (R21). -/
  sessionState : SessionState
  /-- `ADDR` (R22). -/
  addr : BitVec 7
  /-- `PEC_REQ` (R23). -/
  pecReq : Bool
  /-- `PEC_EN` (R25). -/
  pecEn : Bool
  /-- `NO_QUERY` (R26). -/
  noQuery : Bool
  /-- `CAP_BYTE` (R27). -/
  capByte : Byte
  /-- `CAP_VALID` (R27). -/
  capValid : Bool
  /-- `REV_BYTE` (R28). -/
  revByte : Byte
  /-- `REV_VALID` (R28). -/
  revValid : Bool
  /-- `VOUT_MODE_VALID` (R29). -/
  voutModeValid : Bool
  /-- `SLOT[0..255]` (R30). -/
  slot : Vector Slot 256
  /-- `QBYTE[0..255]` (R32). -/
  qbyte : Vector Byte 256
  /-- `COEF[0..255][0..1]` (R33). -/
  coef : Vector CoefPair 256
  /-- `REQ` (R36): the request word the host has written and the block has not consumed. -/
  req : Option Request
  /-- `DATA[0..DATA_SIZE-1]` (R37). -/
  data : Memory
  /-- `STATUS` (R38). -/
  status : Status
  /-- `CAUSE` (R38). -/
  cause : Cause
  /-- `RESULT` (R39). -/
  result : Word16
  /-- `RLEN` (R39). -/
  rlen : BitVec 9
  /-- `VALUE_KIND` (R39). -/
  valueKind : ValueKind
  /-- `VALUE` (R39). -/
  value : Value
  /-- `PEC_SAVED`, hidden (R41). -/
  pecSaved : Bool
  /-- The TU's CRC accumulator, hidden (R43; log 8). -/
  crcAcc : Byte
  /-- The model's own: the bus answers the environment has fixed, next one first (log 3). -/
  answers : List BusAnswer
  /-- The model's own: how many free draws have been made (log 3). -/
  draws : Nat
  /-- The model's own: the transactions put on the bus, oldest first (log 13). -/
  busLog : List Transaction
  /-- The model's own: the coming actions of the host, next one first (log 5). -/
  host : List HostAction
  deriving DecidableEq, Repr

/-- Why the machine stops in a step. -/
inductive Fault where
  /-- The adapter never answers a bus transaction, so the operation never completes (40_transport.md R109,
  70_reset_and_hazards.md R293, 93_implementation_defined.md I2: "stuck"). Raised by the transaction unit. Safe: the
  hardware does not go on either. -/
  | busNeverAnswers
  /-- The host's next action is a write of `DATA` at an index `DATA` does not have (10_state.md R37, 00_scope.md R10). Raised
  where the host acts, never by an operation. Safe: the spec gives such a write no effect (log 21). -/
  | noSuchDataByte
  deriving DecidableEq, Repr

/-- Why an instruction or an instance is given no meaning. -/
inductive Refusal where
  /-- An instruction whose arm of `exec` has no meaning yet. Raised by `exec` alone; safe. -/
  | notModelled (mnemonic : String)
  /-- A catalog with two entries of one code is refused as a parameter (00_scope.md R12, I7). Raised by `powerOn`, where
  an instance is made; safe: the spec gives such a block no behaviour. -/
  | duplicateCatalogCode
  /-- Command codes that are not distinct core codes are refused as parameters (R10, D10). Raised by `powerOn`; safe. -/
  | badCommandCodes
  /-- A `DATA` smaller than the lengths the block operations admit (R10, 20_memory.md R54). Raised by `powerOn`; safe: the
  spec gives such a block no behaviour (log 21). -/
  | dataTooSmall
  deriving DecidableEq, Repr

/-- The discovered table with every slot NotProbed and everything else cleared has these three parts (R280). -/
def emptySlots : Vector Slot 256 := Vector.replicate 256 .notProbed

/-- Every query byte 0x00 (R280). -/
def emptyQbytes : Vector Byte 256 := Vector.replicate 256 0#8

/-- Every coefficient set cleared (R280). -/
def emptyCoefs : Vector CoefPair 256 := Vector.replicate 256 { write := .cleared, read := .cleared }

/-- A block instance with parameters `p` right after power-on reset (R280), nothing placed by the host and no bus answer
fixed. `pecSaved` and `crcAcc` have no reset value in the spec (DESIGN CHOICE, log 8, log 9). -/
def State.boot (p : Params) : State where
  params := p
  sessionState := .unopened
  addr := 0#7
  pecReq := false
  pecEn := false
  noQuery := false
  capByte := 0#8
  capValid := false
  revByte := 0#8
  revValid := false
  voutModeValid := false
  slot := emptySlots
  qbyte := emptyQbytes
  coef := emptyCoefs
  req := none
  data := []
  status := .ok
  cause := .noCause
  result := 0#16
  rlen := 0#9
  valueKind := .raw
  value := .word 0#64
  pecSaved := false
  crcAcc := 0#8
  answers := []
  draws := 0
  busLog := []
  host := []

/-- The machine right after power-on reset, with the parameters of `Config.params` (R280). -/
def State.reset : State := State.boot Config.params

end Sys2Proof.Machine
end

