-- ==== Sys2Proof/Machine/Ops.lean ====
section
/-! DEFINITION. The named operations over `DATA`, the discovered table and the status registers: the shared end of an
operation (60_exceptions.md R254, R259), which is all this block has of an exception, and the plumbing of a meaning. -/

namespace Sys2Proof.Machine

/-! ## The data buffer (10_state.md R37) -/

/-- The byte written at index `i`, if one has been. -/
def Memory.read? : Memory → Nat → Option Byte
  | [], _ => none
  | (j, b) :: rest, i => if j = i then some b else Memory.read? rest i

/-- Write one byte: the entry of index `i` is made or replaced, the order of indexes kept. -/
def Memory.write : Memory → Nat → Byte → Memory
  | [], i, b => [(i, b)]
  | (j, c) :: rest, i, b =>
    if i < j then (i, b) :: (j, c) :: rest
    else if i = j then (i, b) :: rest
    else (j, c) :: Memory.write rest i b

/-- `MemWrite(i, n, bs)` (00_scope.md R14): the bytes of `bs` at `i`, `i+1`, … -/
def Memory.writeFrom : Memory → Nat → List Byte → Memory
  | m, _, [] => m
  | m, i, b :: bs => Memory.writeFrom (Memory.write m i b) (i + 1) bs

/-- The canonical form of a buffer of `size` bytes: indexes strictly rising, all below `size` (20_memory.md R54). -/
def Memory.wf (size : Nat) : Memory → Bool
  | [] => true
  | [(i, _)] => i < size
  | (i, _) :: (j, b) :: rest => i < j && Memory.wf size ((j, b) :: rest)

/-- What an operation finds at index `i`: the byte written there, or a free draw (R37, I3; log 10). -/
def dataByte (s : State) (i : Nat) : Byte :=
  (Memory.read? s.data i).getD (Config.unwrittenByte s.draws i)

/-- `MemRead(0, n)`: the first `n` bytes of `DATA`, as an operation reads them. -/
def dataBytes (s : State) (n : Nat) : List Byte := (List.range n).map (dataByte s)

/-- The state after an operation has read `DATA`: the next draw of unwritten bytes is another one (log 10). -/
def afterDataRead (s : State) : State := { s with draws := s.draws + 1 }

/-- The state after `bs` has been written to the start of `DATA`. -/
def storeData (bs : List Byte) (s : State) : State := { s with data := Memory.writeFrom s.data 0 bs }

/-! ## The discovered table (R30, R32, R33) -/

/-- `SLOT[c]`. -/
def slotAt (s : State) (c : Byte) : Slot := s.slot[c.toNat]'c.isLt

/-- `QBYTE[c]`. -/
def qbyteAt (s : State) (c : Byte) : Byte := s.qbyte[c.toNat]'c.isLt

/-- The pair `COEF[c][0]`, `COEF[c][1]`. -/
def coefPairAt (s : State) (c : Byte) : CoefPair := s.coef[c.toNat]'c.isLt

/-- One set of a pair. -/
def CoefPair.get (p : CoefPair) : Direction → CoefSet
  | .write => p.write
  | .read => p.read

/-- A pair with one set replaced. -/
def CoefPair.set (p : CoefPair) (d : Direction) (k : CoefSet) : CoefPair :=
  match d with
  | .write => { p with write := k }
  | .read => { p with read := k }

/-- `COEF[c][d]`. -/
def coefAt (s : State) (c : Byte) (d : Direction) : CoefSet := (coefPairAt s c).get d

/-- `SLOT[c] <- x`. -/
def setSlot (c : Byte) (x : Slot) (s : State) : State := { s with slot := s.slot.set c.toNat x c.isLt }

/-- `QBYTE[c] <- q`. -/
def setQbyte (c : Byte) (q : Byte) (s : State) : State := { s with qbyte := s.qbyte.set c.toNat q c.isLt }

/-- `COEF[c][d] <- k`, all four fields together. -/
def setCoef (c : Byte) (d : Direction) (k : CoefSet) (s : State) : State :=
  { s with coef := s.coef.set c.toNat ((coefPairAt s c).set d k) c.isLt }

/-! ## The end of an operation (R254) -/

/-- Why a bus transaction failed, as an operation sees it (R252): the oracle's cause, a PEC byte that differs
(40_transport.md R106) or a primitive the adapter lacks (R101). -/
inductive FailCause where
  | oracle (k : OracleCause)
  | pecMismatch
  | noCapability
  deriving DecidableEq, Repr

/-- How an operation ends: the status it raises or finishes with. Only a transport error has a cause (R254). -/
inductive Exit where
  | ok
  | transportError (k : FailCause)
  | protocolViolation
  | unsupported
  | notImplemented
  | invalidArgument
  | sizeExceeded
  | illegalOp
  | illegalState
  deriving DecidableEq, Repr

/-- The `CAUSE` register's value for a failure (R252). -/
def failCauseValue : FailCause → Cause
  | .oracle .nakAddr => .nakAddr
  | .oracle .nakData => .nakData
  | .oracle .timeout => .timeout
  | .oracle .arbLost => .arbLost
  | .oracle .busError => .busError
  | .oracle .adapterOther => .adapterOther
  | .pecMismatch => .pecMismatch
  | .noCapability => .noCapability

/-- The `STATUS` register's value for an end (R250). -/
def exitStatus : Exit → Status
  | .ok => .ok
  | .transportError _ => .transportError
  | .protocolViolation => .protocolViolation
  | .unsupported => .unsupported
  | .notImplemented => .notImplemented
  | .invalidArgument => .invalidArgument
  | .sizeExceeded => .sizeExceeded
  | .illegalOp => .illegalOp
  | .illegalState => .illegalState

/-- The `CAUSE` register's value for an end: NONE unless it is a transport error (R254). -/
def exitCause : Exit → Cause
  | .ok => .noCause
  | .transportError k => failCauseValue k
  | .protocolViolation => .noCause
  | .unsupported => .noCause
  | .notImplemented => .noCause
  | .invalidArgument => .noCause
  | .sizeExceeded => .noCause
  | .illegalOp => .noCause
  | .illegalState => .noCause

/-- `raise` and `finish` (00_scope.md R15, R254): the operation ends, `STATUS` and `CAUSE` are written and nothing else;
control goes back to the host, whose next request is the return (R259). -/
def endOperation (e : Exit) (s : State) : State := { s with status := exitStatus e, cause := exitCause e }

/-! ## Plumbing of a meaning -/

/-- What a meaning answers. -/
abbrev StepOutcome := Host.Outcome State Fault Refusal

/-- An internal form (40_transport.md R118): a value and the state after it, or the fault of a transaction that is never
answered. -/
abbrev Internal (α : Type) := Except Fault (α × State)

/-- The operation ends with `e` in state `s`. -/
def done (e : Exit) (s : State) : StepOutcome := .next (endOperation e s)

/-- Go on with an internal form's value inside another internal form. -/
def Internal.andThen {α β : Type} (x : Internal α) (k : α → State → Internal β) : Internal β :=
  match x with
  | .error f => .error f
  | .ok (a, s) => k a s

/-- Go on with an internal form's value in a meaning. -/
def Internal.conclude {α : Type} (x : Internal α) (k : α → State → StepOutcome) : StepOutcome :=
  match x with
  | .error f => .fault f
  | .ok (a, s) => k a s

/-- The session-state check of R255 (2): the body runs in the states `allowed` gives, and in the others the operation
ends with ILLEGAL_STATE. -/
def whenAllowed (allowed : SessionState → Bool) (s : State) (body : StepOutcome) : StepOutcome :=
  if allowed s.sessionState then body else done .illegalState s

/-- Allowed in every session state (44_session.md R232). -/
def inEveryState : SessionState → Bool
  | .unopened => true
  | .attached => true
  | .scanned => true
  | .reporting => true
  | .closed => true

/-- Allowed while a session is open: Attached, Scanned and Reporting (R232). -/
def inOpenSession : SessionState → Bool
  | .unopened => false
  | .attached => true
  | .scanned => true
  | .reporting => true
  | .closed => false

/-- Allowed where no session is open: Unopened and Closed (R232, OPEN). -/
def whereNoSession : SessionState → Bool
  | .unopened => true
  | .attached => false
  | .scanned => false
  | .reporting => false
  | .closed => true

/-- Allowed in Attached only (R232, SCAN). -/
def inAttached : SessionState → Bool
  | .unopened => false
  | .attached => true
  | .scanned => false
  | .reporting => false
  | .closed => false

/-- Allowed in Scanned only (R232, PAGE_SELECT and REPORT). -/
def inScanned : SessionState → Bool
  | .unopened => false
  | .attached => false
  | .scanned => true
  | .reporting => false
  | .closed => false

/-- An illegal request word (30_encoding.md R73): nothing but `STATUS` and `CAUSE` changes. -/
def illegalRequest (s : State) : State := endOperation .illegalOp s

end Sys2Proof.Machine
end

