-- ==== Sys2Proof/Machine/Operands.lean ====
section
/-! DEFINITION. The operand forms: command codes, directions, lengths and addresses (30_encoding.md R74, 20_memory.md
R52, R55), and the operand checks of 60_exceptions.md R255. -/

namespace Sys2Proof.Machine

/-- An extended command code: anything above 0x00FD (20_memory.md R55). -/
def isExtended (cmd : Word16) : Bool := 0x00FD < cmd.toNat

/-- `c8 = cmd[7:0]`, used only once the code is known to be core (30_encoding.md R74). -/
def c8 (cmd : Word16) : Byte := cmd.extractLsb' 0 8

/-- A byte as a 16-bit command operand: what CHECK_SUPPORT of one of the block's own codes is asked with. -/
def cmdOf (c : Byte) : Word16 := c.setWidth 16

/-- The direction operand, the whole `ARG` field: write = 0, read = 1, anything else none (42_coefficients.md R160). -/
def directionOf (arg : Word16) : Option Direction :=
  match arg.toNat with
  | 0 => some .write
  | 1 => some .read
  | _ => none

/-- The direction's byte in a coefficient request (30_encoding.md R92). -/
def directionByte : Direction → Byte
  | .write => 0x00#8
  | .read => 0x01#8

/-- A length operand outside 1 to 255 (40_transport.md R113, R117). -/
def badLength (n : Nat) : Bool := n = 0 || 255 < n

/-- The reserved addresses of 20_memory.md R52: 0x00 to 0x08, 0x0C, 0x28, 0x37, 0x61, 0x78 to 0x7F. -/
def isReservedAddress (a : BitVec 7) : Bool :=
  a.toNat ≤ 0x08 || a.toNat = 0x0C || a.toNat = 0x28 || a.toNat = 0x37 || a.toNat = 0x61
    || (0x78 ≤ a.toNat && a.toNat ≤ 0x7F)

/-- The body runs for a core command; an extended one ends with NOT_IMPLEMENTED (R255 (4)). -/
def whenCore (cmd : Word16) (s : State) (body : StepOutcome) : StepOutcome :=
  if isExtended cmd then done .notImplemented s else body

/-- The body runs for a length of 1 to 255; another one ends with INVALID_ARGUMENT (R255 (3)). -/
def whenLength (n : Nat) (s : State) (body : StepOutcome) : StepOutcome :=
  if badLength n then done .invalidArgument s else body

/-- The body runs for direction 0 or 1; another one ends with INVALID_ARGUMENT (R255 (3)). -/
def whenDirection (arg : Word16) (s : State) (body : Direction → StepOutcome) : StepOutcome :=
  match directionOf arg with
  | none => done .invalidArgument s
  | some d => body d

/-- `{hi, lo}` (20_memory.md R58: the low byte travels first). -/
def wordOf (lo hi : Byte) : Word16 := hi ++ lo

/-- `v[7:0]`. -/
def loByte (v : Word16) : Byte := v.extractLsb' 0 8

/-- `v[15:8]`. -/
def hiByte (v : Word16) : Byte := v.extractLsb' 8 8

end Sys2Proof.Machine
end

