-- ==== Sys2Proof/Machine/Flags.lean ====
section
/-! DEFINITION. The numeric codes of the enumerated registers and results (30_encoding.md R95, R98, 60_exceptions.md
R250, R252), the fields of the query, CAPABILITY and VOUT_MODE bytes (R90, R93, R99), the adapter capability bits
(10_state.md R24), and the flags the block computes from them. -/

namespace Sys2Proof.Machine

/-! ## Codes the host reads -/

/-- `SESSION_STATE` codes (10_state.md R21). -/
def sessionCode : SessionState → BitVec 3
  | .unopened => 0#3
  | .attached => 1#3
  | .scanned => 2#3
  | .reporting => 3#3
  | .closed => 4#3

/-- `SLOT` codes (R30, R98). -/
def slotCode : Slot → BitVec 2
  | .notProbed => 0#2
  | .unsupported => 1#2
  | .resolved => 2#2

/-- `STATUS` codes (R250). -/
def statusCode : Status → BitVec 4
  | .ok => 0#4
  | .transportError => 1#4
  | .protocolViolation => 2#4
  | .unsupported => 3#4
  | .notImplemented => 4#4
  | .invalidArgument => 5#4
  | .sizeExceeded => 6#4
  | .illegalOp => 7#4
  | .illegalState => 8#4

/-- `CAUSE` codes (R252). -/
def causeCode : Cause → BitVec 4
  | .noCause => 0#4
  | .nakAddr => 1#4
  | .nakData => 2#4
  | .timeout => 3#4
  | .arbLost => 4#4
  | .busError => 5#4
  | .pecMismatch => 6#4
  | .noCapability => 7#4
  | .adapterOther => 8#4

/-- `VALUE_KIND` codes (R98). -/
def valueKindCode : ValueKind → BitVec 2
  | .raw => 0#2
  | .real => 1#2
  | .uint => 2#2
  | .bits => 3#2

/-- The verdict of CHECK_SUPPORT (41_query.md R140). -/
inductive Verdict where
  | supported | unsupported | unknown
  deriving DecidableEq, Repr

/-- Verdict codes in `RESULT` (R98). -/
def verdictCode : Verdict → Word16
  | .supported => 0#16
  | .unsupported => 1#16
  | .unknown => 2#16

/-- The value classes (43_codec.md R184). -/
inductive ValueClass where
  | bitmap | voutRelative | linearFloat | unsignedInt16 | directFloat | unsignedInt8 | vidCode
  | manufacturerSpecific | unknown
  deriving DecidableEq, Repr

/-- Value class codes in `RESULT` (R98). -/
def classCode : ValueClass → Word16
  | .bitmap => 0#16
  | .voutRelative => 1#16
  | .linearFloat => 2#16
  | .unsignedInt16 => 3#16
  | .directFloat => 4#16
  | .unsignedInt8 => 5#16
  | .vidCode => 6#16
  | .manufacturerSpecific => 7#16
  | .unknown => 8#16

/-- Shape codes of a catalog entry (R95). -/
def shapeCode : Shape → BitVec 3
  | .noData => 0#3
  | .byte => 1#3
  | .word => 2#3
  | .variableBlock => 3#3
  | .fixed14Block => 4#3
  | .processCallQuery => 5#3
  | .processCallCoefficients => 6#3
  | .profileBlock => 7#3

/-- Unit codes of a catalog entry (R95). -/
def unitCode : Units → BitVec 3
  | .volts => 0#3
  | .amperes => 1#3
  | .milliseconds => 2#3
  | .degreesC => 3#3
  | .watts => 4#3
  | .bits => 5#3
  | .string => 6#3
  | .none => 7#3

/-! ## Adapter capabilities (R24) -/

/-- `CAPS.QUICK`. -/
def capQuick (p : Params) : Bool := p.caps.getLsbD 0
/-- `CAPS.BYTE`. -/
def capByteBit (p : Params) : Bool := p.caps.getLsbD 1
/-- `CAPS.WORD`. -/
def capWord (p : Params) : Bool := p.caps.getLsbD 2
/-- `CAPS.BLOCK_READ`. -/
def capBlockRead (p : Params) : Bool := p.caps.getLsbD 3
/-- `CAPS.BLOCK_WRITE`. -/
def capBlockWrite (p : Params) : Bool := p.caps.getLsbD 4
/-- `CAPS.BLOCK_PROC_CALL`. -/
def capBlockProcCall (p : Params) : Bool := p.caps.getLsbD 5
/-- `CAPS.RAW`. -/
def capRaw (p : Params) : Bool := p.caps.getLsbD 6
/-- `CAPS.PEC`. -/
def capPec (p : Params) : Bool := p.caps.getLsbD 7

/-! ## Fields of the device's bytes -/

/-- Query byte bit 7, SUPPORTED (R90). -/
def qSupported (q : Byte) : Bool := q.getLsbD 7
/-- Query byte bit 6, WRITABLE. -/
def qWritable (q : Byte) : Bool := q.getLsbD 6
/-- Query byte bit 5, READABLE. -/
def qReadable (q : Byte) : Bool := q.getLsbD 5
/-- Query byte bits 4:2, FORMAT (R96). -/
def qFormat (q : Byte) : BitVec 3 := q.extractLsb' 2 3

/-- VOUT_MODE bits 7:5, the mode (R93). -/
def voutModeField (u : Byte) : BitVec 3 := u.extractLsb' 5 3
/-- VOUT_MODE bits 4:0 read as signed, the exponent (R93). -/
def voutExponent (u : Byte) : Int := (u.extractLsb' 0 5).toInt

/-- The device's CAPABILITY byte advertises PEC (R99). -/
def advertisesPec (p : Params) (u : Byte) : Bool := u.getLsbD p.capPecBit.val

/-- SCAN step (c)'s condition: adapter, device and operator all ask for PEC (44_session.md R225). -/
def pecAgreed (s : State) (u : Byte) : Bool := capPec s.params && advertisesPec s.params u && s.pecReq

/-- "VOUT_MODE indicates linear encoding" (43_codec.md R183). -/
def voutLinear (s : State) : Bool :=
  slotAt s s.params.codes.voutMode = .resolved && s.voutModeValid
    && voutModeField (coefAt s s.params.codes.voutMode .read).r = s.params.voutLinearMode

/-- The packed session view of GET_SESSION's `RESULT` (R230). -/
def sessionView (s : State) : Word16 :=
  0b0000000#7 ++ BitVec.ofBool s.pecReq ++ BitVec.ofBool s.voutModeValid ++ BitVec.ofBool s.revValid
    ++ BitVec.ofBool s.capValid ++ BitVec.ofBool s.noQuery ++ BitVec.ofBool s.pecEn ++ sessionCode s.sessionState

/-- The packed identity view of GET_SESSION's `VALUE` (R230). -/
def identityView (s : State) : BitVec 64 := (s.addr ++ s.revByte ++ s.capByte).setWidth 64

/-- The packed slot view of GET_SLOT (42_coefficients.md R166). -/
def slotView (s : State) (c : Byte) : Word16 := qbyteAt s c ++ 0b000000#6 ++ slotCode (slotAt s c)

/-- The packed coefficient view of GET_COEF (R167). -/
def coefView (k : CoefSet) : BitVec 64 := (BitVec.ofBool k.v ++ k.r ++ k.b ++ k.m).setWidth 64

end Sys2Proof.Machine
end

