-- ==== Sys2Proof/Machine/Bus.lean ====
section
/-! DEFINITION. The transaction unit (40_transport.md R100 to R109): the wire frames (30_encoding.md R79 to R89), the PEC
(R103 to R106), the capability gate and one oracle answer per transaction. -/

namespace Sys2Proof.Machine

/-! ## PEC -/

/-- One step of the CRC's bit loop (R103): shift left, and XOR 0x07 where bit 7 was set. -/
def crcShift (c : Byte) : Byte := if c.getLsbD 7 then (c <<< 1) ^^^ 0x07#8 else c <<< 1

/-- One byte into the accumulator (R103). -/
def crcByte (c x : Byte) : Byte :=
  crcShift (crcShift (crcShift (crcShift (crcShift (crcShift (crcShift (crcShift (c ^^^ x))))))))

/-- The PEC of a byte list in wire order (R103), from initial value 0x00. -/
def crc8 (bytes : List Byte) : Byte := bytes.foldl crcByte 0x00#8

/-! ## Frames -/

/-- `A_W` (R80). -/
def addrWrite (a : BitVec 7) : Byte := a ++ 0b0#1
/-- `A_R` (R80). -/
def addrRead (a : BitVec 7) : Byte := a ++ 0b1#1

/-- The `CAPS` bit a primitive requires (R100). -/
def permitted (p : Params) : BusReq → Bool
  | .quick => capQuick p
  | .readByte _ _ => capByteBit p
  | .readWord _ _ => capWord p
  | .writeByte _ _ _ => capByteBit p
  | .writeWord _ _ _ => capWord p
  | .processCall _ _ _ => capWord p
  | .blockRead _ _ => capBlockRead p
  | .blockWrite _ _ _ => capBlockWrite p
  | .blockProcessCall _ _ _ => capBlockProcCall p
  | .raw _ _ => capRaw p

/-- Whether the frame carries a PEC byte: its `pec` argument; QUICK and RAW never do (R104). -/
def carriesPec : BusReq → Bool
  | .quick => false
  | .readByte _ pec => pec
  | .readWord _ pec => pec
  | .writeByte _ _ pec => pec
  | .writeWord _ _ pec => pec
  | .processCall _ _ pec => pec
  | .blockRead _ pec => pec
  | .blockWrite _ _ pec => pec
  | .blockProcessCall _ _ pec => pec
  | .raw _ _ => false

/-- The bytes the block drives after `A_W` (R81 to R88); words low byte first (R58). -/
def outBytes : BusReq → List Byte
  | .quick => []
  | .readByte c _ => [c]
  | .readWord c _ => [c]
  | .writeByte c v _ => [c, v]
  | .writeWord c v _ => [c, loByte v, hiByte v]
  | .processCall c v _ => [c, loByte v, hiByte v]
  | .blockRead c _ => [c]
  | .blockWrite c bytes _ => c :: BitVec.ofNat 8 bytes.length :: bytes
  | .blockProcessCall c bytes _ => c :: BitVec.ofNat 8 bytes.length :: bytes
  | .raw bytes _ => bytes

/-- Whether the frame has a repeated start and device-driven bytes (R81 to R88). -/
def hasReply : BusReq → Bool
  | .quick => false
  | .readByte _ _ => true
  | .readWord _ _ => true
  | .writeByte _ _ _ => false
  | .writeWord _ _ _ => false
  | .processCall _ _ _ => true
  | .blockRead _ _ => true
  | .blockWrite _ _ _ => false
  | .blockProcessCall _ _ _ => true
  | .raw _ count => 0 < count

/-- Whether the first device byte is a count (R85, R87). -/
def hasCount : BusReq → Bool
  | .quick => false
  | .readByte _ _ => false
  | .readWord _ _ => false
  | .writeByte _ _ _ => false
  | .writeWord _ _ _ => false
  | .processCall _ _ _ => false
  | .blockRead _ _ => true
  | .blockWrite _ _ _ => false
  | .blockProcessCall _ _ _ => true
  | .raw _ _ => false

/-- The first `n` of an answer's bytes, 0x00 where the answer has none (log 4). -/
def takeBytes : Nat → List Byte → List Byte
  | 0, _ => []
  | n + 1, bs => bs.headD 0x00#8 :: takeBytes n bs.tail

/-- The device's count byte exceeds `BLOCK_LIMIT` (R107). -/
def overLimit (limit : Nat) (r : BusReq) (bytes : List Byte) : Bool :=
  hasCount r && limit < (bytes.headD 0x00#8).toNat

/-- How many device-driven bytes stand before the PEC byte (R102, R107). -/
def deviceCount (limit : Nat) (r : BusReq) (bytes : List Byte) : Nat :=
  match r with
  | .quick => 0
  | .readByte _ _ => 1
  | .readWord _ _ => 2
  | .writeByte _ _ _ => 0
  | .writeWord _ _ _ => 0
  | .processCall _ _ _ => 2
  | .blockRead _ _ => if overLimit limit r bytes then 1 else 1 + (bytes.headD 0x00#8).toNat
  | .blockWrite _ _ _ => 0
  | .blockProcessCall _ _ _ => if overLimit limit r bytes then 1 else 1 + (bytes.headD 0x00#8).toNat
  | .raw _ count => count

/-- The device-driven bytes of a completed frame before its PEC byte, the count byte included. -/
def deviceBytes (limit : Nat) (r : BusReq) (bytes : List Byte) : List Byte :=
  takeBytes (deviceCount limit r bytes) bytes

/-- The bytes the PEC covers (R89): every byte of the frame before it, in wire order. -/
def coveredBytes (a : BitVec 7) (r : BusReq) (device : List Byte) : List Byte :=
  addrWrite a :: (outBytes r ++ if hasReply r then addrRead a :: device else [])

/-- The PEC byte on the wire of a completed frame: none where the frame carries none or ends after its count byte
(R104, R107); the block's own where it only writes (R105); the device's after its last byte otherwise (R102). -/
def pecOnWire (limit : Nat) (a : BitVec 7) (r : BusReq) (bytes : List Byte) : Option Byte :=
  if !carriesPec r || overLimit limit r bytes then none
  else if hasReply r then some ((takeBytes (deviceCount limit r bytes + 1) bytes).getLastD 0x00#8)
  else some (crc8 (coveredBytes a r []))

/-- One event on the wire (R79). -/
inductive WireEvent where
  | start | restart | stop
  /-- A byte the block drives. -/
  | m (x : Byte)
  /-- A byte the device drives. -/
  | s (x : Byte)
  deriving DecidableEq, Repr

/-- The frame of a completed transaction in the notation of R79 (R81 to R88); none for one that was not completed, since
the spec does not say how much of it was driven (R102; log 13). -/
def frameOf (t : Transaction) : Option (List WireEvent) :=
  match t.ended with
  | .failed _ => none
  | .completed device pec =>
    let out := WireEvent.start :: WireEvent.m (addrWrite t.addr) :: (outBytes t.req).map .m
    if hasReply t.req then
      some (out ++ WireEvent.restart :: WireEvent.m (addrRead t.addr) :: (device.map .s ++ (pec.toList.map .s ++ [.stop])))
    else some (out ++ (pec.toList.map .m ++ [.stop]))

/-! ## One transaction -/

/-- What a call of the TU yields (R100, R102, R107). -/
inductive Reply (α : Type) where
  | ok (a : α)
  | badCount
  | fail (k : FailCause)
  deriving DecidableEq, Repr

/-- The oracle's next answer: the one the state lists, or the free value of this draw (R9; log 3). -/
def nextAnswer (s : State) : BusAnswer :=
  match s.answers with
  | a :: _ => a
  | [] => Config.busAnswer s.draws

/-- The CRC accumulator after a transaction (R43, R103): it starts at 0x00 and runs over a frame that carries PEC; after
a frame that was not completed it is a free value (log 8). -/
def crcAfter (s : State) (r : BusReq) : BusEnd → Byte
  | .failed _ => Config.crcAfterFailure s.draws
  | .completed device _ => if carriesPec r then crc8 (coveredBytes s.addr r device) else 0x00#8

/-- The state after one transaction on the bus: its answer is consumed (R108), it stands in the log, and the accumulator
has run. Nothing else of the block changes. -/
def afterTransaction (r : BusReq) (e : BusEnd) (s : State) : State :=
  { s with
    answers := s.answers.tail
    draws := s.draws + 1
    busLog := s.busLog ++ [{ addr := s.addr, req := r, ended := e }]
    crcAcc := crcAfter s r e }

/-- How a frame the device completed with `bytes` ends on the wire. -/
def completedEnd (s : State) (r : BusReq) (bytes : List Byte) : BusEnd :=
  .completed (deviceBytes s.params.blockLimit r bytes) (pecOnWire s.params.blockLimit s.addr r bytes)

/-- The PEC check of R106: a frame with device-driven bytes and a PEC byte agrees when that byte is the CRC of all bytes
before it. -/
def pecAgrees (s : State) (r : BusReq) (bytes : List Byte) : Bool :=
  if hasReply r then
    match pecOnWire s.params.blockLimit s.addr r bytes with
    | none => true
    | some p => p == crc8 (coveredBytes s.addr r (deviceBytes s.params.blockLimit r bytes))
  else true

/-- The data an Ok delivers: the device's bytes without a count byte (R100). -/
def payload (r : BusReq) (device : List Byte) : List Byte := if hasCount r then device.tail else device

/-- What the TU delivers of a completed frame (R106, R107). -/
def deliver (s : State) (r : BusReq) (bytes : List Byte) : Reply (List Byte) :=
  if overLimit s.params.blockLimit r bytes then .badCount
  else if pecAgrees s r bytes then .ok (payload r (deviceBytes s.params.blockLimit r bytes))
  else .fail .pecMismatch

/-- `Bus(T, args)` (00_scope.md R15, R100): the gate of R101 with no bus activity, or exactly one frame and one oracle
answer (R108). -/
def transact (r : BusReq) (s : State) : Internal (Reply (List Byte)) :=
  if permitted s.params r then
    match nextAnswer s with
    | .never => .error .busNeverAnswers
    | .fail k => .ok (.fail (.oracle k), afterTransaction r (.failed k) s)
    | .complete bytes => .ok (deliver s r bytes, afterTransaction r (completedEnd s r bytes) s)
  else .ok (.fail .noCapability, s)

/-- A reply with its value changed. -/
def mapReply {α β : Type} (f : α → β) : Reply α → Reply β
  | .ok a => .ok (f a)
  | .badCount => .badCount
  | .fail k => .fail k

/-- The one byte of a byte answer. -/
def byteOfPayload (bs : List Byte) : Byte := bs.headD 0x00#8

/-- The word of a word answer, low byte first (R58, R82). -/
def wordOfPayload (bs : List Byte) : Word16 := wordOf (bs.headD 0x00#8) (bs.tail.headD 0x00#8)

/-- `Bus(T, args)` for a primitive that yields one byte or one word. -/
def transactAs {α : Type} (f : List Byte → α) (r : BusReq) (s : State) : Internal (Reply α) :=
  (transact r s).andThen fun reply s' => .ok (mapReply f reply, s')

/-- `Quick_core()` (R118). -/
def quickCore (s : State) : Internal (Reply Unit) := transactAs (fun _ => ()) .quick s

/-- `ReadByte_core(c8)` (R118): PEC as `PEC_EN` stands at the call (R104). -/
def readByteCore (c : Byte) (s : State) : Internal (Reply Byte) := transactAs byteOfPayload (.readByte c s.pecEn) s

/-- `WriteByte_core(c8, v8)` (R118). -/
def writeByteCore (c v : Byte) (s : State) : Internal (Reply Unit) :=
  transactAs (fun _ => ()) (.writeByte c v s.pecEn) s

/-- An operation's end on a reply that is not Ok: TRANSPORT_ERROR with its cause, or PROTOCOL_VIOLATION for a count above
the limit (R107); `body` goes on with an Ok value. -/
def onReply {α : Type} (reply : Reply α) (s : State) (body : α → StepOutcome) : StepOutcome :=
  match reply with
  | .ok a => body a
  | .badCount => done .protocolViolation s
  | .fail k => done (.transportError k) s

end Sys2Proof.Machine
end

