-- ==== Sys2Proof/Machine/Number.lean ====
section
/-! DEFINITION. The arithmetic domain `NUM` of the decoders (43_codec.md R180, R16): IEEE 754 binary64 with rounding to
nearest, ties to even, and exact rationals. -/

namespace Sys2Proof.Machine

/-- The operations the decoders use (00_scope.md R16). -/
structure Arithmetic (α : Type) where
  num   : Int → α
  mul2  : α → α
  div2  : α → α
  mul10 : α → α
  div10 : α → α
  sub   : α → α → α
  div   : α → α → α

/-- `repeat n times: x <- f(x)`. -/
def repeatTimes {α : Type} : Nat → (α → α) → α → α
  | 0, _, x => x
  | n + 1, f, x => repeatTimes n f (f x)

/-! ## Exact rationals -/

/-- `NUM = EXACT`: every operation is exact (R180). -/
def exactArithmetic : Arithmetic ℚ where
  num i := (i : ℚ)
  mul2 x := x * 2
  div2 x := x / 2
  mul10 x := x * 10
  div10 x := x / 10
  sub x y := x - y
  div x y := x / y

/-! ## Binary64 -/

/-- A binary64 value: finite `(-1)^neg * m * 2^e` with `m < 2^53` and `-1074 ≤ e ≤ 971`, an infinity, or a NaN. A finite
value is held with `m ≥ 2^52` unless `e = -1074`. -/
inductive B64 where
  | finite (neg : Bool) (m : Nat) (e : Int)
  | inf (neg : Bool)
  | nan
  deriving DecidableEq, Repr

/-- The fraction `m * 2^e` as numerator and denominator. -/
def fraction (m : Nat) (e : Int) : Nat × Nat :=
  if 0 ≤ e then (m * 2 ^ e.toNat, 1) else (m, 2 ^ (-e).toNat)

/-- `n / d` to the nearest integer, ties to even. -/
def nearestEven (n d : Nat) : Nat :=
  if 2 * (n % d) > d ∨ (2 * (n % d) = d ∧ (n / d) % 2 = 1) then n / d + 1 else n / d

/-- `floor(log2(n / d))` for positive `n` and `d`. -/
def floorLog2 (n d : Nat) : Int :=
  let k : Int := (Nat.log2 n : Int) - (Nat.log2 d : Int)
  if (if 0 ≤ k then d * 2 ^ k.toNat ≤ n else d ≤ n * 2 ^ (-k).toNat) then k else k - 1

/-- The exponent of the last significand bit of `n / d` in binary64: 53 significant bits, no exponent below -1074. -/
def lastBitExponent (n d : Nat) : Int := max (-1074) (floorLog2 n d - 52)

/-- The significand of `n / d` at last-bit exponent `e`, to nearest, ties to even. -/
def significandAt (n d : Nat) (e : Int) : Nat :=
  if 0 ≤ e then nearestEven n (d * 2 ^ e.toNat) else nearestEven (n * 2 ^ (-e).toNat) d

/-- A significand and exponent as a binary64 value: a significand rounded up to 2^53 moves to the next exponent, and a
value beyond the largest exponent is an infinity. -/
def packB64 (neg : Bool) (m : Nat) (e : Int) : B64 :=
  if m = 2 ^ 53 then
    if 971 < e + 1 then .inf neg else .finite neg (2 ^ 52) (e + 1)
  else if 971 < e then .inf neg
  else .finite neg m e

/-- `(-1)^neg * n / d` rounded to binary64, to nearest, ties to even (R180); zero keeps its sign. -/
def roundB64 (neg : Bool) (n d : Nat) : B64 :=
  if n = 0 then .finite neg 0 (-1074)
  else packB64 neg (significandAt n d (lastBitExponent n d)) (lastBitExponent n d)

/-- An integer converted to binary64. -/
def intToB64 (i : Int) : B64 := roundB64 (decide (i < 0)) i.natAbs 1

/-- The sign of a signed numerator. -/
def signed (neg : Bool) (n : Nat) : Int := if neg then -(n : Int) else (n : Int)

/-- Binary64 multiplication. -/
def mulB64 : B64 → B64 → B64
  | .finite sx mx ex, .finite sy my ey =>
    roundB64 (sx != sy) ((fraction mx ex).1 * (fraction my ey).1) ((fraction mx ex).2 * (fraction my ey).2)
  | .finite sx mx _, .inf sy => if mx = 0 then .nan else .inf (sx != sy)
  | .inf sx, .finite sy my _ => if my = 0 then .nan else .inf (sx != sy)
  | .inf sx, .inf sy => .inf (sx != sy)
  | .nan, _ => .nan
  | _, .nan => .nan

/-- Binary64 division. -/
def divB64 : B64 → B64 → B64
  | .finite sx mx ex, .finite sy my ey =>
    if my = 0 then
      if mx = 0 then .nan else .inf (sx != sy)
    else roundB64 (sx != sy) ((fraction mx ex).1 * (fraction my ey).2) ((fraction mx ex).2 * (fraction my ey).1)
  | .finite sx _ _, .inf sy => .finite (sx != sy) 0 (-1074)
  | .inf sx, .finite sy _ _ => .inf (sx != sy)
  | .inf _, .inf _ => .nan
  | .nan, _ => .nan
  | _, .nan => .nan

/-- Binary64 subtraction: an exact zero difference is +0, but for (-0) - (+0). -/
def subB64 : B64 → B64 → B64
  | .finite sx mx ex, .finite sy my ey =>
    let x := signed sx ((fraction mx ex).1 * (fraction my ey).2)
    let y := signed sy ((fraction my ey).1 * (fraction mx ex).2)
    if x = y then .finite (mx = 0 && my = 0 && sx && !sy) 0 (-1074)
    else roundB64 (decide (x < y)) (x - y).natAbs ((fraction mx ex).2 * (fraction my ey).2)
  | .finite _ _ _, .inf sy => .inf (!sy)
  | .inf sx, .finite _ _ _ => .inf sx
  | .inf sx, .inf sy => if sx = sy then .nan else .inf sx
  | .nan, _ => .nan
  | _, .nan => .nan

/-- `NUM = BINARY64`: each operation is one binary64 operation (R180). -/
def binary64Arithmetic : Arithmetic B64 where
  num := intToB64
  mul2 x := mulB64 x (intToB64 2)
  div2 x := divB64 x (intToB64 2)
  mul10 x := mulB64 x (intToB64 10)
  div10 x := divB64 x (intToB64 10)
  sub := subB64
  div := divB64

/-- The sign bit of a pattern, in place. -/
def signBit (neg : Bool) : Nat := if neg then 2 ^ 63 else 0

/-- The 64-bit pattern of a binary64 value (R180): sign, biased exponent, fraction. The pattern of a NaN is a free value
(log 11). -/
def patternOf : B64 → BitVec 64
  | .finite neg m e =>
    if m < 2 ^ 52 then BitVec.ofNat 64 (signBit neg + m)
    else BitVec.ofNat 64 (signBit neg + (e + 1075).toNat * 2 ^ 52 + (m - 2 ^ 52))
  | .inf neg => BitVec.ofNat 64 (signBit neg + 2047 * 2 ^ 52)
  | .nan => Config.nanPattern

/-- The exact value of a finite binary64 value. -/
def ratOf : B64 → Option ℚ
  | .finite neg m e => some (signed neg (fraction m e).1 / (fraction m e).2 : ℚ)
  | .inf _ => none
  | .nan => none

end Sys2Proof.Machine
end

