-- ==== Sys2Proof/Machine/Codec.lean ====
section
/-! DEFINITION. The value codec: classification and the decoders (43_codec.md R182 to R206). No operation here makes a
bus transaction (R204). -/

namespace Sys2Proof.Machine

/-! ## Classification -/

/-- The default entry of a code the catalog does not describe (R182): no unit, no flags. -/
def defaultEntry (cmd : Word16) : CatalogEntry :=
  { code := cmd, shape := .noData, unit := .none, flags := 0#3, tag := [] }

/-- `lookup(cmd)` (R182): a linear scan for the entry of that code. -/
def lookup (cmd : Word16) (es : List CatalogEntry) : CatalogEntry :=
  (es.find? fun e => e.code = cmd).getD (defaultEntry cmd)

/-- The class of a format code (R96, R184 rows 4 to 10). -/
def formatClass (f : BitVec 3) : ValueClass :=
  match f.toNat with
  | 0 => .linearFloat
  | 1 => .unsignedInt16
  | 3 => .directFloat
  | 4 => .unsignedInt8
  | 5 => .vidCode
  | 6 => .manufacturerSpecific
  | _ => .unknown

/-- `classify(cmd)` (R184): the first row that holds. -/
def classOf (cmd : Word16) (s : State) : ValueClass :=
  let e := lookup cmd s.params.catalog.entries
  if e.unit = .bits then .bitmap
  else if e.flags.getLsbD 2 && voutLinear s then .voutRelative
  else if slotAt s (c8 cmd) = .resolved then formatClass (qFormat (qbyteAt s (c8 cmd)))
  else .unknown

/-! ## Decoders, in either domain -/

/-- Scale by `2^e` by repeated doubling or halving (R187, R195). -/
def scaleByTwo {α : Type} (A : Arithmetic α) (e : Int) (x : α) : α :=
  if 0 < e then repeatTimes e.toNat A.mul2 x
  else if e < 0 then repeatTimes (-e).toNat A.div2 x
  else x

/-- Scale by `10^(-r)` by repeated division or multiplication by 10 (R192). -/
def scaleByTen {α : Type} (A : Arithmetic α) (r : Int) (x : α) : α :=
  if 0 < r then repeatTimes r.toNat A.div10 x
  else if r < 0 then repeatTimes (-r).toNat A.mul10 x
  else x

/-- LINEAR11 mantissa: bits 10:0, signed (R186). -/
def mantissa11 (w : Word16) : Int := (w.extractLsb' 0 11).toInt

/-- LINEAR11 exponent: bits 15:11, signed (R186). -/
def exponent5 (w : Word16) : Int := (w.extractLsb' 11 5).toInt

/-- `linear11(w)` (R187). -/
def linear11 {α : Type} (A : Arithmetic α) (w : Word16) : α := scaleByTwo A (exponent5 w) (A.num (mantissa11 w))

/-- `encode(N, Y) = {Y[4:0], N[10:0]}` (R189). -/
def encodeLinear11 (n y : Int) : Word16 := BitVec.ofInt 5 y ++ BitVec.ofInt 11 n

/-- `direct(raw, k)` (R192): scale first, then subtract b, then divide by m. -/
def direct {α : Type} (A : Arithmetic α) (raw : Word16) (k : CoefSet) : α :=
  A.div (A.sub (scaleByTen A k.r.toInt (A.num raw.toInt)) (A.num k.b.toInt)) (A.num k.m.toInt)

/-- `vout(raw)` for the VOUT_MODE byte `u` (R195): an unsigned mantissa scaled by the mode byte's exponent. -/
def voutValue {α : Type} (A : Arithmetic α) (u : Byte) (raw : Word16) : α :=
  scaleByTwo A (voutExponent u) (A.num (raw.toNat : Int))

/-- A REAL result in the instance's domain: a binary64 pattern or an exact rational (10_state.md R39, R180). -/
def realValue (p : Params) (f : ∀ {α : Type}, Arithmetic α → α) : Value :=
  match p.num with
  | .binary64 => .word (patternOf (f binary64Arithmetic))
  | .exact => .rational (f exactArithmetic)

/-- The value and its kind, as a decoder leaves them. -/
structure Decoded where
  value : Value
  kind  : ValueKind
  deriving DecidableEq, Repr

/-- The raw word as it is, with kind `k`. -/
def rawAs (k : ValueKind) (raw : Word16) : Decoded := { value := .word (raw.setWidth 64), kind := k }

/-- LINEAR11 as a REAL (R190). -/
def decodedLinear11 (p : Params) (raw : Word16) : Decoded :=
  { value := realValue p fun A => linear11 A raw, kind := .real }

/-- DIRECT with the read-direction coefficients of `c`; RAW where they are not valid or m is 0 (R191, R193). -/
def decodedDirect (s : State) (c : Byte) (raw : Word16) : Decoded :=
  let k := coefAt s c .read
  if k.v = false ∨ k.m = 0x0000#16 then rawAs .raw raw
  else { value := realValue s.params fun A => direct A raw k, kind := .real }

/-- VOUT-relative as a REAL, with the byte a VOUT_MODE capture stored (R195). -/
def decodedVout (s : State) (raw : Word16) : Decoded :=
  { value := realValue s.params fun A => voutValue A (coefAt s s.params.codes.voutMode .read).r raw, kind := .real }

/-- The decoder of a class (R197 to R203). -/
def decodedAs (k : ValueClass) (s : State) (c : Byte) (raw : Word16) : Decoded :=
  match k with
  | .bitmap => rawAs .bits raw
  | .voutRelative => decodedVout s raw
  | .linearFloat => decodedLinear11 s.params raw
  | .unsignedInt16 => rawAs .uint raw
  | .directFloat => decodedDirect s c raw
  | .unsignedInt8 => { value := .word ((raw.extractLsb' 0 8).setWidth 64), kind := .uint }
  | .vidCode => rawAs .raw raw
  | .manufacturerSpecific => rawAs .raw raw
  | .unknown => rawAs .raw raw

/-- Write `VALUE` and `VALUE_KIND`. -/
def writeDecoded (d : Decoded) (s : State) : State := { s with value := d.value, valueKind := d.kind }

/-- How many bits of a word are set (R201). -/
def popcount (raw : Word16) : Nat := ((List.range 16).filter fun i => raw.getLsbD i).length

/-! ## Operations -/

/-- CLASSIFY (R185). -/
def execClassify (cmd : Word16) (s : State) : StepOutcome :=
  whenAllowed inOpenSession s <| whenCore cmd s <| done .ok { s with result := classCode (classOf cmd s) }

/-- DECODE (R203): `RESULT` is the class code in every case. -/
def execDecode (cmd raw : Word16) (s : State) : StepOutcome :=
  whenAllowed inOpenSession s <| whenCore cmd s <|
    done .ok { writeDecoded (decodedAs (classOf cmd s) s (c8 cmd) raw) s with result := classCode (classOf cmd s) }

/-- DECODE_LINEAR11 (R190). -/
def execDecodeLinear11 (raw : Word16) (s : State) : StepOutcome :=
  whenAllowed inEveryState s <| done .ok (writeDecoded (decodedLinear11 s.params raw) s)

/-- DECODE_DIRECT (R193). -/
def execDecodeDirect (cmd raw : Word16) (s : State) : StepOutcome :=
  whenAllowed inOpenSession s <| whenCore cmd s <| done .ok (writeDecoded (decodedDirect s (c8 cmd) raw) s)

/-- DECODE_VOUT (R196): RAW unless VOUT_MODE indicates linear encoding. -/
def execDecodeVout (raw : Word16) (s : State) : StepOutcome :=
  whenAllowed inOpenSession s <|
    done .ok (writeDecoded (if voutLinear s then decodedVout s raw else rawAs .raw raw) s)

/-- DECODE_BITMAP (R202): the mask, and how many bits are set. -/
def execDecodeBitmap (raw : Word16) (s : State) : StepOutcome :=
  whenAllowed inEveryState s <|
    done .ok { writeDecoded (rawAs .bits raw) s with result := BitVec.ofNat 16 (popcount raw) }

end Sys2Proof.Machine
end

