-- ==== Sys2Proof/Machine/Coefficients.lean ====
section
/-! DEFINITION. Coefficient resolution and the two read-back operations of the discovered table (42_coefficients.md R160
to R168). -/

namespace Sys2Proof.Machine

/-- The set a five-byte response stands for (30_encoding.md R92, R163): m and b little-endian, then R; `V` becomes 1. -/
def coefOfBytes (bs : List Byte) : CoefSet where
  m := wordOf (bs.getD 0 0x00#8) (bs.getD 1 0x00#8)
  b := wordOf (bs.getD 2 0x00#8) (bs.getD 3 0x00#8)
  r := bs.getD 4 0x00#8
  v := true

/-- The end of a coefficient exchange with reply bytes `bs` (count byte already taken off) of the declared length `n`:
store on exactly 5 (R163), PROTOCOL_VIOLATION and nothing changed otherwise (R161, R162, R164). -/
def storeCoefficients (c : Byte) (d : Direction) (n : Nat) (bs : List Byte) (s : State) : Exit × State :=
  if n = 5 then (.ok, setCoef c d (coefOfBytes bs) s) else (.protocolViolation, s)

/-- `FetchCoefficients_core(c, d)` (R161 to R164): the block process call where the adapter has it, the raw exchange as
fallback, UNSUPPORTED where neither path exists. -/
def fetchCoefficientsCore (c : Byte) (d : Direction) (s : State) : Internal Exit :=
  if capBlockProcCall s.params then
    (transact (.blockProcessCall s.params.codes.coefficients [c, directionByte d] s.pecEn) s).andThen fun reply s' =>
      match reply with
      | .fail k => .ok (.transportError k, s')
      | .badCount => .ok (.protocolViolation, s')
      | .ok bs => .ok (storeCoefficients c d bs.length bs s')
  else if capRaw s.params then
    (transact (.raw [s.params.codes.coefficients, 0x02#8, c, directionByte d] 6) s).andThen fun reply s' =>
      match reply with
      | .fail k => .ok (.transportError k, s')
      | .badCount => .ok (.protocolViolation, s')
      | .ok bs => .ok (storeCoefficients c d (bs.headD 0x00#8).toNat bs.tail s')
  else .ok (.unsupported, s)

/-- FETCH_COEFFICIENTS (R160). -/
def execFetchCoefficients (cmd direction : Word16) (s : State) : StepOutcome :=
  whenAllowed inOpenSession s <| whenDirection direction s fun d => whenCore cmd s <|
    (fetchCoefficientsCore (c8 cmd) d s).conclude fun e s' => done e s'

/-- GET_SLOT (R166). -/
def execGetSlot (cmd : Word16) (s : State) : StepOutcome :=
  whenAllowed inEveryState s <| whenCore cmd s <| done .ok { s with result := slotView s (c8 cmd) }

/-- GET_COEF (R167). -/
def execGetCoef (cmd direction : Word16) (s : State) : StepOutcome :=
  whenAllowed inEveryState s <| whenDirection direction s fun d => whenCore cmd s <|
    done .ok
      { s with
        result := (coefAt s (c8 cmd) d).r.setWidth 16
        value := .word (coefView (coefAt s (c8 cmd) d))
        valueKind := .uint }

end Sys2Proof.Machine
end

