-- ==== Sys2Proof/Machine/Query.lean ====
section
/-! DEFINITION. QUERY capability discovery: CHECK_SUPPORT and its internal form (41_query.md R140 to R151). -/

namespace Sys2Proof.Machine

/-- The request word of the QUERY process call: `(cmd<<8 | 1)` (30_encoding.md R91). -/
def queryWord (c : Byte) : Word16 := c ++ 0x01#8

/-- Steps 2 to 4 of `CheckSupport_core` (R142 to R144): the verdict that needs no bus activity, if there is one. -/
def knownVerdict (c : Byte) (s : State) : Option Verdict :=
  match slotAt s c with
  | .unsupported => some .unsupported
  | .resolved => some .supported
  | .notProbed =>
    if slotAt s s.params.codes.query = .unsupported then some .unknown
    else if s.noQuery then some .unknown
    else none

/-- Step 5 (R145): the process call. The query byte of a response whose low byte echoes 1; none for a failure or a
mismatch. -/
def queryByteOf : Reply Word16 → Option Byte
  | .ok w => if loByte w = 0x01#8 then some (hiByte w) else none
  | .badCount => none
  | .fail _ => none

/-- The fetch of one direction inside CHECK_SUPPORT, its status discarded (42_coefficients.md R165). -/
def enrich (wanted : Bool) (c : Byte) (d : Direction) (s : State) : Internal Unit :=
  if wanted then (fetchCoefficientsCore c d s).andThen fun _ s' => .ok ((), s') else .ok ((), s)

/-- Step 8 (R148) for a code just bound with query byte `q`: where its format class is 3 and COEFFICIENTS is known
available (by `askCoefficients`), fetch the read direction, then the write direction. -/
def directCoefficients (askCoefficients : State → Internal Verdict) (c q : Byte) (s : State) : Internal Verdict :=
  if qFormat q = 3#3 then
    (askCoefficients s).andThen fun verdict s₁ =>
      if verdict = .supported then
        (enrich (qReadable q) c .read s₁).andThen fun _ s₂ =>
          (enrich (qWritable q) c .write s₂).andThen fun _ s₃ => .ok (.supported, s₃)
      else .ok (.supported, s₁)
  else .ok (.supported, s)

/-- The state after a successful VOUT_MODE read of `u` (R149): the whole byte in `R` of both sets, nothing else of them. -/
def captureVoutMode (u : Byte) (s : State) : State :=
  { setCoef s.params.codes.voutMode .read { coefAt s s.params.codes.voutMode .read with r := u }
      (setCoef s.params.codes.voutMode .write { coefAt s s.params.codes.voutMode .write with r := u } s) with
    voutModeValid := true }

/-- Step 9 (R149): the VOUT_MODE capture; on a failure nothing changes. -/
def voutModeCapture (s : State) : Internal Verdict :=
  (readByteCore s.params.codes.voutMode s).andThen fun reply s' =>
    match reply with
    | .ok u => .ok (.supported, captureVoutMode u s')
    | .badCount => .ok (.supported, s')
    | .fail _ => .ok (.supported, s')

/-- Steps 6 to 9 (R146 to R149) for code `c` and query byte `q`. -/
def bindSlot (askCoefficients : State → Internal Verdict) (c q : Byte) (s : State) : Internal Verdict :=
  if qSupported q then
    let bound := setSlot c .resolved (setQbyte c q s)
    if c = s.params.codes.voutMode then voutModeCapture bound else directCoefficients askCoefficients c q bound
  else .ok (.unsupported, setSlot c .unsupported s)

/-- Steps 5 to 9 (R145 to R149): negotiate a NotProbed code. -/
def negotiate (askCoefficients : State → Internal Verdict) (c : Byte) (s : State) : Internal Verdict :=
  (transactAs wordOfPayload (.processCall s.params.codes.query (queryWord c) s.pecEn) s).andThen fun reply s' =>
    match queryByteOf reply with
    | some q => bindSlot askCoefficients c q s'
    | none => .ok (.unknown, { s' with noQuery := true })

/-- `CheckSupport_core(cmd)`, steps 1 to 9 (R141 to R149), with `askCoefficients` as the nested check of COEFFICIENTS
that step 8 makes. -/
def checkWith (askCoefficients : State → Internal Verdict) (cmd : Word16) (s : State) : Internal Verdict :=
  if isExtended cmd then .ok (.unknown, s)
  else
    match knownVerdict (c8 cmd) s with
    | some v => .ok (v, s)
    | none => negotiate askCoefficients (c8 cmd) s

/-- The innermost check of COEFFICIENTS: its slot has just been bound, so it answers at step 2 (R151). -/
def boundVerdict (s : State) : Internal Verdict :=
  .ok (match slotAt s s.params.codes.coefficients with
    | .resolved => .supported
    | .unsupported => .unsupported
    | .notProbed => .unknown, s)

/-- The check of COEFFICIENTS nested in a check of another code (R148, R151). -/
def checkCoefficients (s : State) : Internal Verdict :=
  checkWith boundVerdict (cmdOf s.params.codes.coefficients) s

/-- `CheckSupport_core(cmd)` (R141 to R149). The nesting is bounded (R151), so it is written out: a check, inside it one
of COEFFICIENTS, inside that one that answers at step 2. -/
def checkSupportCore (cmd : Word16) (s : State) : Internal Verdict := checkWith checkCoefficients cmd s

/-- CHECK_SUPPORT (R140). -/
def execCheckSupport (cmd : Word16) (s : State) : StepOutcome :=
  whenAllowed inOpenSession s <|
    (checkSupportCore cmd s).conclude fun v s' => done .ok { s' with result := verdictCode v }

end Sys2Proof.Machine
end

