-- ==== Sys2Proof/Machine/Session.lean ====
section
/-! DEFINITION. The device session: OPEN, SCAN, PAGE_SELECT, REPORT, CLOSE and GET_SESSION (44_session.md R220 to R234). -/

namespace Sys2Proof.Machine

/-- The session reset of OPEN (R221, 70_reset_and_hazards.md R281): every session and table register at its power-on value
but for the address, the PEC request and the state; `DATA` and the result registers are left alone. -/
def openState (a : BitVec 7) (p : Bool) (s : State) : State :=
  { s with
    sessionState := .attached
    addr := a
    pecReq := p
    pecEn := false
    noQuery := false
    capByte := 0x00#8
    capValid := false
    revByte := 0x00#8
    revValid := false
    voutModeValid := false
    slot := emptySlots
    qbyte := emptyQbytes
    coef := emptyCoefs }

/-- OPEN (R221). -/
def execOpen (a : BitVec 7) (p : Bool) (s : State) : StepOutcome :=
  whenAllowed whereNoSession s <|
    if isReservedAddress a then done .invalidArgument s else done .ok (openState a p s)

/-- Entry into Closed: `SESSION_STATE <- Closed` and nothing else (R231, R258). -/
def closeState (s : State) : State := { s with sessionState := .closed }

/-- Step (b) of SCAN and each check of its sweep: the verdict is discarded (R224, R227). -/
def probe (cmd : Word16) (s : State) : Internal Unit :=
  (checkSupportCore cmd s).andThen fun _ s' => .ok ((), s')

/-- The effect of a CAPABILITY byte `u` (R225). -/
def captureCapability (u : Byte) (s : State) : State :=
  { s with capByte := u, capValid := true, pecEn := s.pecEn || pecAgreed s u }

/-- Step (c) of SCAN (R225): a failed read changes nothing. -/
def readCapability (s : State) : Internal Unit :=
  (readByteCore s.params.codes.capability s).andThen fun reply s' =>
    match reply with
    | .ok u => .ok ((), captureCapability u s')
    | .badCount => .ok ((), s')
    | .fail _ => .ok ((), s')

/-- Step (d) of SCAN (R226): a failed read changes nothing. -/
def readRevision (s : State) : Internal Unit :=
  (readByteCore s.params.codes.pmbusRevision s).andThen fun reply s' =>
    match reply with
    | .ok u => .ok ((), { s' with revByte := u, revValid := true })
    | .badCount => .ok ((), s')
    | .fail _ => .ok ((), s')

/-- Step (e) of SCAN (R227): check every entry of a list, in order. -/
def sweep : List CatalogEntry → State → Internal Unit
  | [], s => .ok ((), s)
  | e :: es, s => (probe e.code s).andThen fun _ s' => sweep es s'

/-- Steps (b) to (e) of SCAN, each run whatever the ones before it gave (R222, R234). -/
def discover (s : State) : Internal Unit :=
  (probe (cmdOf s.params.codes.query) s).andThen fun _ s₁ =>
    (readCapability s₁).andThen fun _ s₂ =>
      (readRevision s₂).andThen fun _ s₃ => sweep s₃.params.catalog.entries s₃

/-- SCAN (R222, R223): a failed presence probe closes the session. -/
def execScan (s : State) : StepOutcome :=
  whenAllowed inAttached s <|
    if capQuick s.params then
      (quickCore s).conclude fun reply s' =>
        match reply with
        | .ok _ => (discover s').conclude fun _ s'' => done .ok { s'' with sessionState := .scanned }
        | .fail k => done (.transportError k) (closeState s')
        | .badCount => done .protocolViolation (closeState s')
    else done .unsupported (closeState s)

/-- PAGE_SELECT (R228): a transport failure closes the session. -/
def execPageSelect (page : Byte) (s : State) : StepOutcome :=
  whenAllowed inScanned s <|
    (writeByteCore s.params.codes.page page s).conclude fun reply s' =>
      match reply with
      | .ok _ => done .ok s'
      | .fail k => done (.transportError k) (closeState s')
      | .badCount => done .protocolViolation (closeState s')

/-- REPORT (R229). -/
def execReport (s : State) : StepOutcome :=
  whenAllowed inScanned s <| done .ok { s with sessionState := .reporting }

/-- CLOSE (R231). -/
def execClose (s : State) : StepOutcome := whenAllowed inEveryState s <| done .ok (closeState s)

/-- GET_SESSION (R230). -/
def execGetSession (s : State) : StepOutcome :=
  whenAllowed inEveryState s <|
    done .ok { s with result := sessionView s, value := .word (identityView s), valueKind := .uint }

end Sys2Proof.Machine
end

