-- ==== Sys2Proof/Machine/Transport.lean ====
section
/-! DEFINITION. The seven transport operations (40_transport.md R110 to R117). -/

namespace Sys2Proof.Machine

/-- QUICK_PRESENCE (R110): an unacknowledged address is the answer "absent", not an error. -/
def execQuickPresence (s : State) : StepOutcome :=
  whenAllowed inOpenSession s <|
    if capQuick s.params then
      (quickCore s).conclude fun reply s' =>
        match reply with
        | .ok _ => done .ok { s' with result := 0x0001#16 }
        | .fail (.oracle .nakAddr) => done .ok { s' with result := 0x0000#16 }
        | .fail k => done (.transportError k) s'
        | .badCount => done .protocolViolation s'
    else done .unsupported s

/-- READ_BYTE (R111). -/
def execReadByte (cmd : Word16) (s : State) : StepOutcome :=
  whenAllowed inOpenSession s <| whenCore cmd s <|
    (readByteCore (c8 cmd) s).conclude fun reply s' =>
      onReply reply s' fun d => done .ok { s' with result := d.setWidth 16 }

/-- READ_WORD (R112). -/
def execReadWord (cmd : Word16) (s : State) : StepOutcome :=
  whenAllowed inOpenSession s <| whenCore cmd s <|
    (transactAs wordOfPayload (.readWord (c8 cmd) s.pecEn) s).conclude fun reply s' =>
      onReply reply s' fun w => done .ok { s' with result := w }

/-- `CopyOut(bs, maxLen)` (R114): copy what fits, report the device's length, and end with OK or SIZE_EXCEEDED. -/
def copyOut (bs : List Byte) (maxLen : Nat) (s : State) : StepOutcome :=
  if bs.length ≤ maxLen then
    done .ok { storeData bs s with result := BitVec.ofNat 16 bs.length, rlen := BitVec.ofNat 9 bs.length }
  else
    done .sizeExceeded
      { storeData (bs.take maxLen) s with result := BitVec.ofNat 16 bs.length, rlen := BitVec.ofNat 9 maxLen }

/-- Steps (1) to (3) of READ_BLOCK (R113): save `PEC_EN`, force it off, read one byte, restore it on every outcome
(R119, R286). -/
def lengthRead (c : Byte) (s : State) : Internal (Reply Byte) :=
  (readByteCore c { s with pecSaved := s.pecEn, pecEn := false }).andThen fun reply s' =>
    .ok (reply, { s' with pecEn := s'.pecSaved })

/-- Steps (4) to (6) of READ_BLOCK for the declared length `len` (R113). -/
def blockAfterLength (c : Byte) (len : Byte) (maxLen : Nat) (s : State) : StepOutcome :=
  if len.toNat ≤ s.params.blockLimit ∧ capBlockRead s.params = true then
    (transact (.blockRead c s.pecEn) s).conclude fun reply s' =>
      onReply reply s' fun bs => copyOut bs maxLen s'
  else if capRaw s.params then
    (transact (.raw [c] (len.toNat + 1)) s).conclude fun reply s' =>
      onReply reply s' fun bs =>
        if bs.headD 0x00#8 = len then copyOut bs.tail maxLen s' else done .protocolViolation s'
  else done .unsupported s

/-- READ_BLOCK (R113). -/
def execReadBlock (cmd : Word16) (maxLen : BitVec 12) (s : State) : StepOutcome :=
  whenAllowed inOpenSession s <| whenLength maxLen.toNat s <| whenCore cmd s <|
    (lengthRead (c8 cmd) s).conclude fun reply s' =>
      onReply reply s' fun len => blockAfterLength (c8 cmd) len maxLen.toNat s'

/-- WRITE_BYTE (R115). -/
def execWriteByte (cmd : Word16) (value : Byte) (s : State) : StepOutcome :=
  whenAllowed inOpenSession s <| whenCore cmd s <|
    (writeByteCore (c8 cmd) value s).conclude fun reply s' => onReply reply s' fun _ => done .ok s'

/-- WRITE_WORD (R116). -/
def execWriteWord (cmd : Word16) (value : Word16) (s : State) : StepOutcome :=
  whenAllowed inOpenSession s <| whenCore cmd s <|
    (transact (.writeWord (c8 cmd) value s.pecEn) s).conclude fun reply s' => onReply reply s' fun _ => done .ok s'

/-- The transaction WRITE_BLOCK makes for payload `bs` (R117): the native block write, the raw message with an explicit
header, or none where neither path exists. -/
def blockWriteRequest (c : Byte) (bs : List Byte) (s : State) : Option BusReq :=
  if bs.length ≤ s.params.blockLimit ∧ capBlockWrite s.params = true then some (.blockWrite c bs s.pecEn)
  else if capRaw s.params then some (.raw (c :: BitVec.ofNat 8 bs.length :: bs) 0)
  else none

/-- WRITE_BLOCK (R117). -/
def execWriteBlock (cmd : Word16) (len : BitVec 12) (s : State) : StepOutcome :=
  whenAllowed inOpenSession s <| whenLength len.toNat s <| whenCore cmd s <|
    match blockWriteRequest (c8 cmd) (dataBytes s len.toNat) (afterDataRead s) with
    | none => done .unsupported (afterDataRead s)
    | some r => (transact r (afterDataRead s)).conclude fun reply s' => onReply reply s' fun _ => done .ok s'

end Sys2Proof.Machine
end

