-- ==== Sys2Proof/Machine/Dispatch.lean ====
section
/-! DEFINITION. The meaning of every operation: one arm per constructor. -/

namespace Sys2Proof.Machine

def exec (i : Instr) (s : State) : Host.Outcome State Fault Refusal :=
  match i with
  | .openSession addr pec => Sys2Proof.Machine.execOpen addr pec s
  | .scan => Sys2Proof.Machine.execScan s
  | .pageSelect page => Sys2Proof.Machine.execPageSelect page s
  | .report => Sys2Proof.Machine.execReport s
  | .closeSession => Sys2Proof.Machine.execClose s
  | .getSession => Sys2Proof.Machine.execGetSession s
  | .quickPresence => Sys2Proof.Machine.execQuickPresence s
  | .readByte cmd => Sys2Proof.Machine.execReadByte cmd s
  | .readWord cmd => Sys2Proof.Machine.execReadWord cmd s
  | .readBlock cmd maxLen => Sys2Proof.Machine.execReadBlock cmd maxLen s
  | .writeByte cmd value => Sys2Proof.Machine.execWriteByte cmd value s
  | .writeWord cmd value => Sys2Proof.Machine.execWriteWord cmd value s
  | .writeBlock cmd len => Sys2Proof.Machine.execWriteBlock cmd len s
  | .checkSupport cmd => Sys2Proof.Machine.execCheckSupport cmd s
  | .fetchCoefficients cmd direction => Sys2Proof.Machine.execFetchCoefficients cmd direction s
  | .getSlot cmd => Sys2Proof.Machine.execGetSlot cmd s
  | .getCoef cmd direction => Sys2Proof.Machine.execGetCoef cmd direction s
  | .classify cmd => Sys2Proof.Machine.execClassify cmd s
  | .decodeValue cmd raw => Sys2Proof.Machine.execDecode cmd raw s
  | .decodeLinear11 raw => Sys2Proof.Machine.execDecodeLinear11 raw s
  | .decodeDirect cmd raw => Sys2Proof.Machine.execDecodeDirect cmd raw s
  | .decodeVout raw => Sys2Proof.Machine.execDecodeVout raw s
  | .decodeBitmap raw => Sys2Proof.Machine.execDecodeBitmap raw s

end Sys2Proof.Machine
end

