-- ==== Sys2Proof/Machine/HostPort.lean ====
section
/-! DEFINITION. The host's side of the block: its writes to `REQ` and `DATA` between operations (10_state.md R36, R37,
R45), and how the next request word is taken. -/

namespace Sys2Proof.Machine

/-- One action of the host takes effect: it writes one byte of `DATA`, or a request word to `REQ`. A write at an index
`DATA` does not have stops the machine (log 21). -/
def performHostAction (a : HostAction) (s : State) : StepOutcome :=
  match a with
  | .writeData index value =>
    if index < s.params.dataSize.bytes then .next { s with data := Memory.write s.data index value }
    else .fault .noSuchDataByte
  | .request w => .next { s with req := some w }

/-- No request is pending: the host's next action takes effect, or, where it has none, the block idles and keeps all its
state (60_exceptions.md R272). -/
def hostTurn (s : State) : StepOutcome :=
  match s.host with
  | [] => .next s
  | a :: rest => performHostAction a { s with host := rest }

/-- The pending request word is consumed (R36). -/
def consumeRequest (s : State) : State := { s with req := none }

/-- `s` with the request word of the low `nbits` bits of `w` pending, as if the host had just written it. -/
def placeRequest (nbits w : Nat) (s : State) : State := { s with req := some (BitVec.ofNat 64 (w % 2 ^ nbits)) }

end Sys2Proof.Machine
end

