-- ==== Sys2Proof/Machine/Step.lean ====
section
/-! DEFINITION. One step of the machine: a pending request word runs to completion (70_reset_and_hazards.md R294), or the
host acts, or the block idles. -/

namespace Sys2Proof.Machine

/-- One step: the pending request is consumed and runs, an illegal one ends with ILLEGAL_OP (30_encoding.md R73); where
none is pending, it is the host's turn. -/
def step (s : State) : Host.Outcome State Fault Refusal :=
  match s.req with
  | none => hostTurn s
  | some w =>
    match decode w with
    | .ok i => exec i (consumeRequest s)
    | .error _ => .next (illegalRequest (consumeRequest s))

/-- `s` with that request word pending, so that the next step runs it (log 6). -/
def State.withFetchWord (s : State) (nbits w : Nat) : State := placeRequest nbits w s

end Sys2Proof.Machine
end

