-- ==== Sys2Proof/Machine/PowerOn.lean ====
section
/-! DEFINITION. Making a block instance from parameters as they are given: the spec refuses some (00_scope.md R10, R12,
93_implementation_defined.md I7, I8). -/

namespace Sys2Proof.Machine

/-- A parameter set before it is checked (R10). -/
structure GivenParams where
  caps           : Byte
  blockLimit     : Nat
  catalog        : List CatalogEntry
  page           : Byte
  capability     : Byte
  query          : Byte
  voutMode       : Byte
  coefficients   : Byte
  pmbusRevision  : Byte
  capPecBit      : Fin 8
  voutLinearMode : BitVec 3
  num            : NumDomain
  dataSize       : Nat
  deriving DecidableEq, Repr

/-- Power-on reset of an instance with the given parameters (R280, R284): refused where the catalog has two entries of one
code before its sentinel (R12), where the command codes other than PAGE's are not distinct core codes (R10), or where
`DATA` is too small (log 21). The order of the three checks is the model's (log 16). -/
def powerOn (g : GivenParams) : Host.Outcome State Fault Refusal :=
  if hc : codesDistinct (beforeSentinel g.catalog) = true then
    if hk : commandCodesOk g.capability g.query g.voutMode g.coefficients g.pmbusRevision = true then
      if hd : dataSizeOk g.dataSize = true then
        .next <| State.boot
          { caps := g.caps
            blockLimit := g.blockLimit
            catalog := { given := g.catalog, distinct := hc }
            codes :=
              { page := g.page, capability := g.capability, query := g.query, voutMode := g.voutMode
                coefficients := g.coefficients, pmbusRevision := g.pmbusRevision, ok := hk }
            capPecBit := g.capPecBit
            voutLinearMode := g.voutLinearMode
            num := g.num
            dataSize := { bytes := g.dataSize, ok := hd } }
      else .refused .dataTooSmall
    else .refused .badCommandCodes
  else .refused .duplicateCatalogCode

end Sys2Proof.Machine
end

