-- ==== Sys2Proof/Safety.lean ====
section
/-! DEFINITION. What the statements call a legal state, a quiet step and an unchanged part of the state. -/

namespace Sys2Proof.Machine

/-- No bus activity: nothing put on the bus, no answer consumed, no free value drawn. -/
def QuietBus (s t : State) : Prop :=
  t.answers = s.answers ∧ t.draws = s.draws ∧ t.busLog = s.busLog ∧ t.crcAcc = s.crcAcc

/-- The session registers of 10_state.md §1 are unchanged. -/
def SameSession (s t : State) : Prop :=
  t.sessionState = s.sessionState ∧ t.addr = s.addr ∧ t.pecReq = s.pecReq ∧ t.pecEn = s.pecEn ∧ t.noQuery = s.noQuery ∧
    t.capByte = s.capByte ∧ t.capValid = s.capValid ∧ t.revByte = s.revByte ∧ t.revValid = s.revValid ∧
    t.voutModeValid = s.voutModeValid

/-- The discovered table of 10_state.md §2 is unchanged. -/
def SameTable (s t : State) : Prop := t.slot = s.slot ∧ t.qbyte = s.qbyte ∧ t.coef = s.coef

/-- The result registers of 10_state.md R39 are unchanged. -/
def SameResults (s t : State) : Prop :=
  t.result = s.result ∧ t.rlen = s.rlen ∧ t.valueKind = s.valueKind ∧ t.value = s.value

/-- The parameters, the host's own side and every byte of `DATA` are unchanged. -/
def SameSurroundings (s t : State) : Prop :=
  t.params = s.params ∧ t.req = s.req ∧ t.host = s.host ∧ ∀ i, Memory.read? t.data i = Memory.read? s.data i

/-- The next `n` answers of the bus are fixed by the state, and none of them is an adapter that never answers. -/
def Answered (n : Nat) (s : State) : Prop := n ≤ s.answers.length ∧ BusAnswer.never ∉ s.answers

/-- A transaction that is a coefficient exchange for code `c` and direction `d`, completed with a declared response length
of 5 (10_state.md R34, 42_coefficients.md R161, R162). -/
def FiveByteExchange (p : Params) (c : Byte) (d : Direction) (x : Transaction) : Prop :=
  ((∃ pec, x.req = .blockProcessCall p.codes.coefficients [c, directionByte d] pec) ∨
      x.req = .raw [p.codes.coefficients, 0x02#8, c, directionByte d] 6) ∧
    ∃ device pec, x.ended = .completed device pec ∧ device.headD 0x00#8 = 0x05#8

/-- The state after an operation whose effects are those of `s` and that ends with this status and cause
(60_exceptions.md R254). -/
def endsAs (st : Status) (k : Cause) (s : State) : State := { s with status := st, cause := k }

/-- What a READ_BLOCK of the device's bytes `bs` into a buffer of `n` bytes leaves (40_transport.md R114). -/
def delivered (bs : List Byte) (n : Nat) (s : State) : State :=
  { s with
    data := Memory.writeFrom s.data 0 (bs.take n)
    result := BitVec.ofNat 16 bs.length
    rlen := BitVec.ofNat 9 (min bs.length n)
    status := if bs.length ≤ n then .ok else .sizeExceeded
    cause := .noCause }

/-- The device-driven bytes a completed frame has before its PEC byte (40_transport.md R102, R107): a count byte and that
many bytes in a block read. -/
def FrameAdmits (limit : Nat) (r : BusReq) (device : List Byte) : Prop :=
  match r with
  | .quick => device = []
  | .readByte _ _ => device.length = 1
  | .readWord _ _ => device.length = 2
  | .writeByte _ _ _ => device = []
  | .writeWord _ _ _ => device = []
  | .processCall _ _ _ => device.length = 2
  | .blockRead _ _ => ∃ c bs, device = c :: bs ∧ bs.length = c.toNat ∧ c.toNat ≤ limit
  | .blockWrite _ _ _ => device = []
  | .blockProcessCall _ _ _ => ∃ c bs, device = c :: bs ∧ bs.length = c.toNat ∧ c.toNat ≤ limit
  | .raw _ count => device.length = count

/-- In state `s` the bus completes transaction `r` with the device's bytes `device` and, where the frame carries PEC, with
the right PEC byte (R102, R105, R106); `u` is the state after it. -/
def BusOk (r : BusReq) (s : State) (device : List Byte) (u : State) : Prop :=
  permitted s.params r = true ∧ FrameAdmits s.params.blockLimit r device ∧
    nextAnswer s =
      .complete (device ++ if carriesPec r && hasReply r then [crc8 (coveredBytes s.addr r device)] else []) ∧
    u = afterTransaction r
      (.completed device (if carriesPec r then some (crc8 (coveredBytes s.addr r device)) else none)) s

/-- In state `s` transaction `r` fails with a cause (R101, R102, R106); `u` is the state after it. -/
inductive BusFails (r : BusReq) (s : State) : FailCause → State → Prop where
  /-- The adapter lacks the primitive: no bus activity. -/
  | noCapability : permitted s.params r = false → BusFails r s .noCapability s
  /-- The frame was not completed. -/
  | oracle (k : OracleCause) : permitted s.params r = true → nextAnswer s = .fail k →
      BusFails r s (.oracle k) (afterTransaction r (.failed k) s)
  /-- The device's PEC byte differs from the CRC of all earlier bytes. -/
  | pecMismatch (device : List Byte) (p : Byte) : permitted s.params r = true → carriesPec r = true → hasReply r = true →
      FrameAdmits s.params.blockLimit r device → nextAnswer s = .complete (device ++ [p]) →
      p ≠ crc8 (coveredBytes s.addr r device) →
      BusFails r s .pecMismatch (afterTransaction r (.completed device (some p)) s)

/-- In state `s` the device answers a block read with a count byte above `BLOCK_LIMIT` (R107); `u` is the state after
it. -/
def BusBadCount (r : BusReq) (s u : State) : Prop :=
  permitted s.params r = true ∧ hasCount r = true ∧
    ∃ c : Byte, s.params.blockLimit < c.toNat ∧ nextAnswer s = .complete [c] ∧
      u = afterTransaction r (.completed [c] none) s

/-- The transactions put on the bus between `s` and `t`. -/
def newTransactions (s t : State) : List Transaction := t.busLog.drop s.busLog.length

/-- Steps of the machine, none of which starts a session (44_session.md R220: only a successful OPEN leads to Attached
from a state without a session). -/
inductive WithinSession : State → State → Prop where
  | refl (s : State) : WithinSession s s
  | step {s t u : State} : WithinSession s t → Machine.step t = .next u →
      ¬(whereNoSession t.sessionState = true ∧ u.sessionState = .attached) → WithinSession s u

/-- OPEN, with any operands. -/
def isOpen : Instr → Bool
  | .openSession _ _ => true
  | _ => false

/-- The operations that negotiate: CHECK_SUPPORT and SCAN (R224, R227). -/
def discovers : Instr → Bool
  | .scan => true
  | .checkSupport _ => true
  | _ => false

/-- The operations that fill coefficient sets: those that negotiate, and FETCH_COEFFICIENTS. -/
def fetches : Instr → Bool
  | .scan => true
  | .checkSupport _ => true
  | .fetchCoefficients _ _ => true
  | _ => false

/-- READ_BLOCK, with any operands. -/
def isReadBlock : Instr → Bool
  | .readBlock _ _ => true
  | _ => false

/-- WRITE_BLOCK, with any operands. -/
def isWriteBlock : Instr → Bool
  | .writeBlock _ _ => true
  | _ => false

/-- The codec operations (43_codec.md R185 to R203). -/
def isCodec : Instr → Bool
  | .classify _ => true
  | .decodeValue _ _ => true
  | .decodeLinear11 _ => true
  | .decodeDirect _ _ => true
  | .decodeVout _ => true
  | .decodeBitmap _ => true
  | _ => false

/-- GET_SLOT, GET_COEF and GET_SESSION (42_coefficients.md R168). -/
def isReadBack : Instr → Bool
  | .getSession => true
  | .getSlot _ => true
  | .getCoef _ _ => true
  | _ => false

/-- A session is open: Attached, Scanned or Reporting (44_session.md R232). -/
def SessionOpen (s : State) : Prop :=
  s.sessionState = .attached ∨ s.sessionState = .scanned ∨ s.sessionState = .reporting

/-- The reserved addresses as 20_memory.md R52 lists them. -/
def ReservedAddress (a : BitVec 7) : Prop :=
  a.toNat ≤ 0x08 ∨ a.toNat = 0x0C ∨ a.toNat = 0x28 ∨ a.toNat = 0x37 ∨ a.toNat = 0x61 ∨ 0x78 ≤ a.toNat

/-- The table of 44_session.md R232: the session states each operation runs in. -/
def runsIn : Instr → List SessionState
  | .openSession _ _ => [.unopened, .closed]
  | .scan => [.attached]
  | .pageSelect _ => [.scanned]
  | .report => [.scanned]
  | .closeSession => [.unopened, .attached, .scanned, .reporting, .closed]
  | .getSession => [.unopened, .attached, .scanned, .reporting, .closed]
  | .quickPresence => [.attached, .scanned, .reporting]
  | .readByte _ => [.attached, .scanned, .reporting]
  | .readWord _ => [.attached, .scanned, .reporting]
  | .readBlock _ _ => [.attached, .scanned, .reporting]
  | .writeByte _ _ => [.attached, .scanned, .reporting]
  | .writeWord _ _ => [.attached, .scanned, .reporting]
  | .writeBlock _ _ => [.attached, .scanned, .reporting]
  | .checkSupport _ => [.attached, .scanned, .reporting]
  | .fetchCoefficients _ _ => [.attached, .scanned, .reporting]
  | .getSlot _ => [.unopened, .attached, .scanned, .reporting, .closed]
  | .getCoef _ _ => [.unopened, .attached, .scanned, .reporting, .closed]
  | .classify _ => [.attached, .scanned, .reporting]
  | .decodeValue _ _ => [.attached, .scanned, .reporting]
  | .decodeLinear11 _ => [.unopened, .attached, .scanned, .reporting, .closed]
  | .decodeDirect _ _ => [.attached, .scanned, .reporting]
  | .decodeVout _ => [.attached, .scanned, .reporting]
  | .decodeBitmap _ => [.unopened, .attached, .scanned, .reporting, .closed]

/-- The table of 60_exceptions.md R253: the statuses each operation can end with. -/
def endStatuses : Instr → List Status
  | .openSession _ _ => [.ok, .illegalState, .invalidArgument]
  | .scan => [.ok, .illegalState, .unsupported, .transportError]
  | .pageSelect _ => [.ok, .illegalState, .transportError]
  | .report => [.ok, .illegalState]
  | .closeSession => [.ok]
  | .getSession => [.ok]
  | .quickPresence => [.ok, .illegalState, .unsupported, .transportError]
  | .readByte _ => [.ok, .illegalState, .notImplemented, .transportError]
  | .readWord _ => [.ok, .illegalState, .notImplemented, .transportError]
  | .readBlock _ _ =>
    [.ok, .illegalState, .invalidArgument, .notImplemented, .transportError, .protocolViolation, .unsupported,
      .sizeExceeded]
  | .writeByte _ _ => [.ok, .illegalState, .notImplemented, .transportError]
  | .writeWord _ _ => [.ok, .illegalState, .notImplemented, .transportError]
  | .writeBlock _ _ => [.ok, .illegalState, .invalidArgument, .notImplemented, .unsupported, .transportError]
  | .checkSupport _ => [.ok, .illegalState]
  | .fetchCoefficients _ _ =>
    [.ok, .illegalState, .invalidArgument, .notImplemented, .transportError, .protocolViolation, .unsupported]
  | .getSlot _ => [.ok, .notImplemented]
  | .getCoef _ _ => [.ok, .invalidArgument, .notImplemented]
  | .classify _ => [.ok, .illegalState, .notImplemented]
  | .decodeValue _ _ => [.ok, .illegalState, .notImplemented]
  | .decodeLinear11 _ => [.ok]
  | .decodeDirect _ _ => [.ok, .illegalState, .notImplemented]
  | .decodeVout _ => [.ok, .illegalState]
  | .decodeBitmap _ => [.ok]

/-- The operand range checks of R255 (3): OPEN address, READ_BLOCK and WRITE_BLOCK lengths, FETCH_COEFFICIENTS and
GET_COEF direction. -/
def BadArgument : Instr → Prop
  | .openSession a _ => ReservedAddress a
  | .readBlock _ n => n.toNat = 0 ∨ 255 < n.toNat
  | .writeBlock _ n => n.toNat = 0 ∨ 255 < n.toNat
  | .fetchCoefficients _ d => 1 < d.toNat
  | .getCoef _ d => 1 < d.toNat
  | _ => False

/-- The transitions of 44_session.md R220: the state after operation `i` from state `before`, by the status it ended
with. -/
def sessionAfter (i : Instr) (before : SessionState) (ended : Status) : SessionState :=
  match i with
  | .openSession _ _ => if ended = .ok then .attached else before
  | .scan => if before = .attached then (if ended = .ok then .scanned else .closed) else before
  | .pageSelect _ => if before = .scanned ∧ ended = .transportError then .closed else before
  | .report => if before = .scanned then .reporting else before
  | .closeSession => .closed
  | _ => before

/-- The request-word bits the operation of code `op` reads (30_encoding.md R75), `OP` and `RSV` included. -/
def readBits (op : Byte) : Request :=
  match op.toNat with
  | 0x01 => 0xFFF00000FF0000FF#64
  | 0x03 => 0xFFF00000FF0000FF#64
  | 0x11 => 0xFFF0000000FFFFFF#64
  | 0x12 => 0xFFF0000000FFFFFF#64
  | 0x13 => 0xFFFFFF0000FFFFFF#64
  | 0x14 => 0xFFF00000FFFFFFFF#64
  | 0x15 => 0xFFF000FFFFFFFFFF#64
  | 0x16 => 0xFFFFFF0000FFFFFF#64
  | 0x20 => 0xFFF0000000FFFFFF#64
  | 0x21 => 0xFFF000FFFFFFFFFF#64
  | 0x22 => 0xFFF0000000FFFFFF#64
  | 0x23 => 0xFFF000FFFFFFFFFF#64
  | 0x30 => 0xFFF0000000FFFFFF#64
  | 0x31 => 0xFFF000FFFFFFFFFF#64
  | 0x32 => 0xFFF000FFFF0000FF#64
  | 0x33 => 0xFFF000FFFFFFFFFF#64
  | 0x34 => 0xFFF000FFFF0000FF#64
  | 0x35 => 0xFFF000FFFF0000FF#64
  | _ => 0xFFF00000000000FF#64

/-- A bound on the bus answers operation `i` consumes (41_query.md R151; SCAN: a probe, two reads, and six for the QUERY
command and for every entry). -/
def answersNeeded (i : Instr) (s : State) : Nat :=
  match i with
  | .scan => 9 + 6 * s.params.catalog.entries.length
  | .checkSupport _ => 6
  | _ => 2

/-- The number a 64-bit pattern stands for in binary64 (43_codec.md R180): sign in bit 63, biased exponent in bits 62:52,
fraction in bits 51:0; none for an infinity or a NaN. -/
def patternValue (w : BitVec 64) : Option ℚ :=
  let sign : ℚ := if w.getLsbD 63 then -1 else 1
  let exponent : Nat := (w.extractLsb' 52 11).toNat
  let fraction : ℚ := (w.extractLsb' 0 52).toNat
  if exponent = 2047 then none
  else if exponent = 0 then some (sign * fraction * (2 : ℚ) ^ (-1074 : Int))
  else some (sign * ((2 : ℚ) ^ 52 + fraction) * (2 : ℚ) ^ ((exponent : Int) - 1075))

/-- The pattern `w` is the number `q` rounded to nearest, ties to even (R180): no other number of binary64 is nearer to
`q`, and where another is as near, the last bit of `w` is 0. -/
def RoundsTo (q : ℚ) (w : BitVec 64) : Prop :=
  ∃ r, patternValue w = some r ∧ ∀ w' r', patternValue w' = some r' → r' ≠ r →
    |q - r| < |q - r'| ∨ (|q - r| = |q - r'| ∧ w.getLsbD 0 = false)

/-- Numbers that round to a finite one: below the largest number of binary64 and half a unit in its last place. -/
def InRange (q : ℚ) : Prop := |q| < (2 : ℚ) ^ 1024 - (2 : ℚ) ^ 970

/-- A legal state of the block: what every step keeps (10_state.md). -/
structure LegalState (s : State) : Prop where
  /-- `DATA` is in its canonical form (R37, 20_memory.md R54). -/
  data_canonical : Memory.wf s.params.dataSize.bytes s.data = true
  /-- `PEC_EN` is 1 only where adapter, device and operator agree (R25, 44_session.md R225). -/
  pec_agreed : s.pecEn = true →
    capPec s.params = true ∧ s.pecReq = true ∧ s.capValid = true ∧ advertisesPec s.params s.capByte = true
  /-- Before SCAN has reached step (c) PEC is off (R225). -/
  pec_after_scan : s.pecEn = true → s.sessionState ≠ .unopened ∧ s.sessionState ≠ .attached
  /-- `CAUSE` is NONE unless `STATUS` is TRANSPORT_ERROR (60_exceptions.md R252). -/
  cause_of_error : s.status = .transportError ↔ s.cause ≠ .noCause
  /-- Slots 0xFE and 0xFF are never negotiated (R30). -/
  extended_slots : slotAt s 0xFE#8 = .notProbed ∧ slotAt s 0xFF#8 = .notProbed
  /-- A code is Resolved exactly where its query byte has SUPPORTED set (R32, 41_query.md R146, R147). -/
  resolved_byte : ∀ c, slotAt s c = .resolved ↔ qSupported (qbyteAt s c) = true
  /-- The query byte of a code that is not Resolved is 0x00 (R32). -/
  unresolved_byte : ∀ c, slotAt s c ≠ .resolved → qbyteAt s c = 0x00#8
  /-- A VOUT_MODE byte has been captured only for a Resolved VOUT_MODE (R29, R149). -/
  vout_captured : s.voutModeValid = true → slotAt s s.params.codes.voutMode = .resolved
  /-- An open session has an address outside the reserved set (R22, 20_memory.md R52). -/
  open_address : inOpenSession s.sessionState = true → isReservedAddress s.addr = false
  /-- A byte never read is 0x00 (R27, R28). -/
  unread_bytes : (s.capValid = false → s.capByte = 0x00#8) ∧ (s.revValid = false → s.revByte = 0x00#8)
  /-- `RLEN` is at most 255 (R39). -/
  rlen_bound : s.rlen.toNat ≤ 255
  /-- `VALUE` holds a rational exactly for a REAL value of an instance that computes exactly (R39). -/
  value_form : (∃ q, s.value = .rational q) ↔ s.valueKind = .real ∧ s.params.num = .exact

end Sys2Proof.Machine
end

