-- ==== Sys2Proof/Certificates/Slice0/Obligations.lean ====
section
/-! DEFINITION. The statements for the provers, from the numbered rules of the spec. `BusOk`, `BusFails` and `BusBadCount`
(Safety) say what the bus answers; a statement that names none of them and no free value holds whatever the bus answers. -/

open Sys2Proof Sys2Proof.Machine

/-! ## Request words (30_encoding.md) -/

/-- R70, R75, R76: the word the encoder writes for an operation, with any operands, decodes to that operation. -/
def Obligations.DecodeOfEncode : Prop := ∀ i : Instr, decode (encode i) = .ok i

/-- R72, R75: the decoder reads the fields of the operation's row and no other bit; of those it drops none, since the
operation it gives encodes back to exactly these bits of the word. -/
def Obligations.DecoderReadsTheFieldsOfItsRow : Prop :=
  (∀ w w' : Request, w &&& readBits (opField w) = w' &&& readBits (opField w) → decode w' = decode w) ∧
    ∀ (w : Request) (i : Instr), decode w = .ok i → encode i = w &&& readBits (opField w)

/-- R73: a word whose `OP` is not in the opcode map or whose `RSV` is not zero performs nothing and ends with ILLEGAL_OP
and cause NONE, whatever the session state; every other word is an operation. -/
def Obligations.IllegalRequestsChangeOnlyTheStatus : Prop :=
  ∀ w : Request,
    (w.extractLsb' 0 8 ∉ definedOps ∨ w.extractLsb' 52 12 ≠ 0#12 → ∀ s : State, s.req = some w →
      step s = .next { s with req := none, status := .illegalOp, cause := .noCause }) ∧
    (w.extractLsb' 0 8 ∈ definedOps → w.extractLsb' 52 12 = 0#12 → ∃ i, decode w = .ok i)

/-- R71, R75: words written out from the fields `{RSV, LEN, ARG, CMD, OP}`, at least one for each family file of R71. -/
def Obligations.SampleRequestsDecode : Prop :=
  decode 0x00000000C0000001#64 = .ok (.openSession 0x40#7 true) ∧
  decode 0x0000000000000002#64 = .ok .scan ∧
  decode 0x0000000001000003#64 = .ok (.pageSelect 0x01#8) ∧
  decode 0x0000000000009811#64 = .ok (.readByte 0x0098#16) ∧
  decode 0x000014000000A013#64 = .ok (.readBlock 0x00A0#16 20#12) ∧
  decode 0x0000000C00002115#64 = .ok (.writeWord 0x0021#16 0x0C00#16) ∧
  decode 0x0000000000008B20#64 = .ok (.checkSupport 0x008B#16) ∧
  decode 0x0000000001008B21#64 = .ok (.fetchCoefficients 0x008B#16 1#16) ∧
  decode 0x000000E8C8008B31#64 = .ok (.decodeValue 0x008B#16 0xE8C8#16) ∧
  decode 0x0000008041000035#64 = .ok (.decodeBitmap 0x8041#16)

/-- R36: a pending request word is consumed and its operation runs; so does a word placed by `withFetchWord` (log 6). -/
def Obligations.StepRunsTheDecodedRequest : Prop :=
  (∀ (s : State) (w : Request) (i : Instr), s.req = some w → decode w = .ok i → step s = exec i { s with req := none }) ∧
    ∀ (i : Instr) (s : State), step (s.withFetchWord 64 (encode i).toNat) = exec i { s with req := none }

/-- R36, R37, R45, R272: between operations the host writes one byte of `DATA` or one request word, and nothing else of
the block changes; where it does nothing, the block keeps all its state. The list of host actions is the model's (log 5),
and so is the stop at an index `DATA` does not have (log 21). -/
def Obligations.HostActsBetweenOperations : Prop :=
  ∀ s : State, s.req = none →
    (s.host = [] → step s = .next s) ∧
    (∀ w rest, s.host = .request w :: rest → step s = .next { s with host := rest, req := some w }) ∧
    ∀ index value rest, s.host = .writeData index value :: rest →
      (s.params.dataSize.bytes ≤ index → step s = .fault .noSuchDataByte) ∧
      (index < s.params.dataSize.bytes → ∃ m, step s = .next { s with host := rest, data := m } ∧
        ∀ j, Memory.read? m j = if j = index then some value else Memory.read? s.data j)

/-! ## Parameters, reset and the invariant -/

/-- R280: the values of the table, for any parameters; an unwritten byte of `DATA` reads as a free draw (R37, log 10).
Nothing is said of `PEC_SAVED` and the CRC accumulator, whose values at reset are the model's (log 8, log 9). -/
def Obligations.PowerOnResetValues : Prop :=
  ∀ p : Params,
    (State.boot p).sessionState = .unopened ∧ (State.boot p).addr = 0x00#7 ∧ (State.boot p).pecReq = false ∧
    (State.boot p).pecEn = false ∧ (State.boot p).noQuery = false ∧ (State.boot p).capByte = 0x00#8 ∧
    (State.boot p).revByte = 0x00#8 ∧ (State.boot p).capValid = false ∧ (State.boot p).revValid = false ∧
    (State.boot p).voutModeValid = false ∧
    (∀ c, slotAt (State.boot p) c = .notProbed ∧ qbyteAt (State.boot p) c = 0x00#8 ∧
      ∀ d, coefAt (State.boot p) c d = { r := 0x00#8, m := 0x0000#16, b := 0x0000#16, v := false }) ∧
    (State.boot p).status = .ok ∧ (State.boot p).cause = .noCause ∧ (State.boot p).result = 0x0000#16 ∧
    (State.boot p).rlen = 0#9 ∧ (State.boot p).valueKind = .raw ∧ (State.boot p).value = .word 0#64 ∧
    (State.boot p).req = none ∧
    ∀ i, dataByte (State.boot p) i = Config.unwrittenByte (State.boot p).draws i

/-- R10, R12: a catalog with two entries of one code is refused, and so are command codes other than PAGE's that are not
distinct core codes; any other parameter set gives an instance with exactly these parameters, at its reset values. The
model's choices: the order of the checks, and that the entries of a catalog are those before its sentinel, or all where
it has none (log 16); and the refusal of a `DATA_SIZE` below 255 (log 21). -/
def Obligations.PowerOnRefusesBadParameters : Prop :=
  ∀ g : GivenParams,
    let codes := [g.capability, g.query, g.voutMode, g.coefficients, g.pmbusRevision]
    (¬((beforeSentinel g.catalog).map (·.code)).Nodup → powerOn g = .refused .duplicateCatalogCode) ∧
    (((beforeSentinel g.catalog).map (·.code)).Nodup →
      (¬(codes.Nodup ∧ ∀ c ∈ codes, c.toNat ≤ 0xFD) → powerOn g = .refused .badCommandCodes) ∧
      (codes.Nodup ∧ (∀ c ∈ codes, c.toNat ≤ 0xFD) → g.dataSize < 255 → powerOn g = .refused .dataTooSmall) ∧
      (codes.Nodup ∧ (∀ c ∈ codes, c.toNat ≤ 0xFD) → 255 ≤ g.dataSize → ∃ p : Params, powerOn g = .next (State.boot p) ∧
        p.codes.page = g.page ∧ p.dataSize.bytes = g.dataSize ∧
        p.caps = g.caps ∧ p.blockLimit = g.blockLimit ∧ p.catalog.given = g.catalog ∧
        [p.codes.capability, p.codes.query, p.codes.voutMode, p.codes.coefficients, p.codes.pmbusRevision] = codes ∧
        p.capPecBit = g.capPecBit ∧ p.voutLinearMode = g.voutLinearMode ∧ p.num = g.num))

/-- Every instance is in a legal state after reset, the one of `State.reset` among them. -/
def Obligations.ResetIsLegal : Prop := LegalState State.reset ∧ ∀ p : Params, LegalState (State.boot p)

/-- Every step, of the block or of the host, leads from a legal state to a legal state (`LegalState`: R22, R25, R27, R28, R29,
R30, R32, R37, R39, R252). -/
def Obligations.StepKeepsLegalStates : Prop := ∀ s t : State, LegalState s → step s = .next t → LegalState t

/-! ## What holds of every operation (60_exceptions.md, 44_session.md R220, R232, 10_state.md R31, R34, R44) -/

/-- R232: outside the states of its row an operation ends with ILLEGAL_STATE and changes nothing else; inside them it
never ends so. -/
def Obligations.OperationsRunOnlyInTheirStates : Prop :=
  ∀ (i : Instr) (s : State),
    (s.sessionState ∉ runsIn i → exec i s = .next (endsAs .illegalState .noCause s)) ∧
    (s.sessionState ∈ runsIn i → ∀ t, exec i s = .next t → t.status ≠ .illegalState)

/-- R255 (3), (4): in an allowed state an operand out of range ends with INVALID_ARGUMENT, then an extended command with
NOT_IMPLEMENTED, before any effect; operands that pass never end so. -/
def Obligations.BadOperandsEndBeforeAnyEffect : Prop :=
  ∀ (i : Instr) (s : State), s.sessionState ∈ runsIn i →
    (BadArgument i → exec i s = .next (endsAs .invalidArgument .noCause s)) ∧
    (¬BadArgument i → i.wellFormed = false → exec i s = .next (endsAs .notImplemented .noCause s)) ∧
    (i.wellFormed = true → ¬BadArgument i ∧
      ∀ t, exec i s = .next t → t.status ≠ .invalidArgument ∧ t.status ≠ .notImplemented)

/-- R253: no operation ends with a status outside its row; R252, R254: its cause is NONE unless it ends with
TRANSPORT_ERROR, and then it is not. -/
def Obligations.StatusAndCauseOfEachOperation : Prop :=
  ∀ (i : Instr) (s t : State), exec i s = .next t →
    t.status ∈ endStatuses i ∧ (t.status = .transportError ↔ t.cause ≠ .noCause)

/-- R220: the session state after any operation is the table's. -/
def Obligations.SessionStateFollowsItsTable : Prop :=
  ∀ (i : Instr) (s t : State), exec i s = .next t → t.sessionState = sessionAfter i s.sessionState t.status

/-- R44: which operations write each flag, and in which direction; with it the writers of the other session registers and
of the table (R21 to R33). -/
def Obligations.FlagsHaveTheirWriters : Prop :=
  ∀ (i : Instr) (s t : State), exec i s = .next t →
    (t.pecEn ≠ s.pecEn → (isOpen i = true ∧ t.pecEn = false) ∨ (i = .scan ∧ t.pecEn = true)) ∧
    (t.noQuery ≠ s.noQuery → (isOpen i = true ∧ t.noQuery = false) ∨ (discovers i = true ∧ t.noQuery = true)) ∧
    (t.capValid ≠ s.capValid → (isOpen i = true ∧ t.capValid = false) ∨ (i = .scan ∧ t.capValid = true)) ∧
    (t.revValid ≠ s.revValid → (isOpen i = true ∧ t.revValid = false) ∨ (i = .scan ∧ t.revValid = true)) ∧
    (t.voutModeValid ≠ s.voutModeValid →
      (isOpen i = true ∧ t.voutModeValid = false) ∨ (discovers i = true ∧ t.voutModeValid = true)) ∧
    (∀ c d, (coefAt t c d).v ≠ (coefAt s c d).v →
      (isOpen i = true ∧ (coefAt t c d).v = false) ∨ (fetches i = true ∧ (coefAt t c d).v = true)) ∧
    (t.pecReq ≠ s.pecReq ∨ t.addr ≠ s.addr → isOpen i = true) ∧
    (t.capByte ≠ s.capByte ∨ t.revByte ≠ s.revByte → isOpen i = true ∨ i = .scan) ∧
    (t.slot ≠ s.slot ∨ t.qbyte ≠ s.qbyte → isOpen i = true ∨ discovers i = true) ∧
    (t.coef ≠ s.coef → isOpen i = true ∨ fetches i = true) ∧
    (t.pecSaved ≠ s.pecSaved → isReadBlock i = true)

/-- R31: over any steps within a session a slot that has left NotProbed keeps its value and its query byte; R26: within a
session `NO_QUERY` stays set. -/
def Obligations.SlotsBindOnce : Prop :=
  ∀ s t : State, WithinSession s t →
    (∀ c, slotAt s c ≠ .notProbed → slotAt t c = slotAt s c ∧ qbyteAt t c = qbyteAt s c) ∧
    (s.noQuery = true → t.noQuery = true)

/-- R34: an operation sets a validity flag only with a coefficient exchange for that code and direction whose response
length is 5 among its transactions; within a session none is cleared. -/
def Obligations.ValidityNeedsAFiveByteExchange : Prop :=
  (∀ (i : Instr) (s t : State), exec i s = .next t → ∀ c d, (coefAt s c d).v = false → (coefAt t c d).v = true →
    ∃ x ∈ newTransactions s t, FiveByteExchange s.params c d x) ∧
  ∀ s t : State, WithinSession s t → ∀ c d, (coefAt s c d).v = true → (coefAt t c d).v = true

/-- R51, R101, R108: the log only grows; every transaction an operation puts on the bus goes to `ADDR` and is permitted by
`CAPS`, and each consumes one answer of the bus. A WRITE_BLOCK may also read `DATA` (log 10), which is one more draw.
R46: no operation changes a parameter; nor does it touch the host's side. -/
def Obligations.EveryTransactionIsPermitted : Prop :=
  ∀ (i : Instr) (s t : State), exec i s = .next t →
    t.busLog = s.busLog ++ newTransactions s t ∧
    (∀ x ∈ newTransactions s t, x.addr = s.addr ∧ permitted s.params x.req = true) ∧
    t.answers = s.answers.drop (newTransactions s t).length ∧
    s.draws + (newTransactions s t).length ≤ t.draws ∧
    (isWriteBlock i = false → t.draws = s.draws + (newTransactions s t).length) ∧
    t.params = s.params ∧ t.req = s.req ∧ t.host = s.host

/-- R104, R119, R286: outside SCAN, which may change it, every frame that can carry PEC does so exactly when `PEC_EN` is 1,
but for the first transaction of a READ_BLOCK, the length read, which never does; and `PEC_EN` is unchanged after it.
R225: of a SCAN from `PEC_EN` 0 no frame carries PEC where `PEC_EN` stays 0; where it becomes 1, none does up to the read of
the CAPABILITY byte, and every later one that can carry PEC does. -/
def Obligations.PecOfEveryTransaction : Prop :=
  ∀ (i : Instr) (s t : State), exec i s = .next t →
    (i ≠ .scan → isReadBlock i = false → ∀ x ∈ newTransactions s t,
      carriesPec x.req = s.pecEn ∨ x.req = .quick ∨ ∃ bytes n, x.req = .raw bytes n) ∧
    (isReadBlock i = true → t.pecEn = s.pecEn ∧
      ∀ x xs, newTransactions s t = x :: xs → (∃ c, x.req = .readByte c false) ∧
        ∀ y ∈ xs, (∃ c, y.req = .blockRead c s.pecEn) ∨ ∃ bytes n, y.req = .raw bytes n) ∧
    (i = .scan → s.pecEn = false →
      (t.pecEn = false → ∀ x ∈ newTransactions s t, carriesPec x.req = false) ∧
      (t.pecEn = true → ∃ early u late,
        newTransactions s t =
          early ++ ⟨s.addr, .readByte s.params.codes.capability false, .completed [u] none⟩ :: late ∧
        t.capByte = u ∧ (∀ x ∈ early, carriesPec x.req = false) ∧
        ∀ x ∈ late, carriesPec x.req = true ∨ x.req = .quick ∨ ∃ bytes n, x.req = .raw bytes n))

/-- R54, R114, R254: only READ_BLOCK changes `DATA`, and of it only bytes below both its buffer length and `RLEN`, so
never byte 255; an operation that ends with neither OK nor SIZE_EXCEEDED changes neither `DATA` nor a result register. -/
def Obligations.DataAndResultsHaveTheirWriters : Prop :=
  ∀ (i : Instr) (s t : State), exec i s = .next t →
    (isReadBlock i = false → t.data = s.data ∧ t.rlen = s.rlen) ∧
    (∀ cmd n, i = .readBlock cmd n → ∀ j, min n.toNat t.rlen.toNat ≤ j →
      Memory.read? t.data j = Memory.read? s.data j) ∧
    Memory.read? t.data 255 = Memory.read? s.data 255 ∧
    (t.status ≠ .ok → t.status ≠ .sizeExceeded → t.data = s.data ∧ SameResults s t)

/-- R204, R168: the codec operations and the GET operations make no bus transaction and write nothing but `RESULT`,
`VALUE`, `VALUE_KIND`, `STATUS` and `CAUSE`; they always complete. -/
def Obligations.CodecAndReadBackWriteOnlyResults : Prop :=
  ∀ (i : Instr) (s : State), isCodec i = true ∨ isReadBack i = true →
    ∃ t, exec i s = .next t ∧
      t = { s with
        result := t.result, value := t.value, valueKind := t.valueKind, status := t.status, cause := t.cause }

/-- R109, R293: an operation is never refused, and it stops only where the adapter never answers one of its transactions;
where the transaction is one READ_BYTE makes, that is enough. The spec says that such an operation never completes; that it
is a fault, and that the answers are those of the list and then free ones by the draw counter, is the model's choice
(log 3). -/
def Obligations.OnlyASilentAdapterStopsAnOperation : Prop :=
  (∀ (i : Instr) (s : State), (∀ r, exec i s ≠ .refused r) ∧
    ∀ f, exec i s = .fault f → f = .busNeverAnswers ∧
      (BusAnswer.never ∈ s.answers ∨ ∃ n, s.draws ≤ n ∧ Config.busAnswer n = .never)) ∧
  ∀ (cmd : Word16) (s : State), SessionOpen s → cmd.toNat ≤ 0xFD → capByteBit s.params = true →
    nextAnswer s = .never → exec (.readByte cmd) s = .fault .busNeverAnswers

/-- R151, R293: every operation, with any operands in any state, completes where enough answers are listed and none of
them is a silent adapter. The list of answers is the model's (log 3). -/
def Obligations.EveryOperationCompletes : Prop :=
  ∀ (i : Instr) (s : State), Answered (answersNeeded i s) s → ∃ t, exec i s = .next t

/-! ## Session operations (44_session.md) -/

/-- R221, R281: OPEN. -/
def Obligations.OpenStartsAnEmptySession : Prop :=
  ∀ (a : BitVec 7) (p : Bool) (s : State),
    (SessionOpen s → exec (.openSession a p) s = .next (endsAs .illegalState .noCause s)) ∧
    (¬SessionOpen s → ReservedAddress a → exec (.openSession a p) s = .next (endsAs .invalidArgument .noCause s)) ∧
    (¬SessionOpen s → ¬ReservedAddress a → ∃ t, exec (.openSession a p) s = .next t ∧
      t = { s with
        noQuery := false, pecEn := false, capByte := 0x00#8, capValid := false, revByte := 0x00#8, revValid := false
        voutModeValid := false, slot := t.slot, qbyte := t.qbyte, coef := t.coef, addr := a, pecReq := p
        sessionState := .attached, status := .ok, cause := .noCause } ∧
      ∀ c, slotAt t c = .notProbed ∧ qbyteAt t c = 0x00#8 ∧
        ∀ d, coefAt t c d = { r := 0x00#8, m := 0x0000#16, b := 0x0000#16, v := false })

/-- R222, R223: SCAN step (a), and what follows it: the QUERY command's own negotiation, the two byte reads and the sweep,
in this order, each on the state the one before it left, and the end in Scanned with OK. R227: the sweep checks the entries
of the catalog in their order, whatever the verdicts, and ends with the last. -/
def Obligations.ScanRunsItsStepsInOrder : Prop :=
  (∀ s, sweep [] s = .ok ((), s)) ∧
  (∀ e es s v t, checkSupportCore e.code s = .ok (v, t) → sweep (e :: es) s = sweep es t) ∧
  (∀ e es s f, checkSupportCore e.code s = .error f → sweep (e :: es) s = .error f) ∧
  ∀ s : State, s.sessionState = .attached →
    (capQuick s.params = false →
      exec .scan s = .next (endsAs .unsupported .noCause { s with sessionState := .closed })) ∧
    (capQuick s.params = true →
      (∀ k u, BusFails .quick s k u →
        exec .scan s = .next (endsAs .transportError (failCauseValue k) { u with sessionState := .closed })) ∧
      ∀ u, BusOk .quick s [] u →
        ∀ v₁ s₁, checkSupportCore (cmdOf s.params.codes.query) u = .ok (v₁, s₁) →
        ∀ s₂, readCapability s₁ = .ok ((), s₂) →
        ∀ s₃, readRevision s₂ = .ok ((), s₃) →
        ∀ s₄, sweep s.params.catalog.entries s₃ = .ok ((), s₄) →
          exec .scan s = .next (endsAs .ok .noCause { s₄ with sessionState := .scanned }))

/-- R225, R226: the reads of steps (c) and (d): on a byte they store it and mark it, and step (c) sets `PEC_EN` where
adapter, device and operator agree; on a failure nothing of the block changes. -/
def Obligations.ScanReadsTwoBytes : Prop :=
  ∀ s : State,
    (∀ u t, BusOk (.readByte s.params.codes.capability s.pecEn) s [u] t →
      readCapability s = .ok ((), { t with
        capByte := u, capValid := true
        pecEn := s.pecEn || (capPec s.params && u.getLsbD s.params.capPecBit.val && s.pecReq) })) ∧
    (∀ k t, BusFails (.readByte s.params.codes.capability s.pecEn) s k t → readCapability s = .ok ((), t)) ∧
    (∀ u t, BusOk (.readByte s.params.codes.pmbusRevision s.pecEn) s [u] t →
      readRevision s = .ok ((), { t with revByte := u, revValid := true })) ∧
    (∀ k t, BusFails (.readByte s.params.codes.pmbusRevision s.pecEn) s k t → readRevision s = .ok ((), t))

/-- R222, R223, R234: SCAN of an Attached session with a device that acknowledges its address completes in Scanned with
OK, whatever the bus answers to the later steps; the address, the PEC request, `DATA` and the result registers stay. -/
def Obligations.ScanReachesScanned : Prop :=
  ∀ (s : State) (bytes : List Byte) (rest : List BusAnswer), s.sessionState = .attached → capQuick s.params = true →
    s.answers = .complete bytes :: rest → Answered (answersNeeded .scan s) s →
    ∃ t, exec .scan s = .next t ∧ t.sessionState = .scanned ∧ t.status = .ok ∧ t.cause = .noCause ∧
      t.addr = s.addr ∧ t.pecReq = s.pecReq ∧ t.pecSaved = s.pecSaved ∧ SameResults s t ∧ SameSurroundings s t

/-- R225: after a SCAN that ends OK, PEC is on exactly where the CAPABILITY byte was read and adapter, device and operator
agree on PEC; R227, R141, R143, R144: every core code of the catalog is bound, unless negotiation was impossible. -/
def Obligations.ScanAgreesOnPecAndSweeps : Prop :=
  ∀ s t : State, exec .scan s = .next t → t.status = .ok →
    (s.pecEn = false → s.capValid = false →
      t.pecEn = (t.capValid && capPec s.params && t.capByte.getLsbD s.params.capPecBit.val && s.pecReq)) ∧
    ∀ e ∈ s.params.catalog.entries, e.code.toNat ≤ 0xFD →
      slotAt t (e.code.extractLsb' 0 8) ≠ .notProbed ∨ t.noQuery = true ∨
        slotAt t s.params.codes.query = .unsupported

/-- R228: PAGE_SELECT. -/
def Obligations.PageSelectWritesPage : Prop :=
  ∀ (page : Byte) (s : State),
    (s.sessionState ≠ .scanned → exec (.pageSelect page) s = .next (endsAs .illegalState .noCause s)) ∧
    (s.sessionState = .scanned →
      (∀ u, BusOk (.writeByte s.params.codes.page page s.pecEn) s [] u →
        exec (.pageSelect page) s = .next (endsAs .ok .noCause u)) ∧
      ∀ k u, BusFails (.writeByte s.params.codes.page page s.pecEn) s k u →
        exec (.pageSelect page) s =
          .next (endsAs .transportError (failCauseValue k) { u with sessionState := .closed }))

/-- R229, R231: REPORT and CLOSE. -/
def Obligations.ReportAndCloseMoveTheSession : Prop :=
  ∀ s : State,
    (s.sessionState ≠ .scanned → exec .report s = .next (endsAs .illegalState .noCause s)) ∧
    (s.sessionState = .scanned → exec .report s = .next (endsAs .ok .noCause { s with sessionState := .reporting })) ∧
    exec .closeSession s = .next (endsAs .ok .noCause { s with sessionState := .closed })

/-- R230: GET_SESSION, bit by bit. -/
def Obligations.GetSessionPacksTheRegisters : Prop :=
  ∀ s : State, ∃ (r : Word16) (v : BitVec 64),
    exec .getSession s =
      .next (endsAs .ok .noCause { s with result := r, value := .word v, valueKind := .uint }) ∧
    r.extractLsb' 0 3 = sessionCode s.sessionState ∧ r.getLsbD 3 = s.pecEn ∧ r.getLsbD 4 = s.noQuery ∧
    r.getLsbD 5 = s.capValid ∧ r.getLsbD 6 = s.revValid ∧ r.getLsbD 7 = s.voutModeValid ∧ r.getLsbD 8 = s.pecReq ∧
    r.extractLsb' 9 7 = 0#7 ∧
    v.extractLsb' 0 8 = s.capByte ∧ v.extractLsb' 8 8 = s.revByte ∧ v.extractLsb' 16 7 = s.addr ∧
    v.extractLsb' 23 41 = 0#41

/-! ## The transaction unit (40_transport.md, 30_encoding.md §4) -/

/-- R100, R101, R102, R106, R107, R108: one call of the TU, for every answer the bus may give; a transaction changes nothing
of the block proper, only the bus side, where its answer is consumed and the transaction logged. The model's choices: the
fault of an adapter that never answers (log 3), and what the CRC accumulator holds after a completed frame (log 8). -/
def Obligations.TransactionUnitFollowsTheBus : Prop :=
  ∀ (r : BusReq) (s : State),
    (∀ device u, BusOk r s device u →
      transact r s = .ok (.ok (if hasCount r then device.tail else device), u)) ∧
    (∀ k u, BusFails r s k u → transact r s = .ok (.fail k, u)) ∧
    (∀ u, BusBadCount r s u → transact r s = .ok (.badCount, u)) ∧
    (permitted s.params r = true → nextAnswer s = .never → transact r s = .error .busNeverAnswers) ∧
    ∀ e : BusEnd, ∃ crc : Byte,
      afterTransaction r e s = { s with
        answers := s.answers.tail, draws := s.draws + 1, crcAcc := crc
        busLog := s.busLog ++ [{ addr := s.addr, req := r, ended := e }] } ∧
      ∀ device pec, e = .completed device pec →
        crc = if carriesPec r then crc8 (coveredBytes s.addr r device) else 0x00#8

/-- The model's choice (log 4): an answer with more or fewer bytes than the frame takes is one of the answers `BusOk`,
`BusFails` and `BusBadCount` describe: cut to the frame, or continued with 0x00. -/
def Obligations.EveryAnswerIsReadByTheFrame : Prop :=
  ∀ (r : BusReq) (s : State) (bytes : List Byte), permitted s.params r = true → nextAnswer s = .complete bytes →
    ∃ exact : List Byte,
      (∀ i, i < exact.length → exact.getD i 0x00#8 = bytes.getD i 0x00#8) ∧
      let s' := { s with answers := .complete exact :: s.answers.tail }
      transact r s = transact r s' ∧
        ((∃ device u, BusOk r s' device u) ∨ (∃ u, BusFails r s' .pecMismatch u) ∨ ∃ u, BusBadCount r s' u)

/-- R79 to R88: the wire frames, with and without PEC: `m` bytes the block drives, `s` bytes the device drives. -/
def Obligations.WireFramesOfTheSpec : Prop :=
  ∀ (a : BitVec 7) (c v d lo hi : Byte) (w : Word16) (bs ds : List Byte) (pec : Bool) (q : Option Byte) (n : Nat),
    let aw : Byte := a ++ 0b0#1
    let ar : Byte := a ++ 0b1#1
    let w₀ : Byte := w.extractLsb' 0 8
    let w₁ : Byte := w.extractLsb' 8 8
    let count : Byte := BitVec.ofNat 8 bs.length
    let writes (ms : List Byte) : Option (List WireEvent) := some (WireEvent.start :: (ms.map .m).append [.stop])
    let reads (ms ss : List Byte) : Option (List WireEvent) :=
      some (WireEvent.start :: (ms.map .m).append (.restart :: .m ar :: (ss.map .s).append [.stop]))
    let frame (r : BusReq) (device : List Byte) (p : Option Byte) : Option (List WireEvent) :=
      frameOf ⟨a, r, .completed device p⟩
    frame .quick [] none = writes [aw] ∧
    frame (.readByte c pec) [d] q = reads [aw, c] (d :: q.toList) ∧
    frame (.readWord c pec) [lo, hi] q = reads [aw, c] (lo :: hi :: q.toList) ∧
    frame (.writeByte c v pec) [] q = writes (aw :: c :: v :: q.toList) ∧
    frame (.writeWord c w pec) [] q = writes (aw :: c :: w₀ :: w₁ :: q.toList) ∧
    frame (.processCall c w pec) [lo, hi] q = reads [aw, c, w₀, w₁] (lo :: hi :: q.toList) ∧
    frame (.blockRead c pec) (d :: ds) q = reads [aw, c] (d :: ds.append q.toList) ∧
    frame (.blockWrite c bs pec) [] q = writes (aw :: c :: count :: bs.append q.toList) ∧
    frame (.blockProcessCall c bs pec) (d :: ds) q = reads (aw :: c :: count :: bs) (d :: ds.append q.toList) ∧
    frame (.raw bs (n + 1)) ds none = reads (aw :: bs) ds ∧
    frame (.raw bs 0) [] none = writes (aw :: bs) ∧
    aw.toNat = 2 * a.toNat ∧ ar.toNat = 2 * a.toNat + 1

/-- R103: the CRC is the bit loop with polynomial 0x07 and initial value 0x00, most significant bit first; its check value.
R89: the PEC covers every byte of the frame before it. Appended to them it makes the CRC 0, so a frame with a right PEC
byte has CRC 0; and two frames that differ in one byte have different PEC bytes. -/
def Obligations.PecCoversAndDetects : Prop :=
  crc8 [] = 0x00#8 ∧
  (∀ (bs : List Byte) (x : Byte), crc8 (bs ++ [x]) =
    (fun c : Byte => if c.getLsbD 7 = true then (c <<< 1) ^^^ 0x07#8 else c <<< 1)^[8] (crc8 bs ^^^ x)) ∧
  crc8 [0x31#8, 0x32#8, 0x33#8, 0x34#8, 0x35#8, 0x36#8, 0x37#8, 0x38#8, 0x39#8] = 0xF4#8 ∧
  (∀ (a : BitVec 7) (r : BusReq) (device : List Byte) (q : Option Byte) (f : List WireEvent),
    frameOf ⟨a, r, .completed device q⟩ = some f →
    f.filterMap (fun e => match e with | .m x => some x | .s x => some x | _ => none)
      = coveredBytes a r device ++ q.toList) ∧
  (∀ bs : List Byte, crc8 (bs ++ [crc8 bs]) = 0x00#8) ∧
  ∀ (xs ys : List Byte) (x y : Byte), x ≠ y → crc8 (xs ++ x :: ys) ≠ crc8 (xs ++ y :: ys)

/-! ## Transport operations (40_transport.md R110 to R117) -/

/-- R110: QUICK_PRESENCE. -/
def Obligations.QuickPresenceReportsTheDevice : Prop :=
  ∀ s : State, SessionOpen s →
    (capQuick s.params = false → exec .quickPresence s = .next (endsAs .unsupported .noCause s)) ∧
    (∀ u, BusOk .quick s [] u →
      exec .quickPresence s = .next (endsAs .ok .noCause { u with result := 0x0001#16 })) ∧
    (∀ u, capQuick s.params = true → BusFails .quick s (.oracle .nakAddr) u →
      exec .quickPresence s = .next (endsAs .ok .noCause { u with result := 0x0000#16 })) ∧
    ∀ k u, capQuick s.params = true → k ≠ .oracle .nakAddr → BusFails .quick s k u →
      exec .quickPresence s = .next (endsAs .transportError (failCauseValue k) u)

/-- R111, R112: READ_BYTE and READ_WORD. -/
def Obligations.ReadByteAndWordResults : Prop :=
  ∀ (cmd : Word16) (s : State), SessionOpen s →
    (0x00FD < cmd.toNat →
      exec (.readByte cmd) s = .next (endsAs .notImplemented .noCause s) ∧
      exec (.readWord cmd) s = .next (endsAs .notImplemented .noCause s)) ∧
    (cmd.toNat ≤ 0x00FD →
      (∀ d u, BusOk (.readByte (cmd.extractLsb' 0 8) s.pecEn) s [d] u →
        exec (.readByte cmd) s = .next (endsAs .ok .noCause { u with result := d.setWidth 16 })) ∧
      (∀ k u, BusFails (.readByte (cmd.extractLsb' 0 8) s.pecEn) s k u →
        exec (.readByte cmd) s = .next (endsAs .transportError (failCauseValue k) u)) ∧
      (∀ (lo hi : Byte) u, BusOk (.readWord (cmd.extractLsb' 0 8) s.pecEn) s [lo, hi] u →
        exec (.readWord cmd) s = .next (endsAs .ok .noCause { u with result := hi ++ lo })) ∧
      ∀ k u, BusFails (.readWord (cmd.extractLsb' 0 8) s.pecEn) s k u →
        exec (.readWord cmd) s = .next (endsAs .transportError (failCauseValue k) u))

/-- R113, R114: READ_BLOCK by the native path: a length read without PEC, then a block read whose own count is used. -/
def Obligations.ReadBlockByTheNativePath : Prop :=
  ∀ (cmd : Word16) (n : BitVec 12) (s : State) (l : Byte) (s₁ : State),
    SessionOpen s → cmd.toNat ≤ 0x00FD → 1 ≤ n.toNat → n.toNat ≤ 255 →
    BusOk (.readByte (cmd.extractLsb' 0 8) false) s [l] s₁ → l.toNat ≤ s.params.blockLimit →
    capBlockRead s.params = true →
    let s₂ := { s₁ with pecSaved := s.pecEn }
    (∀ c bs u, BusOk (.blockRead (cmd.extractLsb' 0 8) s.pecEn) s₂ (c :: bs) u →
      exec (.readBlock cmd n) s = .next (delivered bs n.toNat u)) ∧
    (∀ k u, BusFails (.blockRead (cmd.extractLsb' 0 8) s.pecEn) s₂ k u →
      exec (.readBlock cmd n) s = .next (endsAs .transportError (failCauseValue k) u)) ∧
    ∀ u, BusBadCount (.blockRead (cmd.extractLsb' 0 8) s.pecEn) s₂ u →
      exec (.readBlock cmd n) s = .next (endsAs .protocolViolation .noCause u)

/-- R113: READ_BLOCK where the length read fails, and by the raw path, for a length above the limit or an adapter without
block reads: a raw exchange of one byte more than the length, whose first byte must repeat it. -/
def Obligations.ReadBlockByTheRawPath : Prop :=
  ∀ (cmd : Word16) (n : BitVec 12) (s : State),
    SessionOpen s → cmd.toNat ≤ 0x00FD → 1 ≤ n.toNat → n.toNat ≤ 255 →
    (∀ k u, BusFails (.readByte (cmd.extractLsb' 0 8) false) s k u →
      exec (.readBlock cmd n) s = .next (endsAs .transportError (failCauseValue k) { u with pecSaved := s.pecEn })) ∧
    ∀ l s₁, BusOk (.readByte (cmd.extractLsb' 0 8) false) s [l] s₁ →
      s.params.blockLimit < l.toNat ∨ capBlockRead s.params = false →
      let s₂ := { s₁ with pecSaved := s.pecEn }
      (capRaw s.params = false → exec (.readBlock cmd n) s = .next (endsAs .unsupported .noCause s₂)) ∧
      (capRaw s.params = true →
        (∀ bs u, BusOk (.raw [cmd.extractLsb' 0 8] (l.toNat + 1)) s₂ (l :: bs) u →
          exec (.readBlock cmd n) s = .next (delivered bs n.toNat u)) ∧
        (∀ x bs u, x ≠ l → BusOk (.raw [cmd.extractLsb' 0 8] (l.toNat + 1)) s₂ (x :: bs) u →
          exec (.readBlock cmd n) s = .next (endsAs .protocolViolation .noCause u)) ∧
        ∀ k u, BusFails (.raw [cmd.extractLsb' 0 8] (l.toNat + 1)) s₂ k u →
          exec (.readBlock cmd n) s = .next (endsAs .transportError (failCauseValue k) u))

/-- R114: what the copy of READ_BLOCK leaves, register by register and byte by byte, for a block of at most 255 bytes. -/
def Obligations.CopyDeliversWhatFits : Prop :=
  ∀ (bs : List Byte) (n : Nat) (s : State), bs.length ≤ 255 →
    ∃ m, copyOut bs n s = .next { s with
        data := m, result := BitVec.ofNat 16 bs.length, rlen := BitVec.ofNat 9 (min bs.length n)
        status := if bs.length ≤ n then .ok else .sizeExceeded, cause := .noCause } ∧
      (∀ j, Memory.read? m j = if j < min bs.length n then bs[j]? else Memory.read? s.data j) ∧
      copyOut bs n s = .next (delivered bs n s)

/-- R115, R116, R105: WRITE_BYTE and WRITE_WORD; with PEC on, the byte that follows the data is the CRC of the frame. -/
def Obligations.WriteByteAndWordFrames : Prop :=
  ∀ (cmd v : Word16) (x : Byte) (s : State), SessionOpen s →
    (0x00FD < cmd.toNat →
      exec (.writeByte cmd x) s = .next (endsAs .notImplemented .noCause s) ∧
      exec (.writeWord cmd v) s = .next (endsAs .notImplemented .noCause s)) ∧
    (cmd.toNat ≤ 0x00FD →
      (∀ u, BusOk (.writeByte (cmd.extractLsb' 0 8) x s.pecEn) s [] u →
        exec (.writeByte cmd x) s = .next (endsAs .ok .noCause u) ∧
        (s.pecEn = true → newTransactions s u = [⟨s.addr, .writeByte (cmd.extractLsb' 0 8) x true,
          .completed [] (some (crc8 [s.addr ++ 0b0#1, cmd.extractLsb' 0 8, x]))⟩])) ∧
      (∀ k u, BusFails (.writeByte (cmd.extractLsb' 0 8) x s.pecEn) s k u →
        exec (.writeByte cmd x) s = .next (endsAs .transportError (failCauseValue k) u)) ∧
      (∀ u, BusOk (.writeWord (cmd.extractLsb' 0 8) v s.pecEn) s [] u →
        exec (.writeWord cmd v) s = .next (endsAs .ok .noCause u) ∧
        (s.pecEn = true → newTransactions s u = [⟨s.addr, .writeWord (cmd.extractLsb' 0 8) v true,
          .completed [] (some (crc8 [s.addr ++ 0b0#1, cmd.extractLsb' 0 8, v.extractLsb' 0 8, v.extractLsb' 8 8]))⟩])) ∧
      ∀ k u, BusFails (.writeWord (cmd.extractLsb' 0 8) v s.pecEn) s k u →
        exec (.writeWord cmd v) s = .next (endsAs .transportError (failCauseValue k) u))

/-- R117: WRITE_BLOCK of the first bytes of `DATA`; a byte nobody has written is a free value (log 10), and reading `DATA`
is one draw. -/
def Obligations.WriteBlockSendsData : Prop :=
  ∀ (cmd : Word16) (n : BitVec 12) (s : State), SessionOpen s → cmd.toNat ≤ 0x00FD → 1 ≤ n.toNat → n.toNat ≤ 255 →
    ∃ bs : List Byte, bs.length = n.toNat ∧
      (∀ i b, i < n.toNat → Memory.read? s.data i = some b → bs[i]? = some b) ∧
      (∀ i, i < n.toNat → Memory.read? s.data i = none → bs[i]? = some (Config.unwrittenByte s.draws i)) ∧
      let s₁ := { s with draws := s.draws + 1 }
      let native := n.toNat ≤ s.params.blockLimit ∧ capBlockWrite s.params = true
      let block := BusReq.blockWrite (cmd.extractLsb' 0 8) bs s.pecEn
      let message := BusReq.raw (cmd.extractLsb' 0 8 :: n.setWidth 8 :: bs) 0
      (native → ∀ u, BusOk block s₁ [] u → exec (.writeBlock cmd n) s = .next (endsAs .ok .noCause u)) ∧
      (native → ∀ k u, BusFails block s₁ k u →
        exec (.writeBlock cmd n) s = .next (endsAs .transportError (failCauseValue k) u)) ∧
      (¬native → capRaw s.params = true → ∀ u, BusOk message s₁ [] u →
        exec (.writeBlock cmd n) s = .next (endsAs .ok .noCause u)) ∧
      (¬native → capRaw s.params = true → ∀ k u, BusFails message s₁ k u →
        exec (.writeBlock cmd n) s = .next (endsAs .transportError (failCauseValue k) u)) ∧
      (¬native → capRaw s.params = false → exec (.writeBlock cmd n) s = .next (endsAs .unsupported .noCause s₁))

/-! ## QUERY (41_query.md) -/

/-- R141 to R144: the verdicts of CHECK_SUPPORT that need no bus activity; nothing but `RESULT` (2 Unknown, 1 Unsupported,
0 Supported), `STATUS` and `CAUSE` changes. -/
def Obligations.KnownVerdictsNeedNoBus : Prop :=
  ∀ (cmd : Word16) (s : State), SessionOpen s →
    let c : Byte := cmd.extractLsb' 0 8
    let answers (r : Word16) : Prop :=
      exec (.checkSupport cmd) s = .next (endsAs .ok .noCause { s with result := r })
    (0x00FD < cmd.toNat → answers 2#16) ∧
    (cmd.toNat ≤ 0x00FD →
      (slotAt s c = .unsupported → answers 1#16) ∧
      (slotAt s c = .resolved → answers 0#16) ∧
      (slotAt s c = .notProbed → slotAt s s.params.codes.query = .unsupported → answers 2#16) ∧
      (slotAt s c = .notProbed → s.noQuery = true → answers 2#16))

/-- R145: a negotiation that fails, or whose low byte is not 1, sets `NO_QUERY` and answers Unknown (2); the slot stays. -/
def Obligations.FailedNegotiationIsSticky : Prop :=
  ∀ (cmd : Word16) (s : State), SessionOpen s → cmd.toNat ≤ 0x00FD →
    slotAt s (cmd.extractLsb' 0 8) = .notProbed → slotAt s s.params.codes.query ≠ .unsupported → s.noQuery = false →
    let ask := BusReq.processCall s.params.codes.query (cmd.extractLsb' 0 8 ++ 0x01#8) s.pecEn
    (∀ k u, BusFails ask s k u →
      exec (.checkSupport cmd) s = .next (endsAs .ok .noCause { u with noQuery := true, result := 2#16 })) ∧
    ∀ lo q u, lo ≠ 0x01#8 → BusOk ask s [lo, q] u →
      exec (.checkSupport cmd) s = .next (endsAs .ok .noCause { u with noQuery := true, result := 2#16 })

/-- R145, R146, R147, R149: a negotiation answered with query byte `q`. Without SUPPORTED the slot is bound to Unsupported
(verdict 1); with it the byte is stored and the slot bound to Resolved (verdict 0), and for VOUT_MODE its byte is then
read and stored as `R` of both coefficient sets, or nothing changes on a failure. The first clauses say what a write of
the table is. -/
def Obligations.NegotiationBindsTheSlot : Prop :=
  (∀ c c' x s, slotAt (setSlot c x s) c' = if c' = c then x else slotAt s c') ∧
  (∀ c c' q s, qbyteAt (setQbyte c q s) c' = if c' = c then q else qbyteAt s c') ∧
  (∀ c c' d d' k s, coefAt (setCoef c d k s) c' d' = if c' = c ∧ d' = d then k else coefAt s c' d') ∧
  ∀ (cmd : Word16) (s : State), SessionOpen s → cmd.toNat ≤ 0x00FD →
    slotAt s (cmd.extractLsb' 0 8) = .notProbed → slotAt s s.params.codes.query ≠ .unsupported → s.noQuery = false →
    let c : Byte := cmd.extractLsb' 0 8
    ∀ q u, BusOk (.processCall s.params.codes.query (c ++ 0x01#8) s.pecEn) s [0x01#8, q] u →
    (q.getLsbD 7 = false →
      exec (.checkSupport cmd) s = .next (endsAs .ok .noCause { setSlot c .unsupported u with result := 1#16 })) ∧
    (q.getLsbD 7 = true →
      let bound := setSlot c .resolved (setQbyte c q u)
      (c ≠ s.params.codes.voutMode → q.extractLsb' 2 3 ≠ 3#3 →
        exec (.checkSupport cmd) s = .next (endsAs .ok .noCause { bound with result := 0#16 })) ∧
      (c = s.params.codes.voutMode →
        (∀ x t, BusOk (.readByte c s.pecEn) bound [x] t →
          exec (.checkSupport cmd) s = .next (endsAs .ok .noCause
            { setCoef c .write { coefAt t c .write with r := x } (setCoef c .read { coefAt t c .read with r := x } t) with
              voutModeValid := true, result := 0#16 })) ∧
        ∀ k t, BusFails (.readByte c s.pecEn) bound k t →
          exec (.checkSupport cmd) s = .next (endsAs .ok .noCause { t with result := 0#16 })))

/-- R148, R151: the nested check is the same check (the model writes the recursion out to its bound). For a DIRECT code just
bound it gives a verdict and a state: where COEFFICIENTS was Resolved, or is the code itself, Supported with no bus
activity, where it was Unsupported, that; where it was not probed, whatever its negotiation gives. On Supported the read
direction is fetched where bit 5 is set, then the write direction where bit 6 is set, their outcomes discarded; on another
verdict nothing is fetched. The verdict of the code is 0 in every case. -/
def Obligations.DirectCodesFetchTheirCoefficients : Prop :=
  (∀ (cmd : Word16) (s : State),
    checkSupportCore cmd s = checkWith (checkSupportCore (cmdOf s.params.codes.coefficients)) cmd s) ∧
  ∀ (cmd : Word16) (s : State) (q : Byte) (u : State), SessionOpen s → cmd.toNat ≤ 0x00FD →
    let c : Byte := cmd.extractLsb' 0 8
    let coefficients := s.params.codes.coefficients
    slotAt s c = .notProbed → slotAt s s.params.codes.query ≠ .unsupported → s.noQuery = false →
    c ≠ s.params.codes.voutMode →
    BusOk (.processCall s.params.codes.query (c ++ 0x01#8) s.pecEn) s [0x01#8, q] u →
    q.getLsbD 7 = true → q.extractLsb' 2 3 = 3#3 →
    let bound := setSlot c .resolved (setQbyte c q u)
    (slotAt s coefficients = .resolved ∨ c = coefficients →
      checkSupportCore (cmdOf coefficients) bound = .ok (.supported, bound)) ∧
    (slotAt s coefficients = .unsupported →
      checkSupportCore (cmdOf coefficients) bound = .ok (.unsupported, bound)) ∧
    ∀ verdict s₀, checkSupportCore (cmdOf coefficients) bound = .ok (verdict, s₀) →
      (verdict ≠ .supported →
        exec (.checkSupport cmd) s = .next (endsAs .ok .noCause { s₀ with result := 0#16 })) ∧
      (verdict = .supported → ∀ e₁ s₁ e₂ s₂,
        (if q.getLsbD 5 then fetchCoefficientsCore c .read s₀ = .ok (e₁, s₁) else s₁ = s₀) →
        (if q.getLsbD 6 then fetchCoefficientsCore c .write s₁ = .ok (e₂, s₂) else s₂ = s₁) →
        exec (.checkSupport cmd) s = .next (endsAs .ok .noCause { s₂ with result := 0#16 }))

/-- R151: one CHECK_SUPPORT makes at most 2 process calls and 4 coefficient fetches of one transaction each, and for
VOUT_MODE at most 1 process call and 1 byte read. -/
def Obligations.CheckSupportIsBounded : Prop :=
  ∀ (cmd : Word16) (s t : State), exec (.checkSupport cmd) s = .next t →
    let calls := (newTransactions s t).filter fun x => match x.req with | .processCall _ _ _ => true | _ => false
    let others := (newTransactions s t).filter fun x => match x.req with | .processCall _ _ _ => false | _ => true
    calls.length ≤ 2 ∧ others.length ≤ 4 ∧
    (cmd ≠ s.params.codes.voutMode.setWidth 16 → ∀ x ∈ others, ∃ c d,
      x.req = .blockProcessCall s.params.codes.coefficients [c, d] s.pecEn ∨
        x.req = .raw [s.params.codes.coefficients, 0x02#8, c, d] 6) ∧
    (cmd = s.params.codes.voutMode.setWidth 16 → calls.length ≤ 1 ∧ others.length ≤ 1 ∧
      ∀ x ∈ others, x.req = .readByte s.params.codes.voutMode s.pecEn)

/-- R140, R146, R147, R150: CHECK_SUPPORT of an open session that is answered completes with OK, and its verdict is the
slot: 0 where it is Resolved, 1 where it is Unsupported, 2 where it is still NotProbed or the code is extended. -/
def Obligations.CheckSupportAnswersTheSlot : Prop :=
  ∀ (cmd : Word16) (s : State), SessionOpen s → Answered 6 s →
    ∃ t, exec (.checkSupport cmd) s = .next t ∧ t.status = .ok ∧ t.cause = .noCause ∧
      (0x00FD < cmd.toNat → t.result = 2#16) ∧
      (cmd.toNat ≤ 0x00FD → t.result =
        match slotAt t (cmd.extractLsb' 0 8) with
        | .resolved => 0#16
        | .unsupported => 1#16
        | .notProbed => 2#16)

/-! ## Coefficients (42_coefficients.md) -/

/-- R161, R162, R163: FETCH_COEFFICIENTS stores a five-byte response by the process call, or by the raw exchange of an
adapter without it. -/
def Obligations.FetchStoresFiveBytes : Prop :=
  ∀ (cmd : Word16) (d : Direction) (s : State) (m₀ m₁ b₀ b₁ r : Byte) (u : State), SessionOpen s → cmd.toNat ≤ 0x00FD →
    let c : Byte := cmd.extractLsb' 0 8
    let arg : Word16 := match d with | .write => 0#16 | .read => 1#16
    let dir : Byte := match d with | .write => 0x00#8 | .read => 0x01#8
    let response : List Byte := [0x05#8, m₀, m₁, b₀, b₁, r]
    let stores : Prop := ∃ t, exec (.fetchCoefficients cmd arg) s = .next t ∧
      t = { u with coef := t.coef, status := .ok, cause := .noCause } ∧
      ∀ c' d', coefAt t c' d' =
        if c' = c ∧ d' = d then { m := m₁ ++ m₀, b := b₁ ++ b₀, r := r, v := true } else coefAt s c' d'
    (BusOk (.blockProcessCall s.params.codes.coefficients [c, dir] s.pecEn) s response u → stores) ∧
    (capBlockProcCall s.params = false →
      BusOk (.raw [s.params.codes.coefficients, 0x02#8, c, dir] 6) s response u → stores)

/-- R160 to R164: a FETCH_COEFFICIENTS that does not end OK changes no coefficient set, and one that does changes the set of
its code and direction only and leaves it valid; a response of another length, a count above the limit, a failure and
an adapter with neither path end it with the status named. -/
def Obligations.FailedFetchKeepsTheSet : Prop :=
  (∀ (cmd arg : Word16) (s t : State), exec (.fetchCoefficients cmd arg) s = .next t →
    (t.status ≠ .ok → t.coef = s.coef) ∧
    (t.status = .ok → ∃ d, directionOf arg = some d ∧ (coefAt t (cmd.extractLsb' 0 8) d).v = true ∧
      ∀ c' d', ¬(c' = cmd.extractLsb' 0 8 ∧ d' = d) → coefAt t c' d' = coefAt s c' d')) ∧
  ∀ (cmd : Word16) (d : Direction) (s : State), SessionOpen s → cmd.toNat ≤ 0x00FD →
    let c : Byte := cmd.extractLsb' 0 8
    let arg : Word16 := match d with | .write => 0#16 | .read => 1#16
    let dir : Byte := match d with | .write => 0x00#8 | .read => 0x01#8
    let call := BusReq.blockProcessCall s.params.codes.coefficients [c, dir] s.pecEn
    let message := BusReq.raw [s.params.codes.coefficients, 0x02#8, c, dir] 6
    let ends (st : Status) (k : Cause) (u : State) : Prop := exec (.fetchCoefficients cmd arg) s = .next (endsAs st k u)
    (capBlockProcCall s.params = true →
      (∀ n bs u, n ≠ 0x05#8 → BusOk call s (n :: bs) u → ends .protocolViolation .noCause u) ∧
      (∀ u, BusBadCount call s u → ends .protocolViolation .noCause u) ∧
      ∀ k u, BusFails call s k u → ends .transportError (failCauseValue k) u) ∧
    (capBlockProcCall s.params = false → capRaw s.params = true →
      (∀ n bs u, n ≠ 0x05#8 → BusOk message s (n :: bs) u → ends .protocolViolation .noCause u) ∧
      ∀ k u, BusFails message s k u → ends .transportError (failCauseValue k) u) ∧
    (capBlockProcCall s.params = false → capRaw s.params = false → ends .unsupported .noCause s)

/-- R166, R167: GET_SLOT and GET_COEF, in every session state. -/
def Obligations.SlotAndCoefficientsReadBack : Prop :=
  ∀ (cmd arg : Word16) (s : State),
    let c : Byte := cmd.extractLsb' 0 8
    (0x00FD < cmd.toNat → exec (.getSlot cmd) s = .next (endsAs .notImplemented .noCause s)) ∧
    (1 < arg.toNat → exec (.getCoef cmd arg) s = .next (endsAs .invalidArgument .noCause s)) ∧
    (arg.toNat ≤ 1 → 0x00FD < cmd.toNat → exec (.getCoef cmd arg) s = .next (endsAs .notImplemented .noCause s)) ∧
    (cmd.toNat ≤ 0x00FD →
      (∃ r : Word16, exec (.getSlot cmd) s = .next (endsAs .ok .noCause { s with result := r }) ∧
        r.extractLsb' 8 8 = qbyteAt s c ∧ r.extractLsb' 2 6 = 0#6 ∧ r.extractLsb' 0 2 = slotCode (slotAt s c)) ∧
      ∀ d, arg = (match d with | .write => 0#16 | .read => 1#16) → ∃ v : BitVec 64,
        exec (.getCoef cmd arg) s = .next (endsAs .ok .noCause
          { s with result := (coefAt s c d).r.setWidth 16, value := .word v, valueKind := .uint }) ∧
        v.extractLsb' 0 16 = (coefAt s c d).m ∧ v.extractLsb' 16 16 = (coefAt s c d).b ∧
        v.extractLsb' 32 8 = (coefAt s c d).r ∧ v.getLsbD 40 = (coefAt s c d).v ∧ v.extractLsb' 41 23 = 0#23)

/-! ## The value codec (43_codec.md) -/

/-- R182, R183, R184, R185, R203: CLASSIFY and DECODE. The class is that of the first row of the table that holds, with the
catalog entry of that code or the default one. -/
def Obligations.ClassifyAndDecode : Prop :=
  ∀ (cmd raw : Word16) (s : State), SessionOpen s →
    (0x00FD < cmd.toNat →
      exec (.classify cmd) s = .next (endsAs .notImplemented .noCause s) ∧
      exec (.decodeValue cmd raw) s = .next (endsAs .notImplemented .noCause s)) ∧
    (cmd.toNat ≤ 0x00FD →
      ∀ unit flags, (∃ e ∈ s.params.catalog.entries, e.code = cmd ∧ unit = e.unit ∧ flags = e.flags) ∨
        ((∀ e ∈ s.params.catalog.entries, e.code ≠ cmd) ∧ unit = .none ∧ flags = 0#3) →
      let c : Byte := cmd.extractLsb' 0 8
      let vm := s.params.codes.voutMode
      let linear := slotAt s vm = .resolved ∧ s.voutModeValid = true ∧
        (coefAt s vm .read).r.extractLsb' 5 3 = s.params.voutLinearMode
      let classed (k : Word16) (d : Decoded) : Prop :=
        exec (.classify cmd) s = .next (endsAs .ok .noCause { s with result := k }) ∧
        exec (.decodeValue cmd raw) s =
          .next (endsAs .ok .noCause { s with result := k, value := d.value, valueKind := d.kind })
      let word : Value := .word (raw.setWidth 64)
      let row2 := flags.getLsbD 2 = true ∧ linear
      let format := (qbyteAt s c).extractLsb' 2 3
      (unit = .bits → classed 0#16 ⟨word, .bits⟩) ∧
      (unit ≠ .bits → row2 → classed 1#16 (decodedVout s raw)) ∧
      (unit ≠ .bits → ¬row2 → slotAt s c ≠ .resolved → classed 8#16 ⟨word, .raw⟩) ∧
      (unit ≠ .bits → ¬row2 → slotAt s c = .resolved →
        (format = 0#3 → classed 2#16 (decodedLinear11 s.params raw)) ∧
        (format = 1#3 → classed 3#16 ⟨word, .uint⟩) ∧
        (format = 2#3 → classed 8#16 ⟨word, .raw⟩) ∧
        (format = 3#3 → classed 4#16 (decodedDirect s c raw)) ∧
        (format = 4#3 → classed 5#16 ⟨.word ((raw.extractLsb' 0 8).setWidth 64), .uint⟩) ∧
        (format = 5#3 → classed 6#16 ⟨word, .raw⟩) ∧
        (format = 6#3 → classed 7#16 ⟨word, .raw⟩) ∧
        (format = 7#3 → classed 8#16 ⟨word, .raw⟩)))

/-- R186, R187, R188, R190: DECODE_LINEAR11 completes in every session state; its value is N times 2 to the Y, the 11-bit
mantissa and the 5-bit exponent read as signed: as a rational under EXACT, as its binary64 pattern under BINARY64, +0 for
N = 0 (R180, R188). -/
def Obligations.Linear11IsMantissaTimesPower : Prop :=
  ∀ (raw : Word16) (s : State), ∃ v : Value,
    exec (.decodeLinear11 raw) s = .next (endsAs .ok .noCause { s with value := v, valueKind := .real }) ∧
    (s.params.num = .exact →
      v = .rational (((raw.extractLsb' 0 11).toInt : ℚ) * (2 : ℚ) ^ (raw.extractLsb' 11 5).toInt)) ∧
    (s.params.num = .binary64 → v = .word (patternOf (linear11 binary64Arithmetic raw)) ∧ ∃ w : BitVec 64, v = .word w ∧
      patternValue w = some (((raw.extractLsb' 0 11).toInt : ℚ) * (2 : ℚ) ^ (raw.extractLsb' 11 5).toInt) ∧
      (raw.extractLsb' 0 11 = 0#11 → w = 0#64))

/-- R189: the field split of a LINEAR11 word is a bijection between words and pairs of a mantissa and an exponent. -/
def Obligations.Linear11FieldsAreABijection : Prop :=
  (∀ w : Word16, -1024 ≤ mantissa11 w ∧ mantissa11 w ≤ 1023 ∧ -16 ≤ exponent5 w ∧ exponent5 w ≤ 15 ∧
    encodeLinear11 (mantissa11 w) (exponent5 w) = w) ∧
  ∀ n y : Int, -1024 ≤ n → n ≤ 1023 → -16 ≤ y → y ≤ 15 →
    mantissa11 (encodeLinear11 n y) = n ∧ exponent5 (encodeLinear11 n y) = y

/-- R181 (1): under BINARY64 every LINEAR11 and every VOUT-relative result is finite and equals the EXACT result, and so
does the number its 64-bit pattern stands for. The arithmetic is the model's reading of IEEE 754 (log 20). -/
def Obligations.Binary64ScalingIsExact : Prop :=
  (∀ w : Word16, ratOf (linear11 binary64Arithmetic w) = some (linear11 exactArithmetic w) ∧
    patternValue (patternOf (linear11 binary64Arithmetic w)) = some (linear11 exactArithmetic w)) ∧
  ∀ (u : Byte) (raw : Word16),
    ratOf (voutValue binary64Arithmetic u raw) = some (voutValue exactArithmetic u raw) ∧
    patternValue (patternOf (voutValue binary64Arithmetic u raw)) = some (voutValue exactArithmetic u raw)

/-- R191, R192, R193: DECODE_DIRECT. Under EXACT, with usable coefficients, the value is (raw / 10^R - b) / m. Under BINARY64
it is the last of a chain of patterns (R180, R192, R194): the raw word; then R times the one before it divided by 10, or
multiplied for a negative R, each rounded to nearest, ties to even; then b subtracted and rounded, then divided by m and
rounded. A difference of zero is +0, and its quotient by a negative m is -0 (R181 (4)). -/
def Obligations.DirectIsTheLinearTransform : Prop :=
  ∀ (cmd raw : Word16) (s : State), SessionOpen s →
    (0x00FD < cmd.toNat → exec (.decodeDirect cmd raw) s = .next (endsAs .notImplemented .noCause s)) ∧
    (cmd.toNat ≤ 0x00FD →
      let k := coefAt s (cmd.extractLsb' 0 8) .read
      (k.v = false ∨ k.m = 0x0000#16 → exec (.decodeDirect cmd raw) s =
        .next (endsAs .ok .noCause { s with value := .word (raw.setWidth 64), valueKind := .raw })) ∧
      (k.v = true → k.m ≠ 0x0000#16 → ∃ v : Value,
        exec (.decodeDirect cmd raw) s = .next (endsAs .ok .noCause { s with value := v, valueKind := .real }) ∧
        (s.params.num = .exact →
          v = .rational (((raw.toInt : ℚ) / (10 : ℚ) ^ k.r.toInt - (k.b.toInt : ℚ)) / (k.m.toInt : ℚ))) ∧
        (s.params.num = .binary64 → v = .word (patternOf (direct binary64Arithmetic raw k)) ∧
          ∃ (x : Nat → BitVec 64) (y w : BitVec 64), v = .word w ∧
            patternValue (x 0) = some (raw.toInt : ℚ) ∧
            (∀ i, i < k.r.toInt.natAbs → ∃ q, patternValue (x i) = some q ∧
              RoundsTo (if 0 < k.r.toInt then q / 10 else q * 10) (x (i + 1))) ∧
            (∃ q, patternValue (x k.r.toInt.natAbs) = some q ∧ RoundsTo (q - (k.b.toInt : ℚ)) y) ∧
            (∃ q, patternValue y = some q ∧ RoundsTo (q / (k.m.toInt : ℚ)) w ∧
              (q = 0 → y = 0#64 ∧ w = if k.m.toInt < 0 then 0x8000000000000000#64 else 0#64)))))

/-- R180, R16: multiplication, division and subtraction of any finite binary64 values give the exact result rounded to
nearest, ties to even, wherever it is in range, and the integers the decoders convert are exact. R181 (3): no DIRECT result
is an infinity or a NaN, for every raw word and every coefficient set with a slope that is not 0; its pattern is that of a
number. The arithmetic is the model's reading of IEEE 754 (log 20). -/
def Obligations.Binary64RoundsAndDirectNeverOverflows : Prop :=
  (∀ (x y : B64) (a b : ℚ), ratOf x = some a → ratOf y = some b →
    (InRange (a * b) → RoundsTo (a * b) (patternOf (mulB64 x y))) ∧
    (InRange (a - b) → RoundsTo (a - b) (patternOf (subB64 x y))) ∧
    (b ≠ 0 → InRange (a / b) → RoundsTo (a / b) (patternOf (divB64 x y)))) ∧
  (∀ i : Int, i.natAbs < 2 ^ 17 → patternValue (patternOf (intToB64 i)) = some (i : ℚ)) ∧
  ∀ (raw : Word16) (k : CoefSet), k.m ≠ 0x0000#16 →
    (∃ neg m e, direct binary64Arithmetic raw k = .finite neg m e) ∧
    ∃ q, ratOf (direct binary64Arithmetic raw k) = some q ∧
      patternValue (patternOf (direct binary64Arithmetic raw k)) = some q

/-- R195, R196: DECODE_VOUT. The value is the unsigned raw word times 2 to the mode byte's exponent: as a rational under
EXACT, as its binary64 pattern under BINARY64, +0 for a raw word of 0 (R180); without a captured VOUT_MODE byte of linear
mode the raw word is reported. -/
def Obligations.VoutIsScaledByTheModeByte : Prop :=
  ∀ (raw : Word16) (s : State), SessionOpen s →
    let vm := s.params.codes.voutMode
    let u := (coefAt s vm .read).r
    let linear := slotAt s vm = .resolved ∧ s.voutModeValid = true ∧ u.extractLsb' 5 3 = s.params.voutLinearMode
    (¬linear → exec (.decodeVout raw) s =
      .next (endsAs .ok .noCause { s with value := .word (raw.setWidth 64), valueKind := .raw })) ∧
    (linear → ∃ v : Value,
      exec (.decodeVout raw) s = .next (endsAs .ok .noCause { s with value := v, valueKind := .real }) ∧
      (s.params.num = .exact → v = .rational ((raw.toNat : ℚ) * (2 : ℚ) ^ (u.extractLsb' 0 5).toInt)) ∧
      (s.params.num = .binary64 → v = .word (patternOf (voutValue binary64Arithmetic u raw)) ∧ ∃ w : BitVec 64, v = .word w ∧
        patternValue w = some ((raw.toNat : ℚ) * (2 : ℚ) ^ (u.extractLsb' 0 5).toInt) ∧ (raw = 0#16 → w = 0#64)))

/-- R201, R202: DECODE_BITMAP reports the mask and how many of its bits are set, in every session state. -/
def Obligations.BitmapCountsItsBits : Prop :=
  ∀ (raw : Word16) (s : State), ∃ n : Nat,
    exec (.decodeBitmap raw) s = .next (endsAs .ok .noCause
      { s with result := BitVec.ofNat 16 n, value := .word (raw.setWidth 64), valueKind := .bits }) ∧
    n = (Finset.univ.filter fun i : Fin 16 => raw.getLsbD i.val = true).card ∧ n ≤ 16

/-- R21, R30, R95, R98, R250, R252: the numeric codes of the registers and results. -/
def Obligations.RegisterCodes : Prop :=
  [SessionState.unopened, .attached, .scanned, .reporting, .closed].map sessionCode = [0, 1, 2, 3, 4] ∧
  [Slot.notProbed, .unsupported, .resolved].map slotCode = [0, 1, 2] ∧
  [Status.ok, .transportError, .protocolViolation, .unsupported, .notImplemented, .invalidArgument, .sizeExceeded,
    .illegalOp, .illegalState].map statusCode = [0, 1, 2, 3, 4, 5, 6, 7, 8] ∧
  [Cause.noCause, .nakAddr, .nakData, .timeout, .arbLost, .busError, .pecMismatch, .noCapability,
    .adapterOther].map causeCode = [0, 1, 2, 3, 4, 5, 6, 7, 8] ∧
  [FailCause.oracle .nakAddr, .oracle .nakData, .oracle .timeout, .oracle .arbLost, .oracle .busError, .pecMismatch,
    .noCapability, .oracle .adapterOther].map failCauseValue =
    [.nakAddr, .nakData, .timeout, .arbLost, .busError, .pecMismatch, .noCapability, .adapterOther] ∧
  [ValueKind.raw, .real, .uint, .bits].map valueKindCode = [0, 1, 2, 3] ∧
  [Verdict.supported, .unsupported, .unknown].map verdictCode = [0, 1, 2] ∧
  [ValueClass.bitmap, .voutRelative, .linearFloat, .unsignedInt16, .directFloat, .unsignedInt8, .vidCode,
    .manufacturerSpecific, .unknown].map classCode = [0, 1, 2, 3, 4, 5, 6, 7, 8]
end

