-- ==== Sys2Proof/Laws/State.lean ====
section
/-! SUPPORT. One lemma per field and named update of the state: what the update leaves in the field. All true by `rfl`. -/

namespace Sys2Proof.Machine

/-! ## `endOperation` -/

@[simp] theorem endOperation_params (e : Exit) (s : State) : (endOperation e s).params = s.params := rfl
@[simp] theorem endOperation_sessionState (e : Exit) (s : State) : (endOperation e s).sessionState = s.sessionState := rfl
@[simp] theorem endOperation_addr (e : Exit) (s : State) : (endOperation e s).addr = s.addr := rfl
@[simp] theorem endOperation_pecReq (e : Exit) (s : State) : (endOperation e s).pecReq = s.pecReq := rfl
@[simp] theorem endOperation_pecEn (e : Exit) (s : State) : (endOperation e s).pecEn = s.pecEn := rfl
@[simp] theorem endOperation_noQuery (e : Exit) (s : State) : (endOperation e s).noQuery = s.noQuery := rfl
@[simp] theorem endOperation_capByte (e : Exit) (s : State) : (endOperation e s).capByte = s.capByte := rfl
@[simp] theorem endOperation_capValid (e : Exit) (s : State) : (endOperation e s).capValid = s.capValid := rfl
@[simp] theorem endOperation_revByte (e : Exit) (s : State) : (endOperation e s).revByte = s.revByte := rfl
@[simp] theorem endOperation_revValid (e : Exit) (s : State) : (endOperation e s).revValid = s.revValid := rfl
@[simp] theorem endOperation_voutModeValid (e : Exit) (s : State) : (endOperation e s).voutModeValid = s.voutModeValid := rfl
@[simp] theorem endOperation_slot (e : Exit) (s : State) : (endOperation e s).slot = s.slot := rfl
@[simp] theorem endOperation_qbyte (e : Exit) (s : State) : (endOperation e s).qbyte = s.qbyte := rfl
@[simp] theorem endOperation_coef (e : Exit) (s : State) : (endOperation e s).coef = s.coef := rfl
@[simp] theorem endOperation_req (e : Exit) (s : State) : (endOperation e s).req = s.req := rfl
@[simp] theorem endOperation_data (e : Exit) (s : State) : (endOperation e s).data = s.data := rfl
@[simp] theorem endOperation_status (e : Exit) (s : State) : (endOperation e s).status = exitStatus e := rfl
@[simp] theorem endOperation_cause (e : Exit) (s : State) : (endOperation e s).cause = exitCause e := rfl
@[simp] theorem endOperation_result (e : Exit) (s : State) : (endOperation e s).result = s.result := rfl
@[simp] theorem endOperation_rlen (e : Exit) (s : State) : (endOperation e s).rlen = s.rlen := rfl
@[simp] theorem endOperation_valueKind (e : Exit) (s : State) : (endOperation e s).valueKind = s.valueKind := rfl
@[simp] theorem endOperation_value (e : Exit) (s : State) : (endOperation e s).value = s.value := rfl
@[simp] theorem endOperation_pecSaved (e : Exit) (s : State) : (endOperation e s).pecSaved = s.pecSaved := rfl
@[simp] theorem endOperation_crcAcc (e : Exit) (s : State) : (endOperation e s).crcAcc = s.crcAcc := rfl
@[simp] theorem endOperation_answers (e : Exit) (s : State) : (endOperation e s).answers = s.answers := rfl
@[simp] theorem endOperation_draws (e : Exit) (s : State) : (endOperation e s).draws = s.draws := rfl
@[simp] theorem endOperation_busLog (e : Exit) (s : State) : (endOperation e s).busLog = s.busLog := rfl
@[simp] theorem endOperation_host (e : Exit) (s : State) : (endOperation e s).host = s.host := rfl

/-! ## `afterTransaction` -/

@[simp] theorem afterTransaction_params (r : BusReq) (e : BusEnd) (s : State) : (afterTransaction r e s).params = s.params := rfl
@[simp] theorem afterTransaction_sessionState (r : BusReq) (e : BusEnd) (s : State) : (afterTransaction r e s).sessionState = s.sessionState := rfl
@[simp] theorem afterTransaction_addr (r : BusReq) (e : BusEnd) (s : State) : (afterTransaction r e s).addr = s.addr := rfl
@[simp] theorem afterTransaction_pecReq (r : BusReq) (e : BusEnd) (s : State) : (afterTransaction r e s).pecReq = s.pecReq := rfl
@[simp] theorem afterTransaction_pecEn (r : BusReq) (e : BusEnd) (s : State) : (afterTransaction r e s).pecEn = s.pecEn := rfl
@[simp] theorem afterTransaction_noQuery (r : BusReq) (e : BusEnd) (s : State) : (afterTransaction r e s).noQuery = s.noQuery := rfl
@[simp] theorem afterTransaction_capByte (r : BusReq) (e : BusEnd) (s : State) : (afterTransaction r e s).capByte = s.capByte := rfl
@[simp] theorem afterTransaction_capValid (r : BusReq) (e : BusEnd) (s : State) : (afterTransaction r e s).capValid = s.capValid := rfl
@[simp] theorem afterTransaction_revByte (r : BusReq) (e : BusEnd) (s : State) : (afterTransaction r e s).revByte = s.revByte := rfl
@[simp] theorem afterTransaction_revValid (r : BusReq) (e : BusEnd) (s : State) : (afterTransaction r e s).revValid = s.revValid := rfl
@[simp] theorem afterTransaction_voutModeValid (r : BusReq) (e : BusEnd) (s : State) : (afterTransaction r e s).voutModeValid = s.voutModeValid := rfl
@[simp] theorem afterTransaction_slot (r : BusReq) (e : BusEnd) (s : State) : (afterTransaction r e s).slot = s.slot := rfl
@[simp] theorem afterTransaction_qbyte (r : BusReq) (e : BusEnd) (s : State) : (afterTransaction r e s).qbyte = s.qbyte := rfl
@[simp] theorem afterTransaction_coef (r : BusReq) (e : BusEnd) (s : State) : (afterTransaction r e s).coef = s.coef := rfl
@[simp] theorem afterTransaction_req (r : BusReq) (e : BusEnd) (s : State) : (afterTransaction r e s).req = s.req := rfl
@[simp] theorem afterTransaction_data (r : BusReq) (e : BusEnd) (s : State) : (afterTransaction r e s).data = s.data := rfl
@[simp] theorem afterTransaction_status (r : BusReq) (e : BusEnd) (s : State) : (afterTransaction r e s).status = s.status := rfl
@[simp] theorem afterTransaction_cause (r : BusReq) (e : BusEnd) (s : State) : (afterTransaction r e s).cause = s.cause := rfl
@[simp] theorem afterTransaction_result (r : BusReq) (e : BusEnd) (s : State) : (afterTransaction r e s).result = s.result := rfl
@[simp] theorem afterTransaction_rlen (r : BusReq) (e : BusEnd) (s : State) : (afterTransaction r e s).rlen = s.rlen := rfl
@[simp] theorem afterTransaction_valueKind (r : BusReq) (e : BusEnd) (s : State) : (afterTransaction r e s).valueKind = s.valueKind := rfl
@[simp] theorem afterTransaction_value (r : BusReq) (e : BusEnd) (s : State) : (afterTransaction r e s).value = s.value := rfl
@[simp] theorem afterTransaction_pecSaved (r : BusReq) (e : BusEnd) (s : State) : (afterTransaction r e s).pecSaved = s.pecSaved := rfl
@[simp] theorem afterTransaction_crcAcc (r : BusReq) (e : BusEnd) (s : State) : (afterTransaction r e s).crcAcc = crcAfter s r e := rfl
@[simp] theorem afterTransaction_answers (r : BusReq) (e : BusEnd) (s : State) : (afterTransaction r e s).answers = s.answers.tail := rfl
@[simp] theorem afterTransaction_draws (r : BusReq) (e : BusEnd) (s : State) : (afterTransaction r e s).draws = s.draws + 1 := rfl
@[simp] theorem afterTransaction_busLog (r : BusReq) (e : BusEnd) (s : State) :
    (afterTransaction r e s).busLog = s.busLog ++ [{ addr := s.addr, req := r, ended := e }] := rfl
@[simp] theorem afterTransaction_host (r : BusReq) (e : BusEnd) (s : State) : (afterTransaction r e s).host = s.host := rfl

/-! ## `setSlot` -/

@[simp] theorem setSlot_params (c : Byte) (x : Slot) (s : State) : (setSlot c x s).params = s.params := rfl
@[simp] theorem setSlot_sessionState (c : Byte) (x : Slot) (s : State) : (setSlot c x s).sessionState = s.sessionState := rfl
@[simp] theorem setSlot_addr (c : Byte) (x : Slot) (s : State) : (setSlot c x s).addr = s.addr := rfl
@[simp] theorem setSlot_pecReq (c : Byte) (x : Slot) (s : State) : (setSlot c x s).pecReq = s.pecReq := rfl
@[simp] theorem setSlot_pecEn (c : Byte) (x : Slot) (s : State) : (setSlot c x s).pecEn = s.pecEn := rfl
@[simp] theorem setSlot_noQuery (c : Byte) (x : Slot) (s : State) : (setSlot c x s).noQuery = s.noQuery := rfl
@[simp] theorem setSlot_capByte (c : Byte) (x : Slot) (s : State) : (setSlot c x s).capByte = s.capByte := rfl
@[simp] theorem setSlot_capValid (c : Byte) (x : Slot) (s : State) : (setSlot c x s).capValid = s.capValid := rfl
@[simp] theorem setSlot_revByte (c : Byte) (x : Slot) (s : State) : (setSlot c x s).revByte = s.revByte := rfl
@[simp] theorem setSlot_revValid (c : Byte) (x : Slot) (s : State) : (setSlot c x s).revValid = s.revValid := rfl
@[simp] theorem setSlot_voutModeValid (c : Byte) (x : Slot) (s : State) : (setSlot c x s).voutModeValid = s.voutModeValid := rfl
@[simp] theorem setSlot_slot (c : Byte) (x : Slot) (s : State) : (setSlot c x s).slot = s.slot.set c.toNat x c.isLt := rfl
@[simp] theorem setSlot_qbyte (c : Byte) (x : Slot) (s : State) : (setSlot c x s).qbyte = s.qbyte := rfl
@[simp] theorem setSlot_coef (c : Byte) (x : Slot) (s : State) : (setSlot c x s).coef = s.coef := rfl
@[simp] theorem setSlot_req (c : Byte) (x : Slot) (s : State) : (setSlot c x s).req = s.req := rfl
@[simp] theorem setSlot_data (c : Byte) (x : Slot) (s : State) : (setSlot c x s).data = s.data := rfl
@[simp] theorem setSlot_status (c : Byte) (x : Slot) (s : State) : (setSlot c x s).status = s.status := rfl
@[simp] theorem setSlot_cause (c : Byte) (x : Slot) (s : State) : (setSlot c x s).cause = s.cause := rfl
@[simp] theorem setSlot_result (c : Byte) (x : Slot) (s : State) : (setSlot c x s).result = s.result := rfl
@[simp] theorem setSlot_rlen (c : Byte) (x : Slot) (s : State) : (setSlot c x s).rlen = s.rlen := rfl
@[simp] theorem setSlot_valueKind (c : Byte) (x : Slot) (s : State) : (setSlot c x s).valueKind = s.valueKind := rfl
@[simp] theorem setSlot_value (c : Byte) (x : Slot) (s : State) : (setSlot c x s).value = s.value := rfl
@[simp] theorem setSlot_pecSaved (c : Byte) (x : Slot) (s : State) : (setSlot c x s).pecSaved = s.pecSaved := rfl
@[simp] theorem setSlot_crcAcc (c : Byte) (x : Slot) (s : State) : (setSlot c x s).crcAcc = s.crcAcc := rfl
@[simp] theorem setSlot_answers (c : Byte) (x : Slot) (s : State) : (setSlot c x s).answers = s.answers := rfl
@[simp] theorem setSlot_draws (c : Byte) (x : Slot) (s : State) : (setSlot c x s).draws = s.draws := rfl
@[simp] theorem setSlot_busLog (c : Byte) (x : Slot) (s : State) : (setSlot c x s).busLog = s.busLog := rfl
@[simp] theorem setSlot_host (c : Byte) (x : Slot) (s : State) : (setSlot c x s).host = s.host := rfl

/-! ## `setQbyte` -/

@[simp] theorem setQbyte_params (c q : Byte) (s : State) : (setQbyte c q s).params = s.params := rfl
@[simp] theorem setQbyte_sessionState (c q : Byte) (s : State) : (setQbyte c q s).sessionState = s.sessionState := rfl
@[simp] theorem setQbyte_addr (c q : Byte) (s : State) : (setQbyte c q s).addr = s.addr := rfl
@[simp] theorem setQbyte_pecReq (c q : Byte) (s : State) : (setQbyte c q s).pecReq = s.pecReq := rfl
@[simp] theorem setQbyte_pecEn (c q : Byte) (s : State) : (setQbyte c q s).pecEn = s.pecEn := rfl
@[simp] theorem setQbyte_noQuery (c q : Byte) (s : State) : (setQbyte c q s).noQuery = s.noQuery := rfl
@[simp] theorem setQbyte_capByte (c q : Byte) (s : State) : (setQbyte c q s).capByte = s.capByte := rfl
@[simp] theorem setQbyte_capValid (c q : Byte) (s : State) : (setQbyte c q s).capValid = s.capValid := rfl
@[simp] theorem setQbyte_revByte (c q : Byte) (s : State) : (setQbyte c q s).revByte = s.revByte := rfl
@[simp] theorem setQbyte_revValid (c q : Byte) (s : State) : (setQbyte c q s).revValid = s.revValid := rfl
@[simp] theorem setQbyte_voutModeValid (c q : Byte) (s : State) : (setQbyte c q s).voutModeValid = s.voutModeValid := rfl
@[simp] theorem setQbyte_slot (c q : Byte) (s : State) : (setQbyte c q s).slot = s.slot := rfl
@[simp] theorem setQbyte_qbyte (c q : Byte) (s : State) : (setQbyte c q s).qbyte = s.qbyte.set c.toNat q c.isLt := rfl
@[simp] theorem setQbyte_coef (c q : Byte) (s : State) : (setQbyte c q s).coef = s.coef := rfl
@[simp] theorem setQbyte_req (c q : Byte) (s : State) : (setQbyte c q s).req = s.req := rfl
@[simp] theorem setQbyte_data (c q : Byte) (s : State) : (setQbyte c q s).data = s.data := rfl
@[simp] theorem setQbyte_status (c q : Byte) (s : State) : (setQbyte c q s).status = s.status := rfl
@[simp] theorem setQbyte_cause (c q : Byte) (s : State) : (setQbyte c q s).cause = s.cause := rfl
@[simp] theorem setQbyte_result (c q : Byte) (s : State) : (setQbyte c q s).result = s.result := rfl
@[simp] theorem setQbyte_rlen (c q : Byte) (s : State) : (setQbyte c q s).rlen = s.rlen := rfl
@[simp] theorem setQbyte_valueKind (c q : Byte) (s : State) : (setQbyte c q s).valueKind = s.valueKind := rfl
@[simp] theorem setQbyte_value (c q : Byte) (s : State) : (setQbyte c q s).value = s.value := rfl
@[simp] theorem setQbyte_pecSaved (c q : Byte) (s : State) : (setQbyte c q s).pecSaved = s.pecSaved := rfl
@[simp] theorem setQbyte_crcAcc (c q : Byte) (s : State) : (setQbyte c q s).crcAcc = s.crcAcc := rfl
@[simp] theorem setQbyte_answers (c q : Byte) (s : State) : (setQbyte c q s).answers = s.answers := rfl
@[simp] theorem setQbyte_draws (c q : Byte) (s : State) : (setQbyte c q s).draws = s.draws := rfl
@[simp] theorem setQbyte_busLog (c q : Byte) (s : State) : (setQbyte c q s).busLog = s.busLog := rfl
@[simp] theorem setQbyte_host (c q : Byte) (s : State) : (setQbyte c q s).host = s.host := rfl

/-! ## `setCoef` -/

@[simp] theorem setCoef_params (c : Byte) (d : Direction) (k : CoefSet) (s : State) : (setCoef c d k s).params = s.params := rfl
@[simp] theorem setCoef_sessionState (c : Byte) (d : Direction) (k : CoefSet) (s : State) :
    (setCoef c d k s).sessionState = s.sessionState := rfl
@[simp] theorem setCoef_addr (c : Byte) (d : Direction) (k : CoefSet) (s : State) : (setCoef c d k s).addr = s.addr := rfl
@[simp] theorem setCoef_pecReq (c : Byte) (d : Direction) (k : CoefSet) (s : State) : (setCoef c d k s).pecReq = s.pecReq := rfl
@[simp] theorem setCoef_pecEn (c : Byte) (d : Direction) (k : CoefSet) (s : State) : (setCoef c d k s).pecEn = s.pecEn := rfl
@[simp] theorem setCoef_noQuery (c : Byte) (d : Direction) (k : CoefSet) (s : State) :
    (setCoef c d k s).noQuery = s.noQuery := rfl
@[simp] theorem setCoef_capByte (c : Byte) (d : Direction) (k : CoefSet) (s : State) :
    (setCoef c d k s).capByte = s.capByte := rfl
@[simp] theorem setCoef_capValid (c : Byte) (d : Direction) (k : CoefSet) (s : State) :
    (setCoef c d k s).capValid = s.capValid := rfl
@[simp] theorem setCoef_revByte (c : Byte) (d : Direction) (k : CoefSet) (s : State) :
    (setCoef c d k s).revByte = s.revByte := rfl
@[simp] theorem setCoef_revValid (c : Byte) (d : Direction) (k : CoefSet) (s : State) :
    (setCoef c d k s).revValid = s.revValid := rfl
@[simp] theorem setCoef_voutModeValid (c : Byte) (d : Direction) (k : CoefSet) (s : State) :
    (setCoef c d k s).voutModeValid = s.voutModeValid := rfl
@[simp] theorem setCoef_slot (c : Byte) (d : Direction) (k : CoefSet) (s : State) : (setCoef c d k s).slot = s.slot := rfl
@[simp] theorem setCoef_qbyte (c : Byte) (d : Direction) (k : CoefSet) (s : State) : (setCoef c d k s).qbyte = s.qbyte := rfl
@[simp] theorem setCoef_coef (c : Byte) (d : Direction) (k : CoefSet) (s : State) :
    (setCoef c d k s).coef = s.coef.set c.toNat ((coefPairAt s c).set d k) c.isLt := rfl
@[simp] theorem setCoef_req (c : Byte) (d : Direction) (k : CoefSet) (s : State) : (setCoef c d k s).req = s.req := rfl
@[simp] theorem setCoef_data (c : Byte) (d : Direction) (k : CoefSet) (s : State) : (setCoef c d k s).data = s.data := rfl
@[simp] theorem setCoef_status (c : Byte) (d : Direction) (k : CoefSet) (s : State) : (setCoef c d k s).status = s.status := rfl
@[simp] theorem setCoef_cause (c : Byte) (d : Direction) (k : CoefSet) (s : State) : (setCoef c d k s).cause = s.cause := rfl
@[simp] theorem setCoef_result (c : Byte) (d : Direction) (k : CoefSet) (s : State) : (setCoef c d k s).result = s.result := rfl
@[simp] theorem setCoef_rlen (c : Byte) (d : Direction) (k : CoefSet) (s : State) : (setCoef c d k s).rlen = s.rlen := rfl
@[simp] theorem setCoef_valueKind (c : Byte) (d : Direction) (k : CoefSet) (s : State) :
    (setCoef c d k s).valueKind = s.valueKind := rfl
@[simp] theorem setCoef_value (c : Byte) (d : Direction) (k : CoefSet) (s : State) : (setCoef c d k s).value = s.value := rfl
@[simp] theorem setCoef_pecSaved (c : Byte) (d : Direction) (k : CoefSet) (s : State) :
    (setCoef c d k s).pecSaved = s.pecSaved := rfl
@[simp] theorem setCoef_crcAcc (c : Byte) (d : Direction) (k : CoefSet) (s : State) : (setCoef c d k s).crcAcc = s.crcAcc := rfl
@[simp] theorem setCoef_answers (c : Byte) (d : Direction) (k : CoefSet) (s : State) :
    (setCoef c d k s).answers = s.answers := rfl
@[simp] theorem setCoef_draws (c : Byte) (d : Direction) (k : CoefSet) (s : State) : (setCoef c d k s).draws = s.draws := rfl
@[simp] theorem setCoef_busLog (c : Byte) (d : Direction) (k : CoefSet) (s : State) : (setCoef c d k s).busLog = s.busLog := rfl
@[simp] theorem setCoef_host (c : Byte) (d : Direction) (k : CoefSet) (s : State) : (setCoef c d k s).host = s.host := rfl

/-! ## `storeData` -/

@[simp] theorem storeData_params (bs : List Byte) (s : State) : (storeData bs s).params = s.params := rfl
@[simp] theorem storeData_sessionState (bs : List Byte) (s : State) : (storeData bs s).sessionState = s.sessionState := rfl
@[simp] theorem storeData_addr (bs : List Byte) (s : State) : (storeData bs s).addr = s.addr := rfl
@[simp] theorem storeData_pecReq (bs : List Byte) (s : State) : (storeData bs s).pecReq = s.pecReq := rfl
@[simp] theorem storeData_pecEn (bs : List Byte) (s : State) : (storeData bs s).pecEn = s.pecEn := rfl
@[simp] theorem storeData_noQuery (bs : List Byte) (s : State) : (storeData bs s).noQuery = s.noQuery := rfl
@[simp] theorem storeData_capByte (bs : List Byte) (s : State) : (storeData bs s).capByte = s.capByte := rfl
@[simp] theorem storeData_capValid (bs : List Byte) (s : State) : (storeData bs s).capValid = s.capValid := rfl
@[simp] theorem storeData_revByte (bs : List Byte) (s : State) : (storeData bs s).revByte = s.revByte := rfl
@[simp] theorem storeData_revValid (bs : List Byte) (s : State) : (storeData bs s).revValid = s.revValid := rfl
@[simp] theorem storeData_voutModeValid (bs : List Byte) (s : State) : (storeData bs s).voutModeValid = s.voutModeValid := rfl
@[simp] theorem storeData_slot (bs : List Byte) (s : State) : (storeData bs s).slot = s.slot := rfl
@[simp] theorem storeData_qbyte (bs : List Byte) (s : State) : (storeData bs s).qbyte = s.qbyte := rfl
@[simp] theorem storeData_coef (bs : List Byte) (s : State) : (storeData bs s).coef = s.coef := rfl
@[simp] theorem storeData_req (bs : List Byte) (s : State) : (storeData bs s).req = s.req := rfl
@[simp] theorem storeData_data (bs : List Byte) (s : State) : (storeData bs s).data = Memory.writeFrom s.data 0 bs := rfl
@[simp] theorem storeData_status (bs : List Byte) (s : State) : (storeData bs s).status = s.status := rfl
@[simp] theorem storeData_cause (bs : List Byte) (s : State) : (storeData bs s).cause = s.cause := rfl
@[simp] theorem storeData_result (bs : List Byte) (s : State) : (storeData bs s).result = s.result := rfl
@[simp] theorem storeData_rlen (bs : List Byte) (s : State) : (storeData bs s).rlen = s.rlen := rfl
@[simp] theorem storeData_valueKind (bs : List Byte) (s : State) : (storeData bs s).valueKind = s.valueKind := rfl
@[simp] theorem storeData_value (bs : List Byte) (s : State) : (storeData bs s).value = s.value := rfl
@[simp] theorem storeData_pecSaved (bs : List Byte) (s : State) : (storeData bs s).pecSaved = s.pecSaved := rfl
@[simp] theorem storeData_crcAcc (bs : List Byte) (s : State) : (storeData bs s).crcAcc = s.crcAcc := rfl
@[simp] theorem storeData_answers (bs : List Byte) (s : State) : (storeData bs s).answers = s.answers := rfl
@[simp] theorem storeData_draws (bs : List Byte) (s : State) : (storeData bs s).draws = s.draws := rfl
@[simp] theorem storeData_busLog (bs : List Byte) (s : State) : (storeData bs s).busLog = s.busLog := rfl
@[simp] theorem storeData_host (bs : List Byte) (s : State) : (storeData bs s).host = s.host := rfl

/-! ## `afterDataRead` -/

@[simp] theorem afterDataRead_params (s : State) : (afterDataRead s).params = s.params := rfl
@[simp] theorem afterDataRead_sessionState (s : State) : (afterDataRead s).sessionState = s.sessionState := rfl
@[simp] theorem afterDataRead_addr (s : State) : (afterDataRead s).addr = s.addr := rfl
@[simp] theorem afterDataRead_pecReq (s : State) : (afterDataRead s).pecReq = s.pecReq := rfl
@[simp] theorem afterDataRead_pecEn (s : State) : (afterDataRead s).pecEn = s.pecEn := rfl
@[simp] theorem afterDataRead_noQuery (s : State) : (afterDataRead s).noQuery = s.noQuery := rfl
@[simp] theorem afterDataRead_capByte (s : State) : (afterDataRead s).capByte = s.capByte := rfl
@[simp] theorem afterDataRead_capValid (s : State) : (afterDataRead s).capValid = s.capValid := rfl
@[simp] theorem afterDataRead_revByte (s : State) : (afterDataRead s).revByte = s.revByte := rfl
@[simp] theorem afterDataRead_revValid (s : State) : (afterDataRead s).revValid = s.revValid := rfl
@[simp] theorem afterDataRead_voutModeValid (s : State) : (afterDataRead s).voutModeValid = s.voutModeValid := rfl
@[simp] theorem afterDataRead_slot (s : State) : (afterDataRead s).slot = s.slot := rfl
@[simp] theorem afterDataRead_qbyte (s : State) : (afterDataRead s).qbyte = s.qbyte := rfl
@[simp] theorem afterDataRead_coef (s : State) : (afterDataRead s).coef = s.coef := rfl
@[simp] theorem afterDataRead_req (s : State) : (afterDataRead s).req = s.req := rfl
@[simp] theorem afterDataRead_data (s : State) : (afterDataRead s).data = s.data := rfl
@[simp] theorem afterDataRead_status (s : State) : (afterDataRead s).status = s.status := rfl
@[simp] theorem afterDataRead_cause (s : State) : (afterDataRead s).cause = s.cause := rfl
@[simp] theorem afterDataRead_result (s : State) : (afterDataRead s).result = s.result := rfl
@[simp] theorem afterDataRead_rlen (s : State) : (afterDataRead s).rlen = s.rlen := rfl
@[simp] theorem afterDataRead_valueKind (s : State) : (afterDataRead s).valueKind = s.valueKind := rfl
@[simp] theorem afterDataRead_value (s : State) : (afterDataRead s).value = s.value := rfl
@[simp] theorem afterDataRead_pecSaved (s : State) : (afterDataRead s).pecSaved = s.pecSaved := rfl
@[simp] theorem afterDataRead_crcAcc (s : State) : (afterDataRead s).crcAcc = s.crcAcc := rfl
@[simp] theorem afterDataRead_answers (s : State) : (afterDataRead s).answers = s.answers := rfl
@[simp] theorem afterDataRead_draws (s : State) : (afterDataRead s).draws = s.draws + 1 := rfl
@[simp] theorem afterDataRead_busLog (s : State) : (afterDataRead s).busLog = s.busLog := rfl
@[simp] theorem afterDataRead_host (s : State) : (afterDataRead s).host = s.host := rfl

/-! ## `openState` -/

@[simp] theorem openState_params (a : BitVec 7) (p : Bool) (s : State) : (openState a p s).params = s.params := rfl
@[simp] theorem openState_sessionState (a : BitVec 7) (p : Bool) (s : State) : (openState a p s).sessionState = .attached := rfl
@[simp] theorem openState_addr (a : BitVec 7) (p : Bool) (s : State) : (openState a p s).addr = a := rfl
@[simp] theorem openState_pecReq (a : BitVec 7) (p : Bool) (s : State) : (openState a p s).pecReq = p := rfl
@[simp] theorem openState_pecEn (a : BitVec 7) (p : Bool) (s : State) : (openState a p s).pecEn = false := rfl
@[simp] theorem openState_noQuery (a : BitVec 7) (p : Bool) (s : State) : (openState a p s).noQuery = false := rfl
@[simp] theorem openState_capByte (a : BitVec 7) (p : Bool) (s : State) : (openState a p s).capByte = 0x00#8 := rfl
@[simp] theorem openState_capValid (a : BitVec 7) (p : Bool) (s : State) : (openState a p s).capValid = false := rfl
@[simp] theorem openState_revByte (a : BitVec 7) (p : Bool) (s : State) : (openState a p s).revByte = 0x00#8 := rfl
@[simp] theorem openState_revValid (a : BitVec 7) (p : Bool) (s : State) : (openState a p s).revValid = false := rfl
@[simp] theorem openState_voutModeValid (a : BitVec 7) (p : Bool) (s : State) : (openState a p s).voutModeValid = false := rfl
@[simp] theorem openState_slot (a : BitVec 7) (p : Bool) (s : State) : (openState a p s).slot = emptySlots := rfl
@[simp] theorem openState_qbyte (a : BitVec 7) (p : Bool) (s : State) : (openState a p s).qbyte = emptyQbytes := rfl
@[simp] theorem openState_coef (a : BitVec 7) (p : Bool) (s : State) : (openState a p s).coef = emptyCoefs := rfl
@[simp] theorem openState_req (a : BitVec 7) (p : Bool) (s : State) : (openState a p s).req = s.req := rfl
@[simp] theorem openState_data (a : BitVec 7) (p : Bool) (s : State) : (openState a p s).data = s.data := rfl
@[simp] theorem openState_status (a : BitVec 7) (p : Bool) (s : State) : (openState a p s).status = s.status := rfl
@[simp] theorem openState_cause (a : BitVec 7) (p : Bool) (s : State) : (openState a p s).cause = s.cause := rfl
@[simp] theorem openState_result (a : BitVec 7) (p : Bool) (s : State) : (openState a p s).result = s.result := rfl
@[simp] theorem openState_rlen (a : BitVec 7) (p : Bool) (s : State) : (openState a p s).rlen = s.rlen := rfl
@[simp] theorem openState_valueKind (a : BitVec 7) (p : Bool) (s : State) : (openState a p s).valueKind = s.valueKind := rfl
@[simp] theorem openState_value (a : BitVec 7) (p : Bool) (s : State) : (openState a p s).value = s.value := rfl
@[simp] theorem openState_pecSaved (a : BitVec 7) (p : Bool) (s : State) : (openState a p s).pecSaved = s.pecSaved := rfl
@[simp] theorem openState_crcAcc (a : BitVec 7) (p : Bool) (s : State) : (openState a p s).crcAcc = s.crcAcc := rfl
@[simp] theorem openState_answers (a : BitVec 7) (p : Bool) (s : State) : (openState a p s).answers = s.answers := rfl
@[simp] theorem openState_draws (a : BitVec 7) (p : Bool) (s : State) : (openState a p s).draws = s.draws := rfl
@[simp] theorem openState_busLog (a : BitVec 7) (p : Bool) (s : State) : (openState a p s).busLog = s.busLog := rfl
@[simp] theorem openState_host (a : BitVec 7) (p : Bool) (s : State) : (openState a p s).host = s.host := rfl

/-! ## `closeState` -/

@[simp] theorem closeState_params (s : State) : (closeState s).params = s.params := rfl
@[simp] theorem closeState_sessionState (s : State) : (closeState s).sessionState = .closed := rfl
@[simp] theorem closeState_addr (s : State) : (closeState s).addr = s.addr := rfl
@[simp] theorem closeState_pecReq (s : State) : (closeState s).pecReq = s.pecReq := rfl
@[simp] theorem closeState_pecEn (s : State) : (closeState s).pecEn = s.pecEn := rfl
@[simp] theorem closeState_noQuery (s : State) : (closeState s).noQuery = s.noQuery := rfl
@[simp] theorem closeState_capByte (s : State) : (closeState s).capByte = s.capByte := rfl
@[simp] theorem closeState_capValid (s : State) : (closeState s).capValid = s.capValid := rfl
@[simp] theorem closeState_revByte (s : State) : (closeState s).revByte = s.revByte := rfl
@[simp] theorem closeState_revValid (s : State) : (closeState s).revValid = s.revValid := rfl
@[simp] theorem closeState_voutModeValid (s : State) : (closeState s).voutModeValid = s.voutModeValid := rfl
@[simp] theorem closeState_slot (s : State) : (closeState s).slot = s.slot := rfl
@[simp] theorem closeState_qbyte (s : State) : (closeState s).qbyte = s.qbyte := rfl
@[simp] theorem closeState_coef (s : State) : (closeState s).coef = s.coef := rfl
@[simp] theorem closeState_req (s : State) : (closeState s).req = s.req := rfl
@[simp] theorem closeState_data (s : State) : (closeState s).data = s.data := rfl
@[simp] theorem closeState_status (s : State) : (closeState s).status = s.status := rfl
@[simp] theorem closeState_cause (s : State) : (closeState s).cause = s.cause := rfl
@[simp] theorem closeState_result (s : State) : (closeState s).result = s.result := rfl
@[simp] theorem closeState_rlen (s : State) : (closeState s).rlen = s.rlen := rfl
@[simp] theorem closeState_valueKind (s : State) : (closeState s).valueKind = s.valueKind := rfl
@[simp] theorem closeState_value (s : State) : (closeState s).value = s.value := rfl
@[simp] theorem closeState_pecSaved (s : State) : (closeState s).pecSaved = s.pecSaved := rfl
@[simp] theorem closeState_crcAcc (s : State) : (closeState s).crcAcc = s.crcAcc := rfl
@[simp] theorem closeState_answers (s : State) : (closeState s).answers = s.answers := rfl
@[simp] theorem closeState_draws (s : State) : (closeState s).draws = s.draws := rfl
@[simp] theorem closeState_busLog (s : State) : (closeState s).busLog = s.busLog := rfl
@[simp] theorem closeState_host (s : State) : (closeState s).host = s.host := rfl

/-! ## `captureCapability` -/

@[simp] theorem captureCapability_params (u : Byte) (s : State) : (captureCapability u s).params = s.params := rfl
@[simp] theorem captureCapability_sessionState (u : Byte) (s : State) : (captureCapability u s).sessionState = s.sessionState := rfl
@[simp] theorem captureCapability_addr (u : Byte) (s : State) : (captureCapability u s).addr = s.addr := rfl
@[simp] theorem captureCapability_pecReq (u : Byte) (s : State) : (captureCapability u s).pecReq = s.pecReq := rfl
@[simp] theorem captureCapability_pecEn (u : Byte) (s : State) : (captureCapability u s).pecEn = (s.pecEn || pecAgreed s u) := rfl
@[simp] theorem captureCapability_noQuery (u : Byte) (s : State) : (captureCapability u s).noQuery = s.noQuery := rfl
@[simp] theorem captureCapability_capByte (u : Byte) (s : State) : (captureCapability u s).capByte = u := rfl
@[simp] theorem captureCapability_capValid (u : Byte) (s : State) : (captureCapability u s).capValid = true := rfl
@[simp] theorem captureCapability_revByte (u : Byte) (s : State) : (captureCapability u s).revByte = s.revByte := rfl
@[simp] theorem captureCapability_revValid (u : Byte) (s : State) : (captureCapability u s).revValid = s.revValid := rfl
@[simp] theorem captureCapability_voutModeValid (u : Byte) (s : State) : (captureCapability u s).voutModeValid = s.voutModeValid := rfl
@[simp] theorem captureCapability_slot (u : Byte) (s : State) : (captureCapability u s).slot = s.slot := rfl
@[simp] theorem captureCapability_qbyte (u : Byte) (s : State) : (captureCapability u s).qbyte = s.qbyte := rfl
@[simp] theorem captureCapability_coef (u : Byte) (s : State) : (captureCapability u s).coef = s.coef := rfl
@[simp] theorem captureCapability_req (u : Byte) (s : State) : (captureCapability u s).req = s.req := rfl
@[simp] theorem captureCapability_data (u : Byte) (s : State) : (captureCapability u s).data = s.data := rfl
@[simp] theorem captureCapability_status (u : Byte) (s : State) : (captureCapability u s).status = s.status := rfl
@[simp] theorem captureCapability_cause (u : Byte) (s : State) : (captureCapability u s).cause = s.cause := rfl
@[simp] theorem captureCapability_result (u : Byte) (s : State) : (captureCapability u s).result = s.result := rfl
@[simp] theorem captureCapability_rlen (u : Byte) (s : State) : (captureCapability u s).rlen = s.rlen := rfl
@[simp] theorem captureCapability_valueKind (u : Byte) (s : State) : (captureCapability u s).valueKind = s.valueKind := rfl
@[simp] theorem captureCapability_value (u : Byte) (s : State) : (captureCapability u s).value = s.value := rfl
@[simp] theorem captureCapability_pecSaved (u : Byte) (s : State) : (captureCapability u s).pecSaved = s.pecSaved := rfl
@[simp] theorem captureCapability_crcAcc (u : Byte) (s : State) : (captureCapability u s).crcAcc = s.crcAcc := rfl
@[simp] theorem captureCapability_answers (u : Byte) (s : State) : (captureCapability u s).answers = s.answers := rfl
@[simp] theorem captureCapability_draws (u : Byte) (s : State) : (captureCapability u s).draws = s.draws := rfl
@[simp] theorem captureCapability_busLog (u : Byte) (s : State) : (captureCapability u s).busLog = s.busLog := rfl
@[simp] theorem captureCapability_host (u : Byte) (s : State) : (captureCapability u s).host = s.host := rfl

/-! ## `captureVoutMode` -/

@[simp] theorem captureVoutMode_params (u : Byte) (s : State) : (captureVoutMode u s).params = s.params := rfl
@[simp] theorem captureVoutMode_sessionState (u : Byte) (s : State) : (captureVoutMode u s).sessionState = s.sessionState := rfl
@[simp] theorem captureVoutMode_addr (u : Byte) (s : State) : (captureVoutMode u s).addr = s.addr := rfl
@[simp] theorem captureVoutMode_pecReq (u : Byte) (s : State) : (captureVoutMode u s).pecReq = s.pecReq := rfl
@[simp] theorem captureVoutMode_pecEn (u : Byte) (s : State) : (captureVoutMode u s).pecEn = s.pecEn := rfl
@[simp] theorem captureVoutMode_noQuery (u : Byte) (s : State) : (captureVoutMode u s).noQuery = s.noQuery := rfl
@[simp] theorem captureVoutMode_capByte (u : Byte) (s : State) : (captureVoutMode u s).capByte = s.capByte := rfl
@[simp] theorem captureVoutMode_capValid (u : Byte) (s : State) : (captureVoutMode u s).capValid = s.capValid := rfl
@[simp] theorem captureVoutMode_revByte (u : Byte) (s : State) : (captureVoutMode u s).revByte = s.revByte := rfl
@[simp] theorem captureVoutMode_revValid (u : Byte) (s : State) : (captureVoutMode u s).revValid = s.revValid := rfl
@[simp] theorem captureVoutMode_voutModeValid (u : Byte) (s : State) : (captureVoutMode u s).voutModeValid = true := rfl
@[simp] theorem captureVoutMode_slot (u : Byte) (s : State) : (captureVoutMode u s).slot = s.slot := rfl
@[simp] theorem captureVoutMode_qbyte (u : Byte) (s : State) : (captureVoutMode u s).qbyte = s.qbyte := rfl
@[simp] theorem captureVoutMode_req (u : Byte) (s : State) : (captureVoutMode u s).req = s.req := rfl
@[simp] theorem captureVoutMode_data (u : Byte) (s : State) : (captureVoutMode u s).data = s.data := rfl
@[simp] theorem captureVoutMode_status (u : Byte) (s : State) : (captureVoutMode u s).status = s.status := rfl
@[simp] theorem captureVoutMode_cause (u : Byte) (s : State) : (captureVoutMode u s).cause = s.cause := rfl
@[simp] theorem captureVoutMode_result (u : Byte) (s : State) : (captureVoutMode u s).result = s.result := rfl
@[simp] theorem captureVoutMode_rlen (u : Byte) (s : State) : (captureVoutMode u s).rlen = s.rlen := rfl
@[simp] theorem captureVoutMode_valueKind (u : Byte) (s : State) : (captureVoutMode u s).valueKind = s.valueKind := rfl
@[simp] theorem captureVoutMode_value (u : Byte) (s : State) : (captureVoutMode u s).value = s.value := rfl
@[simp] theorem captureVoutMode_pecSaved (u : Byte) (s : State) : (captureVoutMode u s).pecSaved = s.pecSaved := rfl
@[simp] theorem captureVoutMode_crcAcc (u : Byte) (s : State) : (captureVoutMode u s).crcAcc = s.crcAcc := rfl
@[simp] theorem captureVoutMode_answers (u : Byte) (s : State) : (captureVoutMode u s).answers = s.answers := rfl
@[simp] theorem captureVoutMode_draws (u : Byte) (s : State) : (captureVoutMode u s).draws = s.draws := rfl
@[simp] theorem captureVoutMode_busLog (u : Byte) (s : State) : (captureVoutMode u s).busLog = s.busLog := rfl
@[simp] theorem captureVoutMode_host (u : Byte) (s : State) : (captureVoutMode u s).host = s.host := rfl

/-! ## `writeDecoded` -/

@[simp] theorem writeDecoded_params (d : Decoded) (s : State) : (writeDecoded d s).params = s.params := rfl
@[simp] theorem writeDecoded_sessionState (d : Decoded) (s : State) : (writeDecoded d s).sessionState = s.sessionState := rfl
@[simp] theorem writeDecoded_addr (d : Decoded) (s : State) : (writeDecoded d s).addr = s.addr := rfl
@[simp] theorem writeDecoded_pecReq (d : Decoded) (s : State) : (writeDecoded d s).pecReq = s.pecReq := rfl
@[simp] theorem writeDecoded_pecEn (d : Decoded) (s : State) : (writeDecoded d s).pecEn = s.pecEn := rfl
@[simp] theorem writeDecoded_noQuery (d : Decoded) (s : State) : (writeDecoded d s).noQuery = s.noQuery := rfl
@[simp] theorem writeDecoded_capByte (d : Decoded) (s : State) : (writeDecoded d s).capByte = s.capByte := rfl
@[simp] theorem writeDecoded_capValid (d : Decoded) (s : State) : (writeDecoded d s).capValid = s.capValid := rfl
@[simp] theorem writeDecoded_revByte (d : Decoded) (s : State) : (writeDecoded d s).revByte = s.revByte := rfl
@[simp] theorem writeDecoded_revValid (d : Decoded) (s : State) : (writeDecoded d s).revValid = s.revValid := rfl
@[simp] theorem writeDecoded_voutModeValid (d : Decoded) (s : State) : (writeDecoded d s).voutModeValid = s.voutModeValid := rfl
@[simp] theorem writeDecoded_slot (d : Decoded) (s : State) : (writeDecoded d s).slot = s.slot := rfl
@[simp] theorem writeDecoded_qbyte (d : Decoded) (s : State) : (writeDecoded d s).qbyte = s.qbyte := rfl
@[simp] theorem writeDecoded_coef (d : Decoded) (s : State) : (writeDecoded d s).coef = s.coef := rfl
@[simp] theorem writeDecoded_req (d : Decoded) (s : State) : (writeDecoded d s).req = s.req := rfl
@[simp] theorem writeDecoded_data (d : Decoded) (s : State) : (writeDecoded d s).data = s.data := rfl
@[simp] theorem writeDecoded_status (d : Decoded) (s : State) : (writeDecoded d s).status = s.status := rfl
@[simp] theorem writeDecoded_cause (d : Decoded) (s : State) : (writeDecoded d s).cause = s.cause := rfl
@[simp] theorem writeDecoded_result (d : Decoded) (s : State) : (writeDecoded d s).result = s.result := rfl
@[simp] theorem writeDecoded_rlen (d : Decoded) (s : State) : (writeDecoded d s).rlen = s.rlen := rfl
@[simp] theorem writeDecoded_valueKind (d : Decoded) (s : State) : (writeDecoded d s).valueKind = d.kind := rfl
@[simp] theorem writeDecoded_value (d : Decoded) (s : State) : (writeDecoded d s).value = d.value := rfl
@[simp] theorem writeDecoded_pecSaved (d : Decoded) (s : State) : (writeDecoded d s).pecSaved = s.pecSaved := rfl
@[simp] theorem writeDecoded_crcAcc (d : Decoded) (s : State) : (writeDecoded d s).crcAcc = s.crcAcc := rfl
@[simp] theorem writeDecoded_answers (d : Decoded) (s : State) : (writeDecoded d s).answers = s.answers := rfl
@[simp] theorem writeDecoded_draws (d : Decoded) (s : State) : (writeDecoded d s).draws = s.draws := rfl
@[simp] theorem writeDecoded_busLog (d : Decoded) (s : State) : (writeDecoded d s).busLog = s.busLog := rfl
@[simp] theorem writeDecoded_host (d : Decoded) (s : State) : (writeDecoded d s).host = s.host := rfl

/-! ## `consumeRequest` -/

@[simp] theorem consumeRequest_params (s : State) : (consumeRequest s).params = s.params := rfl
@[simp] theorem consumeRequest_sessionState (s : State) : (consumeRequest s).sessionState = s.sessionState := rfl
@[simp] theorem consumeRequest_addr (s : State) : (consumeRequest s).addr = s.addr := rfl
@[simp] theorem consumeRequest_pecReq (s : State) : (consumeRequest s).pecReq = s.pecReq := rfl
@[simp] theorem consumeRequest_pecEn (s : State) : (consumeRequest s).pecEn = s.pecEn := rfl
@[simp] theorem consumeRequest_noQuery (s : State) : (consumeRequest s).noQuery = s.noQuery := rfl
@[simp] theorem consumeRequest_capByte (s : State) : (consumeRequest s).capByte = s.capByte := rfl
@[simp] theorem consumeRequest_capValid (s : State) : (consumeRequest s).capValid = s.capValid := rfl
@[simp] theorem consumeRequest_revByte (s : State) : (consumeRequest s).revByte = s.revByte := rfl
@[simp] theorem consumeRequest_revValid (s : State) : (consumeRequest s).revValid = s.revValid := rfl
@[simp] theorem consumeRequest_voutModeValid (s : State) : (consumeRequest s).voutModeValid = s.voutModeValid := rfl
@[simp] theorem consumeRequest_slot (s : State) : (consumeRequest s).slot = s.slot := rfl
@[simp] theorem consumeRequest_qbyte (s : State) : (consumeRequest s).qbyte = s.qbyte := rfl
@[simp] theorem consumeRequest_coef (s : State) : (consumeRequest s).coef = s.coef := rfl
@[simp] theorem consumeRequest_req (s : State) : (consumeRequest s).req = none := rfl
@[simp] theorem consumeRequest_data (s : State) : (consumeRequest s).data = s.data := rfl
@[simp] theorem consumeRequest_status (s : State) : (consumeRequest s).status = s.status := rfl
@[simp] theorem consumeRequest_cause (s : State) : (consumeRequest s).cause = s.cause := rfl
@[simp] theorem consumeRequest_result (s : State) : (consumeRequest s).result = s.result := rfl
@[simp] theorem consumeRequest_rlen (s : State) : (consumeRequest s).rlen = s.rlen := rfl
@[simp] theorem consumeRequest_valueKind (s : State) : (consumeRequest s).valueKind = s.valueKind := rfl
@[simp] theorem consumeRequest_value (s : State) : (consumeRequest s).value = s.value := rfl
@[simp] theorem consumeRequest_pecSaved (s : State) : (consumeRequest s).pecSaved = s.pecSaved := rfl
@[simp] theorem consumeRequest_crcAcc (s : State) : (consumeRequest s).crcAcc = s.crcAcc := rfl
@[simp] theorem consumeRequest_answers (s : State) : (consumeRequest s).answers = s.answers := rfl
@[simp] theorem consumeRequest_draws (s : State) : (consumeRequest s).draws = s.draws := rfl
@[simp] theorem consumeRequest_busLog (s : State) : (consumeRequest s).busLog = s.busLog := rfl
@[simp] theorem consumeRequest_host (s : State) : (consumeRequest s).host = s.host := rfl

/-! ## `placeRequest` -/

@[simp] theorem placeRequest_params (nbits w : Nat) (s : State) : (placeRequest nbits w s).params = s.params := rfl
@[simp] theorem placeRequest_sessionState (nbits w : Nat) (s : State) : (placeRequest nbits w s).sessionState = s.sessionState := rfl
@[simp] theorem placeRequest_addr (nbits w : Nat) (s : State) : (placeRequest nbits w s).addr = s.addr := rfl
@[simp] theorem placeRequest_pecReq (nbits w : Nat) (s : State) : (placeRequest nbits w s).pecReq = s.pecReq := rfl
@[simp] theorem placeRequest_pecEn (nbits w : Nat) (s : State) : (placeRequest nbits w s).pecEn = s.pecEn := rfl
@[simp] theorem placeRequest_noQuery (nbits w : Nat) (s : State) : (placeRequest nbits w s).noQuery = s.noQuery := rfl
@[simp] theorem placeRequest_capByte (nbits w : Nat) (s : State) : (placeRequest nbits w s).capByte = s.capByte := rfl
@[simp] theorem placeRequest_capValid (nbits w : Nat) (s : State) : (placeRequest nbits w s).capValid = s.capValid := rfl
@[simp] theorem placeRequest_revByte (nbits w : Nat) (s : State) : (placeRequest nbits w s).revByte = s.revByte := rfl
@[simp] theorem placeRequest_revValid (nbits w : Nat) (s : State) : (placeRequest nbits w s).revValid = s.revValid := rfl
@[simp] theorem placeRequest_voutModeValid (nbits w : Nat) (s : State) : (placeRequest nbits w s).voutModeValid = s.voutModeValid := rfl
@[simp] theorem placeRequest_slot (nbits w : Nat) (s : State) : (placeRequest nbits w s).slot = s.slot := rfl
@[simp] theorem placeRequest_qbyte (nbits w : Nat) (s : State) : (placeRequest nbits w s).qbyte = s.qbyte := rfl
@[simp] theorem placeRequest_coef (nbits w : Nat) (s : State) : (placeRequest nbits w s).coef = s.coef := rfl
@[simp] theorem placeRequest_req (nbits w : Nat) (s : State) :
    (placeRequest nbits w s).req = some (BitVec.ofNat 64 (w % 2 ^ nbits)) := rfl
@[simp] theorem placeRequest_data (nbits w : Nat) (s : State) : (placeRequest nbits w s).data = s.data := rfl
@[simp] theorem placeRequest_status (nbits w : Nat) (s : State) : (placeRequest nbits w s).status = s.status := rfl
@[simp] theorem placeRequest_cause (nbits w : Nat) (s : State) : (placeRequest nbits w s).cause = s.cause := rfl
@[simp] theorem placeRequest_result (nbits w : Nat) (s : State) : (placeRequest nbits w s).result = s.result := rfl
@[simp] theorem placeRequest_rlen (nbits w : Nat) (s : State) : (placeRequest nbits w s).rlen = s.rlen := rfl
@[simp] theorem placeRequest_valueKind (nbits w : Nat) (s : State) : (placeRequest nbits w s).valueKind = s.valueKind := rfl
@[simp] theorem placeRequest_value (nbits w : Nat) (s : State) : (placeRequest nbits w s).value = s.value := rfl
@[simp] theorem placeRequest_pecSaved (nbits w : Nat) (s : State) : (placeRequest nbits w s).pecSaved = s.pecSaved := rfl
@[simp] theorem placeRequest_crcAcc (nbits w : Nat) (s : State) : (placeRequest nbits w s).crcAcc = s.crcAcc := rfl
@[simp] theorem placeRequest_answers (nbits w : Nat) (s : State) : (placeRequest nbits w s).answers = s.answers := rfl
@[simp] theorem placeRequest_draws (nbits w : Nat) (s : State) : (placeRequest nbits w s).draws = s.draws := rfl
@[simp] theorem placeRequest_busLog (nbits w : Nat) (s : State) : (placeRequest nbits w s).busLog = s.busLog := rfl
@[simp] theorem placeRequest_host (nbits w : Nat) (s : State) : (placeRequest nbits w s).host = s.host := rfl

end Sys2Proof.Machine
end

