-- ==== Sys2Proof/Laws/Memory.lean ====
section
/-! SUPPORT. The data buffer and the table: read after write, and that every operation keeps the canonical form. -/

namespace Sys2Proof.Machine

theorem Memory.read?_write_same (m : Memory) (i : Nat) (b : Byte) :
    Memory.read? (Memory.write m i b) i = some b := by
  induction m with
  | nil => simp [Memory.write, Memory.read?]
  | cons p rest ih =>
    obtain ⟨j, c⟩ := p
    unfold Memory.write
    split
    · simp [Memory.read?]
    · split
      · simp [Memory.read?]
      · next h => rw [Memory.read?, if_neg (Ne.symm h), ih]

theorem Memory.read?_write_other (m : Memory) {i j : Nat} (h : j ≠ i) (b : Byte) :
    Memory.read? (Memory.write m i b) j = Memory.read? m j := by
  induction m with
  | nil => simp [Memory.write, Memory.read?, Ne.symm h]
  | cons p rest ih =>
    obtain ⟨k, c⟩ := p
    unfold Memory.write
    split
    · rw [Memory.read?, if_neg (Ne.symm h)]
    · split
      · next hk => subst hk; simp [Memory.read?, Ne.symm h]
      · simp only [Memory.read?, ih]

/-- What stands at `j` after the bytes `bs` have been written from `i` on. -/
theorem Memory.read?_writeFrom (bs : List Byte) (m : Memory) (i j : Nat) :
    Memory.read? (Memory.writeFrom m i bs) j = if i ≤ j ∧ j < i + bs.length then bs[j - i]? else Memory.read? m j := by
  induction bs generalizing m i with
  | nil =>
    have : ¬(i ≤ j ∧ j < i) := by omega
    simp [Memory.writeFrom, this]
  | cons b bs ih =>
    rw [Memory.writeFrom, ih, List.length_cons]
    by_cases hji : j = i
    · subst hji
      simp [Memory.read?_write_same]
    · rw [Memory.read?_write_other _ hji]
      by_cases h : i + 1 ≤ j ∧ j < i + 1 + bs.length
      · have h' : i ≤ j ∧ j < i + (bs.length + 1) := by omega
        rw [if_pos h, if_pos h', show j - i = (j - (i + 1)) + 1 by omega, List.getElem?_cons_succ]
      · have h' : ¬(i ≤ j ∧ j < i + (bs.length + 1)) := by omega
        rw [if_neg h, if_neg h']

theorem Memory.wf_cons {size i : Nat} {b : Byte} {m : Memory} :
    Memory.wf size ((i, b) :: m) = true ↔ i < size ∧ Memory.wf size m = true ∧ ∀ p ∈ m.head?, i < p.1 := by
  cases m with
  | nil => simp [Memory.wf]
  | cons p rest =>
    obtain ⟨j, c⟩ := p
    have bound : Memory.wf size ((j, c) :: rest) = true → j < size := by
      intro h
      induction rest generalizing j c with
      | nil => simpa [Memory.wf] using h
      | cons q rest ih =>
        obtain ⟨k, d⟩ := q
        simp only [Memory.wf, Bool.and_eq_true, decide_eq_true_eq] at h
        have := ih k d h.2
        omega
    simp only [Memory.wf, Bool.and_eq_true, decide_eq_true_eq, List.head?_cons, Option.mem_some_iff, forall_eq']
    constructor
    · rintro ⟨h₁, h₂⟩
      exact ⟨by have := bound h₂; omega, h₂, h₁⟩
    · rintro ⟨_, h₂, h₁⟩
      exact ⟨h₁, h₂⟩

theorem Memory.wf_write {size : Nat} {m : Memory} {i : Nat} (b : Byte) (hm : Memory.wf size m = true) (hi : i < size) :
    Memory.wf size (Memory.write m i b) = true := by
  induction m with
  | nil => simp [Memory.write, Memory.wf, hi]
  | cons p rest ih =>
    obtain ⟨j, c⟩ := p
    have h := Memory.wf_cons.1 hm
    unfold Memory.write
    split
    · next hlt => exact Memory.wf_cons.2 ⟨hi, hm, by simpa using hlt⟩
    · split
      · next heq => subst heq; exact Memory.wf_cons.2 h
      · next hge hne =>
        refine Memory.wf_cons.2 ⟨h.1, ih h.2.1, ?_⟩
        cases rest with
        | nil => simp [Memory.write]; omega
        | cons q rest' =>
          obtain ⟨k, d⟩ := q
          have hk := h.2.2 (k, d) (by simp)
          unfold Memory.write
          split
          · simp; omega
          · split <;> simp <;> omega

theorem Memory.wf_writeFrom {size : Nat} {bs : List Byte} {m : Memory} {i : Nat} (hm : Memory.wf size m = true)
    (hi : i + bs.length ≤ size) : Memory.wf size (Memory.writeFrom m i bs) = true := by
  induction bs generalizing m i with
  | nil => exact hm
  | cons b bs ih =>
    simp only [List.length_cons] at hi
    exact ih (Memory.wf_write b hm (by omega)) (by omega)

/-- `DATA` holds every length the block operations admit (R10; log 21). -/
theorem dataSize_spec (d : DataSize) : 255 ≤ d.bytes := by simpa [dataSizeOk] using d.ok

/-- The data buffer after power-on reset is in the canonical form. -/
theorem Memory.wf_reset : Memory.wf State.reset.params.dataSize.bytes State.reset.data = true := rfl

theorem slotAt_setSlot (c c' : Byte) (x : Slot) (s : State) :
    slotAt (setSlot c x s) c' = if c = c' then x else slotAt s c' := by
  simp only [slotAt, setSlot_slot, Vector.getElem_set, BitVec.toNat_inj]

theorem qbyteAt_setQbyte (c c' q : Byte) (s : State) :
    qbyteAt (setQbyte c q s) c' = if c = c' then q else qbyteAt s c' := by
  simp only [qbyteAt, setQbyte_qbyte, Vector.getElem_set, BitVec.toNat_inj]

theorem coefPairAt_setCoef (c c' : Byte) (d : Direction) (k : CoefSet) (s : State) :
    coefPairAt (setCoef c d k s) c' = if c = c' then (coefPairAt s c).set d k else coefPairAt s c' := by
  simp only [coefPairAt, setCoef_coef, Vector.getElem_set, BitVec.toNat_inj]

@[simp] theorem CoefPair.get_set_same (p : CoefPair) (d : Direction) (k : CoefSet) : (p.set d k).get d = k := by
  cases d <;> rfl

theorem CoefPair.get_set_other (p : CoefPair) {d d' : Direction} (h : d ≠ d') (k : CoefSet) :
    (p.set d k).get d' = p.get d' := by
  cases d <;> cases d' <;> first | rfl | exact absurd rfl h

theorem coefAt_setCoef (c c' : Byte) (d d' : Direction) (k : CoefSet) (s : State) :
    coefAt (setCoef c d k s) c' d' = if c = c' ∧ d = d' then k else coefAt s c' d' := by
  unfold coefAt
  rw [coefPairAt_setCoef]
  by_cases hc : c = c'
  · subst hc
    by_cases hd : d = d'
    · subst hd; simp
    · simp [hd, CoefPair.get_set_other _ hd]
  · simp [hc]

@[simp] theorem slotAt_boot (p : Params) (c : Byte) : slotAt (State.boot p) c = .notProbed := by
  simp [slotAt, State.boot, emptySlots]

@[simp] theorem qbyteAt_boot (p : Params) (c : Byte) : qbyteAt (State.boot p) c = 0x00#8 := by
  simp [qbyteAt, State.boot, emptyQbytes]

@[simp] theorem slotAt_openState (a : BitVec 7) (p : Bool) (s : State) (c : Byte) :
    slotAt (openState a p s) c = .notProbed := by
  simp [slotAt, emptySlots]

@[simp] theorem qbyteAt_openState (a : BitVec 7) (p : Bool) (s : State) (c : Byte) :
    qbyteAt (openState a p s) c = 0x00#8 := by
  simp [qbyteAt, emptyQbytes]

@[simp] theorem coefAt_openState (a : BitVec 7) (p : Bool) (s : State) (c : Byte) (d : Direction) :
    coefAt (openState a p s) c d = CoefSet.cleared := by
  cases d <;> simp [coefAt, coefPairAt, emptyCoefs, CoefPair.get]

end Sys2Proof.Machine
end

