-- ==== Sys2Proof/Laws/Bus.lean ====
section
/-! SUPPORT. What the plumbing, the transaction unit and its internal forms can do, each said once. -/

namespace Sys2Proof.Machine

/-! ## Plumbing -/

theorem done_eq (e : Exit) (s : State) : done e s = .next (endOperation e s) := rfl

theorem done_next {e : Exit} {s t : State} : done e s = .next t ↔ t = endOperation e s := by
  constructor
  · intro h; injection h with h; exact h.symm
  · rintro rfl; rfl

theorem Internal.andThen_ok {α β : Type} {x : Internal α} {k : α → State → Internal β} {b : β} {t : State} :
    x.andThen k = .ok (b, t) ↔ ∃ a s, x = .ok (a, s) ∧ k a s = .ok (b, t) := by
  rcases x with f | ⟨a, s⟩ <;> simp [Internal.andThen]

theorem Internal.andThen_error {α β : Type} {x : Internal α} {k : α → State → Internal β} {f : Fault} :
    x.andThen k = .error f ↔ x = .error f ∨ ∃ a s, x = .ok (a, s) ∧ k a s = .error f := by
  rcases x with f | ⟨a, s⟩ <;> simp [Internal.andThen]

theorem Internal.conclude_next {α : Type} {x : Internal α} {k : α → State → StepOutcome} {t : State} :
    x.conclude k = .next t ↔ ∃ a s, x = .ok (a, s) ∧ k a s = .next t := by
  rcases x with f | ⟨a, s⟩ <;> simp [Internal.conclude]

theorem Internal.conclude_fault {α : Type} {x : Internal α} {k : α → State → StepOutcome} {f : Fault} :
    x.conclude k = .fault f ↔ x = .error f ∨ ∃ a s, x = .ok (a, s) ∧ k a s = .fault f := by
  rcases x with f | ⟨a, s⟩ <;> simp [Internal.conclude]

theorem Internal.conclude_refused {α : Type} {x : Internal α} {k : α → State → StepOutcome} {r : Refusal} :
    x.conclude k = .refused r ↔ ∃ a s, x = .ok (a, s) ∧ k a s = .refused r := by
  rcases x with f | ⟨a, s⟩ <;> simp [Internal.conclude]

theorem whenAllowed_of {allowed : SessionState → Bool} {s : State} {body : StepOutcome}
    (h : allowed s.sessionState = true) : whenAllowed allowed s body = body := by
  simp [whenAllowed, h]

theorem whenAllowed_not {allowed : SessionState → Bool} {s : State} {body : StepOutcome}
    (h : allowed s.sessionState = false) : whenAllowed allowed s body = done .illegalState s := by
  simp [whenAllowed, h]

theorem whenCore_of {cmd : Word16} {s : State} {body : StepOutcome} (h : isExtended cmd = false) :
    whenCore cmd s body = body := by
  simp [whenCore, h]

theorem whenLength_of {n : Nat} {s : State} {body : StepOutcome} (h : badLength n = false) :
    whenLength n s body = body := by
  simp [whenLength, h]

theorem whenDirection_of {arg : Word16} {d : Direction} {s : State} {body : Direction → StepOutcome}
    (h : directionOf arg = some d) : whenDirection arg s body = body d := by
  simp [whenDirection, h]

/-- Only a transport error has a cause (R252, R254). -/
theorem exitStatus_transportError_iff (e : Exit) : exitStatus e = .transportError ↔ exitCause e ≠ .noCause := by
  rcases e with _ | k | _ | _ | _ | _ | _ | _ | _ <;> simp [exitStatus, exitCause]
  rcases k with o | _ | _
  · cases o <;> simp [failCauseValue]
  · simp [failCauseValue]
  · simp [failCauseValue]

/-! ## Frames -/

@[simp] theorem takeBytes_length (n : Nat) (bs : List Byte) : (takeBytes n bs).length = n := by
  induction n generalizing bs with
  | zero => rfl
  | succ n ih => simp [takeBytes, ih]

@[simp] theorem takeBytes_append_of_length (bs rest : List Byte) : takeBytes bs.length (bs ++ rest) = bs := by
  induction bs with
  | nil => rfl
  | cons b bs ih => simp [takeBytes, ih]

theorem takeBytes_self (bs : List Byte) : takeBytes bs.length bs = bs := by
  simpa using takeBytes_append_of_length bs []

theorem takeBytes_succ_getLastD (bs rest : List Byte) (p : Byte) :
    (takeBytes (bs.length + 1) (bs ++ p :: rest)).getLastD 0x00#8 = p := by
  have h := takeBytes_append_of_length (bs ++ [p]) rest
  simp only [List.length_append, List.length_singleton, List.append_assoc, List.singleton_append] at h
  rw [h]
  simp

/-- What the TU delivers of a completed frame: a count above the limit, a PEC mismatch, or the payload (R106, R107). -/
theorem deliver_cases (s : State) (r : BusReq) (bytes : List Byte) :
    (overLimit s.params.blockLimit r bytes = true ∧ deliver s r bytes = .badCount) ∨
    (overLimit s.params.blockLimit r bytes = false ∧ pecAgrees s r bytes = false ∧
      deliver s r bytes = .fail .pecMismatch) ∨
    (overLimit s.params.blockLimit r bytes = false ∧ pecAgrees s r bytes = true ∧
      deliver s r bytes = .ok (payload r (deviceBytes s.params.blockLimit r bytes))) := by
  unfold deliver
  split
  · next h => exact .inl ⟨h, rfl⟩
  · next h =>
    split
    · next h' => exact .inr (.inr ⟨by simpa using h, h', rfl⟩)
    · next h' => exact .inr (.inl ⟨by simpa using h, by simpa using h', rfl⟩)

/-- Everything a call of the TU can do where it answers: the gate turns it away with no bus activity (R101), the oracle
fails it, or the oracle completes it and its answer is delivered. -/
theorem transact_cases {r : BusReq} {s t : State} {reply : Reply (List Byte)} (h : transact r s = .ok (reply, t)) :
    (permitted s.params r = false ∧ reply = .fail .noCapability ∧ t = s) ∨
    (∃ k, permitted s.params r = true ∧ nextAnswer s = .fail k ∧ reply = .fail (.oracle k) ∧
      t = afterTransaction r (.failed k) s) ∨
    (∃ bytes, permitted s.params r = true ∧ nextAnswer s = .complete bytes ∧ reply = deliver s r bytes ∧
      t = afterTransaction r (completedEnd s r bytes) s) := by
  unfold transact at h
  split at h
  · next hp =>
    split at h
    · simp at h
    · next k hk =>
      simp only [Except.ok.injEq, Prod.mk.injEq] at h
      exact .inr (.inl ⟨k, hp, hk, h.1.symm, h.2.symm⟩)
    · next bytes hb =>
      simp only [Except.ok.injEq, Prod.mk.injEq] at h
      exact .inr (.inr ⟨bytes, hp, hb, h.1.symm, h.2.symm⟩)
  · next hp =>
    simp only [Except.ok.injEq, Prod.mk.injEq] at h
    exact .inl ⟨by simpa using hp, h.1.symm, h.2.symm⟩

/-- A call of the TU stops only where the adapter never answers (R109, R293). -/
theorem transact_error {r : BusReq} {s : State} {f : Fault} (h : transact r s = .error f) :
    nextAnswer s = .never ∧ permitted s.params r = true := by
  unfold transact at h
  split at h
  · next hp =>
    split at h
    · next hn => exact ⟨hn, hp⟩
    · simp at h
    · simp at h
  · simp at h

/-! ## What a run of transactions does to the state -/

/-- `new` was put on the bus between `s` and `t`, one answer consumed for each (R108), every transaction permitted by
`CAPS` (R101), addressed to the session's target (R51), with PEC only where it is enabled (R104). -/
structure Traffic (new : List Transaction) (s t : State) : Prop where
  log     : t.busLog = s.busLog ++ new
  answers : t.answers = s.answers.drop new.length
  draws   : t.draws = s.draws + new.length
  allowed : ∀ x ∈ new, x.addr = s.addr ∧ permitted s.params x.req = true ∧ (carriesPec x.req = true → s.pecEn = true)

/-- A frame that can carry PEC does so exactly where `on` says (R104): QUICK and RAW frames cannot. -/
def PecFollows (on : Bool) (r : BusReq) : Prop := carriesPec r = on ∨ r = .quick ∨ ∃ bytes n, r = .raw bytes n

/-- The block proper is unchanged: only the bus side of the state moved. -/
def OnlyBus (s t : State) : Prop :=
  t = { s with answers := t.answers, draws := t.draws, busLog := t.busLog, crcAcc := t.crcAcc }

theorem OnlyBus.refl (s : State) : OnlyBus s s := rfl

theorem OnlyBus.trans {s t u : State} (h : OnlyBus s t) (h' : OnlyBus t u) : OnlyBus s u :=
  Eq.trans h' (congrArg (fun x : State =>
    { x with answers := u.answers, draws := u.draws, busLog := u.busLog, crcAcc := u.crcAcc }) h)

theorem afterTransaction_onlyBus (r : BusReq) (e : BusEnd) (s : State) : OnlyBus s (afterTransaction r e s) := rfl

theorem Traffic.none (s : State) : Traffic [] s s where
  log := by simp
  answers := by simp
  draws := by simp
  allowed := by simp

/-- Traffic before and traffic after, where the address, the parameters and `PEC_EN` stayed. -/
theorem Traffic.append {n₁ n₂ : List Transaction} {s t u : State} (h₁ : Traffic n₁ s t) (h₂ : Traffic n₂ t u)
    (ha : t.addr = s.addr) (hp : t.params = s.params) (he : t.pecEn = true → s.pecEn = true) :
    Traffic (n₁ ++ n₂) s u where
  log := by rw [h₂.log, h₁.log, List.append_assoc]
  answers := by rw [h₂.answers, h₁.answers, List.drop_drop, List.length_append]
  draws := by rw [h₂.draws, h₁.draws, List.length_append]; omega
  allowed := by
    intro x hx
    rcases List.mem_append.1 hx with hx | hx
    · exact h₁.allowed x hx
    · have := h₂.allowed x hx
      rw [ha, hp] at this
      exact ⟨this.1, this.2.1, fun hc => he (this.2.2 hc)⟩

/-- Traffic does not look at the other registers. -/
theorem Traffic.congr {n : List Transaction} {s t u : State} (h : Traffic n s t) (hl : u.busLog = t.busLog)
    (ha : u.answers = t.answers) (hd : u.draws = t.draws) : Traffic n s u where
  log := hl.trans h.log
  answers := ha.trans h.answers
  draws := hd.trans h.draws
  allowed := h.allowed

theorem afterTransaction_traffic {r : BusReq} {e : BusEnd} {s : State} (hp : permitted s.params r = true)
    (hc : carriesPec r = true → s.pecEn = true) :
    Traffic [{ addr := s.addr, req := r, ended := e }] s (afterTransaction r e s) where
  log := rfl
  answers := by simp
  draws := rfl
  allowed := by simp [hp]; exact hc

/-- A call of the TU puts at most one frame on the bus and changes nothing but the bus side of the state. -/
theorem transact_traffic {r : BusReq} {s t : State} {reply : Reply (List Byte)} (h : transact r s = .ok (reply, t))
    (hc : carriesPec r = true → s.pecEn = true) :
    ∃ new, Traffic new s t ∧ OnlyBus s t ∧ (new = [] ∨ ∃ e, new = [{ addr := s.addr, req := r, ended := e }]) := by
  rcases transact_cases h with ⟨_, _, rfl⟩ | ⟨k, hp, _, _, rfl⟩ | ⟨bytes, hp, _, _, rfl⟩
  · exact ⟨[], .none _, .refl _, .inl rfl⟩
  · exact ⟨_, afterTransaction_traffic hp hc, afterTransaction_onlyBus _ _ _, .inr ⟨_, rfl⟩⟩
  · exact ⟨_, afterTransaction_traffic hp hc, afterTransaction_onlyBus _ _ _, .inr ⟨_, rfl⟩⟩

theorem transactAs_ok {α : Type} {f : List Byte → α} {r : BusReq} {s t : State} {reply : Reply α}
    (h : transactAs f r s = .ok (reply, t)) : ∃ reply', transact r s = .ok (reply', t) ∧ reply = mapReply f reply' := by
  obtain ⟨a, s', hx, hk⟩ := Internal.andThen_ok.1 h
  simp only [Except.ok.injEq, Prod.mk.injEq] at hk
  exact ⟨a, hk.2 ▸ hx, hk.1.symm⟩

theorem transactAs_error {α : Type} {f : List Byte → α} {r : BusReq} {s : State} {e : Fault}
    (h : transactAs f r s = .error e) : nextAnswer s = .never ∧ permitted s.params r = true := by
  rcases Internal.andThen_error.1 h with h | ⟨_, _, _, h⟩
  · exact transact_error h
  · simp at h

theorem transactAs_traffic {α : Type} {f : List Byte → α} {r : BusReq} {s t : State} {reply : Reply α}
    (h : transactAs f r s = .ok (reply, t)) (hc : carriesPec r = true → s.pecEn = true) :
    ∃ new, Traffic new s t ∧ OnlyBus s t ∧ (new = [] ∨ ∃ e, new = [{ addr := s.addr, req := r, ended := e }]) := by
  obtain ⟨_, h', _⟩ := transactAs_ok h
  exact transact_traffic h' hc

/-- What a byte read can do (R118). -/
theorem readByteCore_traffic {c : Byte} {s t : State} {reply : Reply Byte} (h : readByteCore c s = .ok (reply, t)) :
    ∃ new, Traffic new s t ∧ OnlyBus s t ∧
      (new = [] ∨ ∃ e, new = [{ addr := s.addr, req := .readByte c s.pecEn, ended := e }]) :=
  transactAs_traffic h (by simp [carriesPec])

/-- A byte read without PEC that yields `b` has put one frame on the bus, and `b` is what the device drove in it (R82). -/
theorem readByteCore_frame {c b : Byte} {s t : State} (h : readByteCore c s = .ok (.ok b, t)) (hp : s.pecEn = false) :
    t.busLog = s.busLog ++ [{ addr := s.addr, req := .readByte c false, ended := .completed [b] none }] := by
  obtain ⟨reply, hx, hr⟩ := transactAs_ok h
  rw [hp] at hx
  rcases transact_cases hx with ⟨_, rfl, _⟩ | ⟨_, _, _, rfl, _⟩ | ⟨bytes, _, _, rfl, rfl⟩
  · cases hr
  · cases hr
  · simp only [deliver, overLimit, pecAgrees, pecOnWire, carriesPec, hasReply, hasCount, mapReply, payload, deviceBytes,
      deviceCount, takeBytes, byteOfPayload, Bool.false_and, Bool.not_false, Bool.true_or, Bool.false_eq_true, if_true,
      if_false, List.headD_cons, Reply.ok.injEq] at hr
    rw [hr]
    rfl

/-- What a byte write can do (R118). -/
theorem writeByteCore_traffic {c v : Byte} {s t : State} {reply : Reply Unit}
    (h : writeByteCore c v s = .ok (reply, t)) :
    ∃ new, Traffic new s t ∧ OnlyBus s t ∧
      (new = [] ∨ ∃ e, new = [{ addr := s.addr, req := .writeByte c v s.pecEn, ended := e }]) :=
  transactAs_traffic h (by simp [carriesPec])

/-- What a presence probe can do (R118). -/
theorem quickCore_traffic {s t : State} {reply : Reply Unit} (h : quickCore s = .ok (reply, t)) :
    ∃ new, Traffic new s t ∧ OnlyBus s t ∧ (new = [] ∨ ∃ e, new = [{ addr := s.addr, req := .quick, ended := e }]) :=
  transactAs_traffic h (by simp [carriesPec])

/-- The TU answers wherever the next answer is not an adapter that never answers. -/
theorem transact_answers {r : BusReq} {s : State} (h : nextAnswer s ≠ .never) :
    ∃ reply t, transact r s = .ok (reply, t) := by
  rcases hx : transact r s with f | ⟨reply, t⟩
  · exact absurd (transact_error hx).1 h
  · exact ⟨reply, t, rfl⟩

end Sys2Proof.Machine
end

