-- ==== Sys2Proof/Laws/Encoding.lean ====
section
/-! SUPPORT. The fields of an assembled request word (30_encoding.md R70), and of the `ARG` forms of R75. -/

namespace Sys2Proof

theorem pack_toNat (op : Byte) (cmd arg : Word16) (len : BitVec 12) :
    (pack op cmd arg len).toNat = op.toNat + 2 ^ 8 * cmd.toNat + 2 ^ 24 * arg.toNat + 2 ^ 40 * len.toNat := by
  have h1 := op.isLt
  have h2 := cmd.isLt
  have h3 := arg.isLt
  have h4 := len.isLt
  simp only [pack, BitVec.toNat_append, BitVec.toNat_ofNat]
  rw [← Nat.shiftLeft_add_eq_or_of_lt h1, ← Nat.shiftLeft_add_eq_or_of_lt h2, ← Nat.shiftLeft_add_eq_or_of_lt h3,
    ← Nat.shiftLeft_add_eq_or_of_lt h4]
  simp only [Nat.shiftLeft_eq]
  omega

theorem opField_pack (op : Byte) (cmd arg : Word16) (len : BitVec 12) : opField (pack op cmd arg len) = op := by
  apply BitVec.eq_of_toNat_eq
  have h1 := op.isLt
  simp only [opField, BitVec.extractLsb'_toNat, pack_toNat, Nat.shiftRight_eq_div_pow]
  omega

theorem cmdField_pack (op : Byte) (cmd arg : Word16) (len : BitVec 12) : cmdField (pack op cmd arg len) = cmd := by
  apply BitVec.eq_of_toNat_eq
  have h1 := op.isLt
  have h2 := cmd.isLt
  simp only [cmdField, BitVec.extractLsb'_toNat, pack_toNat, Nat.shiftRight_eq_div_pow]
  omega

theorem argField_pack (op : Byte) (cmd arg : Word16) (len : BitVec 12) : argField (pack op cmd arg len) = arg := by
  apply BitVec.eq_of_toNat_eq
  have h1 := op.isLt
  have h2 := cmd.isLt
  have h3 := arg.isLt
  simp only [argField, BitVec.extractLsb'_toNat, pack_toNat, Nat.shiftRight_eq_div_pow]
  omega

theorem lenField_pack (op : Byte) (cmd arg : Word16) (len : BitVec 12) : lenField (pack op cmd arg len) = len := by
  apply BitVec.eq_of_toNat_eq
  have h1 := op.isLt
  have h2 := cmd.isLt
  have h3 := arg.isLt
  have h4 := len.isLt
  simp only [lenField, BitVec.extractLsb'_toNat, pack_toNat, Nat.shiftRight_eq_div_pow]
  omega

theorem rsvField_pack (op : Byte) (cmd arg : Word16) (len : BitVec 12) : rsvField (pack op cmd arg len) = 0#12 := by
  apply BitVec.eq_of_toNat_eq
  have h1 := op.isLt
  have h2 := cmd.isLt
  have h3 := arg.isLt
  have h4 := len.isLt
  simp only [rsvField, BitVec.extractLsb'_toNat, pack_toNat, Nat.shiftRight_eq_div_pow, BitVec.toNat_ofNat]
  omega

theorem byteArg_toNat (b : Byte) : (byteArg b).toNat = b.toNat := by
  simp only [byteArg, BitVec.toNat_append, BitVec.toNat_ofNat]
  simp

theorem argLow_byteArg (b : Byte) : argLow (byteArg b) = b := by
  apply BitVec.eq_of_toNat_eq
  have h := b.isLt
  simp only [argLow, BitVec.extractLsb'_toNat, byteArg_toNat, Nat.shiftRight_zero]
  omega

/-- The address and the PEC request of OPEN are read back from its `ARG` field, for every value of both. -/
theorem argAddr_openArg : ∀ (a : BitVec 7) (p : Bool), argAddr (openArg a p) = a := by decide

theorem argPec_openArg : ∀ (a : BitVec 7) (p : Bool), argPec (openArg a p) = p := by decide

end Sys2Proof
end

