-- ==== Sys2Proof/Laws/Query.lean ====
section
/-! SUPPORT. What coefficient resolution, CHECK_SUPPORT and the steps of SCAN can do, each said once. -/

namespace Sys2Proof.Machine

/-- A process call, the primitive of a QUERY negotiation (30_encoding.md R84). -/
def isProcessCall (x : Transaction) : Bool :=
  match x.req with
  | .processCall _ _ _ => true
  | _ => false

/-- A QUERY negotiation costs 1 and any other transaction nothing. -/
def queries (new : List Transaction) : Nat := (new.filter isProcessCall).length

/-- Everything capability discovery can do between `s` and `t`, with `new` put on the bus (41_query.md R150,
42_coefficients.md R163, R164): slots bind at most once, `NO_QUERY` and validity flags only rise, and a validity flag
rises only with a five-byte exchange. -/
structure Discovered (new : List Transaction) (s t : State) : Prop where
  traffic  : Traffic new s t
  pec      : ∀ x ∈ new, PecFollows s.pecEn x.req
  frame    : t = { s with
    answers := t.answers, draws := t.draws, busLog := t.busLog, crcAcc := t.crcAcc, slot := t.slot, qbyte := t.qbyte
    coef := t.coef, noQuery := t.noQuery, voutModeValid := t.voutModeValid }
  bound    : ∀ c, slotAt s c ≠ .notProbed → slotAt t c = slotAt s c ∧ qbyteAt t c = qbyteAt s c
  fresh    : ∀ c, slotAt t c ≠ slotAt s c ∨ qbyteAt t c ≠ qbyteAt s c → c.toNat ≤ 0xFD ∧
    ((slotAt t c = .unsupported ∧ qbyteAt t c = qbyteAt s c) ∨
      (slotAt t c = .resolved ∧ qSupported (qbyteAt t c) = true))
  sticky   : s.noQuery = true → t.noQuery = true
  valid    : ∀ c d, (coefAt s c d).v = true → (coefAt t c d).v = true
  exchange : ∀ c d, (coefAt t c d).v = true →
    (coefAt s c d).v = true ∨ ∃ x ∈ new, FiveByteExchange s.params c d x
  captured : s.voutModeValid = true → t.voutModeValid = true
  capture  : t.voutModeValid = true →
    s.voutModeValid = true ∨ slotAt t s.params.codes.voutMode = .resolved

theorem Discovered.params {n : List Transaction} {s t : State} (h : Discovered n s t) : t.params = s.params := by
  rw [h.frame]

theorem Discovered.addr {n : List Transaction} {s t : State} (h : Discovered n s t) : t.addr = s.addr := by
  rw [h.frame]

theorem Discovered.pecEn {n : List Transaction} {s t : State} (h : Discovered n s t) : t.pecEn = s.pecEn := by
  rw [h.frame]

theorem Discovered.sessionState {n : List Transaction} {s t : State} (h : Discovered n s t) :
    t.sessionState = s.sessionState := by
  rw [h.frame]

theorem Discovered.trans {n₁ n₂ : List Transaction} {s t u : State} (h₁ : Discovered n₁ s t)
    (h₂ : Discovered n₂ t u) : Discovered (n₁ ++ n₂) s u where
  traffic := h₁.traffic.append h₂.traffic h₁.addr h₁.params (by rw [h₁.pecEn]; exact id)
  pec := by
    intro x hx
    rcases List.mem_append.1 hx with hx | hx
    · exact h₁.pec x hx
    · rw [← h₁.pecEn]; exact h₂.pec x hx
  frame := Eq.trans h₂.frame (congrArg (fun x : State =>
    { x with
      answers := u.answers, draws := u.draws, busLog := u.busLog, crcAcc := u.crcAcc, slot := u.slot, qbyte := u.qbyte
      coef := u.coef, noQuery := u.noQuery, voutModeValid := u.voutModeValid }) h₁.frame)
  bound := by
    intro c hc
    obtain ⟨hs, hq⟩ := h₁.bound c hc
    obtain ⟨hs', hq'⟩ := h₂.bound c (hs ▸ hc)
    exact ⟨hs'.trans hs, hq'.trans hq⟩
  fresh := by
    intro c hc
    by_cases h₂c : slotAt u c ≠ slotAt t c ∨ qbyteAt u c ≠ qbyteAt t c
    · obtain ⟨hcore, h⟩ := h₂.fresh c h₂c
      refine ⟨hcore, ?_⟩
      rcases h with ⟨hu, hq⟩ | h
      · by_cases h₁c : slotAt t c ≠ slotAt s c ∨ qbyteAt t c ≠ qbyteAt s c
        · have hnp : slotAt t c ≠ .notProbed := by
            rcases (h₁.fresh c h₁c).2 with h | h <;> rw [h.1] <;> decide
          exact absurd (h₂.bound c hnp) (by rintro ⟨ha, hb⟩; exact h₂c.elim (· ha) (· hb))
        · push Not at h₁c
          exact .inl ⟨hu, hq.trans h₁c.2⟩
      · exact .inr h
    · push Not at h₂c
      rw [h₂c.1, h₂c.2] at hc ⊢
      exact h₁.fresh c hc
  sticky := h₂.sticky ∘ h₁.sticky
  valid := fun c d h => h₂.valid c d (h₁.valid c d h)
  exchange := by
    intro c d h
    rcases h₂.exchange c d h with h | ⟨x, hx, hf⟩
    · rcases h₁.exchange c d h with h | ⟨x, hx, hf⟩
      · exact .inl h
      · exact .inr ⟨x, List.mem_append_left _ hx, hf⟩
    · rw [h₁.params] at hf
      exact .inr ⟨x, List.mem_append_right _ hx, hf⟩
  captured := h₂.captured ∘ h₁.captured
  capture := by
    intro h
    rcases h₂.capture h with h | h
    · rcases h₁.capture h with h | h
      · exact .inl h
      · have := (h₂.bound _ (by rw [h]; decide)).1
        exact .inr (this.trans h)
    · rw [h₁.params] at h
      exact .inr h

/-- Transactions that change only the bus side are discovery that has found nothing. -/
theorem Discovered.of_onlyBus {n : List Transaction} {s t : State} (h : Traffic n s t) (hf : OnlyBus s t)
    (hp : ∀ x ∈ n, PecFollows s.pecEn x.req) : Discovered n s t := by
  have hs : ∀ c, slotAt t c = slotAt s c := fun c => by rw [hf]; rfl
  have hq : ∀ c, qbyteAt t c = qbyteAt s c := fun c => by rw [hf]; rfl
  have hk : ∀ c d, coefAt t c d = coefAt s c d := fun c d => by rw [hf]; rfl
  have hn : t.noQuery = s.noQuery := by rw [hf]
  have hv : t.voutModeValid = s.voutModeValid := by rw [hf]
  exact
    { traffic := h
      pec := hp
      frame := by rw [hf]
      bound := fun c _ => ⟨hs c, hq c⟩
      fresh := fun c hc => by simp [hs, hq] at hc
      sticky := by simp [hn]
      valid := fun c d h => by rwa [hk]
      exchange := fun c d h => .inl (by rwa [← hk])
      captured := by simp [hv]
      capture := fun h => .inl (by rwa [← hv]) }

theorem Discovered.refl (s : State) : Discovered [] s s := .of_onlyBus (.none s) (.refl s) (by simp)

/-- One call of the TU whose frame follows `PEC_EN`. -/
theorem Discovered.of_call {n : List Transaction} {r : BusReq} {s t : State} (h : Traffic n s t) (hf : OnlyBus s t)
    (hn : n = [] ∨ ∃ e, n = [{ addr := s.addr, req := r, ended := e }]) (hp : PecFollows s.pecEn r) :
    Discovered n s t := by
  refine .of_onlyBus h hf ?_
  rcases hn with rfl | ⟨e, rfl⟩
  · simp
  · simpa using hp

theorem discovered_setNoQuery (s : State) : Discovered [] s { s with noQuery := true } where
  traffic := (Traffic.none s).congr rfl rfl rfl
  pec := by simp
  frame := rfl
  bound := fun _ _ => ⟨rfl, rfl⟩
  fresh := fun _ h => by rcases h with h | h <;> exact absurd rfl h
  sticky := fun _ => rfl
  valid := fun _ _ h => h
  exchange := fun _ _ h => .inl h
  captured := fun h => h
  capture := fun h => .inl h

/-! ## Coefficients -/

/-- Storing a set for which a five-byte exchange stands in `n` (R163). -/
theorem discovered_setCoef {n : List Transaction} {s t : State} (h : Discovered n s t) {c : Byte} {d : Direction}
    {k : CoefSet} (hx : ∃ x ∈ n, FiveByteExchange s.params c d x) (hk : k.v = true) :
    Discovered n s (setCoef c d k t) where
  traffic := h.traffic.congr rfl rfl rfl
  pec := h.pec
  frame := congrArg (fun x : State => { x with coef := (setCoef c d k t).coef }) h.frame
  bound := h.bound
  fresh := h.fresh
  sticky := h.sticky
  valid := by
    intro c' d' hv
    rw [coefAt_setCoef]
    split
    · exact hk
    · exact h.valid c' d' hv
  exchange := by
    intro c' d' hv
    rw [coefAt_setCoef] at hv
    split at hv
    · next he => exact .inr (he.1 ▸ he.2 ▸ hx)
    · exact h.exchange c' d' hv
  captured := h.captured
  capture := h.capture

theorem deviceBytes_length_blockProcessCall {limit : Nat} {c : Byte} {bs : List Byte} {pec : Bool} {bytes : List Byte}
    (h : overLimit limit (.blockProcessCall c bs pec) bytes = false) :
    deviceBytes limit (.blockProcessCall c bs pec) bytes =
      bytes.headD 0x00#8 :: takeBytes (bytes.headD 0x00#8).toNat bytes.tail := by
  simp [deviceBytes, deviceCount, h, Nat.add_comm 1, takeBytes]

/-- Everything a coefficient fetch can do (R161 to R164): it stores the set a five-byte response stands for, or it leaves
the table as it is; at most one transaction, none of them a QUERY. -/
theorem fetchCoefficientsCore_cases {c : Byte} {d : Direction} {s t : State} {e : Exit}
    (h : fetchCoefficientsCore c d s = .ok (e, t)) :
    ∃ new, Discovered new s t ∧ new.length ≤ 1 ∧ queries new = 0 ∧
      ((e ≠ .ok ∧ OnlyBus s t) ∨ (e = .ok ∧ ∃ bs u, OnlyBus s u ∧ t = setCoef c d (coefOfBytes bs) u)) := by
  unfold fetchCoefficientsCore at h
  split at h
  · obtain ⟨reply, u, hx, hk⟩ := Internal.andThen_ok.1 h
    obtain ⟨new, htr, hob, hnew⟩ := transact_traffic hx (by simp [carriesPec])
    have hlen : new.length ≤ 1 ∧ queries new = 0 := by
      rcases hnew with rfl | ⟨e, rfl⟩ <;> simp [queries, isProcessCall]
    have hd := Discovered.of_call htr hob hnew (.inl rfl)
    refine ⟨new, ?_, hlen.1, hlen.2, ?_⟩
    · rcases reply with bs | _ | k
      · simp only [storeCoefficients, Except.ok.injEq] at hk
        split at hk
        · next hlen5 =>
          obtain ⟨rfl, rfl⟩ := Prod.mk.inj hk
          refine discovered_setCoef hd ?_ rfl
          rcases transact_cases hx with ⟨_, h, _⟩ | ⟨_, _, _, h, _⟩ | ⟨bytes, _, _, h, hu⟩
          · simp at h
          · simp at h
          · rcases deliver_cases s _ bytes with ⟨_, h'⟩ | ⟨_, _, h'⟩ | ⟨hov, _, h'⟩
            · rw [h'] at h; simp at h
            · rw [h'] at h; simp at h
            · rw [h'] at h
              simp only [Reply.ok.injEq, payload, hasCount, if_true] at h
              have hlog := htr.log
              rw [hu, afterTransaction_busLog] at hlog
              refine ⟨_, by rw [← List.append_cancel_left hlog]; exact List.mem_singleton.2 rfl,
                .inl ⟨_, rfl⟩, _, _, rfl, ?_⟩
              rw [deviceBytes_length_blockProcessCall hov]
              rw [deviceBytes_length_blockProcessCall hov] at h
              subst h
              simp only [List.tail_cons, takeBytes_length] at hlen5
              exact BitVec.eq_of_toNat_eq hlen5
        · obtain ⟨rfl, rfl⟩ := Prod.mk.inj hk
          exact hd
      · simp only [Except.ok.injEq, Prod.mk.injEq] at hk
        exact hk.2 ▸ hd
      · simp only [Except.ok.injEq, Prod.mk.injEq] at hk
        exact hk.2 ▸ hd
    · rcases reply with bs | _ | k
      · simp only [storeCoefficients, Except.ok.injEq] at hk
        split at hk
        · obtain ⟨rfl, rfl⟩ := Prod.mk.inj hk
          exact .inr ⟨rfl, bs, u, hob, rfl⟩
        · obtain ⟨rfl, rfl⟩ := Prod.mk.inj hk
          exact .inl ⟨by simp, hob⟩
      · simp only [Except.ok.injEq, Prod.mk.injEq] at hk
        exact .inl ⟨by rw [← hk.1]; simp, hk.2 ▸ hob⟩
      · simp only [Except.ok.injEq, Prod.mk.injEq] at hk
        exact .inl ⟨by rw [← hk.1]; simp, hk.2 ▸ hob⟩
  · split at h
    · obtain ⟨reply, u, hx, hk⟩ := Internal.andThen_ok.1 h
      obtain ⟨new, htr, hob, hnew⟩ := transact_traffic hx (by simp [carriesPec])
      have hlen : new.length ≤ 1 ∧ queries new = 0 := by
        rcases hnew with rfl | ⟨e, rfl⟩ <;> simp [queries, isProcessCall]
      have hd := Discovered.of_call htr hob hnew (.inr (.inr ⟨_, _, rfl⟩))
      refine ⟨new, ?_, hlen.1, hlen.2, ?_⟩
      · rcases reply with bs | _ | k
        · simp only [storeCoefficients, Except.ok.injEq] at hk
          split at hk
          · next hlen5 =>
            obtain ⟨rfl, rfl⟩ := Prod.mk.inj hk
            refine discovered_setCoef hd ?_ rfl
            rcases transact_cases hx with ⟨_, h, _⟩ | ⟨_, _, _, h, _⟩ | ⟨bytes, _, _, h, hu⟩
            · simp at h
            · simp at h
            · rcases deliver_cases s _ bytes with ⟨_, h'⟩ | ⟨_, _, h'⟩ | ⟨hov, _, h'⟩
              · rw [h'] at h; simp at h
              · rw [h'] at h; simp at h
              · rw [h'] at h
                simp only [Reply.ok.injEq, payload, hasCount, Bool.false_eq_true, if_false] at h
                have hlog := htr.log
                rw [hu, afterTransaction_busLog] at hlog
                refine ⟨_, by rw [← List.append_cancel_left hlog]; exact List.mem_singleton.2 rfl,
                  .inr rfl, _, _, rfl, ?_⟩
                rw [← h]
                exact BitVec.eq_of_toNat_eq hlen5
          · obtain ⟨rfl, rfl⟩ := Prod.mk.inj hk
            exact hd
        · simp only [Except.ok.injEq, Prod.mk.injEq] at hk
          exact hk.2 ▸ hd
        · simp only [Except.ok.injEq, Prod.mk.injEq] at hk
          exact hk.2 ▸ hd
      · rcases reply with bs | _ | k
        · simp only [storeCoefficients, Except.ok.injEq] at hk
          split at hk
          · obtain ⟨rfl, rfl⟩ := Prod.mk.inj hk
            exact .inr ⟨rfl, bs.tail, u, hob, rfl⟩
          · obtain ⟨rfl, rfl⟩ := Prod.mk.inj hk
            exact .inl ⟨by simp, hob⟩
        · simp only [Except.ok.injEq, Prod.mk.injEq] at hk
          exact .inl ⟨by rw [← hk.1]; simp, hk.2 ▸ hob⟩
        · simp only [Except.ok.injEq, Prod.mk.injEq] at hk
          exact .inl ⟨by rw [← hk.1]; simp, hk.2 ▸ hob⟩
    · simp only [Except.ok.injEq, Prod.mk.injEq] at h
      obtain ⟨rfl, rfl⟩ := h
      exact ⟨[], .refl _, by simp, by simp [queries], .inl ⟨by simp, .refl _⟩⟩

/-! ## CHECK_SUPPORT -/

theorem queries_append (a b : List Transaction) : queries (a ++ b) = queries a + queries b := by
  simp [queries]

theorem isExtended_false_iff {cmd : Word16} : isExtended cmd = false ↔ cmd.toNat ≤ 0xFD := by
  simp [isExtended]

theorem c8_toNat {cmd : Word16} (h : cmd.toNat ≤ 0xFD) : (c8 cmd).toNat = cmd.toNat := by
  simp only [c8, BitVec.extractLsb'_toNat, Nat.shiftRight_zero]
  omega

theorem c8_cmdOf (c : Byte) : c8 (cmdOf c) = c := by
  have h := c.isLt
  apply BitVec.eq_of_toNat_eq
  simp only [c8, cmdOf, BitVec.extractLsb'_toNat, BitVec.toNat_setWidth, Nat.shiftRight_zero]
  omega

/-- The block's own command codes are core and distinct where its logic needs it (00_scope.md R10). -/
theorem commandCodes_spec (k : CommandCodes) :
    (k.capability.toNat ≤ 0xFD ∧ k.query.toNat ≤ 0xFD ∧ k.voutMode.toNat ≤ 0xFD ∧ k.coefficients.toNat ≤ 0xFD ∧
      k.pmbusRevision.toNat ≤ 0xFD) ∧ k.voutMode ≠ k.coefficients ∧ k.query ≠ k.voutMode ∧ k.query ≠ k.coefficients := by
  have h := k.ok
  simp only [commandCodesOk, Bool.and_eq_true, List.all_eq_true, decide_eq_true_eq, List.mem_cons, List.not_mem_nil,
    or_false, forall_eq_or_imp, forall_eq, List.nodup_cons, not_or] at h
  obtain ⟨⟨h1, h2, h3, h4, h5⟩, ⟨_, _, _, _⟩, ⟨hqv, hqc, _⟩, ⟨hvc, _⟩, _⟩ := h
  exact ⟨⟨h1, h2, h3, h4, h5⟩, hvc, hqv, hqc⟩

theorem cmdOf_core {c : Byte} (h : c.toNat ≤ 0xFD) : isExtended (cmdOf c) = false := by
  rw [isExtended_false_iff]
  simp only [cmdOf, BitVec.toNat_setWidth]
  omega

/-- One fetch inside CHECK_SUPPORT: at most one transaction, none of them a QUERY (42_coefficients.md R165). -/
theorem enrich_discovered {w : Bool} {c : Byte} {d : Direction} {s t : State} {x : Unit}
    (h : enrich w c d s = .ok (x, t)) : ∃ new, Discovered new s t ∧ new.length ≤ 1 ∧ queries new = 0 := by
  unfold enrich at h
  split at h
  · obtain ⟨e, u, hf, hk⟩ := Internal.andThen_ok.1 h
    obtain ⟨new, hd, hl, hq, _⟩ := fetchCoefficientsCore_cases hf
    simp only [Except.ok.injEq, Prod.mk.injEq] at hk
    exact ⟨new, hk.2 ▸ hd, hl, hq⟩
  · simp only [Except.ok.injEq, Prod.mk.injEq] at h
    exact ⟨[], h.2 ▸ .refl _, by simp, by simp [queries]⟩

/-- Step 8 (R148): what the nested check does, then at most two fetches; the verdict is Supported. -/
theorem directCoefficients_discovered {ask : State → Internal Verdict} {p : List Transaction → Prop} (p_nil : p [])
    (hask : ∀ {s t v}, ask s = .ok (v, t) → ∃ new, Discovered new s t ∧ p new)
    {c q : Byte} {s t : State} {v : Verdict} (h : directCoefficients ask c q s = .ok (v, t)) :
    v = .supported ∧ ∃ n₁ n₂, Discovered (n₁ ++ n₂) s t ∧ p n₁ ∧ n₂.length ≤ 2 ∧ queries n₂ = 0 := by
  unfold directCoefficients at h
  split at h
  · obtain ⟨a, s₁, ha, h⟩ := Internal.andThen_ok.1 h
    obtain ⟨n, hd, hp⟩ := hask ha
    split at h
    · obtain ⟨_, s₂, h₂, h⟩ := Internal.andThen_ok.1 h
      obtain ⟨_, s₃, h₃, h⟩ := Internal.andThen_ok.1 h
      obtain ⟨n₂, hd₂, hl₂, hq₂⟩ := enrich_discovered h₂
      obtain ⟨n₃, hd₃, hl₃, hq₃⟩ := enrich_discovered h₃
      simp only [Except.ok.injEq, Prod.mk.injEq] at h
      obtain ⟨rfl, rfl⟩ := h
      refine ⟨rfl, n, n₂ ++ n₃, hd.trans (hd₂.trans hd₃), hp, ?_, ?_⟩
      · simp only [List.length_append]; omega
      · rw [queries_append]; omega
    · simp only [Except.ok.injEq, Prod.mk.injEq] at h
      obtain ⟨rfl, rfl⟩ := h
      exact ⟨rfl, n, [], by simpa using hd, hp, by simp, by simp [queries]⟩
  · simp only [Except.ok.injEq, Prod.mk.injEq] at h
    obtain ⟨rfl, rfl⟩ := h
    exact ⟨rfl, [], [], by simpa using .refl _, p_nil, by simp, by simp [queries]⟩

theorem coefPairAt_captureVoutMode (u : Byte) (s : State) (c : Byte) :
    coefPairAt (captureVoutMode u s) c =
      if s.params.codes.voutMode = c then
        { write := { coefAt s c .write with r := u }, read := { coefAt s c .read with r := u } }
      else coefPairAt s c := by
  have h : coefPairAt (captureVoutMode u s) c =
      coefPairAt (setCoef s.params.codes.voutMode .read { coefAt s s.params.codes.voutMode .read with r := u }
        (setCoef s.params.codes.voutMode .write { coefAt s s.params.codes.voutMode .write with r := u } s)) c := rfl
  rw [h, coefPairAt_setCoef, coefPairAt_setCoef, coefPairAt_setCoef]
  split
  · next hc => subst hc; rw [if_pos rfl]; rfl
  · rfl

/-- A VOUT_MODE capture writes `R` in both directions and leaves `M`, `B` and `V` (R149). -/
theorem coefAt_captureVoutMode (u : Byte) (s : State) (c : Byte) (d : Direction) :
    coefAt (captureVoutMode u s) c d =
      if s.params.codes.voutMode = c then { coefAt s c d with r := u } else coefAt s c d := by
  unfold coefAt
  rw [coefPairAt_captureVoutMode]
  split
  · cases d <;> rfl
  · rfl

/-- Step 9 (R149): one byte read of VOUT_MODE, and on success its byte in both `R` fields. -/
theorem voutModeCapture_cases {s t : State} {v : Verdict} (h : voutModeCapture s = .ok (v, t))
    (hs : slotAt s s.params.codes.voutMode = .resolved) :
    v = .supported ∧ ∃ new, Discovered new s t ∧ new.length ≤ 1 ∧ queries new = 0 := by
  obtain ⟨reply, u, hx, hk⟩ := Internal.andThen_ok.1 h
  obtain ⟨new, htr, hob, hnew⟩ := readByteCore_traffic hx
  have hlen : new.length ≤ 1 ∧ queries new = 0 := by
    rcases hnew with rfl | ⟨e, rfl⟩ <;> simp [queries, isProcessCall]
  have hd := Discovered.of_call htr hob hnew (.inl rfl)
  rcases reply with b | _ | k
  · simp only [Except.ok.injEq, Prod.mk.injEq] at hk
    obtain ⟨rfl, rfl⟩ := hk
    have hp : u.params = s.params := hd.params
    have hv : ∀ c d, (coefAt (captureVoutMode b u) c d).v = (coefAt u c d).v := by
      intro c d
      rw [coefAt_captureVoutMode]
      split <;> rfl
    have hsl : slotAt u s.params.codes.voutMode = .resolved := by rw [hob]; exact hs
    refine ⟨rfl, new, ?_, hlen.1, hlen.2⟩
    exact
      { traffic := hd.traffic.congr rfl rfl rfl
        pec := hd.pec
        frame := congrArg (fun x : State =>
          { x with coef := (captureVoutMode b u).coef, voutModeValid := true }) hd.frame
        bound := hd.bound
        fresh := hd.fresh
        sticky := hd.sticky
        valid := fun c d h => by rw [hv]; exact hd.valid c d h
        exchange := fun c d h => hd.exchange c d (by rwa [hv] at h)
        captured := fun _ => rfl
        capture := fun _ => .inr hsl }
  · simp only [Except.ok.injEq, Prod.mk.injEq] at hk
    exact ⟨hk.1.symm, new, hk.2 ▸ hd, hlen⟩
  · simp only [Except.ok.injEq, Prod.mk.injEq] at hk
    exact ⟨hk.1.symm, new, hk.2 ▸ hd, hlen⟩

theorem discovered_bindUnsupported {c : Byte} {s : State} (hc : c.toNat ≤ 0xFD) (hs : slotAt s c = .notProbed) :
    Discovered [] s (setSlot c .unsupported s) where
  traffic := (Traffic.none s).congr rfl rfl rfl
  pec := by simp
  frame := rfl
  bound := by
    intro c' h'
    have : c ≠ c' := by rintro rfl; exact h' hs
    rw [slotAt_setSlot, if_neg this]
    exact ⟨rfl, rfl⟩
  fresh := by
    intro c' h'
    by_cases he : c = c'
    · subst he
      exact ⟨hc, .inl ⟨by rw [slotAt_setSlot, if_pos rfl], rfl⟩⟩
    · rw [slotAt_setSlot, if_neg he] at h'
      exact absurd h' (by rintro (h | h) <;> exact h rfl)
  sticky := id
  valid := fun _ _ h => h
  exchange := fun _ _ h => .inl h
  captured := id
  capture := .inl

theorem discovered_bindResolved {c q : Byte} {s : State} (hc : c.toNat ≤ 0xFD) (hs : slotAt s c = .notProbed)
    (hq : qSupported q = true) : Discovered [] s (setSlot c .resolved (setQbyte c q s)) where
  traffic := (Traffic.none s).congr rfl rfl rfl
  pec := by simp
  frame := rfl
  bound := by
    intro c' h'
    have hne : c ≠ c' := by rintro rfl; exact h' hs
    have hq' : qbyteAt (setSlot c .resolved (setQbyte c q s)) c' = qbyteAt (setQbyte c q s) c' := rfl
    rw [slotAt_setSlot, if_neg hne, hq', qbyteAt_setQbyte, if_neg hne]
    exact ⟨rfl, rfl⟩
  fresh := by
    intro c' h'
    have hq' : qbyteAt (setSlot c .resolved (setQbyte c q s)) c' = qbyteAt (setQbyte c q s) c' := rfl
    by_cases he : c = c'
    · subst he
      refine ⟨hc, .inr ⟨by rw [slotAt_setSlot, if_pos rfl], ?_⟩⟩
      rw [hq', qbyteAt_setQbyte, if_pos rfl]
      exact hq
    · rw [slotAt_setSlot, if_neg he, hq', qbyteAt_setQbyte, if_neg he] at h'
      exact absurd h' (by rintro (h | h) <;> exact h rfl)
  sticky := id
  valid := fun _ _ h => h
  exchange := fun _ _ h => .inl h
  captured := id
  capture := .inl

/-- What a check costs on the bus: `k` QUERY negotiations and `n` other transactions at most. -/
def Costs (k n : Nat) (new : List Transaction) : Prop := queries new ≤ k ∧ new.length ≤ queries new + n

/-- `CheckSupport_core(cmd)` (R141 to R149): everything it can do, given what the nested check of COEFFICIENTS can do. For
VOUT_MODE it makes one negotiation and one byte read at most. -/
theorem checkWith_discovered {ask : State → Internal Verdict} {k n : Nat}
    (hask : ∀ {s t v}, ask s = .ok (v, t) → ∃ new, Discovered new s t ∧ Costs k n new)
    {cmd : Word16} {s t : State} {v : Verdict} (h : checkWith ask cmd s = .ok (v, t)) :
    ∃ new, Discovered new s t ∧ Costs (k + 1) (n + 2) new ∧ (cmd = cmdOf s.params.codes.voutMode → Costs 1 1 new) := by
  have c_nil : ∀ a b, Costs a b [] := fun a b => by simp [Costs, queries]
  unfold checkWith at h
  split at h
  · simp only [Except.ok.injEq, Prod.mk.injEq] at h
    exact ⟨[], h.2 ▸ .refl _, c_nil _ _, fun _ => c_nil _ _⟩
  · next hext =>
    have hcore : cmd.toNat ≤ 0xFD := isExtended_false_iff.1 (by simpa using hext)
    have hc : (c8 cmd).toNat ≤ 0xFD := by rw [c8_toNat hcore]; exact hcore
    split at h
    · simp only [Except.ok.injEq, Prod.mk.injEq] at h
      exact ⟨[], h.2 ▸ .refl _, c_nil _ _, fun _ => c_nil _ _⟩
    · next hkv =>
      have hnp : slotAt s (c8 cmd) = .notProbed := by
        unfold knownVerdict at hkv
        split at hkv <;> simp_all
      obtain ⟨reply, u, hx, hk⟩ := Internal.andThen_ok.1 h
      obtain ⟨n₀, htr, hob, hn₀⟩ := transactAs_traffic hx (by simp [carriesPec])
      have hcost₀ : queries n₀ ≤ 1 ∧ n₀.length = queries n₀ := by
        rcases hn₀ with rfl | ⟨e, rfl⟩
        · exact ⟨Nat.zero_le 1, rfl⟩
        · exact ⟨Nat.le_refl 1, rfl⟩
      have hd₀ := Discovered.of_call htr hob hn₀ (.inl rfl)
      have hnp' : slotAt u (c8 cmd) = .notProbed := by rw [hob]; exact hnp
      split at hk
      · next q hq =>
        unfold bindSlot at hk
        split at hk
        · next hsup =>
          have hb := discovered_bindResolved (s := u) hc hnp' hsup
          simp only at hk
          split at hk
          · next hvm =>
            have hres : slotAt (setSlot (c8 cmd) .resolved (setQbyte (c8 cmd) q u))
                (setSlot (c8 cmd) .resolved (setQbyte (c8 cmd) q u)).params.codes.voutMode = .resolved := by
              rw [slotAt_setSlot]
              exact if_pos hvm
            obtain ⟨_, n₁, hd₁, hl₁, hq₁⟩ := voutModeCapture_cases hk hres
            refine ⟨n₀ ++ n₁, by simpa using hd₀.trans (hb.trans hd₁), ?_, fun _ => ?_⟩ <;>
            · simp only [Costs, queries_append, List.length_append]; omega
          · next hvm =>
            obtain ⟨_, n₁, n₂, hd₁, hp₁, hl₂, hq₂⟩ :=
              directCoefficients_discovered (p := Costs k n) (c_nil _ _) hask hk
            refine ⟨n₀ ++ (n₁ ++ n₂), by simpa using hd₀.trans (hb.trans hd₁), ?_, ?_⟩
            · obtain ⟨h1, h2⟩ := hp₁
              simp only [Costs, queries_append, List.length_append]; omega
            · intro hcmd
              rw [hcmd, c8_cmdOf, hd₀.params] at hvm
              exact absurd rfl hvm
        · simp only [Except.ok.injEq, Prod.mk.injEq] at hk
          refine ⟨n₀, hk.2 ▸ (by simpa using hd₀.trans (discovered_bindUnsupported hc hnp')), ?_, fun _ => ?_⟩ <;>
          · simp only [Costs]; omega
      · simp only [Except.ok.injEq, Prod.mk.injEq] at hk
        refine ⟨n₀, hk.2 ▸ (by simpa using hd₀.trans (discovered_setNoQuery u)), ?_, fun _ => ?_⟩ <;>
        · simp only [Costs]; omega

theorem boundVerdict_discovered {s t : State} {v : Verdict} (h : boundVerdict s = .ok (v, t)) :
    ∃ new, Discovered new s t ∧ Costs 0 0 new := by
  simp only [boundVerdict, Except.ok.injEq, Prod.mk.injEq] at h
  exact ⟨[], h.2 ▸ .refl _, by simp [Costs, queries]⟩

/-- The nested check of COEFFICIENTS: one negotiation and two fetches at most (R151). -/
theorem checkCoefficients_discovered {s t : State} {v : Verdict} (h : checkCoefficients s = .ok (v, t)) :
    ∃ new, Discovered new s t ∧ Costs 1 2 new := by
  obtain ⟨new, hd, hc, _⟩ := checkWith_discovered boundVerdict_discovered h
  exact ⟨new, hd, hc⟩

/-- `CheckSupport_core(cmd)` (R141 to R151): everything it can do, and the bound of R151 on what it costs. -/
theorem checkSupportCore_discovered {cmd : Word16} {s t : State} {v : Verdict}
    (h : checkSupportCore cmd s = .ok (v, t)) :
    ∃ new, Discovered new s t ∧ Costs 2 4 new ∧ (cmd = cmdOf s.params.codes.voutMode → Costs 1 1 new) :=
  checkWith_discovered checkCoefficients_discovered h

end Sys2Proof.Machine
end

