-- ==== Sys2Proof/Laws/Session.lean ====
section
/-! SUPPORT. What the steps of SCAN can do, each said once, and that the internal forms answer wherever the bus does. -/

namespace Sys2Proof.Machine

/-- One check of the sweep, its verdict discarded (R224, R227). -/
theorem probe_discovered {cmd : Word16} {s t : State} {x : Unit} (h : probe cmd s = .ok (x, t)) :
    ∃ new, Discovered new s t ∧ Costs 2 4 new := by
  obtain ⟨v, u, hc, hk⟩ := Internal.andThen_ok.1 h
  obtain ⟨new, hd, hcost, _⟩ := checkSupportCore_discovered hc
  simp only [Except.ok.injEq, Prod.mk.injEq] at hk
  exact ⟨new, hk.2 ▸ hd, hcost⟩

/-- Step (e) (R227): discovery, at most six transactions for every entry. -/
theorem sweep_discovered {es : List CatalogEntry} {s t : State} {x : Unit} (h : sweep es s = .ok (x, t)) :
    ∃ new, Discovered new s t ∧ new.length ≤ 6 * es.length := by
  induction es generalizing s with
  | nil =>
    simp only [sweep, Except.ok.injEq, Prod.mk.injEq] at h
    exact ⟨[], h.2 ▸ .refl _, by simp⟩
  | cons e es ih =>
    obtain ⟨_, u, hp, hs⟩ := Internal.andThen_ok.1 h
    obtain ⟨n₁, hd₁, hc₁⟩ := probe_discovered hp
    obtain ⟨n₂, hd₂, hl₂⟩ := ih hs
    refine ⟨n₁ ++ n₂, hd₁.trans hd₂, ?_⟩
    obtain ⟨ha, hb⟩ := hc₁
    simp only [List.length_append, List.length_cons]
    omega

/-- Step (c) (R225): one byte read, and on success its byte and the PEC decision; read without PEC, it is the byte of the
frame. -/
theorem readCapability_cases {s t : State} {x : Unit} (h : readCapability s = .ok (x, t)) :
    ∃ new u, Traffic new s u ∧ OnlyBus s u ∧
      (new = [] ∨ ∃ e, new = [{ addr := s.addr, req := .readByte s.params.codes.capability s.pecEn, ended := e }]) ∧
      (t = u ∨ ∃ b, t = captureCapability b u ∧ (s.pecEn = false →
        new = [{ addr := s.addr, req := .readByte s.params.codes.capability false, ended := .completed [b] none }])) := by
  obtain ⟨reply, u, hx, hk⟩ := Internal.andThen_ok.1 h
  obtain ⟨new, htr, hob, hnew⟩ := readByteCore_traffic hx
  refine ⟨new, u, htr, hob, hnew, ?_⟩
  rcases reply with b | _ | k <;> simp only [Except.ok.injEq, Prod.mk.injEq] at hk
  · exact .inr ⟨b, hk.2.symm, fun hp => List.append_cancel_left (htr.log.symm.trans (readByteCore_frame hx hp))⟩
  · exact .inl hk.2.symm
  · exact .inl hk.2.symm

/-- Step (d) (R226): one byte read, and on success its byte. -/
theorem readRevision_cases {s t : State} {x : Unit} (h : readRevision s = .ok (x, t)) :
    ∃ new u, Traffic new s u ∧ OnlyBus s u ∧
      (new = [] ∨ ∃ e, new = [{ addr := s.addr, req := .readByte s.params.codes.pmbusRevision s.pecEn, ended := e }]) ∧
      (t = u ∨ ∃ b, t = { u with revByte := b, revValid := true }) := by
  obtain ⟨reply, u, hx, hk⟩ := Internal.andThen_ok.1 h
  obtain ⟨new, htr, hob, hnew⟩ := readByteCore_traffic hx
  refine ⟨new, u, htr, hob, hnew, ?_⟩
  rcases reply with b | _ | k <;> simp only [Except.ok.injEq, Prod.mk.injEq] at hk
  · exact .inr ⟨b, hk.2.symm⟩
  · exact .inl hk.2.symm
  · exact .inl hk.2.symm

/-- Steps (b) to (e) of SCAN, one after the other (R222, R234). -/
theorem discover_cases {s t : State} {x : Unit} (h : discover s = .ok (x, t)) :
    ∃ s₁ s₂ s₃, probe (cmdOf s.params.codes.query) s = .ok ((), s₁) ∧ readCapability s₁ = .ok ((), s₂) ∧
      readRevision s₂ = .ok ((), s₃) ∧ sweep s₃.params.catalog.entries s₃ = .ok ((), t) := by
  obtain ⟨⟨⟩, s₁, h₁, h⟩ := Internal.andThen_ok.1 h
  obtain ⟨⟨⟩, s₂, h₂, h⟩ := Internal.andThen_ok.1 h
  obtain ⟨⟨⟩, s₃, h₃, h⟩ := Internal.andThen_ok.1 h
  exact ⟨s₁, s₂, s₃, h₁, h₂, h₃, h⟩

/-! ## Answers -/

theorem Answered.nextAnswer_ne {n : Nat} {s : State} (h : Answered (n + 1) s) : nextAnswer s ≠ .never := by
  obtain ⟨hl, hn⟩ := h
  rcases ha : s.answers with _ | ⟨a, rest⟩
  · rw [ha] at hl; simp at hl
  · rw [ha] at hn
    simp only [nextAnswer, ha]
    exact fun hc => hn (by simp [hc])

theorem Answered.mono {n m : Nat} {s : State} (h : Answered n s) (hm : m ≤ n) : Answered m s := ⟨by have := h.1; omega, h.2⟩

theorem Answered.after {n k : Nat} {new : List Transaction} {s t : State} (h : Answered n s) (ht : Traffic new s t)
    (hk : k + new.length ≤ n) : Answered k t := by
  refine ⟨?_, ?_⟩
  · rw [ht.answers, List.length_drop]; have := h.1; omega
  · rw [ht.answers]; exact fun hm => h.2 (List.mem_of_mem_drop hm)

theorem Answered.congr {n : Nat} {s t : State} (h : Answered n s) (ha : t.answers = s.answers) : Answered n t := by
  unfold Answered at *; rw [ha]; exact h

theorem transactAs_answers {α : Type} {f : List Byte → α} {r : BusReq} {s : State} (h : nextAnswer s ≠ .never) :
    ∃ reply t, transactAs f r s = .ok (reply, t) := by
  obtain ⟨reply, t, hx⟩ := transact_answers (r := r) h
  exact ⟨mapReply f reply, t, by rw [transactAs, hx]; rfl⟩

theorem fetchCoefficientsCore_answers {c : Byte} {d : Direction} {s : State} (h : Answered 1 s) :
    ∃ e t, fetchCoefficientsCore c d s = .ok (e, t) := by
  unfold fetchCoefficientsCore
  split
  · obtain ⟨reply, t, hx⟩ := transact_answers
      (r := .blockProcessCall s.params.codes.coefficients [c, directionByte d] s.pecEn) h.nextAnswer_ne
    rw [hx]
    rcases reply with bs | _ | k <;> exact ⟨_, _, rfl⟩
  · split
    · obtain ⟨reply, t, hx⟩ := transact_answers
        (r := .raw [s.params.codes.coefficients, 0x02#8, c, directionByte d] 6) h.nextAnswer_ne
      rw [hx]
      rcases reply with bs | _ | k <;> exact ⟨_, _, rfl⟩
    · exact ⟨_, _, rfl⟩

theorem enrich_answers {w : Bool} {c : Byte} {d : Direction} {s : State} (h : Answered 1 s) :
    ∃ t, enrich w c d s = .ok ((), t) := by
  unfold enrich
  split
  · obtain ⟨e, t, hx⟩ := fetchCoefficientsCore_answers h
    exact ⟨t, by rw [hx]; rfl⟩
  · exact ⟨s, rfl⟩

theorem voutModeCapture_answers {s : State} (h : Answered 1 s) : ∃ v t, voutModeCapture s = .ok (v, t) := by
  obtain ⟨reply, t, hx⟩ := transactAs_answers (f := byteOfPayload)
    (r := .readByte s.params.codes.voutMode s.pecEn) h.nextAnswer_ne
  unfold voutModeCapture readByteCore
  rw [hx]
  rcases reply with b | _ | k <;> exact ⟨_, _, rfl⟩

theorem directCoefficients_answers {ask : State → Internal Verdict} {k : Nat}
    (hans : ∀ {s}, Answered k s → ∃ v t, ask s = .ok (v, t))
    (hask : ∀ {s t v}, ask s = .ok (v, t) → ∃ new, Discovered new s t ∧ new.length ≤ k)
    {c q : Byte} {s : State} (h : Answered (k + 2) s) : ∃ v t, directCoefficients ask c q s = .ok (v, t) := by
  unfold directCoefficients
  split
  · obtain ⟨v, s₁, h₁⟩ := hans (h.mono (by omega))
    obtain ⟨n₁, hd₁, hl₁⟩ := hask h₁
    have a₁ : Answered 2 s₁ := h.after hd₁.traffic (by omega)
    obtain ⟨s₂, h₂⟩ := enrich_answers (w := qReadable q) (c := c) (d := .read) (a₁.mono (by omega))
    obtain ⟨n₂, hd₂, hl₂, _⟩ := enrich_discovered h₂
    have a₂ : Answered 1 s₂ := a₁.after hd₂.traffic (by omega)
    obtain ⟨s₃, h₃⟩ := enrich_answers (w := qWritable q) (c := c) (d := .write) a₂
    rw [h₁]
    by_cases hv : v = .supported
    · refine ⟨.supported, s₃, ?_⟩
      simp only [Internal.andThen, hv, if_true, h₂, h₃]
    · exact ⟨.supported, s₁, by simp [Internal.andThen, hv]⟩
  · exact ⟨_, _, rfl⟩

theorem checkWith_answers {ask : State → Internal Verdict} {k : Nat}
    (hans : ∀ {s}, Answered k s → ∃ v t, ask s = .ok (v, t))
    (hask : ∀ {s t v}, ask s = .ok (v, t) → ∃ new, Discovered new s t ∧ new.length ≤ k)
    {cmd : Word16} {s : State} (h : Answered (k + 3) s) : ∃ v t, checkWith ask cmd s = .ok (v, t) := by
  unfold checkWith
  split
  · exact ⟨_, _, rfl⟩
  · split
    · exact ⟨_, _, rfl⟩
    · unfold negotiate
      obtain ⟨reply, u, hx⟩ := transactAs_answers (f := wordOfPayload)
        (r := .processCall s.params.codes.query (queryWord (c8 cmd)) s.pecEn) (Answered.nextAnswer_ne (n := k + 2) h)
      obtain ⟨n, htr, hob, hn⟩ := transactAs_traffic hx (by simp [carriesPec])
      have hl : n.length ≤ 1 := by rcases hn with rfl | ⟨e, rfl⟩ <;> simp
      have hu : Answered (k + 2) u := h.after htr (by omega)
      rw [hx]
      simp only [Internal.andThen]
      split
      · unfold bindSlot
        split
        · simp only
          split
          · exact voutModeCapture_answers (Answered.congr (hu.mono (by omega)) rfl)
          · exact directCoefficients_answers hans hask (Answered.congr hu rfl)
        · exact ⟨_, _, rfl⟩
      · exact ⟨_, _, rfl⟩

/-- `CheckSupport_core` completes wherever the next six answers come (R151). -/
theorem checkSupportCore_answers {cmd : Word16} {s : State} (h : Answered 6 s) :
    ∃ v t, checkSupportCore cmd s = .ok (v, t) := by
  refine checkWith_answers (k := 3) (fun ha => ?_) (fun hc => ?_) h
  · refine checkWith_answers (k := 0) (fun _ => ⟨_, _, rfl⟩) (fun hb => ?_) ha
    obtain ⟨new, hd, hq, hl⟩ := boundVerdict_discovered hb
    exact ⟨new, hd, by omega⟩
  · obtain ⟨new, hd, hq, hl⟩ := checkCoefficients_discovered hc
    exact ⟨new, hd, by omega⟩

theorem probe_answers {cmd : Word16} {s : State} (h : Answered 6 s) : ∃ t, probe cmd s = .ok ((), t) := by
  obtain ⟨v, t, hx⟩ := checkSupportCore_answers (cmd := cmd) h
  exact ⟨t, by rw [probe, hx]; rfl⟩

theorem sweep_answers {es : List CatalogEntry} {s : State} (h : Answered (6 * es.length) s) :
    ∃ t, sweep es s = .ok ((), t) := by
  induction es generalizing s with
  | nil => exact ⟨s, rfl⟩
  | cons e es ih =>
    simp only [List.length_cons] at h
    obtain ⟨u, hu⟩ := probe_answers (cmd := e.code) (h.mono (by omega))
    obtain ⟨new, hd, hq, hl⟩ := probe_discovered hu
    obtain ⟨t, ht⟩ := ih (h.after hd.traffic (by omega))
    exact ⟨t, by rw [sweep, hu]; exact ht⟩

/-- Steps (b) to (e) of SCAN complete wherever enough answers come. -/
theorem discover_answers {s : State} (h : Answered (8 + 6 * s.params.catalog.entries.length) s) :
    ∃ t, discover s = .ok ((), t) := by
  obtain ⟨s₁, h₁⟩ := probe_answers (cmd := cmdOf s.params.codes.query) (h.mono (by omega))
  obtain ⟨n₁, hd₁, hq₁, hl₁⟩ := probe_discovered h₁
  have a₁ : Answered (2 + 6 * s.params.catalog.entries.length) s₁ := h.after hd₁.traffic (by omega)
  obtain ⟨r₂, u₂, hx₂⟩ := transactAs_answers (f := byteOfPayload)
    (r := .readByte s₁.params.codes.capability s₁.pecEn) (Answered.nextAnswer_ne (n := 1) (a₁.mono (by omega)))
  obtain ⟨s₂, h₂⟩ : ∃ s₂, readCapability s₁ = .ok ((), s₂) := by
    unfold readCapability readByteCore
    rw [hx₂]
    rcases r₂ with b | _ | k <;> exact ⟨_, rfl⟩
  obtain ⟨n₂, v₂, htr₂, hob₂, hn₂, hc₂⟩ := readCapability_cases h₂
  have hl₂ : n₂.length ≤ 1 := by rcases hn₂ with rfl | ⟨e, rfl⟩ <;> simp
  have e₂ : s₂.answers = v₂.answers := by rcases hc₂ with rfl | ⟨b, rfl, _⟩ <;> rfl
  have p₂ : s₂.params = s.params := by
    have : v₂.params = s₁.params := by rw [hob₂]
    rcases hc₂ with rfl | ⟨b, rfl, _⟩ <;> exact this.trans hd₁.params
  have a₂ : Answered (1 + 6 * s.params.catalog.entries.length) s₂ :=
    Answered.congr (a₁.after htr₂ (by omega)) e₂
  obtain ⟨r₃, u₃, hx₃⟩ := transactAs_answers (f := byteOfPayload)
    (r := .readByte s₂.params.codes.pmbusRevision s₂.pecEn) (Answered.nextAnswer_ne (n := 0) (a₂.mono (by omega)))
  obtain ⟨s₃, h₃⟩ : ∃ s₃, readRevision s₂ = .ok ((), s₃) := by
    unfold readRevision readByteCore
    rw [hx₃]
    rcases r₃ with b | _ | k <;> exact ⟨_, rfl⟩
  obtain ⟨n₃, v₃, htr₃, hob₃, hn₃, hc₃⟩ := readRevision_cases h₃
  have hl₃ : n₃.length ≤ 1 := by rcases hn₃ with rfl | ⟨e, rfl⟩ <;> simp
  have e₃ : s₃.answers = v₃.answers := by rcases hc₃ with rfl | ⟨b, rfl⟩ <;> rfl
  have p₃ : s₃.params = s.params := by
    have : v₃.params = s₂.params := by rw [hob₃]
    rcases hc₃ with rfl | ⟨b, rfl⟩ <;> exact this.trans p₂
  have a₃ : Answered (6 * s.params.catalog.entries.length) s₃ :=
    Answered.congr (a₂.after htr₃ (by omega)) e₃
  obtain ⟨t, ht⟩ := sweep_answers (es := s.params.catalog.entries) a₃
  refine ⟨t, ?_⟩
  simp only [discover, h₁, h₂, h₃, Internal.andThen, p₃, ht]

end Sys2Proof.Machine
end

