-- ==== Sys2Proof/Laws/Exec.lean ====
section
/-! SUPPORT. Everything each operation can do, said once (`exec_next`): a check of 60_exceptions.md R255 ends it with nothing
done, or its effect happens and it ends. -/

namespace Sys2Proof.Machine

/-- A check ends operation `i` before any effect (R255 (2) to (4)). -/
def TurnedAway (i : Instr) (s : State) (e : Exit) : Prop :=
  (s.sessionState ∉ runsIn i ∧ e = .illegalState) ∨
    (s.sessionState ∈ runsIn i ∧ BadArgument i ∧ e = .invalidArgument) ∨
    (s.sessionState ∈ runsIn i ∧ ¬BadArgument i ∧ i.wellFormed = false ∧ e = .notImplemented)

/-- One call of the TU for `r`: at most one transaction, and only the bus side of the state moves. -/
def OneCall (r : BusReq) (s u : State) : Prop :=
  ∃ new, Traffic new s u ∧ OnlyBus s u ∧ (new = [] ∨ ∃ e, new = [{ addr := s.addr, req := r, ended := e }])

/-- The effect of operation `i` that passed its checks: how it ends, and the state but for `STATUS` and `CAUSE`. -/
def Effect (i : Instr) (s : State) (e : Exit) (u : State) : Prop :=
  match i with
  | .openSession a p => e = .ok ∧ u = openState a p s
  | .scan =>
    (e = .unsupported ∧ u = closeState s) ∨
      ∃ w, OneCall .quick s w ∧ ((∃ k, e = .transportError k ∧ u = closeState w) ∨
        ∃ x, discover w = .ok ((), x) ∧ e = .ok ∧ u = { x with sessionState := .scanned })
  | .pageSelect page =>
    ∃ w, OneCall (.writeByte s.params.codes.page page s.pecEn) s w ∧
      ((e = .ok ∧ u = w) ∨ ∃ k, e = .transportError k ∧ u = closeState w)
  | .report => e = .ok ∧ u = { s with sessionState := .reporting }
  | .closeSession => e = .ok ∧ u = closeState s
  | .getSession =>
    e = .ok ∧ u = { s with result := sessionView s, value := .word (identityView s), valueKind := .uint }
  | .quickPresence =>
    (e = .unsupported ∧ u = s) ∨
      ∃ w, OneCall .quick s w ∧ ((∃ r, e = .ok ∧ u = { w with result := r }) ∨ ∃ k, e = .transportError k ∧ u = w)
  | .readByte cmd =>
    ∃ w, OneCall (.readByte (c8 cmd) s.pecEn) s w ∧
      ((∃ r, e = .ok ∧ u = { w with result := r }) ∨ ∃ k, e = .transportError k ∧ u = w)
  | .readWord cmd =>
    ∃ w, OneCall (.readWord (c8 cmd) s.pecEn) s w ∧
      ((∃ r, e = .ok ∧ u = { w with result := r }) ∨ ∃ k, e = .transportError k ∧ u = w)
  | .readBlock cmd n =>
    ∃ w, OneCall (.readByte (c8 cmd) false) s w ∧
      ((∃ k, e = .transportError k ∧ u = { w with pecSaved := s.pecEn }) ∨
        (e = .unsupported ∧ u = { w with pecSaved := s.pecEn }) ∨
        ∃ r x, (r = .blockRead (c8 cmd) s.pecEn ∨ ∃ m, r = .raw [c8 cmd] m) ∧
          OneCall r { w with pecSaved := s.pecEn } x ∧
          (((∃ k, e = .transportError k) ∨ e = .protocolViolation) ∧ u = x ∨
            ∃ bs : List Byte, bs.length ≤ 255 ∧ (e = .ok ∨ e = .sizeExceeded) ∧
              u = { x with
                data := Memory.writeFrom x.data 0 (bs.take n.toNat), result := BitVec.ofNat 16 bs.length
                rlen := BitVec.ofNat 9 (min bs.length n.toNat) }))
  | .writeByte cmd v =>
    OneCall (.writeByte (c8 cmd) v s.pecEn) s u ∧ (e = .ok ∨ ∃ k, e = .transportError k)
  | .writeWord cmd v =>
    OneCall (.writeWord (c8 cmd) v s.pecEn) s u ∧ (e = .ok ∨ ∃ k, e = .transportError k)
  | .writeBlock cmd _ =>
    (e = .unsupported ∧ u = afterDataRead s) ∨
      ∃ r bs, (r = .blockWrite (c8 cmd) bs s.pecEn ∨ r = .raw bs 0) ∧ OneCall r (afterDataRead s) u ∧
        (e = .ok ∨ ∃ k, e = .transportError k)
  | .checkSupport cmd =>
    ∃ v x, checkSupportCore cmd s = .ok (v, x) ∧ e = .ok ∧ u = { x with result := verdictCode v }
  | .fetchCoefficients cmd arg =>
    ∃ d, directionOf arg = some d ∧ fetchCoefficientsCore (c8 cmd) d s = .ok (e, u) ∧
      (e = .ok ∨ e = .protocolViolation ∨ e = .unsupported ∨ ∃ k, e = .transportError k)
  | .getSlot cmd => e = .ok ∧ u = { s with result := slotView s (c8 cmd) }
  | .getCoef cmd arg =>
    ∃ d, directionOf arg = some d ∧ e = .ok ∧
      u = { s with
        result := (coefAt s (c8 cmd) d).r.setWidth 16, value := .word (coefView (coefAt s (c8 cmd) d))
        valueKind := .uint }
  | .classify cmd => e = .ok ∧ u = { s with result := classCode (classOf cmd s) }
  | .decodeValue cmd raw =>
    e = .ok ∧ u = { writeDecoded (decodedAs (classOf cmd s) s (c8 cmd) raw) s with result := classCode (classOf cmd s) }
  | .decodeLinear11 raw => e = .ok ∧ u = writeDecoded (decodedLinear11 s.params raw) s
  | .decodeDirect cmd raw => e = .ok ∧ u = writeDecoded (decodedDirect s (c8 cmd) raw) s
  | .decodeVout raw => e = .ok ∧ u = writeDecoded (if voutLinear s then decodedVout s raw else rawAs .raw raw) s
  | .decodeBitmap raw => e = .ok ∧ u = { writeDecoded (rawAs .bits raw) s with result := BitVec.ofNat 16 (popcount raw) }

/-! ## The checks -/

theorem inEveryState_iff (x : SessionState) : inEveryState x = true := by cases x <;> rfl

theorem mem_every (x : SessionState) : x ∈ [SessionState.unopened, .attached, .scanned, .reporting, .closed] := by
  cases x <;> simp

theorem inOpenSession_iff (x : SessionState) :
    inOpenSession x = true ↔ x ∈ [SessionState.attached, .scanned, .reporting] := by cases x <;> simp [inOpenSession]

theorem isReservedAddress_iff (a : BitVec 7) : isReservedAddress a = true ↔ ReservedAddress a := by
  have := a.isLt
  simp only [isReservedAddress, ReservedAddress, Bool.or_eq_true, decide_eq_true_eq, Bool.and_eq_true]
  omega

theorem isReservedAddress_openable : ∀ a : BitVec 7, isReservedAddress a = !openableAddress a := by decide

theorem badLength_iff (n : Nat) : badLength n = true ↔ n = 0 ∨ 255 < n := by simp [badLength]

theorem directionOf_none {arg : Word16} : directionOf arg = none ↔ 1 < arg.toNat := by
  unfold directionOf
  split <;> (simp_all; try omega)

theorem directionOf_some {arg : Word16} {d : Direction} (h : directionOf arg = some d) : ¬1 < arg.toNat := by
  rw [← directionOf_none, h]; simp

theorem isExtended_coreCode (cmd : Word16) : isExtended cmd = !coreCode cmd := by
  simp only [isExtended, coreCode]
  by_cases h : cmd.toNat ≤ 0xFD <;> simp [h]
  omega

theorem whenAllowed_next {allowed : SessionState → Bool} {s t : State} {body : StepOutcome}
    (h : whenAllowed allowed s body = .next t) :
    (allowed s.sessionState = false ∧ t = endOperation .illegalState s) ∨
      (allowed s.sessionState = true ∧ body = .next t) := by
  unfold whenAllowed at h
  split at h
  · next ha => exact .inr ⟨ha, h⟩
  · next ha => exact .inl ⟨by simpa using ha, done_next.1 h⟩

theorem whenCore_next {cmd : Word16} {s t : State} {body : StepOutcome} (h : whenCore cmd s body = .next t) :
    (coreCode cmd = false ∧ t = endOperation .notImplemented s) ∨ (coreCode cmd = true ∧ body = .next t) := by
  unfold whenCore at h
  rw [isExtended_coreCode] at h
  split at h
  · next ha => exact .inl ⟨by simpa using ha, done_next.1 h⟩
  · next ha => exact .inr ⟨by simpa using ha, h⟩

theorem whenLength_next {n : Nat} {s t : State} {body : StepOutcome} (h : whenLength n s body = .next t) :
    ((n = 0 ∨ 255 < n) ∧ t = endOperation .invalidArgument s) ∨ (¬(n = 0 ∨ 255 < n) ∧ body = .next t) := by
  unfold whenLength at h
  split at h
  · next ha => exact .inl ⟨(badLength_iff n).1 ha, done_next.1 h⟩
  · next ha => exact .inr ⟨fun hb => ha ((badLength_iff n).2 hb), h⟩

theorem whenDirection_next {arg : Word16} {s t : State} {body : Direction → StepOutcome}
    (h : whenDirection arg s body = .next t) :
    (1 < arg.toNat ∧ t = endOperation .invalidArgument s) ∨ ∃ d, directionOf arg = some d ∧ body d = .next t := by
  unfold whenDirection at h
  split at h
  · next ha => exact .inl ⟨directionOf_none.1 ha, done_next.1 h⟩
  · next d ha => exact .inr ⟨d, ha, h⟩

/-! ## Replies -/

theorem transact_oneCall {r : BusReq} {s u : State} {reply : Reply (List Byte)} (h : transact r s = .ok (reply, u))
    (hc : carriesPec r = true → s.pecEn = true) : OneCall r s u := transact_traffic h hc

/-- A reply that is not a count above the limit: the only kind a frame without a count byte gives (R107). -/
theorem transact_not_badCount {r : BusReq} {s u : State} (hr : hasCount r = false) :
    transact r s ≠ .ok (.badCount, u) := by
  intro h
  rcases transact_cases h with ⟨_, h, _⟩ | ⟨_, _, _, h, _⟩ | ⟨bytes, _, _, h, _⟩
  · simp at h
  · simp at h
  · rcases deliver_cases s r bytes with ⟨ho, _⟩ | ⟨_, _, h'⟩ | ⟨_, _, h'⟩
    · simp [overLimit, hr] at ho
    · rw [h'] at h; simp at h
    · rw [h'] at h; simp at h

theorem transactAs_not_badCount {α : Type} {f : List Byte → α} {r : BusReq} {s u : State} (hr : hasCount r = false) :
    transactAs f r s ≠ .ok (.badCount, u) := by
  intro h
  obtain ⟨reply, hx, hm⟩ := transactAs_ok h
  cases reply <;> simp [mapReply] at hm
  exact transact_not_badCount hr hx

/-- The data of an answered block read or raw read is at most 255 bytes long where the frame's count or the request's says
so (R100). -/
theorem transact_payload_length {r : BusReq} {s u : State} {bs : List Byte} (h : transact r s = .ok (.ok bs, u)) :
    (hasCount r = true → bs.length ≤ 255) ∧ ∀ out n, r = .raw out n → bs.length = n := by
  rcases transact_cases h with ⟨_, h, _⟩ | ⟨_, _, _, h, _⟩ | ⟨bytes, _, _, h, _⟩
  · simp at h
  · simp at h
  · rcases deliver_cases s r bytes with ⟨_, h'⟩ | ⟨_, _, h'⟩ | ⟨hov, _, h'⟩
    · rw [h'] at h; simp at h
    · rw [h'] at h; simp at h
    · rw [h'] at h
      injection h with h
      subst h
      have hb := (bytes.headD 0x00#8).isLt
      constructor
      · intro hc
        cases r <;> simp only [hasCount, Bool.false_eq_true] at hc <;>
          simp only [payload, hasCount, if_true, deviceBytes, deviceCount, hov, Bool.false_eq_true, if_false,
            List.length_tail, takeBytes_length] <;> omega
      · rintro out n rfl
        simp [payload, hasCount, deviceBytes, deviceCount]

/-- How an operation ends on a reply whose Ok value it writes to `RESULT`. -/
theorem onReply_result {α : Type} {f : α → Word16} {reply : Reply α} {s t : State}
    (hb : reply ≠ .badCount)
    (h : (onReply reply s fun a => done .ok { s with result := f a }) = .next t) :
    ∃ e u, t = endOperation e u ∧ ((∃ r, e = .ok ∧ u = { s with result := r }) ∨ ∃ k, e = .transportError k ∧ u = s) := by
  rcases reply with a | _ | k
  · exact ⟨_, _, done_next.1 h, .inl ⟨_, rfl, rfl⟩⟩
  · exact absurd rfl hb
  · exact ⟨_, _, done_next.1 h, .inr ⟨_, rfl, rfl⟩⟩

/-- How a write ends. -/
theorem onReply_write {α : Type} {reply : Reply α} {s t : State} (hb : reply ≠ .badCount)
    (h : (onReply reply s fun _ => done .ok s) = .next t) :
    ∃ e, t = endOperation e s ∧ (e = .ok ∨ ∃ k, e = .transportError k) := by
  rcases reply with a | _ | k
  · exact ⟨_, done_next.1 h, .inl rfl⟩
  · exact absurd rfl hb
  · exact ⟨_, done_next.1 h, .inr ⟨_, rfl⟩⟩

/-- How a coefficient fetch can end (R161, R162). -/
theorem fetchCoefficientsCore_exit {c : Byte} {d : Direction} {s t : State} {e : Exit}
    (h : fetchCoefficientsCore c d s = .ok (e, t)) :
    e = .ok ∨ e = .protocolViolation ∨ e = .unsupported ∨ ∃ k, e = .transportError k := by
  unfold fetchCoefficientsCore at h
  split at h
  · obtain ⟨reply, u, _, hk⟩ := Internal.andThen_ok.1 h
    cases reply <;> simp only [Except.ok.injEq, Prod.mk.injEq, storeCoefficients] at hk
    · split at hk <;> (obtain ⟨rfl, _⟩ := hk; simp)
    · simp [← hk.1]
    · simp [← hk.1]
  split at h
  · obtain ⟨reply, u, _, hk⟩ := Internal.andThen_ok.1 h
    cases reply <;> simp only [Except.ok.injEq, Prod.mk.injEq, storeCoefficients] at hk
    · split at hk <;> (obtain ⟨rfl, _⟩ := hk; simp)
    · simp [← hk.1]
    · simp [← hk.1]
  · simp only [Except.ok.injEq, Prod.mk.injEq] at h
    simp [← h.1]

/-- `CopyOut` (R114). -/
theorem copyOut_next {bs : List Byte} {n : Nat} {s t : State} (h : copyOut bs n s = .next t) :
    ∃ e u, t = endOperation e u ∧ (e = .ok ∨ e = .sizeExceeded) ∧
      u = { s with
        data := Memory.writeFrom s.data 0 (bs.take n), result := BitVec.ofNat 16 bs.length
        rlen := BitVec.ofNat 9 (min bs.length n) } := by
  unfold copyOut at h
  split at h
  · next hl => exact ⟨_, _, done_next.1 h, .inl rfl, by rw [List.take_of_length_le hl, Nat.min_eq_left hl]; rfl⟩
  · next hl => exact ⟨_, _, done_next.1 h, .inr rfl, by rw [Nat.min_eq_right (by omega)]; rfl⟩

/-- The length read (R113 (1) to (3)): one frame without PEC, and `PEC_EN` back at its value. -/
theorem lengthRead_cases {c : Byte} {s u : State} {reply : Reply Byte} (h : lengthRead c s = .ok (reply, u)) :
    reply ≠ .badCount ∧ ∃ w, OneCall (.readByte c false) s w ∧ u = { w with pecSaved := s.pecEn } := by
  obtain ⟨reply', w, hx, hk⟩ := Internal.andThen_ok.1 h
  simp only [Except.ok.injEq, Prod.mk.injEq] at hk
  obtain ⟨rfl, rfl⟩ := hk
  refine ⟨fun hb => ?_, { w with pecSaved := s.pecSaved, pecEn := s.pecEn }, ?_⟩
  · rw [hb] at hx; exact transactAs_not_badCount rfl hx
  · obtain ⟨new, htr, hob, hn⟩ := readByteCore_traffic hx
    refine ⟨⟨new, ⟨htr.log, htr.answers, htr.draws, fun x hx => ?_⟩, ?_, hn⟩, ?_⟩
    · have := htr.allowed x hx
      exact ⟨this.1, this.2.1, fun hc => absurd (this.2.2 hc) (by simp)⟩
    · unfold OnlyBus at hob ⊢; rw [hob]
    · rw [hob]

/-! ## Every operation -/

/-- A next state of an operation: turned away by a check, or its effect and its end. -/
theorem exec_next {i : Instr} {s t : State} (h : exec i s = .next t) :
    ∃ e u, t = endOperation e u ∧
      ((u = s ∧ TurnedAway i s e) ∨
        (s.sessionState ∈ runsIn i ∧ ¬BadArgument i ∧ i.wellFormed = true ∧ Effect i s e u)) := by
  cases i with
  | openSession a p =>
    rcases whenAllowed_next h with ⟨ha, rfl⟩ | ⟨ha, h⟩
    · exact ⟨_, s, rfl, .inl ⟨rfl, .inl ⟨by cases hs : s.sessionState <;> simp_all [whereNoSession, runsIn], rfl⟩⟩⟩
    have hm : s.sessionState ∈ runsIn (.openSession a p) := by
      cases hs : s.sessionState <;> simp_all [whereNoSession, runsIn]
    have hw := isReservedAddress_openable a
    split at h
    · next hr =>
      exact ⟨_, s, done_next.1 h, .inl ⟨rfl, .inr (.inl ⟨hm, (isReservedAddress_iff a).1 hr, rfl⟩)⟩⟩
    · next hr =>
      exact ⟨_, _, done_next.1 h, .inr ⟨hm, fun hb => hr ((isReservedAddress_iff a).2 hb),
        by rw [Instr.wellFormed]; simp_all, rfl, rfl⟩⟩
  | scan =>
    rcases whenAllowed_next h with ⟨ha, rfl⟩ | ⟨ha, h⟩
    · exact ⟨_, s, rfl, .inl ⟨rfl, .inl ⟨by cases hs : s.sessionState <;> simp_all [inAttached, runsIn], rfl⟩⟩⟩
    have hm : s.sessionState ∈ runsIn .scan := by cases hs : s.sessionState <;> simp_all [inAttached, runsIn]
    split at h
    · obtain ⟨reply, w, hx, h⟩ := Internal.conclude_next.1 h
      have hone : OneCall .quick s w := quickCore_traffic hx
      rcases reply with _ | _ | k
      · obtain ⟨⟨⟩, x, hd, h⟩ := Internal.conclude_next.1 h
        exact ⟨_, _, done_next.1 h, .inr ⟨hm, id, rfl, .inr ⟨w, hone, .inr ⟨x, hd, rfl, rfl⟩⟩⟩⟩
      · exact absurd hx (transactAs_not_badCount rfl)
      · exact ⟨_, _, done_next.1 h, .inr ⟨hm, id, rfl, .inr ⟨w, hone, .inl ⟨k, rfl, rfl⟩⟩⟩⟩
    · exact ⟨_, _, done_next.1 h, .inr ⟨hm, id, rfl, .inl ⟨rfl, rfl⟩⟩⟩
  | pageSelect page =>
    rcases whenAllowed_next h with ⟨ha, rfl⟩ | ⟨ha, h⟩
    · exact ⟨_, s, rfl, .inl ⟨rfl, .inl ⟨by cases hs : s.sessionState <;> simp_all [inScanned, runsIn], rfl⟩⟩⟩
    have hm : s.sessionState ∈ runsIn (.pageSelect page) := by
      cases hs : s.sessionState <;> simp_all [inScanned, runsIn]
    obtain ⟨reply, w, hx, h⟩ := Internal.conclude_next.1 h
    have hone : OneCall (.writeByte s.params.codes.page page s.pecEn) s w := writeByteCore_traffic hx
    rcases reply with _ | _ | k
    · exact ⟨_, _, done_next.1 h, .inr ⟨hm, id, rfl, w, hone, .inl ⟨rfl, rfl⟩⟩⟩
    · exact absurd hx (transactAs_not_badCount rfl)
    · exact ⟨_, _, done_next.1 h, .inr ⟨hm, id, rfl, w, hone, .inr ⟨k, rfl, rfl⟩⟩⟩
  | report =>
    rcases whenAllowed_next h with ⟨ha, rfl⟩ | ⟨ha, h⟩
    · exact ⟨_, s, rfl, .inl ⟨rfl, .inl ⟨by cases hs : s.sessionState <;> simp_all [inScanned, runsIn], rfl⟩⟩⟩
    · exact ⟨_, _, done_next.1 h,
        .inr ⟨by cases hs : s.sessionState <;> simp_all [inScanned, runsIn], id, rfl, rfl, rfl⟩⟩
  | closeSession =>
    rcases whenAllowed_next h with ⟨ha, rfl⟩ | ⟨ha, h⟩
    · simp [inEveryState_iff] at ha
    · exact ⟨_, _, done_next.1 h, .inr ⟨mem_every _, id, rfl, rfl, rfl⟩⟩
  | getSession =>
    rcases whenAllowed_next h with ⟨ha, rfl⟩ | ⟨ha, h⟩
    · simp [inEveryState_iff] at ha
    · exact ⟨_, _, done_next.1 h, .inr ⟨mem_every _, id, rfl, rfl, rfl⟩⟩
  | quickPresence =>
    rcases whenAllowed_next h with ⟨ha, rfl⟩ | ⟨ha, h⟩
    · exact ⟨_, s, rfl, .inl ⟨rfl, .inl ⟨by rw [runsIn, ← inOpenSession_iff]; simp [ha], rfl⟩⟩⟩
    have hm := (inOpenSession_iff _).1 ha
    split at h
    · obtain ⟨reply, w, hx, h⟩ := Internal.conclude_next.1 h
      have hone : OneCall .quick s w := quickCore_traffic hx
      split at h
      · exact ⟨_, _, done_next.1 h, .inr ⟨hm, id, rfl, .inr ⟨w, hone, .inl ⟨_, rfl, rfl⟩⟩⟩⟩
      · exact ⟨_, _, done_next.1 h, .inr ⟨hm, id, rfl, .inr ⟨w, hone, .inl ⟨_, rfl, rfl⟩⟩⟩⟩
      · exact ⟨_, _, done_next.1 h, .inr ⟨hm, id, rfl, .inr ⟨w, hone, .inr ⟨_, rfl, rfl⟩⟩⟩⟩
      · exact absurd hx (transactAs_not_badCount rfl)
    · exact ⟨_, _, done_next.1 h, .inr ⟨hm, id, rfl, .inl ⟨rfl, rfl⟩⟩⟩
  | readByte cmd =>
    rcases whenAllowed_next h with ⟨ha, rfl⟩ | ⟨ha, h⟩
    · exact ⟨_, s, rfl, .inl ⟨rfl, .inl ⟨by rw [runsIn, ← inOpenSession_iff]; simp [ha], rfl⟩⟩⟩
    have hm := (inOpenSession_iff _).1 ha
    rcases whenCore_next h with ⟨hc, rfl⟩ | ⟨hc, h⟩
    · exact ⟨_, s, rfl, .inl ⟨rfl, .inr (.inr ⟨hm, id, hc, rfl⟩)⟩⟩
    obtain ⟨reply, w, hx, h⟩ := Internal.conclude_next.1 h
    obtain ⟨e, u, ht, hu⟩ := onReply_result (fun hb => transactAs_not_badCount rfl (hb ▸ hx)) h
    exact ⟨e, u, ht, .inr ⟨hm, id, hc, w, readByteCore_traffic hx, hu⟩⟩
  | readWord cmd =>
    rcases whenAllowed_next h with ⟨ha, rfl⟩ | ⟨ha, h⟩
    · exact ⟨_, s, rfl, .inl ⟨rfl, .inl ⟨by rw [runsIn, ← inOpenSession_iff]; simp [ha], rfl⟩⟩⟩
    have hm := (inOpenSession_iff _).1 ha
    rcases whenCore_next h with ⟨hc, rfl⟩ | ⟨hc, h⟩
    · exact ⟨_, s, rfl, .inl ⟨rfl, .inr (.inr ⟨hm, id, hc, rfl⟩)⟩⟩
    obtain ⟨reply, w, hx, h⟩ := Internal.conclude_next.1 h
    obtain ⟨e, u, ht, hu⟩ := onReply_result (f := id) (fun hb => transactAs_not_badCount rfl (hb ▸ hx)) h
    exact ⟨e, u, ht, .inr ⟨hm, id, hc, w, transactAs_traffic hx id, hu⟩⟩
  | readBlock cmd n =>
    rcases whenAllowed_next h with ⟨ha, rfl⟩ | ⟨ha, h⟩
    · exact ⟨_, s, rfl, .inl ⟨rfl, .inl ⟨by rw [runsIn, ← inOpenSession_iff]; simp [ha], rfl⟩⟩⟩
    have hm := (inOpenSession_iff _).1 ha
    rcases whenLength_next h with ⟨hl, rfl⟩ | ⟨hl, h⟩
    · exact ⟨_, s, rfl, .inl ⟨rfl, .inr (.inl ⟨hm, hl, rfl⟩)⟩⟩
    have hu : usableLength n = true := by simp only [usableLength, Bool.and_eq_true, decide_eq_true_eq]; omega
    rcases whenCore_next h with ⟨hc, rfl⟩ | ⟨hc, h⟩
    · exact ⟨_, s, rfl, .inl ⟨rfl, .inr (.inr ⟨hm, hl, by simp [Instr.wellFormed, hc], rfl⟩)⟩⟩
    have hwf : Instr.wellFormed (.readBlock cmd n) = true := by simp [Instr.wellFormed, hu, hc]
    obtain ⟨reply, v, hx, h⟩ := Internal.conclude_next.1 h
    obtain ⟨hnb, w, hone, rfl⟩ := lengthRead_cases hx
    have hpe : w.pecEn = s.pecEn := by obtain ⟨_, _, hob, _⟩ := hone; rw [hob]
    rcases reply with len | _ | k
    · have fin : ∀ {bs t'}, bs.length ≤ 255 → ∀ {x : State}, copyOut bs n.toNat x = .next t' → ∃ e u, t' = endOperation e u ∧
          ∃ bs' : List Byte, bs'.length ≤ 255 ∧ (e = .ok ∨ e = .sizeExceeded) ∧ u = { x with
            data := Memory.writeFrom x.data 0 (bs'.take n.toNat), result := BitVec.ofNat 16 bs'.length
            rlen := BitVec.ofNat 9 (min bs'.length n.toNat) } := by
        intro bs t' hb x hc'
        obtain ⟨e, u, h1, h2, h3⟩ := copyOut_next hc'
        exact ⟨e, u, h1, bs, hb, h2, h3⟩
      simp only [onReply, blockAfterLength] at h
      split at h
      · obtain ⟨reply, x, hx, h⟩ := Internal.conclude_next.1 h
        have hcall : OneCall (.blockRead (c8 cmd) s.pecEn) { w with pecSaved := s.pecEn } x := by
          have : ∀ b, b = w.pecEn → OneCall (.blockRead (c8 cmd) b) { w with pecSaved := s.pecEn } x := by
            rintro b rfl
            exact transact_oneCall hx id
          exact this _ hpe.symm
        rcases reply with bs | _ | k
        · obtain ⟨e, u, h1, h2⟩ := fin ((transact_payload_length hx).1 rfl) h
          exact ⟨e, u, h1, .inr ⟨hm, hl, hwf, w, hone, .inr (.inr ⟨_, x, .inl rfl, hcall, .inr h2⟩)⟩⟩
        · exact ⟨_, _, done_next.1 h, .inr ⟨hm, hl, hwf, w, hone, .inr (.inr ⟨_, x, .inl rfl, hcall, .inl ⟨.inr rfl, rfl⟩⟩)⟩⟩
        · exact ⟨_, _, done_next.1 h,
            .inr ⟨hm, hl, hwf, w, hone, .inr (.inr ⟨_, x, .inl rfl, hcall, .inl ⟨.inl ⟨k, rfl⟩, rfl⟩⟩)⟩⟩
      split at h
      · obtain ⟨reply, x, hx, h⟩ := Internal.conclude_next.1 h
        have hcall := transact_oneCall hx (by simp [carriesPec])
        rcases reply with bs | _ | k
        · have hbs := (transact_payload_length hx).2 _ _ rfl
          have := len.isLt
          simp only at h
          split at h
          · obtain ⟨e, u, h1, h2⟩ := fin (by rw [List.length_tail, hbs]; omega) h
            exact ⟨e, u, h1, .inr ⟨hm, hl, hwf, w, hone, .inr (.inr ⟨_, x, .inr ⟨_, rfl⟩, hcall, .inr h2⟩)⟩⟩
          · exact ⟨_, _, done_next.1 h,
              .inr ⟨hm, hl, hwf, w, hone, .inr (.inr ⟨_, x, .inr ⟨_, rfl⟩, hcall, .inl ⟨.inr rfl, rfl⟩⟩)⟩⟩
        · exact absurd hx (transact_not_badCount rfl)
        · exact ⟨_, _, done_next.1 h,
            .inr ⟨hm, hl, hwf, w, hone, .inr (.inr ⟨_, x, .inr ⟨_, rfl⟩, hcall, .inl ⟨.inl ⟨k, rfl⟩, rfl⟩⟩)⟩⟩
      · exact ⟨_, _, done_next.1 h, .inr ⟨hm, hl, hwf, w, hone, .inr (.inl ⟨rfl, rfl⟩)⟩⟩
    · exact absurd rfl hnb
    · exact ⟨_, _, done_next.1 h, .inr ⟨hm, hl, hwf, w, hone, .inl ⟨k, rfl, rfl⟩⟩⟩
  | writeByte cmd v =>
    rcases whenAllowed_next h with ⟨ha, rfl⟩ | ⟨ha, h⟩
    · exact ⟨_, s, rfl, .inl ⟨rfl, .inl ⟨by rw [runsIn, ← inOpenSession_iff]; simp [ha], rfl⟩⟩⟩
    have hm := (inOpenSession_iff _).1 ha
    rcases whenCore_next h with ⟨hc, rfl⟩ | ⟨hc, h⟩
    · exact ⟨_, s, rfl, .inl ⟨rfl, .inr (.inr ⟨hm, id, hc, rfl⟩)⟩⟩
    obtain ⟨reply, w, hx, h⟩ := Internal.conclude_next.1 h
    obtain ⟨e, ht, he⟩ := onReply_write (fun hb => transactAs_not_badCount rfl (hb ▸ hx)) h
    exact ⟨e, w, ht, .inr ⟨hm, id, hc, writeByteCore_traffic hx, he⟩⟩
  | writeWord cmd v =>
    rcases whenAllowed_next h with ⟨ha, rfl⟩ | ⟨ha, h⟩
    · exact ⟨_, s, rfl, .inl ⟨rfl, .inl ⟨by rw [runsIn, ← inOpenSession_iff]; simp [ha], rfl⟩⟩⟩
    have hm := (inOpenSession_iff _).1 ha
    rcases whenCore_next h with ⟨hc, rfl⟩ | ⟨hc, h⟩
    · exact ⟨_, s, rfl, .inl ⟨rfl, .inr (.inr ⟨hm, id, hc, rfl⟩)⟩⟩
    obtain ⟨reply, w, hx, h⟩ := Internal.conclude_next.1 h
    obtain ⟨e, ht, he⟩ := onReply_write (fun hb => transact_not_badCount rfl (hb ▸ hx)) h
    exact ⟨e, w, ht, .inr ⟨hm, id, hc, transact_oneCall hx id, he⟩⟩
  | writeBlock cmd n =>
    rcases whenAllowed_next h with ⟨ha, rfl⟩ | ⟨ha, h⟩
    · exact ⟨_, s, rfl, .inl ⟨rfl, .inl ⟨by rw [runsIn, ← inOpenSession_iff]; simp [ha], rfl⟩⟩⟩
    have hm := (inOpenSession_iff _).1 ha
    rcases whenLength_next h with ⟨hl, rfl⟩ | ⟨hl, h⟩
    · exact ⟨_, s, rfl, .inl ⟨rfl, .inr (.inl ⟨hm, hl, rfl⟩)⟩⟩
    have hu : usableLength n = true := by simp only [usableLength, Bool.and_eq_true, decide_eq_true_eq]; omega
    rcases whenCore_next h with ⟨hc, rfl⟩ | ⟨hc, h⟩
    · exact ⟨_, s, rfl, .inl ⟨rfl, .inr (.inr ⟨hm, hl, by simp [Instr.wellFormed, hc], rfl⟩)⟩⟩
    have hwf : Instr.wellFormed (.writeBlock cmd n) = true := by simp [Instr.wellFormed, hu, hc]
    split at h
    · exact ⟨_, _, done_next.1 h, .inr ⟨hm, hl, hwf, .inl ⟨rfl, rfl⟩⟩⟩
    · next r hr =>
      obtain ⟨reply, w, hx, h⟩ := Internal.conclude_next.1 h
      have hform : (∃ bs, r = .blockWrite (c8 cmd) bs s.pecEn) ∨ ∃ bs, r = .raw bs 0 := by
        unfold blockWriteRequest at hr
        split at hr
        · simp only [Option.some.injEq] at hr; exact .inl ⟨_, hr.symm⟩
        split at hr
        · simp only [Option.some.injEq] at hr; exact .inr ⟨_, hr.symm⟩
        · simp at hr
      have hcount : hasCount r = false := by rcases hform with ⟨_, rfl⟩ | ⟨_, rfl⟩ <;> rfl
      have hpec : carriesPec r = true → (afterDataRead s).pecEn = true := by
        rcases hform with ⟨_, rfl⟩ | ⟨_, rfl⟩
        · exact id
        · simp [carriesPec]
      obtain ⟨e, ht, he⟩ := onReply_write (fun hb => transact_not_badCount hcount (hb ▸ hx)) h
      refine ⟨e, w, ht, .inr ⟨hm, hl, hwf, .inr ?_⟩⟩
      rcases hform with ⟨bs, hr⟩ | ⟨bs, hr⟩
      · exact ⟨r, bs, .inl hr, transact_oneCall hx hpec, he⟩
      · exact ⟨r, bs, .inr hr, transact_oneCall hx hpec, he⟩
  | checkSupport cmd =>
    rcases whenAllowed_next h with ⟨ha, rfl⟩ | ⟨ha, h⟩
    · exact ⟨_, s, rfl, .inl ⟨rfl, .inl ⟨by rw [runsIn, ← inOpenSession_iff]; simp [ha], rfl⟩⟩⟩
    obtain ⟨v, x, hx, h⟩ := Internal.conclude_next.1 h
    exact ⟨_, _, done_next.1 h, .inr ⟨(inOpenSession_iff _).1 ha, id, rfl, v, x, hx, rfl, rfl⟩⟩
  | fetchCoefficients cmd arg =>
    rcases whenAllowed_next h with ⟨ha, rfl⟩ | ⟨ha, h⟩
    · exact ⟨_, s, rfl, .inl ⟨rfl, .inl ⟨by rw [runsIn, ← inOpenSession_iff]; simp [ha], rfl⟩⟩⟩
    have hm := (inOpenSession_iff _).1 ha
    rcases whenDirection_next h with ⟨hd, rfl⟩ | ⟨d, hd, h⟩
    · exact ⟨_, s, rfl, .inl ⟨rfl, .inr (.inl ⟨hm, hd, rfl⟩)⟩⟩
    have hb := directionOf_some hd
    rcases whenCore_next h with ⟨hc, rfl⟩ | ⟨hc, h⟩
    · exact ⟨_, s, rfl, .inl ⟨rfl, .inr (.inr ⟨hm, hb, by simp [Instr.wellFormed, hc], rfl⟩)⟩⟩
    obtain ⟨e, u, hx, h⟩ := Internal.conclude_next.1 h
    refine ⟨e, u, done_next.1 h, .inr ⟨hm, hb, ?_, d, hd, hx, fetchCoefficientsCore_exit hx⟩⟩
    simp [Instr.wellFormed, hc, usableDirection]; omega
  | getSlot cmd =>
    rcases whenAllowed_next h with ⟨ha, rfl⟩ | ⟨ha, h⟩
    · simp [inEveryState_iff] at ha
    rcases whenCore_next h with ⟨hc, rfl⟩ | ⟨hc, h⟩
    · exact ⟨_, s, rfl, .inl ⟨rfl, .inr (.inr ⟨mem_every _, id, hc, rfl⟩)⟩⟩
    · exact ⟨_, _, done_next.1 h, .inr ⟨mem_every _, id, hc, rfl, rfl⟩⟩
  | getCoef cmd arg =>
    rcases whenAllowed_next h with ⟨ha, rfl⟩ | ⟨ha, h⟩
    · simp [inEveryState_iff] at ha
    rcases whenDirection_next h with ⟨hd, rfl⟩ | ⟨d, hd, h⟩
    · exact ⟨_, s, rfl, .inl ⟨rfl, .inr (.inl ⟨mem_every _, hd, rfl⟩)⟩⟩
    have hb := directionOf_some hd
    rcases whenCore_next h with ⟨hc, rfl⟩ | ⟨hc, h⟩
    · exact ⟨_, s, rfl, .inl ⟨rfl, .inr (.inr ⟨mem_every _, hb, by simp [Instr.wellFormed, hc], rfl⟩)⟩⟩
    refine ⟨_, _, done_next.1 h, .inr ⟨mem_every _, hb, ?_, d, hd, rfl, rfl⟩⟩
    simp [Instr.wellFormed, hc, usableDirection]; omega
  | classify cmd =>
    rcases whenAllowed_next h with ⟨ha, rfl⟩ | ⟨ha, h⟩
    · exact ⟨_, s, rfl, .inl ⟨rfl, .inl ⟨by rw [runsIn, ← inOpenSession_iff]; simp [ha], rfl⟩⟩⟩
    have hm := (inOpenSession_iff _).1 ha
    rcases whenCore_next h with ⟨hc, rfl⟩ | ⟨hc, h⟩
    · exact ⟨_, s, rfl, .inl ⟨rfl, .inr (.inr ⟨hm, id, hc, rfl⟩)⟩⟩
    · exact ⟨_, _, done_next.1 h, .inr ⟨hm, id, hc, rfl, rfl⟩⟩
  | decodeValue cmd raw =>
    rcases whenAllowed_next h with ⟨ha, rfl⟩ | ⟨ha, h⟩
    · exact ⟨_, s, rfl, .inl ⟨rfl, .inl ⟨by rw [runsIn, ← inOpenSession_iff]; simp [ha], rfl⟩⟩⟩
    have hm := (inOpenSession_iff _).1 ha
    rcases whenCore_next h with ⟨hc, rfl⟩ | ⟨hc, h⟩
    · exact ⟨_, s, rfl, .inl ⟨rfl, .inr (.inr ⟨hm, id, hc, rfl⟩)⟩⟩
    · exact ⟨_, _, done_next.1 h, .inr ⟨hm, id, hc, rfl, rfl⟩⟩
  | decodeLinear11 raw =>
    rcases whenAllowed_next h with ⟨ha, rfl⟩ | ⟨ha, h⟩
    · simp [inEveryState_iff] at ha
    · exact ⟨_, _, done_next.1 h, .inr ⟨mem_every _, id, rfl, rfl, rfl⟩⟩
  | decodeDirect cmd raw =>
    rcases whenAllowed_next h with ⟨ha, rfl⟩ | ⟨ha, h⟩
    · exact ⟨_, s, rfl, .inl ⟨rfl, .inl ⟨by rw [runsIn, ← inOpenSession_iff]; simp [ha], rfl⟩⟩⟩
    have hm := (inOpenSession_iff _).1 ha
    rcases whenCore_next h with ⟨hc, rfl⟩ | ⟨hc, h⟩
    · exact ⟨_, s, rfl, .inl ⟨rfl, .inr (.inr ⟨hm, id, hc, rfl⟩)⟩⟩
    · exact ⟨_, _, done_next.1 h, .inr ⟨hm, id, hc, rfl, rfl⟩⟩
  | decodeVout raw =>
    rcases whenAllowed_next h with ⟨ha, rfl⟩ | ⟨ha, h⟩
    · exact ⟨_, s, rfl, .inl ⟨rfl, .inl ⟨by rw [runsIn, ← inOpenSession_iff]; simp [ha], rfl⟩⟩⟩
    · exact ⟨_, _, done_next.1 h, .inr ⟨(inOpenSession_iff _).1 ha, id, rfl, rfl, rfl⟩⟩
  | decodeBitmap raw =>
    rcases whenAllowed_next h with ⟨ha, rfl⟩ | ⟨ha, h⟩
    · simp [inEveryState_iff] at ha
    · exact ⟨_, _, done_next.1 h, .inr ⟨mem_every _, id, rfl, rfl, rfl⟩⟩

/-! ## One step -/

/-- Everything the host's turn can do (R45, R272): nothing, one byte of `DATA`, or one request word. -/
theorem hostTurn_next {s t : State} (h : hostTurn s = .next t) :
    (s.host = [] ∧ t = s) ∨
    (∃ i v rest, s.host = .writeData i v :: rest ∧ i < s.params.dataSize.bytes ∧
      t = { s with host := rest, data := Memory.write s.data i v }) ∨
    ∃ w rest, s.host = .request w :: rest ∧ t = { s with host := rest, req := some w } := by
  unfold hostTurn at h
  split at h
  · next hh => cases h; exact .inl ⟨hh, rfl⟩
  · next a rest hh =>
    cases a with
    | writeData i v =>
      simp only [performHostAction] at h
      split at h
      · next hi => cases h; exact .inr (.inl ⟨i, v, rest, hh, hi, rfl⟩)
      · cases h
    | request w => cases h; exact .inr (.inr ⟨w, rest, hh, rfl⟩)

/-- Everything a step can do: the host's turn where no request is pending; else the operation of the request word, or
ILLEGAL_OP (30_encoding.md R73). -/
theorem step_next {s t : State} (h : step s = .next t) :
    (s.req = none ∧ hostTurn s = .next t) ∨
    ∃ w, s.req = some w ∧ ((∃ i, decode w = .ok i ∧ exec i (consumeRequest s) = .next t) ∨
      ((∃ e, decode w = .error e) ∧ t = illegalRequest (consumeRequest s))) := by
  unfold step at h
  split at h
  · next hr => exact .inl ⟨hr, h⟩
  · next w hr =>
    refine .inr ⟨w, hr, ?_⟩
    split at h
    · next i hi => exact .inl ⟨i, hi, h⟩
    · next e he => cases h; exact .inr ⟨⟨e, he⟩, rfl⟩

end Sys2Proof.Machine
end

