-- ==== Sys2Proof/Laws/Number.lean ====
section
/-! SUPPORT. Binary64 (43_codec.md R180): what `roundB64` answers and what number a pattern stands for, each said once. -/

namespace Sys2Proof.Machine

/-! ## Values -/

/-- A fraction is its significand times a power of two. -/
theorem fraction_eq (m : Nat) (e : Int) : ((fraction m e).1 : ℚ) / (fraction m e).2 = m * (2 : ℚ) ^ e := by
  unfold fraction
  split
  · next h =>
    obtain ⟨k, rfl⟩ := Int.eq_ofNat_of_zero_le h
    simp
  · next h =>
    obtain ⟨k, hk⟩ := Int.eq_ofNat_of_zero_le (show 0 ≤ -e by omega)
    have : e = -(k : Int) := by omega
    subst this
    simp [div_eq_mul_inv]

theorem fraction_den_pos (m : Nat) (e : Int) : 0 < (fraction m e).2 := by
  unfold fraction; split <;> simp

theorem signed_cast (neg : Bool) (n : Nat) : ((signed neg n : Int) : ℚ) = (if neg then -1 else 1) * (n : ℚ) := by
  cases neg <;> simp [signed]

/-- The exact value of a finite binary64 value. -/
theorem ratOf_finite (neg : Bool) (m : Nat) (e : Int) :
    ratOf (.finite neg m e) = some ((if neg then -1 else 1) * (m * (2 : ℚ) ^ e)) := by
  simp only [ratOf, signed_cast, mul_div_assoc, fraction_eq]

/-- `nearestEven` is a nearest integer, and even where another is as near. -/
theorem nearestEven_spec (n d : Nat) (hd : 0 < d) (i : Int) (hi : i ≠ nearestEven n d) :
    |(n : ℚ) / d - nearestEven n d| < |(n : ℚ) / d - i| ∨
      (|(n : ℚ) / d - nearestEven n d| = |(n : ℚ) / d - i| ∧ nearestEven n d % 2 = 0) := by
  have hd' : (0 : ℚ) < d := by exact_mod_cast hd
  obtain ⟨a, r, hr, rfl⟩ : ∃ a r, r < d ∧ n = d * a + r := ⟨n / d, n % d, Nat.mod_lt _ hd, (Nat.div_add_mod n d).symm⟩
  have hx : ((d * a + r : Nat) : ℚ) / d = a + (r : ℚ) / d := by push_cast; field_simp
  have hq : (d * a + r) / d = a := by
    rw [Nat.add_comm, Nat.add_mul_div_left _ _ hd, Nat.div_eq_of_lt hr, Nat.zero_add]
  have hm : (d * a + r) % d = r := by rw [Nat.mul_add_mod]; exact Nat.mod_eq_of_lt hr
  have hf0 : (0 : ℚ) ≤ (r : ℚ) / d := by positivity
  have hf1 : (r : ℚ) / d < 1 := by rw [div_lt_one hd']; exact_mod_cast hr
  rw [hx]
  generalize hf : (r : ℚ) / d = f at *
  have half : (2 * r > d ↔ 1 < 2 * f) ∧ (2 * r = d ↔ 2 * f = 1) := by
    have hrf : (r : ℚ) = f * d := by rw [← hf]; field_simp
    constructor
    · rw [gt_iff_lt, ← @Nat.cast_lt ℚ]; push_cast; rw [hrf]
      constructor <;> intro h <;> nlinarith
    · rw [← @Nat.cast_inj ℚ]; push_cast; rw [hrf]
      constructor
      · intro h; have : (2 * f - 1) * d = 0 := by linarith
        rcases mul_eq_zero.1 this with h | h <;> linarith
      · intro h; linear_combination (d : ℚ) * h
  unfold nearestEven at hi ⊢
  rw [hq, hm] at hi ⊢
  split
  · next h =>
    rw [if_pos h] at hi
    have hf2 : 1 ≤ 2 * f := by
      rcases h with h | h
      · exact (half.1.1 h).le
      · exact (half.2.1 h.1).ge
    have e1 : |(a : ℚ) + f - ((a + 1 : Nat) : ℚ)| = 1 - f := by
      push_cast; rw [abs_of_nonpos (by linarith)]; ring
    rw [e1]
    rcases lt_or_gt_of_ne hi with hlt | hgt
    · have hia : (i : ℚ) ≤ a := by exact_mod_cast (show i ≤ a by push_cast at hlt; omega)
      rw [abs_of_nonneg (show 0 ≤ (a : ℚ) + f - i by linarith)]
      rcases h with h | h
      · left; have := half.1.1 h; linarith
      · rcases eq_or_lt_of_le hia with he | hl
        · right
          have := half.2.1 h.1
          exact ⟨by linarith, by omega⟩
        · left; linarith
    · have hia : (a : ℚ) + 2 ≤ i := by exact_mod_cast (show (a : Int) + 2 ≤ i by push_cast at hgt; omega)
      left; rw [abs_of_nonpos (show (a : ℚ) + f - i ≤ 0 by linarith)]; linarith
  · next h =>
    rw [if_neg h] at hi
    push Not at h
    have hf2 : 2 * f ≤ 1 := by
      by_contra hc; exact absurd (half.1.2 (not_le.1 hc)) (by omega)
    rw [show (a : ℚ) + f - a = f by ring, abs_of_nonneg hf0]
    rcases lt_or_gt_of_ne hi with hlt | hgt
    · have hia : (i : ℚ) + 1 ≤ a := by exact_mod_cast (show i + 1 ≤ (a : Int) by omega)
      left; rw [abs_of_nonneg (show 0 ≤ (a : ℚ) + f - i by linarith)]; linarith
    · have hia : (a : ℚ) + 1 ≤ i := by exact_mod_cast (show (a : Int) + 1 ≤ i by omega)
      rw [abs_of_nonpos (show (a : ℚ) + f - i ≤ 0 by linarith)]
      rcases eq_or_lt_of_le hf2 with he | hl
      · have hae := h.2 (half.2.2 he)
        rcases eq_or_lt_of_le hia with he' | hl'
        · right; exact ⟨by linarith, by omega⟩
        · left; linarith
      · left; linarith

/-- `floorLog2` is the exponent of the leading bit. -/
theorem floorLog2_spec (n d : Nat) (hn : 0 < n) (hd : 0 < d) :
    (2 : ℚ) ^ floorLog2 n d ≤ (n : ℚ) / d ∧ (n : ℚ) / d < (2 : ℚ) ^ (floorLog2 n d + 1) := by
  have hdq : (0 : ℚ) < d := by exact_mod_cast hd
  have bounds : ∀ x : Nat, 0 < x → (2 : ℚ) ^ (Nat.log2 x : Int) ≤ x ∧ (x : ℚ) < (2 : ℚ) ^ ((Nat.log2 x : Int) + 1) := by
    intro x hx
    refine ⟨?_, ?_⟩
    · rw [zpow_natCast]; exact_mod_cast Nat.log2_self_le (by omega)
    · have := @Nat.lt_log2_self x
      rw [show ((Nat.log2 x : Int) + 1) = ((Nat.log2 x + 1 : Nat) : Int) by push_cast; ring, zpow_natCast]
      exact_mod_cast this
  obtain ⟨n1, n2⟩ := bounds n hn
  obtain ⟨d1, d2⟩ := bounds d hd
  have two : (2 : ℚ) ≠ 0 := by norm_num
  have guard : ∀ k : Int, (if 0 ≤ k then d * 2 ^ k.toNat ≤ n else d ≤ n * 2 ^ (-k).toNat) ↔ (2 : ℚ) ^ k ≤ (n : ℚ) / d := by
    intro k
    rw [le_div_iff₀ hdq]
    split
    · next h =>
      obtain ⟨j, rfl⟩ := Int.eq_ofNat_of_zero_le h
      rw [zpow_natCast, mul_comm]; simp only [Int.toNat_natCast, ]
      rw [← @Nat.cast_le ℚ]; push_cast; rfl
    · next h =>
      obtain ⟨j, hj⟩ := Int.eq_ofNat_of_zero_le (show 0 ≤ -k by omega)
      obtain rfl : k = -(j : Int) := by omega
      rw [zpow_neg, zpow_natCast, inv_mul_le_iff₀ (by positivity), neg_neg, Int.toNat_natCast, ← @Nat.cast_le ℚ]
      push_cast; rw [mul_comm]
  unfold floorLog2
  extract_lets k
  have hlo : (2 : ℚ) ^ (k - 1) ≤ (n : ℚ) / d := by
    rw [le_div_iff₀ hdq]
    calc (2 : ℚ) ^ (k - 1) * d ≤ (2 : ℚ) ^ (k - 1) * (2 : ℚ) ^ ((Nat.log2 d : Int) + 1) := by
          exact mul_le_mul_of_nonneg_left d2.le (by positivity)
      _ = (2 : ℚ) ^ (Nat.log2 n : Int) := by rw [← zpow_add₀ two]; congr 1; omega
      _ ≤ n := n1
  have hhi : (n : ℚ) / d < (2 : ℚ) ^ (k + 1) := by
    rw [div_lt_iff₀ hdq]
    calc (n : ℚ) < (2 : ℚ) ^ ((Nat.log2 n : Int) + 1) := n2
      _ = (2 : ℚ) ^ (k + 1) * (2 : ℚ) ^ (Nat.log2 d : Int) := by rw [← zpow_add₀ two]; congr 1; omega
      _ ≤ (2 : ℚ) ^ (k + 1) * d := mul_le_mul_of_nonneg_left d1 (by positivity)
  by_cases h : (2 : ℚ) ^ k ≤ (n : ℚ) / d
  · rw [if_pos ((guard k).2 h)]
    exact ⟨h, hhi⟩
  · rw [if_neg (mt (guard k).1 h), sub_add_cancel]
    exact ⟨hlo, not_le.1 h⟩

/-- A significand is the nearest integer to the quotient in units of its last bit. -/
theorem significandAt_eq (n d : Nat) (e : Int) (hd : 0 < d) : ∃ n' d', 0 < d' ∧ significandAt n d e = nearestEven n' d' ∧
    (n' : ℚ) / d' = (n : ℚ) / d / (2 : ℚ) ^ e := by
  unfold significandAt
  split
  · next h =>
    obtain ⟨j, rfl⟩ := Int.eq_ofNat_of_zero_le h
    refine ⟨_, _, by positivity, rfl, ?_⟩
    simp [div_div]
  · next h =>
    obtain ⟨j, hj⟩ := Int.eq_ofNat_of_zero_le (show 0 ≤ -e by omega)
    obtain rfl : e = -(j : Int) := by omega
    refine ⟨_, _, hd, rfl, ?_⟩
    simp [div_eq_mul_inv]; ring

/-! ## Patterns -/

/-- The three fields of a pattern, and its last bit. -/
theorem pattern_fields (neg : Bool) (E F : Nat) (hE : E < 2048) (hF : F < 2 ^ 52) :
    let w := BitVec.ofNat 64 (signBit neg + E * 2 ^ 52 + F)
    w.getLsbD 63 = neg ∧ (w.extractLsb' 52 11).toNat = E ∧ (w.extractLsb' 0 52).toNat = F ∧
      w.getLsbD 0 = decide (F % 2 = 1) := by
  intro w
  have hs : signBit neg = (if neg then 1 else 0) * 2 ^ 63 := by cases neg <;> simp [signBit]
  have hw : w.toNat = signBit neg + E * 2 ^ 52 + F := by
    simp only [w, BitVec.toNat_ofNat]
    rw [hs]; apply Nat.mod_eq_of_lt; cases neg <;> simp <;> omega
  refine ⟨?_, ?_, ?_, ?_⟩
  · rw [BitVec.getLsbD, hw, Nat.testBit_eq_decide_div_mod_eq, hs]
    cases neg <;> simp <;> omega
  · rw [BitVec.extractLsb'_toNat, hw, Nat.shiftRight_eq_div_pow, hs]
    cases neg <;> simp <;> omega
  · rw [BitVec.extractLsb'_toNat, hw, Nat.shiftRight_eq_div_pow, hs]
    cases neg <;> simp <;> omega
  · rw [BitVec.getLsbD, hw, Nat.testBit_eq_decide_div_mod_eq, hs]
    cases neg <;> simp <;> omega

/-- The significands and exponents `roundB64` gives. -/
def Normal (m : Nat) (e : Int) : Prop := m < 2 ^ 53 ∧ -1074 ≤ e ∧ e ≤ 971 ∧ (2 ^ 52 ≤ m ∨ e = -1074)

/-- The pattern of a finite value stands for its exact value, and its last bit is that of the significand. -/
theorem pattern_of_normal {neg : Bool} {m : Nat} {e : Int} (h : Normal m e) :
    patternValue (patternOf (.finite neg m e)) = ratOf (.finite neg m e) ∧
      (patternOf (.finite neg m e)).getLsbD 0 = decide (m % 2 = 1) := by
  obtain ⟨hm, h1, h2, h3⟩ := h
  rw [ratOf_finite]
  by_cases hlt : m < 2 ^ 52
  · have he : e = -1074 := by omega
    rw [show patternOf (.finite neg m e) = BitVec.ofNat 64 (signBit neg + 0 * 2 ^ 52 + m) by
      rw [patternOf, if_pos hlt, Nat.zero_mul, Nat.add_zero]]
    obtain ⟨f1, f2, f3, f4⟩ := pattern_fields neg 0 m (by omega) hlt
    refine ⟨?_, f4⟩
    unfold patternValue
    simp only [f1, f2, f3, he]
    rw [if_neg (by omega), if_pos trivial, mul_assoc]
  · rw [show patternOf (.finite neg m e) =
        BitVec.ofNat 64 (signBit neg + (e + 1075).toNat * 2 ^ 52 + (m - 2 ^ 52)) by rw [patternOf, if_neg hlt]]
    obtain ⟨f1, f2, f3, f4⟩ := pattern_fields neg (e + 1075).toNat (m - 2 ^ 52) (by omega) (by omega)
    refine ⟨?_, ?_⟩
    · have hc : (m : ℚ) = 2 ^ 52 + ((m - 2 ^ 52 : Nat) : ℚ) := by
        rw [show (2 : ℚ) ^ 52 = ((2 ^ 52 : Nat) : ℚ) by push_cast; rfl, ← Nat.cast_add]
        have : m = 2 ^ 52 + (m - 2 ^ 52) := by omega
        exact congrArg Nat.cast this
      have hx : (((e + 1075).toNat : Nat) : Int) - 1075 = e := by omega
      unfold patternValue
      simp only [f1, f2, f3]
      rw [if_neg (by omega), if_neg (by omega), hx, mul_assoc, ← hc]
    · rw [f4]; exact decide_eq_decide.2 (by omega)

/-- A number of binary64 is a significand below 2^53 times a power of two no smaller than that of the subnormals. -/
theorem patternValue_cases {w : BitVec 64} {r : ℚ} (h : patternValue w = some r) :
    ∃ (neg : Bool) (m : Nat) (e : Int), m < 2 ^ 53 ∧ -1074 ≤ e ∧ r = (if neg then -1 else 1) * (m * (2 : ℚ) ^ e) := by
  have hf := (w.extractLsb' 0 52).isLt
  unfold patternValue at h
  simp only at h
  split at h
  · cases h
  · split at h
    · exact ⟨w.getLsbD 63, (w.extractLsb' 0 52).toNat, -1074, by omega, le_refl _,
        by rw [← Option.some.inj h, mul_assoc]⟩
    · refine ⟨w.getLsbD 63, 2 ^ 52 + (w.extractLsb' 0 52).toNat, ((w.extractLsb' 52 11).toNat : Int) - 1075, by omega,
        by omega, ?_⟩
      rw [← Option.some.inj h, mul_assoc]
      push_cast
      rfl

/-! ## Rounding -/

/-- Everything `roundB64` can do with a number in range: a finite value, whose pattern is the number rounded to nearest,
ties to even. -/
theorem roundB64_spec (neg : Bool) {n d : Nat} (hn : 0 < n) (hd : 0 < d) (hr : InRange ((n : ℚ) / d)) :
    ∃ m e, roundB64 neg n d = .finite neg m e ∧ Normal m e ∧
      RoundsTo ((if neg then -1 else 1) * ((n : ℚ) / d)) (patternOf (roundB64 neg n d)) := by
  have two : (2 : ℚ) ≠ 0 := by norm_num
  have hdq : (0 : ℚ) < d := by exact_mod_cast hd
  have hnq : (0 : ℚ) < n := by exact_mod_cast hn
  obtain ⟨k1, k2⟩ := floorLog2_spec n d hn hd
  have hq0 : 0 < (n : ℚ) / d := div_pos hnq hdq
  have hrange : (n : ℚ) / d < 2 ^ 1024 - 2 ^ 970 := by unfold InRange at hr; rwa [abs_of_pos hq0] at hr
  generalize hk : floorLog2 n d = k at k1 k2
  obtain ⟨e, he⟩ : ∃ e, e = lastBitExponent n d := ⟨_, rfl⟩
  have hek : e = max (-1074) (k - 52) := by rw [he, lastBitExponent, hk]
  obtain ⟨n', d', hd', hM, hx⟩ := significandAt_eq n d e hd
  have near := nearestEven_spec n' d' hd'
  rw [← hM, hx] at near
  obtain ⟨M, hMM⟩ : ∃ M, M = significandAt n d e := ⟨_, rfl⟩
  rw [← hMM] at near
  have hp : (0 : ℚ) < (2 : ℚ) ^ e := by positivity
  obtain ⟨x, hxx⟩ : ∃ x, x = (n : ℚ) / d / (2 : ℚ) ^ e := ⟨_, rfl⟩
  rw [← hxx] at near
  have hq : (n : ℚ) / d = x * (2 : ℚ) ^ e := by rw [hxx]; field_simp
  have hx0 : 0 < x := by rw [hxx]; exact div_pos hq0 hp
  have hx53 : x < 2 ^ 53 := by
    have : (n : ℚ) / d < 2 ^ 53 * (2 : ℚ) ^ e := by
      refine k2.trans_le ?_
      rw [← zpow_natCast, ← zpow_add₀ two]
      exact zpow_le_zpow_right₀ (by norm_num) (by push_cast; omega)
    rw [hq] at this
    exact lt_of_mul_lt_mul_right this hp.le
  have hx52 : -1074 < e → 2 ^ 52 ≤ x := by
    intro hlt
    have h52 : e = k - 52 := by omega
    have : 2 ^ 52 * (2 : ℚ) ^ e ≤ (n : ℚ) / d := by
      refine le_trans (le_of_eq ?_) k1
      rw [← zpow_natCast, ← zpow_add₀ two]
      congr 1; push_cast; omega
    rw [hq] at this
    exact le_of_mul_le_mul_right this hp
  have he971 : e ≤ 971 := by
    have h1024 : (2 : ℚ) ^ k < (2 : ℚ) ^ (1024 : Int) := by
      refine k1.trans_lt (hrange.trans_le ?_)
      rw [show (2 : ℚ) ^ (1024 : Int) = 2 ^ 1024 from zpow_natCast 2 1024]
      exact sub_le_self _ (by positivity)
    have := (zpow_lt_zpow_iff_right₀ (by norm_num : (1 : ℚ) < 2)).1 h1024
    omega
  have hM53 : M ≤ 2 ^ 53 := by
    by_contra hc
    have hc' : (2 : ℚ) ^ 53 + 1 ≤ M := by exact_mod_cast (show 2 ^ 53 + 1 ≤ M by omega)
    have := near (2 ^ 53) (by push_cast; omega)
    push_cast at this
    rw [abs_of_neg (by linarith), abs_of_neg (by linarith)] at this
    rcases this with h | h <;> linarith
  have hM52 : -1074 < e → 2 ^ 52 ≤ M := by
    intro hlt
    have := hx52 hlt
    by_contra hc
    have hc' : (M : ℚ) + 1 ≤ 2 ^ 52 := by exact_mod_cast (show M + 1 ≤ 2 ^ 52 by omega)
    have h := near (2 ^ 52) (by push_cast; omega)
    push_cast at h
    rw [abs_of_nonneg (by linarith), abs_of_nonneg (by linarith)] at h
    rcases h with h | h <;> linarith
  have hMtop : e = 971 → M ≠ 2 ^ 53 := by
    rintro rfl rfl
    have hxt : x < 2 ^ 53 - 1 / 2 := by
      have h970 : (2 : ℚ) ^ (971 : Int) = 2 ^ 970 * 2 := by
        rw [show (971 : Int) = ((971 : Nat) : Int) from rfl, zpow_natCast, ← pow_succ]
      have h1024 : (2 : ℚ) ^ 1024 = 2 ^ 970 * 2 ^ 54 := by rw [← pow_add]
      rw [hq, h970, h1024] at hrange
      have hp970 : (0 : ℚ) < 2 ^ 970 := by positivity
      generalize (2 : ℚ) ^ 970 = P at hrange hp970
      nlinarith
    have h := near (2 ^ 53 - 1) (by omega)
    norm_num at h hxt
    rw [abs_of_neg (show x - 9007199254740992 < 0 by linarith only [hxt])] at h
    rcases le_or_gt 9007199254740991 x with hle | hlt
    · rw [abs_of_nonneg (by linarith only [hle])] at h
      rcases h with h | h <;> linarith only [h, hxt]
    · rw [abs_of_neg (by linarith only [hlt])] at h
      rcases h with h | h <;> linarith only [h]
  have hround : ∃ m e', roundB64 neg n d = .finite neg m e' ∧ Normal m e' ∧ (m : ℚ) * (2 : ℚ) ^ e' = M * (2 : ℚ) ^ e ∧
      (M % 2 = 0 → m % 2 = 0) := by
    unfold roundB64
    rw [if_neg (by omega), ← he, ← hMM, packB64]
    split
    · next h =>
      have : e ≠ 971 := fun h' => hMtop h' h
      rw [if_neg (by omega)]
      refine ⟨2 ^ 52, e + 1, rfl, ⟨by norm_num, by omega, by omega, .inl le_rfl⟩, ?_, by omega⟩
      rw [h, zpow_add_one₀ two]; push_cast; ring
    · next h =>
      rw [if_neg (by omega)]
      refine ⟨M, e, rfl, ⟨by omega, by omega, he971, ?_⟩, rfl, id⟩
      by_cases h' : -1074 < e
      · exact .inl (hM52 h')
      · right; omega
  obtain ⟨m, e', hfin, hnorm, hval, hpar⟩ := hround
  obtain ⟨hpat, hbit⟩ := pattern_of_normal (neg := neg) hnorm
  refine ⟨m, e', hfin, hnorm, ?_⟩
  rw [hfin]
  rw [ratOf_finite] at hpat
  refine ⟨_, hpat, fun w' r' hw' hne => ?_⟩
  rw [hval] at hne ⊢
  obtain ⟨neg', m', f, hm', hf, rfl⟩ := patternValue_cases hw'
  -- everything in units of the last bit, with the sign of the exact value taken off
  obtain ⟨z, hz⟩ : ∃ z : ℚ, z = (if neg then -1 else 1) * (if neg' then -1 else 1) * (m' * (2 : ℚ) ^ (f - e)) := ⟨_, rfl⟩
  have hsg : ((if neg then -1 else 1 : ℚ)) * (if neg then -1 else 1) = 1 := by cases neg <;> norm_num
  have habs : |(if neg then -1 else 1 : ℚ)| = 1 := by cases neg <;> norm_num
  have hr' : (if neg' then -1 else 1 : ℚ) * (m' * (2 : ℚ) ^ f) = (if neg then -1 else 1) * (z * (2 : ℚ) ^ e) := by
    rw [hz, show (2 : ℚ) ^ f = (2 : ℚ) ^ (f - e) * (2 : ℚ) ^ e by rw [← zpow_add₀ two]; congr 1; omega]
    linear_combination (-(if neg' then -1 else 1 : ℚ) * (m' * ((2 : ℚ) ^ (f - e) * (2 : ℚ) ^ e))) * hsg
  have dist : ∀ y : ℚ, |(if neg then -1 else 1 : ℚ) * ((n : ℚ) / d) - (if neg then -1 else 1) * (y * (2 : ℚ) ^ e)| =
      |x - y| * (2 : ℚ) ^ e := by
    intro y
    rw [hq, ← mul_sub, ← sub_mul, abs_mul, abs_mul, habs, one_mul, abs_of_pos hp]
  have hne' : z ≠ M := by
    rintro rfl; exact hne hr'
  rw [hr', dist, dist]
  have key : |x - M| < |x - z| ∨ (|x - M| = |x - z| ∧ M % 2 = 0) := by
    by_cases hfe : e ≤ f
    · obtain ⟨j, hj⟩ := Int.eq_ofNat_of_zero_le (show 0 ≤ f - e by omega)
      have hzi : z = (((if neg then -1 else 1) * (if neg' then -1 else 1) * (m' * 2 ^ j) : Int) : ℚ) := by
        rw [hz, hj, zpow_natCast]; push_cast; rfl
      rw [hzi]
      exact near _ fun h => hne' (by rw [hzi, h]; push_cast; rfl)
    · have hlt : -1074 < e := by omega
      have hz52 : z < 2 ^ 52 := by
        have hm53 : (m' : ℚ) < 2 ^ 53 := by exact_mod_cast hm'
        have hhalf : (2 : ℚ) ^ (f - e) ≤ 1 / 2 := by
          rw [show (1 / 2 : ℚ) = (2 : ℚ) ^ (-1 : Int) by norm_num]
          exact zpow_le_zpow_right₀ (by norm_num) (by omega)
        have hpos : (0 : ℚ) < (2 : ℚ) ^ (f - e) := by positivity
        have hlt' : (m' : ℚ) * (2 : ℚ) ^ (f - e) < 2 ^ 52 := by
          generalize (2 : ℚ) ^ (f - e) = P at hhalf hpos
          have : (m' : ℚ) * P ≤ m' * (1 / 2) := mul_le_mul_of_nonneg_left hhalf (by positivity)
          linarith only [this, hm53]
        have h0 : 0 ≤ (m' : ℚ) * (2 : ℚ) ^ (f - e) := by positivity
        generalize (m' : ℚ) * (2 : ℚ) ^ (f - e) = P at hlt' h0 hz
        rw [hz]
        cases neg <;> cases neg' <;> simp <;> linarith only [hlt', h0]
      have h52 := hx52 hlt
      left
      rw [abs_of_pos (show 0 < x - z by linarith)]
      by_cases h : (M : Int) = 2 ^ 52
      · have : (M : ℚ) = 2 ^ 52 := by exact_mod_cast h
        rw [this, abs_of_nonneg (by linarith)]; linarith
      · have := near (2 ^ 52) (fun h' => h h'.symm)
        rw [show ((2 ^ 52 : Int) : ℚ) = 2 ^ 52 by norm_cast,
          abs_of_nonneg (show 0 ≤ x - 2 ^ 52 by linarith only [h52])] at this
        rcases this with h | h <;> linarith
  rcases key with h | ⟨h, hev⟩
  · exact .inl (mul_lt_mul_of_pos_right h hp)
  · right
    refine ⟨by rw [h], ?_⟩
    rw [hbit]
    have := hpar hev
    simp [this]
end Sys2Proof.Machine
end

