-- ==== Sys2Proof/Laws/PerInstr.lean ====
section
/-! SUPPORT. A statement for every constructor: the encoder writes the opcode table's fixed bits. -/

namespace Sys2Proof.Laws

/-- The `OP` value of the opcode table's row (30_encoding.md R71). -/
def tableOp : Instr → Byte
  | .openSession _ _ => 0x01#8
  | .scan => 0x02#8
  | .pageSelect _ => 0x03#8
  | .report => 0x04#8
  | .closeSession => 0x05#8
  | .getSession => 0x06#8
  | .quickPresence => 0x10#8
  | .readByte _ => 0x11#8
  | .readWord _ => 0x12#8
  | .readBlock _ _ => 0x13#8
  | .writeByte _ _ => 0x14#8
  | .writeWord _ _ => 0x15#8
  | .writeBlock _ _ => 0x16#8
  | .checkSupport _ => 0x20#8
  | .fetchCoefficients _ _ => 0x21#8
  | .getSlot _ => 0x22#8
  | .getCoef _ _ => 0x23#8
  | .classify _ => 0x30#8
  | .decodeValue _ _ => 0x31#8
  | .decodeLinear11 _ => 0x32#8
  | .decodeDirect _ _ => 0x33#8
  | .decodeVout _ => 0x34#8
  | .decodeBitmap _ => 0x35#8

/-- The encoded word has the row's `OP` and a zero `RSV`: the table's match under its mask. -/
def TableMatch.Statement (i : Instr) : Prop := opField (encode i) = tableOp i ∧ rsvField (encode i) = 0#12

namespace TableMatch

theorem openSession (a : BitVec 7) (p : Bool) : Statement (.openSession a p) := ⟨opField_pack _ _ _ _, rsvField_pack _ _ _ _⟩
theorem scan : Statement .scan := ⟨opField_pack _ _ _ _, rsvField_pack _ _ _ _⟩
theorem pageSelect (page : Byte) : Statement (.pageSelect page) := ⟨opField_pack _ _ _ _, rsvField_pack _ _ _ _⟩
theorem report : Statement .report := ⟨opField_pack _ _ _ _, rsvField_pack _ _ _ _⟩
theorem closeSession : Statement .closeSession := ⟨opField_pack _ _ _ _, rsvField_pack _ _ _ _⟩
theorem getSession : Statement .getSession := ⟨opField_pack _ _ _ _, rsvField_pack _ _ _ _⟩
theorem quickPresence : Statement .quickPresence := ⟨opField_pack _ _ _ _, rsvField_pack _ _ _ _⟩
theorem readByte (cmd : Word16) : Statement (.readByte cmd) := ⟨opField_pack _ _ _ _, rsvField_pack _ _ _ _⟩
theorem readWord (cmd : Word16) : Statement (.readWord cmd) := ⟨opField_pack _ _ _ _, rsvField_pack _ _ _ _⟩
theorem readBlock (cmd : Word16) (n : BitVec 12) : Statement (.readBlock cmd n) := ⟨opField_pack _ _ _ _, rsvField_pack _ _ _ _⟩
theorem writeByte (cmd : Word16) (v : Byte) : Statement (.writeByte cmd v) := ⟨opField_pack _ _ _ _, rsvField_pack _ _ _ _⟩
theorem writeWord (cmd v : Word16) : Statement (.writeWord cmd v) := ⟨opField_pack _ _ _ _, rsvField_pack _ _ _ _⟩
theorem writeBlock (cmd : Word16) (n : BitVec 12) : Statement (.writeBlock cmd n) := ⟨opField_pack _ _ _ _, rsvField_pack _ _ _ _⟩
theorem checkSupport (cmd : Word16) : Statement (.checkSupport cmd) := ⟨opField_pack _ _ _ _, rsvField_pack _ _ _ _⟩
theorem fetchCoefficients (cmd d : Word16) : Statement (.fetchCoefficients cmd d) := ⟨opField_pack _ _ _ _, rsvField_pack _ _ _ _⟩
theorem getSlot (cmd : Word16) : Statement (.getSlot cmd) := ⟨opField_pack _ _ _ _, rsvField_pack _ _ _ _⟩
theorem getCoef (cmd d : Word16) : Statement (.getCoef cmd d) := ⟨opField_pack _ _ _ _, rsvField_pack _ _ _ _⟩
theorem classify (cmd : Word16) : Statement (.classify cmd) := ⟨opField_pack _ _ _ _, rsvField_pack _ _ _ _⟩
theorem decodeValue (cmd raw : Word16) : Statement (.decodeValue cmd raw) := ⟨opField_pack _ _ _ _, rsvField_pack _ _ _ _⟩
theorem decodeLinear11 (raw : Word16) : Statement (.decodeLinear11 raw) := ⟨opField_pack _ _ _ _, rsvField_pack _ _ _ _⟩
theorem decodeDirect (cmd raw : Word16) : Statement (.decodeDirect cmd raw) := ⟨opField_pack _ _ _ _, rsvField_pack _ _ _ _⟩
theorem decodeVout (raw : Word16) : Statement (.decodeVout raw) := ⟨opField_pack _ _ _ _, rsvField_pack _ _ _ _⟩
theorem decodeBitmap (raw : Word16) : Statement (.decodeBitmap raw) := ⟨opField_pack _ _ _ _, rsvField_pack _ _ _ _⟩

end TableMatch

end Sys2Proof.Laws
end

