-- ==== Sys2Proof/Tests/Slice0.lean ====
section
/-! SUPPORT. The model's own tests: the operand checks, the decoding of a written-out word for every operation, one step of
every operation on small states, and for every statement with hypotheses a witness that meets them. The expected values are
the spec's examples and tables, as each section says. -/

namespace Sys2Proof.Tests

open Sys2Proof.Machine

-- One theorem after the other: a kernel evaluation waits for everything before it, and a hundred waiting threads are many.
set_option Elab.async false

/-! ## Small states -/

/-- A catalog entry with a one-letter tag. -/
def entry (code : Word16) (unit : Units) (flags : BitVec 3) : CatalogEntry :=
  { code := code, shape := .word, unit := unit, flags := flags, tag := [0x41#8] }

/-- The sentinel: an entry with an empty tag (R12). -/
def sentinel : CatalogEntry := { entry 0x0000#16 .none 0#3 with tag := [] }

/-- A status register, a voltage, a VOUT-relative voltage and an extended code, and an entry behind the sentinel. -/
def catalog : Catalog where
  given := [entry 0x0079#16 .bits 3#3, entry 0x0088#16 .volts 1#3, entry 0x008B#16 .volts 5#3, entry 0x01FE#16 .none 0#3,
    sentinel, entry 0x0079#16 .none 0#3]
  distinct := by decide

/-- The default parameters with these capabilities and this arithmetic. -/
def params (caps : Byte) (num : NumDomain) : Params where
  caps := caps
  blockLimit := 32
  catalog := catalog
  codes := Config.codes
  capPecBit := 7
  voutLinearMode := 0b000#3
  num := num
  dataSize := Config.params.dataSize

/-- A session with address 0x40 in a given state, the next bus answers listed. -/
def session (caps : Byte) (st : SessionState) (pec : Bool) (answers : List BusAnswer) : State :=
  { State.boot (params caps .binary64) with sessionState := st, addr := 0x40#7, pecEn := pec, answers := answers }

/-- A Scanned session of a fully capable adapter, PEC off. -/
def scanned (answers : List BusAnswer) : State := session 0xFF#8 .scanned false answers

/-- A Scanned session of a fully capable adapter, PEC on. -/
def scannedPec (answers : List BusAnswer) : State := session 0xFF#8 .scanned true answers

/-- COEFFICIENTS and VOUT_MODE resolved, a DIRECT code 0x8D and a linear 0x88, a mode byte of linear mode. -/
def discovered (num : NumDomain) : State :=
  let s := { scanned [] with params := params 0xFF#8 num, voutModeValid := true }
  let s := setSlot 0x20#8 .resolved (setQbyte 0x20#8 0xA0#8 s)
  let s := setCoef 0x20#8 .read { CoefSet.cleared with r := 0x17#8 } s
  let s := setSlot 0x8D#8 .resolved (setQbyte 0x8D#8 0xAC#8 s)
  let s := setCoef 0x8D#8 .read { r := 0x02#8, m := 0x0001#16, b := 0x0000#16, v := true } s
  setSlot 0x88#8 .resolved (setQbyte 0x88#8 0xA0#8 s)

/-- The operation goes on, to a state with a given property. -/
def goesOn (o : StepOutcome) (p : State → Bool) : Bool :=
  match o with
  | .next t => p t
  | .fault _ => false
  | .refused _ => false

/-- The status and the cause are these. -/
def endedAs (st : Status) (k : Cause) (t : State) : Bool := t.status = st && t.cause = k

/-! ## Operand checks (R52, R55, R73, R113, R117, R160; R10, R12) -/

theorem test_reserved_addresses_are_ill_formed :
    ([0x00#7, 0x08#7, 0x0C#7, 0x28#7, 0x37#7, 0x61#7, 0x78#7, 0x7F#7].map fun a => (Instr.openSession a true).wellFormed) =
      List.replicate 8 false := by decide

theorem test_other_addresses_are_well_formed :
    ([0x09#7, 0x0B#7, 0x0D#7, 0x27#7, 0x29#7, 0x36#7, 0x38#7, 0x60#7, 0x62#7, 0x77#7].map
      fun a => (Instr.openSession a false).wellFormed) = List.replicate 10 true := by decide

theorem test_lengths :
    ([0#12, 1#12, 255#12, 256#12].map fun n => (Instr.readBlock 0x0099#16 n).wellFormed) = [false, true, true, false] ∧
    ([0#12, 1#12, 255#12, 256#12].map fun n => (Instr.writeBlock 0x0099#16 n).wellFormed) =
      [false, true, true, false] := by decide

theorem test_directions :
    ([0#16, 1#16, 2#16, 0x0100#16].map fun d => (Instr.fetchCoefficients 0x008B#16 d).wellFormed) =
      [true, true, false, false] ∧
    ([0#16, 1#16, 2#16, 0xFFFF#16].map fun d => (Instr.getCoef 0x008B#16 d).wellFormed) = [true, true, false, false] := by
  decide

theorem test_extended_commands_are_ill_formed :
    ([.readByte 0x00FE#16, .readWord 0x00FF#16, .readBlock 0x0100#16 1#12, .writeByte 0x00FE#16 0#8,
      .writeWord 0x00FE#16 0#16, .writeBlock 0x00FE#16 1#12, .fetchCoefficients 0x00FE#16 0#16, .getSlot 0x00FE#16,
      .getCoef 0x00FE#16 0#16, .classify 0x00FE#16, .decodeValue 0x00FE#16 0#16, .decodeDirect 0x00FE#16 0#16].map
      Instr.wellFormed) = List.replicate 12 false ∧
    ([.readByte 0x00FD#16, .readWord 0x00FD#16, .checkSupport 0x00FE#16, .checkSupport 0xFFFF#16].map Instr.wellFormed) =
      List.replicate 4 true := by decide

theorem test_illegal_request_words :
    ([0x0000000000000000#64, 0x0000000000000007#64, 0x0000000000000017#64, 0x0000000000000036#64, 0x00000000000000FF#64,
      0x0010000000000002#64, 0x8000000000000005#64].map Request.legal) = List.replicate 7 false ∧
    ([0x0000000000000001#64, 0x000FFFFFFFFFFF35#64].map Request.legal) = [true, true] := by decide

theorem test_duplicate_codes_are_refused_only_before_the_sentinel :
    codesDistinct (beforeSentinel [entry 0x0079#16 .none 0#3, entry 0x0079#16 .none 0#3]) = false ∧
    codesDistinct (beforeSentinel [entry 0x0079#16 .none 0#3, sentinel, entry 0x0079#16 .none 0#3]) = true := by decide

theorem test_small_data_is_refused : [0, 254, 255, 256].map dataSizeOk = [false, false, true, true] := by decide

theorem test_bad_command_codes_are_refused :
    commandCodesOk 0x19#8 0x19#8 0x20#8 0x30#8 0x98#8 = false ∧ commandCodesOk 0x19#8 0xFE#8 0x20#8 0x30#8 0x98#8 = false ∧
      commandCodesOk 0x19#8 0x1A#8 0x20#8 0x30#8 0xFD#8 = true := by decide

/-! ## Decoding: one word written out from R70, R71 and R75 for every operation -/

theorem test_decode_session_family :
    decode 0x00000000C0000001#64 = .ok (.openSession 0x40#7 true) ∧
    decode 0x000FFFFF50FFFF01#64 = .ok (.openSession 0x50#7 false) ∧
    decode 0x0000000000000002#64 = .ok .scan ∧
    decode 0x0000000001000003#64 = .ok (.pageSelect 0x01#8) ∧
    decode 0x0000000000000004#64 = .ok .report ∧
    decode 0x0000000000000005#64 = .ok .closeSession ∧
    decode 0x0000000000000006#64 = .ok .getSession := ⟨rfl, rfl, rfl, rfl, rfl, rfl, rfl⟩

theorem test_decode_transport_family :
    decode 0x0000000000000010#64 = .ok .quickPresence ∧
    decode 0x0000000000009811#64 = .ok (.readByte 0x0098#16) ∧
    decode 0x0000000000FE8D12#64 = .ok (.readWord 0xFE8D#16) ∧
    decode 0x000014000000A013#64 = .ok (.readBlock 0x00A0#16 20#12) ∧
    decode 0x0000000001000014#64 = .ok (.writeByte 0x0000#16 0x01#8) ∧
    decode 0x0000000C00002115#64 = .ok (.writeWord 0x0021#16 0x0C00#16) ∧
    decode 0x000FFF000000B016#64 = .ok (.writeBlock 0x00B0#16 0xFFF#12) := ⟨rfl, rfl, rfl, rfl, rfl, rfl, rfl⟩

theorem test_decode_query_family :
    decode 0x0000000000008B20#64 = .ok (.checkSupport 0x008B#16) ∧
    decode 0x0000000001008B21#64 = .ok (.fetchCoefficients 0x008B#16 1#16) ∧
    decode 0x0000000000008B22#64 = .ok (.getSlot 0x008B#16) ∧
    decode 0x0000000001008B23#64 = .ok (.getCoef 0x008B#16 1#16) := ⟨rfl, rfl, rfl, rfl⟩

theorem test_decode_codec_family :
    decode 0x0000000000008B30#64 = .ok (.classify 0x008B#16) ∧
    decode 0x000000E8C8008B31#64 = .ok (.decodeValue 0x008B#16 0xE8C8#16) ∧
    decode 0x000000E8C8000032#64 = .ok (.decodeLinear11 0xE8C8#16) ∧
    decode 0x00000000FA008B33#64 = .ok (.decodeDirect 0x008B#16 0x00FA#16) ∧
    decode 0x0000000C00000034#64 = .ok (.decodeVout 0x0C00#16) ∧
    decode 0x0000008041000035#64 = .ok (.decodeBitmap 0x8041#16) := ⟨rfl, rfl, rfl, rfl, rfl, rfl⟩

theorem test_decode_refuses_by_name :
    decode 0x0010000000000002#64 = .error .reservedNotZero ∧ decode 0x0000000000000000#64 = .error .undefinedOp ∧
      decode 0x0000000000000036#64 = .error .undefinedOp := ⟨rfl, rfl, rfl⟩

theorem test_table_words :
    decodeTableWord 64 0xC0000001 = some (.openSession 0x40#7 true) ∧ decodeTableWord 8 0x02 = some .scan ∧
      decodeTableWord 65 0x02 = none := by decide

/-! ## The PEC and the frames (R103, R80 to R88) -/

theorem test_crc_check_value :
    crc8 [0x31#8, 0x32#8, 0x33#8, 0x34#8, 0x35#8, 0x36#8, 0x37#8, 0x38#8, 0x39#8] = 0xF4#8 := by decide +kernel

theorem test_write_word_frame :
    frameOf ⟨0x40#7, .writeWord 0x21#8 0x0C00#16 true, .completed [] (some 0x3D#8)⟩ =
      some [.start, .m 0x80#8, .m 0x21#8, .m 0x00#8, .m 0x0C#8, .m 0x3D#8, .stop] := by decide

theorem test_query_frame :
    frameOf ⟨0x40#7, .processCall 0x1A#8 (queryWord 0x8B#8) false, .completed [0x01#8, 0xA0#8] none⟩ =
      some [.start, .m 0x80#8, .m 0x1A#8, .m 0x01#8, .m 0x8B#8, .restart, .m 0x81#8, .s 0x01#8, .s 0xA0#8, .stop] := by
  decide

/-! ## One step of every operation: the spec's examples -/

theorem test_open : goesOn (exec (.openSession 0x40#7 true) (State.boot (params 0xFF#8 .exact))) (fun t =>
    endedAs .ok .noCause t && t.addr = 0x40#7 && t.pecReq && t.sessionState = .attached) = true := by decide +kernel

theorem test_open_reserved : goesOn (exec (.openSession 0x0C#7 false) (State.boot (params 0xFF#8 .exact))) (fun t =>
    endedAs .invalidArgument .noCause t && t.sessionState = .unopened) = true := by decide +kernel

/-- PEC is enabled by bit 7 of the CAPABILITY byte 0xB0 and the operator's request (R225). -/
theorem test_scan : goesOn (exec .scan { session 0xFF#8 .attached false
      [.complete [], .fail .nakData, .complete [0xB0#8], .complete [0x22#8, 0x84#8]] with pecReq := true }) (fun t =>
    endedAs .ok .noCause t && t.sessionState = .scanned && t.pecEn && t.capByte = 0xB0#8 && t.revByte = 0x22#8 &&
      t.noQuery) = true := by decide +kernel

theorem test_scan_absent : goesOn (exec .scan (session 0xFF#8 .attached false [.fail .nakAddr])) (fun t =>
    endedAs .transportError .nakAddr t && t.sessionState = .closed) = true := by decide +kernel

theorem test_page_select : goesOn (exec (.pageSelect 0x01#8) (scannedPec [.complete []])) (fun t =>
    endedAs .ok .noCause t && t.busLog.map frameOf =
      [some [.start, .m 0x80#8, .m 0x00#8, .m 0x01#8, .m 0x0C#8, .stop]]) = true := by decide +kernel

theorem test_page_select_fails : goesOn (exec (.pageSelect 0x01#8) (session 0xFD#8 .scanned false [])) (fun t =>
    endedAs .transportError .noCapability t && t.sessionState = .closed) = true := by decide +kernel

theorem test_report : goesOn (exec .report (scanned [])) (fun t =>
    endedAs .ok .noCause t && t.sessionState = .reporting) = true := by decide +kernel

theorem test_report_attached : goesOn (exec .report (session 0xFF#8 .attached false [])) (fun t =>
    endedAs .illegalState .noCause t && t.sessionState = .attached) = true := by decide +kernel

theorem test_close : goesOn (exec .closeSession (scanned [])) (fun t =>
    endedAs .ok .noCause t && t.sessionState = .closed && t.addr = 0x40#7) = true := by decide +kernel

theorem test_get_session_after_reset : goesOn (exec .getSession (State.boot (params 0xFF#8 .binary64))) (fun t =>
    endedAs .ok .noCause t && t.result = 0x0000#16 && t.value = .word 0#64 && t.valueKind = .uint) = true := by decide +kernel

theorem test_get_session : goesOn (exec .getSession
      { scannedPec [] with pecReq := true, capByte := 0xB0#8, capValid := true, revByte := 0x22#8 }) (fun t =>
    t.result = 0x012A#16 && t.value = .word 0x00000000004022B0#64) = true := by decide +kernel

theorem test_quick_presence : goesOn (exec .quickPresence (scanned [.complete []])) (fun t =>
    endedAs .ok .noCause t && t.result = 1#16) = true := by decide +kernel

theorem test_quick_absent : goesOn (exec .quickPresence { scanned [.fail .nakAddr] with result := 7#16 }) (fun t =>
    endedAs .ok .noCause t && t.result = 0#16) = true := by decide +kernel

theorem test_read_byte_pec : goesOn (exec (.readByte 0x0098#16) (scannedPec [.complete [0x22#8, 0x84#8]])) (fun t =>
    endedAs .ok .noCause t && t.result = 0x0022#16) = true := by decide +kernel

theorem test_read_byte_bad_pec : goesOn (exec (.readByte 0x0098#16) (scannedPec [.complete [0x22#8, 0x85#8]])) (fun t =>
    endedAs .transportError .pecMismatch t && t.result = 0x0000#16) = true := by decide +kernel

theorem test_read_word : goesOn (exec (.readWord 0x008D#16) (scannedPec [.complete [0xC8#8, 0xE8#8, 0xEB#8]])) (fun t =>
    endedAs .ok .noCause t && t.result = 0xE8C8#16) = true := by decide +kernel

/-- The source's example: a declared length of 40 against a buffer of 20, by the raw path (R114). -/
theorem test_read_block_raw : goesOn (exec (.readBlock 0x009A#16 20#12)
      (scanned [.complete [40#8], .complete (40#8 :: List.replicate 40 0x41#8)])) (fun t =>
    endedAs .sizeExceeded .noCause t && t.result = 40#16 && t.rlen = 20#9 && t.data.length = 20 &&
      t.busLog.map (·.req) = [.readByte 0x9A#8 false, .raw [0x9A#8] 41]) = true := by decide +kernel

theorem test_read_block_native : goesOn (exec (.readBlock 0x0099#16 8#12)
      (scannedPec [.complete [3#8], .complete [3#8, 0x41#8, 0x42#8, 0x43#8, 0x03#8]])) (fun t =>
    endedAs .ok .noCause t && t.pecEn && t.rlen = 3#9 && t.data = [(0, 0x41#8), (1, 0x42#8), (2, 0x43#8)]) = true := by
  decide +kernel

theorem test_write_byte : goesOn (exec (.writeByte 0x0000#16 0x01#8) (scannedPec [.complete []])) (fun t =>
    endedAs .ok .noCause t && t.busLog.map frameOf =
      [some [.start, .m 0x80#8, .m 0x00#8, .m 0x01#8, .m 0x0C#8, .stop]]) = true := by decide +kernel

theorem test_write_word : goesOn (exec (.writeWord 0x0021#16 0x0C00#16) (scannedPec [.complete []])) (fun t =>
    endedAs .ok .noCause t && t.busLog.map frameOf =
      [some [.start, .m 0x80#8, .m 0x21#8, .m 0x00#8, .m 0x0C#8, .m 0x3D#8, .stop]]) = true := by decide +kernel

theorem test_write_block : goesOn (exec (.writeBlock 0x00B0#16 2#12)
      { scanned [.complete []] with data := [(0, 0x01#8), (1, 0x02#8)] }) (fun t =>
    endedAs .ok .noCause t && t.busLog.map frameOf =
      [some [.start, .m 0x80#8, .m 0xB0#8, .m 0x02#8, .m 0x01#8, .m 0x02#8, .stop]]) = true := by decide +kernel

theorem test_write_block_no_path : goesOn (exec (.writeBlock 0x00B0#16 33#12) (session 0xBF#8 .scanned false []))
    (fun t => endedAs .unsupported .noCause t && t.busLog = []) = true := by decide +kernel

/-- The spec's example of R147. -/
theorem test_check_support : goesOn (exec (.checkSupport 0x008B#16) (scanned [.complete [0x01#8, 0xA0#8]])) (fun t =>
    endedAs .ok .noCause t && t.result = 0#16 && slotAt t 0x8B#8 = .resolved && qbyteAt t 0x8B#8 = 0xA0#8) = true := by
  decide +kernel

theorem test_check_support_direct : goesOn (exec (.checkSupport 0x008D#16) (scanned
      [.complete [0x01#8, 0xAC#8], .complete [0x01#8, 0x80#8], .complete [5#8, 2#8, 0#8, 0x9C#8, 0xFF#8, 1#8]])) (fun t =>
    endedAs .ok .noCause t && t.result = 0#16 &&
      coefAt t 0x8D#8 .read = { r := 0x01#8, m := 0x0002#16, b := 0xFF9C#16, v := true } &&
      coefAt t 0x8D#8 .write = CoefSet.cleared) = true := by decide +kernel

theorem test_fetch_coefficients : goesOn (exec (.fetchCoefficients 0x008B#16 1#16) (scanned
      [.complete [5#8, 1#8, 0#8, 0#8, 0#8, 2#8]])) (fun t => endedAs .ok .noCause t &&
    coefAt t 0x8B#8 .read = { r := 0x02#8, m := 0x0001#16, b := 0x0000#16, v := true }) = true := by decide +kernel

theorem test_fetch_wrong_length : goesOn (exec (.fetchCoefficients 0x008B#16 1#16) (session 0x40#8 .scanned false
      [.complete [4#8, 1#8, 0#8, 0#8, 0#8, 2#8]])) (fun t => endedAs .protocolViolation .noCause t &&
    coefAt t 0x8B#8 .read = CoefSet.cleared) = true := by decide +kernel

theorem test_get_slot : goesOn (exec (.getSlot 0x0088#16) (discovered .binary64)) (fun t =>
    endedAs .ok .noCause t && t.result = 0xA002#16) = true := by decide +kernel

theorem test_get_coef : goesOn (exec (.getCoef 0x008D#16 1#16) (discovered .binary64)) (fun t =>
    endedAs .ok .noCause t && t.result = 0x0002#16 && t.value = .word 0x0000010200000001#64) = true := by decide +kernel

theorem test_classify : ([0x0079#16, 0x008B#16, 0x0088#16, 0x008D#16, 0x0001#16].map fun c =>
    goesOn (exec (.classify c) (discovered .binary64)) fun t => endedAs .ok .noCause t && t.result =
      (if c = 0x0079#16 then 0#16 else if c = 0x008B#16 then 1#16 else if c = 0x0088#16 then 2#16
        else if c = 0x008D#16 then 4#16 else 8#16)) = List.replicate 5 true := by decide +kernel

theorem test_decode_value : goesOn (exec (.decodeValue 0x0088#16 0xE8C8#16) (discovered .binary64)) (fun t =>
    endedAs .ok .noCause t && t.result = 2#16 && t.value = .word 0x4039000000000000#64 && t.valueKind = .real) = true := by
  decide +kernel

theorem test_decode_value_vout : goesOn (exec (.decodeValue 0x008B#16 0x0C00#16) (discovered .exact)) (fun t =>
    t.result = 1#16 && t.value = .rational 6 && t.valueKind = .real) = true := by decide +kernel

theorem test_decode_linear11 :
    ([(0x0001#16, 0x3FF0000000000000#64), (0x07FF#16, 0xBFF0000000000000#64), (0x0400#16, 0xC090000000000000#64),
      (0x7C00#16, 0xC180000000000000#64), (0x8001#16, 0x3EF0000000000000#64), (0xF800#16, 0x0000000000000000#64)].map
      fun (w, v) => goesOn (exec (.decodeLinear11 w) (scanned [])) fun t => t.value = .word v && t.valueKind = .real) =
      List.replicate 6 true := by decide +kernel

theorem test_decode_linear11_exact : goesOn (exec (.decodeLinear11 0x87FF#16) (discovered .exact)) (fun t =>
    t.value = .rational (mkRat (-1) 65536)) = true := by decide +kernel

/-- The source's example: R = 2, m = 1, b = 0, raw = 250 gives 2.5 (R193). -/
theorem test_decode_direct : goesOn (exec (.decodeDirect 0x008D#16 0x00FA#16) (discovered .binary64)) (fun t =>
    endedAs .ok .noCause t && t.value = .word 0x4004000000000000#64 && t.valueKind = .real) = true := by decide +kernel

/-- The examples of R194, where one division by 10^R would give another pattern, and the extremes. -/
theorem test_direct_rounds :
    ([(0x0007#16, 2#8), (0x000B#16, 2#8), (0x0007#16, 3#8), (0x0003#16, 4#8)].map fun (raw, r) =>
      patternOf (direct binary64Arithmetic raw ⟨r, 1#16, 0#16, true⟩)) =
      [0x3FB1EB851EB851EB#64, 0x3FBC28F5C28F5C2A#64, 0x3F7CAC083126E978#64, 0x3F33A92A30553262#64] ∧
    patternOf (direct binary64Arithmetic 0x7FFF#16 ⟨127#8, 1#16, 0#16, true⟩) = 0x26815422D92CDB54#64 ∧
    patternOf (direct binary64Arithmetic 0x8000#16 ⟨0x80#8, 1#16, 0#16, true⟩) = 0xDB727748F9301D34#64 ∧
    patternOf (direct binary64Arithmetic 0x0000#16 ⟨0#8, 0xFFFF#16, 0#16, true⟩) = 0x8000000000000000#64 := by
  decide +kernel

theorem test_decode_vout : goesOn (exec (.decodeVout 0x0C00#16) (discovered .binary64)) (fun t =>
    endedAs .ok .noCause t && t.value = .word 0x4018000000000000#64 && t.valueKind = .real) = true := by decide +kernel

theorem test_decode_vout_raw : goesOn (exec (.decodeVout 0xFFFF#16) (scanned [])) (fun t =>
    endedAs .ok .noCause t && t.value = .word 0x000000000000FFFF#64 && t.valueKind = .raw) = true := by decide +kernel

theorem test_decode_bitmap : goesOn (exec (.decodeBitmap 0x8041#16) (scanned [])) (fun t =>
    endedAs .ok .noCause t && t.result = 3#16 && t.value = .word 0x8041#64 && t.valueKind = .bits) = true := by decide +kernel

/-! ## Witnesses: for every statement with hypotheses, states and operands that meet them, clause by clause -/

/-- Bus hypotheses hold of the state they are computed from. -/
theorem busOk_of {r : BusReq} {s : State} {device : List Byte} (hp : permitted s.params r = true)
    (hf : FrameAdmits s.params.blockLimit r device)
    (hn : nextAnswer s = .complete (device ++
      if carriesPec r && hasReply r then [crc8 (coveredBytes s.addr r device)] else [])) : ∃ u, BusOk r s device u :=
  ⟨_, hp, hf, hn, rfl⟩

theorem goesOn_next {o : StepOutcome} {p : State → Bool} (h : goesOn o p = true) : ∃ t, o = .next t ∧ p t = true := by
  unfold goesOn at h
  split at h
  · exact ⟨_, rfl, h⟩
  · cases h
  · cases h

theorem witness_DecoderReadsTheFieldsOfItsRow :
    (0x000FFFFF50FFFF01#64 : Request) &&& readBits 0x01#8 = 0x0000000050000001#64 &&& readBits 0x01#8 ∧
    opField 0x000FFFFF50FFFF01#64 = 0x01#8 ∧ decode 0x0000000050000001#64 = .ok (.openSession 0x50#7 false) :=
  ⟨by decide, by decide, rfl⟩

theorem witness_IllegalRequestsChangeOnlyTheStatus :
    (0x0000000000000036#64 : Request).extractLsb' 0 8 ∉ definedOps ∧
    (0x0010000000000002#64 : Request).extractLsb' 52 12 ≠ 0#12 ∧
    (0x000FFFFFFFFFFF35#64 : Request).extractLsb' 0 8 ∈ definedOps ∧
    (0x000FFFFFFFFFFF35#64 : Request).extractLsb' 52 12 = 0#12 ∧
    ({ scanned [] with req := some 0x36#64 } : State).req = some 0x36#64 :=
  ⟨by decide, by decide, by decide, by decide, rfl⟩

theorem witness_StepRunsTheDecodedRequest :
    ({ scanned [] with req := some 0x04#64 } : State).req = some 0x04#64 ∧ decode 0x04#64 = .ok .report := ⟨rfl, rfl⟩

theorem witness_HostActsBetweenOperations :
    (scanned []).req = none ∧ (scanned []).host = [] ∧
    ({ scanned [] with host := [.request 0x04#64] } : State).host = .request 0x04#64 :: [] ∧
    ({ scanned [] with host := [.writeData 255 0x01#8] } : State).host = .writeData 255 0x01#8 :: [] ∧
    255 < (scanned []).params.dataSize.bytes ∧ (scanned []).params.dataSize.bytes ≤ 256 :=
  ⟨rfl, rfl, rfl, rfl, by decide, by decide⟩

/-- A parameter set with this catalog and the code of QUERY, its `CMD_PAGE` and `DATA_SIZE` not the defaults. -/
def given (catalog : List CatalogEntry) (query : Byte) : GivenParams where
  page := 0x19#8
  caps := 0xFF#8
  blockLimit := 32
  catalog := catalog
  capability := 0x19#8
  query := query
  voutMode := 0x20#8
  coefficients := 0x30#8
  pmbusRevision := 0xFD#8
  capPecBit := 7
  voutLinearMode := 0#3
  num := .exact
  dataSize := 255

/-- Refused for its catalog; for a doubled code and for an extended one; for its `DATA`; admitted, with a second entry of a
code behind the sentinel. -/
theorem witness_PowerOnRefusesBadParameters :
    ¬((beforeSentinel (given [entry 0x79#16 .bits 0#3, entry 0x79#16 .none 0#3] 0x1A#8).catalog).map (·.code)).Nodup ∧
    ¬[0x19#8, 0x19#8, 0x20#8, 0x30#8, 0xFD#8].Nodup ∧
    ¬(∀ c ∈ [0x19#8, 0xFE#8, 0x20#8, 0x30#8, 0xFD#8], c.toNat ≤ 0xFD) ∧
    ((beforeSentinel (given [entry 0x79#16 .bits 0#3, sentinel, entry 0x79#16 .none 0#3] 0x1A#8).catalog).map
      (·.code)).Nodup ∧
    [0x19#8, 0x1A#8, 0x20#8, 0x30#8, 0xFD#8].Nodup ∧
    (∀ c ∈ [0x19#8, 0x1A#8, 0x20#8, 0x30#8, 0xFD#8], c.toNat ≤ 0xFD) ∧
    ({ given [] 0x1A#8 with dataSize := 254 } : GivenParams).dataSize < 255 ∧ 255 ≤ (given [] 0x1A#8).dataSize := by
  decide

theorem test_power_on_without_a_sentinel :
    (match powerOn (given [entry 0x79#16 .bits 0#3, entry 0x88#16 .volts 0#3] 0x1A#8) with
      | .next s => s.params.catalog.entries.map (·.code)
      | .fault _ => []
      | .refused _ => []) = [0x0079#16, 0x0088#16] := by decide +kernel

/-- A legal state in the middle of a session with PEC on, and a step from it. -/
theorem witness_StepKeepsLegalStates :
    ∃ s t, LegalState s ∧ s.sessionState = .scanned ∧ s.pecEn = true ∧ step s = .next t :=
  ⟨{ scannedPec [] with pecReq := true, capValid := true, capByte := 0xB0#8, req := some 0x04#64 }, _,
    { data_canonical := rfl
      pec_agreed := fun _ => by decide
      pec_after_scan := fun _ => by decide
      cause_of_error := by decide
      extended_slots := by decide +kernel
      resolved_byte := fun c => by
        simp [slotAt, qbyteAt, scannedPec, session, State.boot, emptySlots, emptyQbytes, qSupported]
      unresolved_byte := fun c _ => by simp [qbyteAt, scannedPec, session, State.boot, emptyQbytes]
      vout_captured := by decide
      open_address := by decide
      unread_bytes := by decide
      rlen_bound := by decide
      value_form := ⟨fun ⟨_, h⟩ => (by cases h), fun h => (by cases h.1)⟩ },
    rfl, rfl, rfl⟩

theorem witness_OperationsRunOnlyInTheirStates :
    (scanned []).sessionState ∉ runsIn (.openSession 0x40#7 true) ∧ (scanned []).sessionState ∈ runsIn .report ∧
      ∃ t, exec .report (scanned []) = .next t := ⟨by decide, by decide, _, rfl⟩

theorem witness_BadOperandsEndBeforeAnyEffect :
    (scanned []).sessionState ∈ runsIn (.readBlock 0x00FE#16 0#12) ∧
    BadArgument (.readBlock 0x00FE#16 0#12) ∧ BadArgument (.writeBlock 0x00FD#16 256#12) ∧
    BadArgument (.getCoef 0x00FE#16 2#16) ∧ BadArgument (.openSession 0x78#7 true) ∧
    (¬BadArgument (.readBlock 0x00FE#16 255#12) ∧ (Instr.readBlock 0x00FE#16 255#12).wellFormed = false) ∧
    (Instr.readByte 0x00FD#16).wellFormed = true ∧
    ∃ t, exec (.readByte 0x00FD#16) (scanned [.complete [0x22#8]]) = .next t := by
  refine ⟨by decide, .inl rfl, .inr (by decide), ?_, .inr (.inr (.inr (.inr (.inr ?_)))), ⟨?_, rfl⟩, rfl, _, rfl⟩
  · show 1 < (2#16).toNat; decide
  · decide
  · rintro (h | h) <;> revert h <;> decide

/-- An operation that goes on, with a transport error: it meets the hypothesis of every statement about the next state of an
operation. -/
theorem witness_StatusAndCauseOfEachOperation :
    ∃ t, exec (.readByte 0x0098#16) (scanned [.fail .nakAddr]) = .next t ∧ t.status = .transportError :=
  ⟨_, rfl, rfl⟩

theorem witness_SessionStateFollowsItsTable :
    ∃ t, exec (.pageSelect 0x01#8) (scanned [.fail .nakData]) = .next t ∧ t.sessionState = .closed := ⟨_, rfl, rfl⟩

/-- An Attached session for a SCAN that enables PEC: the probe, a failed negotiation and two bytes. -/
def scannable : State :=
  { session 0xFF#8 .attached false
      [.complete [], .fail .nakData, .complete [0xB0#8], .complete [0x22#8, 0x84#8]] with pecReq := true }

/-- Five flags and registers change in a SCAN; three fall or change in an OPEN. -/
theorem witness_FlagsHaveTheirWriters :
    (∃ t, exec .scan scannable = .next t ∧ (t.pecEn && t.noQuery && t.capValid && t.revValid && t.capByte = 0xB0#8) = true) ∧
    (scannable.pecEn || scannable.noQuery || scannable.capValid || scannable.revValid || scannable.capByte = 0xB0#8) =
      false ∧
    ∃ s t, exec (.openSession 0x41#7 true) s = .next t ∧ s.pecEn = true ∧ t.pecEn = false ∧ t.addr ≠ s.addr ∧
      t.pecReq ≠ s.pecReq :=
  ⟨goesOn_next (by decide +kernel), by decide, session 0xFF#8 .closed true [], _, rfl, rfl, rfl, by decide, by decide⟩

/-- One step within a session, with a bound slot and `NO_QUERY` set. -/
theorem witness_SlotsBindOnce :
    ∃ s t, WithinSession s t ∧ s ≠ t ∧ slotAt s 0x88#8 ≠ .notProbed ∧ s.noQuery = true := by
  refine ⟨{ discovered .exact with noQuery := true, req := some 0x04#64 }, _,
    .step (.refl _) rfl (fun h => absurd h.2 (by decide)), ?_, by decide +kernel, rfl⟩
  intro h
  exact absurd (congrArg (·.req) h) (by decide)

theorem witness_ValidityNeedsAFiveByteExchange :
    (∃ t, exec (.fetchCoefficients 0x008B#16 1#16) (scanned [.complete [5#8, 1#8, 0#8, 0#8, 0#8, 2#8]]) = .next t ∧
      (coefAt t 0x8B#8 .read).v = true) ∧ (coefAt (scanned []) 0x8B#8 .read).v = false ∧
    ∃ s t, WithinSession s t ∧ (coefAt s 0x8D#8 .read).v = true :=
  ⟨goesOn_next (p := fun t => (coefAt t 0x8B#8 .read).v) (by decide +kernel), by decide +kernel,
    discovered .exact, _, .refl _, by decide +kernel⟩

theorem witness_EveryTransactionIsPermitted :
    (∃ t, exec (.readByte 0x0098#16) (scanned [.complete [0x22#8]]) = .next t ∧ newTransactions (scanned []) t ≠ []) ∧
      isWriteBlock (.readByte 0x0098#16) = false := ⟨⟨_, rfl, by decide +kernel⟩, rfl⟩

theorem witness_PecOfEveryTransaction :
    (∃ t, exec (.readByte 0x0098#16) (scannedPec [.complete [0x22#8, 0x84#8]]) = .next t ∧
      decide ((newTransactions (scannedPec []) t).length = 1) = true) ∧
    (∃ t, exec (.readBlock 0x0099#16 8#12) (scannedPec
        [.complete [3#8], .complete [3#8, 0x41#8, 0x42#8, 0x43#8, 0x03#8]]) = .next t ∧
      decide ((newTransactions (scannedPec []) t).length = 2) = true) ∧
    (∃ t, exec .scan scannable = .next t ∧ t.pecEn = true) ∧ scannable.pecEn = false ∧
    ∃ t, exec .scan { scannable with pecReq := false } = .next t ∧ (!t.pecEn) = true :=
  ⟨goesOn_next (p := fun t => decide ((newTransactions (scannedPec []) t).length = 1)) (by decide +kernel),
    goesOn_next (p := fun t => decide ((newTransactions (scannedPec []) t).length = 2)) (by decide +kernel),
    goesOn_next (p := fun t => t.pecEn) (by decide +kernel), rfl, goesOn_next (p := fun t => !t.pecEn) (by decide +kernel)⟩

/-- A READ_BLOCK that writes three bytes, and an operation that fails. -/
theorem witness_DataAndResultsHaveTheirWriters :
    (∃ t, exec (.readBlock 0x0099#16 255#12) (scanned [.complete [3#8], .complete [3#8, 0x41#8, 0x42#8, 0x43#8]]) =
      .next t ∧ decide (min (255#12).toNat t.rlen.toNat ≤ 3 ∧ t.data.length = 3) = true) ∧
    (∃ t, exec (.readByte 0x0098#16) (scanned [.fail .timeout]) = .next t ∧
      decide (t.status ≠ .ok ∧ t.status ≠ .sizeExceeded) = true) ∧
    isReadBlock (.readByte 0x0098#16) = false :=
  ⟨goesOn_next (p := fun t => decide (min (255#12).toNat t.rlen.toNat ≤ 3 ∧ t.data.length = 3)) (by decide +kernel),
    goesOn_next (p := fun t => decide (t.status ≠ .ok ∧ t.status ≠ .sizeExceeded)) (by decide +kernel), rfl⟩

theorem witness_CodecAndReadBackWriteOnlyResults :
    isCodec (.decodeValue 0x0088#16 0xE8C8#16) = true ∧ isReadBack .getSession = true := ⟨rfl, rfl⟩

theorem witness_OnlyASilentAdapterStopsAnOperation :
    exec (.readByte 0x0098#16) (scanned [.never]) = .fault .busNeverAnswers ∧
    SessionOpen (scanned [.never]) ∧ (0x00FD#16).toNat ≤ 0xFD ∧ capByteBit (scanned [.never]).params = true ∧
    nextAnswer (scanned [.never]) = .never := ⟨rfl, .inr (.inl rfl), by decide, by decide, rfl⟩

theorem witness_EveryOperationCompletes :
    Answered (answersNeeded (.readBlock 0x0099#16 8#12) (scanned [.complete [], .complete []]))
      (scanned [.complete [], .complete []]) := ⟨by decide, by decide⟩

/-- Addresses at both ends of the reserved ranges, and next to them. -/
theorem witness_OpenStartsAnEmptySession :
    SessionOpen (scanned []) ∧ ¬SessionOpen (session 0xFF#8 .closed false []) ∧ ReservedAddress 0x08#7 ∧
    ReservedAddress 0x78#7 ∧ ReservedAddress 0x61#7 ∧ ¬ReservedAddress 0x09#7 ∧ ¬ReservedAddress 0x77#7 := by
  simp [SessionOpen, scanned, session, ReservedAddress]

/-- Steps (b) to (e) of SCAN from `u` all run. -/
def stepsRun (u : State) : Bool :=
  match checkSupportCore 0x001A#16 u with
  | .error _ => false
  | .ok (_, s₁) =>
    match readCapability s₁ with
    | .error _ => false
    | .ok (_, s₂) =>
      match readRevision s₂ with
      | .error _ => false
      | .ok (_, s₃) =>
        match sweep catalog.entries s₃ with
        | .error _ => false
        | .ok _ => true

/-- An Attached session whose probe is answered and whose later steps all run. -/
theorem witness_ScanRunsItsStepsInOrder :
    ∃ u v₁ s₁ s₂ s₃ s₄, scannable.sessionState = .attached ∧ capQuick scannable.params = true ∧
      BusOk .quick scannable [] u ∧ checkSupportCore (cmdOf scannable.params.codes.query) u = .ok (v₁, s₁) ∧
      readCapability s₁ = .ok ((), s₂) ∧ readRevision s₂ = .ok ((), s₃) ∧
      sweep scannable.params.catalog.entries s₃ = .ok ((), s₄) := by
  have h : stepsRun (afterTransaction .quick (.completed [] none) scannable) = true := by decide +kernel
  unfold stepsRun at h
  split at h
  · cases h
  · next h₁ =>
    split at h
    · cases h
    · next h₂ =>
      split at h
      · cases h
      · next h₃ =>
        split at h
        · cases h
        · next h₄ => exact ⟨_, _, _, _, _, _, rfl, by decide, ⟨by decide, rfl, rfl, rfl⟩, h₁, h₂, h₃, h₄⟩

/-- A check in a sweep that is answered, and one that is not. -/
theorem witness_SweepChecks :
    checkSupportCore (entry 0x01FE#16 .none 0#3).code (scanned []) = .ok (.unknown, scanned []) ∧
    checkSupportCore (entry 0x0088#16 .volts 1#3).code (scanned [.never]) = .error .busNeverAnswers := ⟨rfl, rfl⟩

theorem witness_ScanFails :
    (∃ k u, BusFails .quick (session 0xFF#8 .attached false [.fail .nakAddr]) k u) ∧
    capQuick (session 0xFF#8 .attached false [.fail .nakAddr]).params = true ∧
    capQuick (session 0xFE#8 .attached false []).params = false :=
  ⟨⟨_, _, .oracle .nakAddr (by decide) rfl⟩, by decide, by decide⟩

theorem witness_ScanReadsTwoBytes :
    (∃ t, BusOk (.readByte 0x19#8 false) (session 0xFF#8 .attached false [.complete [0xB0#8]]) [0xB0#8] t) ∧
    (∃ k t, BusFails (.readByte 0x19#8 false) (session 0xFF#8 .attached false [.fail .nakData]) k t) ∧
    (∃ t, BusOk (.readByte 0x98#8 true) (session 0xFF#8 .attached true [.complete [0x22#8, 0x84#8]]) [0x22#8] t) ∧
    ∃ k t, BusFails (.readByte 0x98#8 false) (session 0xFD#8 .attached false []) k t :=
  ⟨busOk_of (by decide) rfl (by decide), ⟨_, _, .oracle .nakData (by decide) rfl⟩,
    busOk_of (by decide) rfl (by decide +kernel), _, _, .noCapability (by decide)⟩

/-- Thirty-three answers, as many as the probe, the two reads and six for QUERY and for each of four entries. -/
theorem witness_ScanReachesScanned :
    ∃ (s : State) (bytes : List Byte) (rest : List BusAnswer), s.sessionState = .attached ∧ capQuick s.params = true ∧
      s.answers = .complete bytes :: rest ∧ Answered (answersNeeded .scan s) s :=
  ⟨session 0xFF#8 .attached false (.complete [] :: List.replicate 32 (.fail .nakData)), [], _, rfl, by decide, rfl,
    by decide, by decide⟩

/-- A SCAN that ends OK, with core codes in the catalog. -/
theorem witness_ScanAgreesOnPecAndSweeps :
    (∃ t, exec .scan scannable = .next t ∧ decide (t.status = .ok) = true) ∧ scannable.pecEn = false ∧
      scannable.capValid = false ∧ ∃ e ∈ scannable.params.catalog.entries, e.code.toNat ≤ 0xFD :=
  ⟨goesOn_next (p := fun t => decide (t.status = .ok)) (by decide +kernel), rfl, rfl, entry 0x0079#16 .bits 3#3, by decide,
    by decide⟩

theorem witness_PageSelectWritesPage :
    (session 0xFF#8 .reporting false []).sessionState ≠ .scanned ∧
    (∃ u, BusOk (.writeByte (scanned []).params.codes.page 0x01#8 true) (scannedPec [.complete []]) [] u) ∧
    ∃ k u, BusFails (.writeByte (scanned []).params.codes.page 0x01#8 false) (scanned [.fail .nakData]) k u :=
  ⟨by decide, busOk_of (by decide) rfl (by decide), _, _, .oracle .nakData (by decide) rfl⟩

theorem witness_ReportAndCloseMoveTheSession :
    (session 0xFF#8 .attached false []).sessionState ≠ .scanned ∧ (scanned []).sessionState = .scanned :=
  ⟨by decide, rfl⟩

/-- Completed with and without PEC, failed in each of the three ways, a count above the limit of 32, and no answer. -/
theorem witness_TransactionUnitFollowsTheBus :
    (∃ u, BusOk (.blockRead 0x99#8 true) (scannedPec [.complete [3#8, 0x41#8, 0x42#8, 0x43#8, 0x03#8]])
      [3#8, 0x41#8, 0x42#8, 0x43#8] u) ∧
    (∃ u, BusFails (.readByte 0x98#8 true) (scannedPec [.complete [0x22#8, 0x85#8]]) .pecMismatch u) ∧
    (∃ u, BusFails (.readByte 0x98#8 false) (scanned [.fail .busError]) (.oracle .busError) u) ∧
    (∃ u, BusFails (.raw [0x98#8] 2) (session 0xBF#8 .scanned false []) .noCapability u) ∧
    (∃ u, BusBadCount (.blockRead 0x99#8 false) (scanned [.complete [33#8]]) u) ∧
    permitted (scanned [.never]).params (.readByte 0x98#8 false) = true ∧ nextAnswer (scanned [.never]) = .never :=
  ⟨busOk_of (by decide) ⟨_, _, rfl, rfl, by decide⟩ (by decide +kernel),
    ⟨_, .pecMismatch [0x22#8] 0x85#8 (by decide) rfl rfl rfl rfl (by decide +kernel)⟩, ⟨_, .oracle .busError (by decide) rfl⟩,
    ⟨_, .noCapability (by decide)⟩, ⟨_, by decide, rfl, 33#8, by decide, rfl, rfl⟩, by decide, rfl⟩

/-- An answer one byte short and one with a byte too many. -/
theorem witness_EveryAnswerIsReadByTheFrame :
    permitted (scanned []).params (.readWord 0x8D#8 false) = true ∧
    nextAnswer (scanned [.complete [0xC8#8]]) = .complete [0xC8#8] ∧
    nextAnswer (scanned [.complete [0xC8#8, 0xE8#8, 0xEB#8]]) = .complete [0xC8#8, 0xE8#8, 0xEB#8] := ⟨by decide, rfl, rfl⟩

theorem witness_PecCoversAndDetects :
    (∃ f, frameOf ⟨0x40#7, .readByte 0x98#8 true, .completed [0x22#8] (some 0x84#8)⟩ = some f) ∧ (0x00#8 : Byte) ≠ 0x80#8 :=
  ⟨⟨_, rfl⟩, by decide⟩

theorem witness_QuickPresenceReportsTheDevice :
    SessionOpen (scanned []) ∧ capQuick (session 0xFE#8 .scanned false []).params = false ∧
    (∃ u, BusOk .quick (scanned [.complete []]) [] u) ∧
    (∃ u, BusFails .quick (scanned [.fail .nakAddr]) (.oracle .nakAddr) u) ∧
    capQuick (scanned [.fail .timeout]).params = true ∧
    ∃ u, BusFails .quick (scanned [.fail .timeout]) (.oracle .timeout) u :=
  ⟨.inr (.inl rfl), by decide, busOk_of (by decide) rfl (by decide), ⟨_, .oracle .nakAddr (by decide) rfl⟩, by decide,
    _, .oracle .timeout (by decide) rfl⟩

/-- Commands on both sides of the core range's end, and answers of both reads. -/
theorem witness_ReadByteAndWordResults :
    SessionOpen (scanned []) ∧ 0x00FD < (0x00FE#16).toNat ∧ (0x00FD#16).toNat ≤ 0x00FD ∧
    (∃ u, BusOk (.readByte ((0x00FD#16).extractLsb' 0 8) false) (scanned [.complete [0x22#8]]) [0x22#8] u) ∧
    (∃ k u, BusFails (.readByte ((0x00FD#16).extractLsb' 0 8) false) (scanned [.fail .nakData]) k u) ∧
    (∃ u, BusOk (.readWord ((0x008D#16).extractLsb' 0 8) true) (scannedPec [.complete [0xC8#8, 0xE8#8, 0xEB#8]])
      [0xC8#8, 0xE8#8] u) ∧
    ∃ k u, BusFails (.readWord ((0x008D#16).extractLsb' 0 8) false) (session 0xFB#8 .scanned false []) k u :=
  ⟨.inr (.inl rfl), by decide, by decide, busOk_of (by decide) rfl (by decide), ⟨_, _, .oracle .nakData (by decide) rfl⟩,
    busOk_of (by decide) rfl (by decide +kernel), _, _, .noCapability (by decide)⟩

/-- A length at the limit of 32, then the block read: answered, failed and with a count above the limit. -/
theorem witness_ReadBlockByTheNativePath :
    let s (a : BusAnswer) := scanned [.complete [32#8], a]
    let next (a : BusAnswer) := afterTransaction (.readByte 0x99#8 false) (.completed [32#8] none) (s a)
    SessionOpen (s .never) ∧ (0x0099#16).toNat ≤ 0x00FD ∧ 1 ≤ (255#12).toNat ∧ (255#12).toNat ≤ 255 ∧
    (∀ a, BusOk (.readByte 0x99#8 false) (s a) [32#8] (next a)) ∧ (32#8).toNat ≤ 32 ∧
    (∃ u, BusOk (.blockRead 0x99#8 false) (next (.complete [1#8, 0x41#8])) [1#8, 0x41#8] u) ∧
    (∃ k u, BusFails (.blockRead 0x99#8 false) (next (.fail .timeout)) k u) ∧
    ∃ u, BusBadCount (.blockRead 0x99#8 false) (next (.complete [33#8])) u := by
  refine ⟨.inr (.inl rfl), by decide, by decide, by decide, fun _ => ⟨(by decide : capByteBit (params 0xFF#8 .binary64) = true), rfl, rfl, rfl⟩, by decide,
    busOk_of (by decide) ⟨_, _, rfl, rfl, by decide⟩ rfl, ⟨_, _, .oracle .timeout (by decide) rfl⟩,
    _, by decide, rfl, 33#8, by decide, rfl, rfl⟩

/-- A length above the limit of 32, then the raw exchange: repeating it, not repeating it, and failed. -/
theorem witness_ReadBlockByTheRawPath :
    let s (a : BusAnswer) := scanned [.complete [33#8], a]
    let next (a : BusAnswer) := afterTransaction (.readByte 0x99#8 false) (.completed [33#8] none) (s a)
    (∃ k u, BusFails (.readByte 0x99#8 false) (scanned [.fail .nakAddr]) k u) ∧
    (∀ a, BusOk (.readByte 0x99#8 false) (s a) [33#8] (next a)) ∧ 32 < (33#8).toNat ∧
    capRaw (session 0xBF#8 .scanned false []).params = false ∧ capRaw (scanned []).params = true ∧
    (∃ bs u, BusOk (.raw [0x99#8] 34) (next (.complete (33#8 :: List.replicate 33 0x41#8))) (33#8 :: bs) u) ∧
    (∃ bs u, BusOk (.raw [0x99#8] 34) (next (.complete (32#8 :: List.replicate 33 0x41#8))) (32#8 :: bs) u) ∧
    ∃ k u, BusFails (.raw [0x99#8] 34) (next (.fail .nakData)) k u := by
  refine ⟨⟨_, _, .oracle .nakAddr (by decide) rfl⟩, fun _ => ⟨(by decide : capByteBit (params 0xFF#8 .binary64) = true), rfl, rfl, rfl⟩, by decide, by decide, by decide,
    ⟨List.replicate 33 0x41#8, busOk_of (by decide) (by simp [FrameAdmits]) (by decide +kernel)⟩,
    ⟨List.replicate 33 0x41#8, busOk_of (by decide) (by simp [FrameAdmits]) (by decide +kernel)⟩, _, _, .oracle .nakData (by decide) rfl⟩

theorem witness_CopyDeliversWhatFits : ([0x41#8, 0x42#8] : List Byte).length ≤ 255 ∧
    (List.replicate 255 0x41#8 : List Byte).length ≤ 255 := by decide +kernel

theorem witness_WriteByteAndWordFrames :
    SessionOpen (scannedPec []) ∧ 0x00FD < (0x00FE#16).toNat ∧ (0x0021#16).toNat ≤ 0x00FD ∧
    (∃ u, BusOk (.writeByte 0x00#8 0x01#8 true) (scannedPec [.complete []]) [] u) ∧
    (∃ k u, BusFails (.writeByte 0x00#8 0x01#8 true) (scannedPec [.fail .nakData]) k u) ∧
    (∃ u, BusOk (.writeWord 0x21#8 0x0C00#16 true) (scannedPec [.complete []]) [] u) ∧
    (∃ k u, BusFails (.writeWord 0x21#8 0x0C00#16 true) (scannedPec [.fail .nakData]) k u) :=
  ⟨.inr (.inl rfl), by decide, by decide, busOk_of (by decide) rfl (by decide +kernel), ⟨_, _, .oracle .nakData (by decide) rfl⟩,
    busOk_of (by decide) rfl (by decide +kernel), ⟨_, _, .oracle .nakData (by decide) rfl⟩⟩

/-- Lengths at both ends and on both sides of the limit of 32; a written byte and one that is not. -/
theorem witness_WriteBlockSendsData :
    let s := { scanned [] with data := [(0, 0x01#8)], draws := 1 }
    SessionOpen s ∧ (0x00B0#16).toNat ≤ 0x00FD ∧ 1 ≤ (1#12).toNat ∧ (255#12).toNat ≤ 255 ∧
    Memory.read? s.data 0 = some 0x01#8 ∧ Memory.read? s.data 1 = none ∧
    ((32#12).toNat ≤ s.params.blockLimit ∧ capBlockWrite s.params = true) ∧
    ¬((33#12).toNat ≤ s.params.blockLimit ∧ capBlockWrite s.params = true) ∧ capRaw s.params = true ∧
    capRaw (session 0xBF#8 .scanned false []).params = false ∧
    (∃ u, BusOk (.blockWrite 0xB0#8 [0x01#8] false) { s with answers := [.complete []] } [] u) ∧
    (∃ k u, BusFails (.blockWrite 0xB0#8 [0x01#8] false) { s with answers := [.fail .nakData] } k u) ∧
    (∃ u, BusOk (.raw [0xB0#8, 1#8, 0x01#8] 0) { s with answers := [.complete []] } [] u) ∧
    ∃ k u, BusFails (.raw [0xB0#8, 1#8, 0x01#8] 0) { s with answers := [.fail .nakData] } k u :=
  ⟨.inr (.inl rfl), by decide, by decide, by decide, rfl, rfl, by decide, by decide, by decide, by decide,
    busOk_of (by decide) rfl (by decide +kernel), ⟨_, _, .oracle .nakData (by decide) rfl⟩, busOk_of (by decide) rfl (by decide +kernel),
    _, _, .oracle .nakData (by decide) rfl⟩

theorem witness_KnownVerdictsNeedNoBus :
    SessionOpen (scanned []) ∧ 0x00FD < (0x00FE#16).toNat ∧ (0x00FD#16).toNat ≤ 0x00FD ∧
    slotAt (setSlot 0x8B#8 .unsupported (scanned [])) 0x8B#8 = .unsupported ∧
    slotAt (discovered .exact) 0x88#8 = .resolved ∧
    (slotAt (setSlot 0x1A#8 .unsupported (scanned [])) 0x8B#8 = .notProbed ∧
      slotAt (setSlot 0x1A#8 .unsupported (scanned [])) 0x1A#8 = .unsupported) ∧
    slotAt { scanned [] with noQuery := true } 0x8B#8 = .notProbed := by
  refine ⟨.inr (.inl rfl), ?_⟩
  decide +kernel

/-- A session where 0x8B can be negotiated: failed, with a wrong echo, and answered. -/
theorem witness_FailedNegotiationIsSticky :
    let ask := BusReq.processCall 0x1A#8 (0x8B#8 ++ 0x01#8) false
    SessionOpen (scanned []) ∧ slotAt (scanned []) 0x8B#8 = .notProbed ∧ slotAt (scanned []) 0x1A#8 ≠ .unsupported ∧
    (scanned []).noQuery = false ∧ (∃ k u, BusFails ask (scanned [.fail .nakData]) k u) ∧ (0x00#8 : Byte) ≠ 0x01#8 ∧
    ∃ u, BusOk ask (scanned [.complete [0x00#8, 0xA0#8]]) [0x00#8, 0xA0#8] u :=
  ⟨.inr (.inl rfl), by decide +kernel, by decide +kernel, rfl, ⟨_, _, .oracle .nakData (by decide) rfl⟩, by decide,
    busOk_of (by decide) rfl (by decide +kernel)⟩

/-- The four answers: not supported, a plain code, and VOUT_MODE with its byte read and not read. -/
theorem witness_NegotiationBindsTheSlot :
    let ask (c : Byte) := BusReq.processCall 0x1A#8 (c ++ 0x01#8) false
    let asked (c q : Byte) (a : BusAnswer) := afterTransaction (ask c) (.completed [0x01#8, q] none)
      (scanned [.complete [0x01#8, q], a])
    let bound (a : BusAnswer) := setSlot 0x20#8 .resolved (setQbyte 0x20#8 0xA0#8 (asked 0x20#8 0xA0#8 a))
    (∀ c q a, BusOk (ask c) (scanned [.complete [0x01#8, q], a]) [0x01#8, q] (asked c q a)) ∧
    (0x2C#8 : Byte).getLsbD 7 = false ∧ (0xA0#8 : Byte).getLsbD 7 = true ∧ (0xA0#8 : Byte).extractLsb' 2 3 ≠ 3#3 ∧
    slotAt (scanned []) 0x20#8 = .notProbed ∧
    (∃ t, BusOk (.readByte 0x20#8 false) (bound (.complete [0x17#8])) [0x17#8] t) ∧
    ∃ k t, BusFails (.readByte 0x20#8 false) (bound (.fail .nakData)) k t :=
  ⟨fun _ _ _ => ⟨(by decide : capWord (params 0xFF#8 .binary64) = true), rfl, rfl, rfl⟩, by decide, by decide, by decide, by decide +kernel,
    busOk_of (by decide) rfl (by decide +kernel), _, _, .oracle .nakData (by decide) rfl⟩

/-- A session for a negotiation of a DIRECT code with both bits set, and what COEFFICIENTS is there: the first answer is the
query byte, the next ones those of the nested check or of the fetches. -/
def directSession (x : Slot) (rest : List BusAnswer) : State :=
  setSlot 0x30#8 x (setQbyte 0x30#8 (if x = .resolved then 0x80#8 else 0x00#8)
    { discovered .exact with answers := .complete [0x01#8, 0xEC#8] :: rest })

/-- The state the nested check and the fetches of code `c` run on. -/
def directBound (c : Byte) (x : Slot) (rest : List BusAnswer) : State :=
  setSlot c .resolved (setQbyte c 0xEC#8
    (afterTransaction (.processCall 0x1A#8 (c ++ 0x01#8) false) (.completed [0x01#8, 0xEC#8] none) (directSession x rest)))

theorem witness_DirectCodesFetchTheirCoefficients :
    (∀ x rest, BusOk (.processCall 0x1A#8 (0x8C#8 ++ 0x01#8) false) (directSession x rest) [0x01#8, 0xEC#8]
      (afterTransaction (.processCall 0x1A#8 (0x8C#8 ++ 0x01#8) false) (.completed [0x01#8, 0xEC#8] none)
        (directSession x rest))) ∧
    SessionOpen (directSession .resolved []) ∧ (0xEC#8 : Byte).getLsbD 7 = true ∧ (0xEC#8 : Byte).extractLsb' 2 3 = 3#3 ∧
    (∀ x ∈ [Slot.resolved, .unsupported, .notProbed], slotAt (directSession x []) 0x8C#8 = .notProbed ∧
      slotAt (directSession x []) 0x1A#8 ≠ .unsupported ∧ (directSession x []).noQuery = false ∧
      slotAt (directSession x []) 0x30#8 = x) ∧
    (0x8C#8 : Byte) ≠ 0x20#8 ∧ slotAt (directSession .notProbed []) (directSession .notProbed []).params.codes.coefficients =
      .notProbed ∧
    (∃ s₀, checkSupportCore 0x0030#16 (directBound 0x8C#8 .notProbed [.fail .nakData]) = .ok (.unknown, s₀)) ∧
    checkSupportCore 0x0030#16 (directBound 0x8C#8 .resolved []) = .ok (.supported, directBound 0x8C#8 .resolved []) ∧
    ∃ e₁ s₁ e₂ s₂, fetchCoefficientsCore 0x8C#8 .read
        (directBound 0x8C#8 .resolved (List.replicate 2 (.complete [5#8, 1#8, 0#8, 0#8, 0#8, 2#8]))) = .ok (e₁, s₁) ∧
      fetchCoefficientsCore 0x8C#8 .write s₁ = .ok (e₂, s₂) := by
  refine ⟨fun _ _ => ⟨(by decide : capWord (params 0xFF#8 .exact) = true), rfl, rfl, rfl⟩, .inr (.inl rfl), by decide, by decide,
    by decide +kernel, by decide, by decide +kernel, ⟨_, rfl⟩, rfl, ?_⟩
  have h : Answered 2 (directBound 0x8C#8 .resolved (List.replicate 2 (.complete [5#8, 1#8, 0#8, 0#8, 0#8, 2#8]))) :=
    ⟨by decide, by decide⟩
  obtain ⟨e₁, s₁, h₁⟩ := fetchCoefficientsCore_answers (c := 0x8C#8) (d := .read) (h.mono (m := 1) (by decide))
  obtain ⟨new, hd, hl, -⟩ := fetchCoefficientsCore_cases h₁
  obtain ⟨e₂, s₂, h₂⟩ := fetchCoefficientsCore_answers (c := 0x8C#8) (d := .write)
    (h.after (k := 1) hd.traffic (by omega))
  exact ⟨e₁, s₁, e₂, s₂, h₁, h₂⟩

theorem witness_CheckSupportIsBounded :
    (∃ t, exec (.checkSupport 0x008B#16) (scanned [.complete [0x01#8, 0xA0#8]]) = .next t ∧
      decide ((newTransactions (scanned []) t).length = 1) = true) ∧
    (0x008B#16 : Word16) ≠ (0x20#8 : Byte).setWidth 16 ∧
    ∃ t, exec (.checkSupport 0x0020#16) (scanned [.complete [0x01#8, 0xA0#8], .complete [0x17#8]]) = .next t ∧
      decide ((newTransactions (scanned []) t).length = 2) = true :=
  ⟨goesOn_next (p := fun t => decide ((newTransactions (scanned []) t).length = 1)) (by decide +kernel), by decide,
    goesOn_next (p := fun t => decide ((newTransactions (scanned []) t).length = 2)) (by decide +kernel)⟩

theorem witness_CheckSupportAnswersTheSlot :
    SessionOpen (scanned (List.replicate 6 (.fail .nakData))) ∧ Answered 6 (scanned (List.replicate 6 (.fail .nakData))) ∧
      0x00FD < (0x00FE#16).toNat ∧ (0x00FD#16).toNat ≤ 0x00FD :=
  ⟨.inr (.inl rfl), ⟨by decide, by decide⟩, by decide, by decide⟩

theorem witness_FetchStoresFiveBytes :
    SessionOpen (scanned []) ∧ (0x00FD#16).toNat ≤ 0x00FD ∧
    (∃ u, BusOk (.blockProcessCall 0x30#8 [0xFD#8, 0x01#8] false)
      (scanned [.complete [5#8, 1#8, 0#8, 0#8, 0#8, 2#8]]) [5#8, 1#8, 0#8, 0#8, 0#8, 2#8] u) ∧
    capBlockProcCall (session 0xDF#8 .scanned false []).params = false ∧
    ∃ u, BusOk (.raw [0x30#8, 0x02#8, 0xFD#8, 0x00#8] 6) (session 0xDF#8 .scanned false
      [.complete [5#8, 1#8, 0#8, 0#8, 0#8, 2#8]]) [5#8, 1#8, 0#8, 0#8, 0#8, 2#8] u :=
  ⟨.inr (.inl rfl), by decide, busOk_of (by decide) ⟨_, _, rfl, rfl, by decide⟩ rfl, by decide,
    busOk_of (by decide) rfl (by decide +kernel)⟩

/-- A fetch that ends OK and one that does not; each failure of each path, and an adapter with neither. -/
theorem witness_FailedFetchKeepsTheSet :
    let call := BusReq.blockProcessCall 0x30#8 [0x8B#8, 0x01#8] false
    let message := BusReq.raw [0x30#8, 0x02#8, 0x8B#8, 0x01#8] 6
    let raw (a : BusAnswer) := session 0x5F#8 .scanned false [a]
    (∃ t, exec (.fetchCoefficients 0x008B#16 1#16) (scanned [.fail .timeout]) = .next t ∧
      decide (t.status ≠ .ok) = true) ∧
    (∃ t, exec (.fetchCoefficients 0x008B#16 1#16) (scanned [.complete [5#8, 1#8, 0#8, 0#8, 0#8, 2#8]]) = .next t ∧
      decide (t.status = .ok) = true) ∧
    capBlockProcCall (scanned []).params = true ∧ (4#8 : Byte) ≠ 0x05#8 ∧
    (∃ bs u, BusOk call (scanned [.complete [4#8, 1#8, 0#8, 0#8, 2#8]]) (4#8 :: bs) u) ∧
    (∃ u, BusBadCount call (scanned [.complete [33#8]]) u) ∧ (∃ k u, BusFails call (scanned [.fail .nakData]) k u) ∧
    (capBlockProcCall (raw .never).params = false ∧ capRaw (raw .never).params = true) ∧
    (∃ bs u, BusOk message (raw (.complete [4#8, 1#8, 0#8, 0#8, 0#8, 2#8])) (4#8 :: bs) u) ∧
    (∃ k u, BusFails message (raw (.fail .nakData)) k u) ∧
    capBlockProcCall (session 0x9F#8 .scanned false []).params = false ∧
    capRaw (session 0x9F#8 .scanned false []).params = false :=
  ⟨goesOn_next (p := fun t => decide (t.status ≠ .ok)) (by decide +kernel),
    goesOn_next (p := fun t => decide (t.status = .ok)) (by decide +kernel), by decide, by decide,
    ⟨_, busOk_of (by decide) ⟨4#8, [1#8, 0#8, 0#8, 2#8], rfl, rfl, by decide⟩ rfl⟩,
    ⟨_, by decide, rfl, 33#8, by decide, rfl, rfl⟩, ⟨_, _, .oracle .nakData (by decide) rfl⟩, by decide,
    ⟨[1#8, 0#8, 0#8, 0#8, 2#8], busOk_of (by decide) rfl (by decide +kernel)⟩, ⟨_, _, .oracle .nakData (by decide) rfl⟩, by decide,
    by decide⟩

theorem witness_SlotAndCoefficientsReadBack :
    0x00FD < (0x00FE#16).toNat ∧ (0x00FD#16).toNat ≤ 0x00FD ∧ 1 < (2#16).toNat ∧ (1#16).toNat ≤ 1 := by decide

/-- A code of the catalog, one that is not in it, and a state for every row of the table. -/
theorem witness_ClassifyAndDecode :
    let s := discovered .exact
    SessionOpen s ∧ 0x00FD < (0x00FE#16).toNat ∧ (0x00FD#16).toNat ≤ 0x00FD ∧
    (∃ e ∈ s.params.catalog.entries, e.code = 0x0079#16 ∧ Units.bits = e.unit ∧ 3#3 = e.flags) ∧
    (∀ e ∈ s.params.catalog.entries, e.code ≠ 0x00FD#16) ∧
    ((5#3).getLsbD 2 = true ∧ slotAt s 0x20#8 = .resolved ∧ s.voutModeValid = true ∧
      (coefAt s 0x20#8 .read).r.extractLsb' 5 3 = s.params.voutLinearMode) ∧
    (slotAt s 0xFD#8 ≠ .resolved ∧ (0#3).getLsbD 2 = false) ∧
    (slotAt s 0x8D#8 = .resolved ∧ (qbyteAt s 0x8D#8).extractLsb' 2 3 = 3#3) ∧
    (slotAt s 0x88#8 = .resolved ∧ (qbyteAt s 0x88#8).extractLsb' 2 3 = 0#3) ∧
    ([0x84#8, 0x88#8, 0x90#8, 0x94#8, 0x98#8, 0x9C#8].map fun q => (q : Byte).extractLsb' 2 3) =
      [1#3, 2#3, 4#3, 5#3, 6#3, 7#3] := by
  refine ⟨.inr (.inl rfl), ?_⟩
  decide +kernel

theorem witness_Linear11IsMantissaTimesPower :
    (discovered .exact).params.num = .exact ∧ (discovered .binary64).params.num = .binary64 := ⟨rfl, rfl⟩

theorem witness_Linear11FieldsAreABijection :
    (-1024 : Int) ≤ -1024 ∧ (1023 : Int) ≤ 1023 ∧ (-16 : Int) ≤ -16 ∧ (15 : Int) ≤ 15 ∧
      mantissa11 0x8400#16 = -1024 ∧ exponent5 0x8400#16 = -16 ∧ mantissa11 0x7BFF#16 = 1023 ∧ exponent5 0x7BFF#16 = 15 := by
  decide

/-- No usable coefficients, by validity and by slope; and usable ones, in both domains. -/
theorem witness_DirectIsTheLinearTransform :
    SessionOpen (discovered .exact) ∧ 0x00FD < (0x00FE#16).toNat ∧ (0x008D#16).toNat ≤ 0x00FD ∧
    (coefAt (discovered .exact) 0x88#8 .read).v = false ∧
    (coefAt (discovered .exact) 0x8D#8 .read).v = true ∧ (coefAt (discovered .exact) 0x8D#8 .read).m ≠ 0x0000#16 ∧
    (discovered .exact).params.num = .exact ∧ (discovered .binary64).params.num = .binary64 := by
  refine ⟨.inr (.inl rfl), ?_⟩
  decide +kernel

/-- Small numbers are in range. -/
theorem inRange_of_abs_le {q : ℚ} (h : |q| ≤ 10) : InRange q := by
  have hp : (2 : ℚ) ^ 1024 = 2 ^ 970 * 2 ^ 54 := by rw [← pow_add]
  have bound : ∀ p : ℚ, 1 ≤ p → |q| < p * 2 ^ 54 - p := fun p hp => by linarith
  unfold InRange
  rw [hp]
  exact bound _ (one_le_pow₀ (by norm_num))

/-- Operands in range, and a quotient that is not exact. -/
theorem witness_Binary64RoundsAndDirectNeverOverflows :
    (ratOf (intToB64 1) = some 1 ∧ ratOf (intToB64 10) = some 10) ∧ InRange (1 * 10) ∧ InRange (1 - 10) ∧ (10 : ℚ) ≠ 0 ∧
      InRange (1 / 10) ∧ (131071 : Int).natAbs < 2 ^ 17 ∧ (⟨0x80#8, 0xFFFF#16, 0x8000#16, true⟩ : CoefSet).m ≠ 0x0000#16 := by
  refine ⟨by decide +kernel, inRange_of_abs_le ?_, inRange_of_abs_le ?_, by norm_num, inRange_of_abs_le ?_, by decide,
    by decide⟩ <;> norm_num [abs_of_neg, abs_of_pos]

/-- Not linear before a capture, nor with another mode; linear after a capture of 0x17. -/
theorem witness_VoutIsScaledByTheModeByte :
    let linear (s : State) := slotAt s 0x20#8 = .resolved ∧ s.voutModeValid = true ∧
      (coefAt s 0x20#8 .read).r.extractLsb' 5 3 = s.params.voutLinearMode
    ¬linear (scanned []) ∧ ¬linear (setCoef 0x20#8 .read { CoefSet.cleared with r := 0x37#8 } (discovered .exact)) ∧
      linear (discovered .exact) ∧ linear (discovered .binary64) := by
  decide +kernel

end Sys2Proof.Tests
end

section
/-! O8. Power-on's three checks of a parameter set as propositions, and what `powerOn` answers at each. -/

namespace Sys2Proof.Machine

/-! ## The checks -/

/-- R12. -/
theorem codesDistinct_iff_nodup (es : List CatalogEntry) : codesDistinct es = true ↔ (es.map (·.code)).Nodup := by
  induction es with
  | nil => simp [codesDistinct]
  | cons e es ih =>
    have head_fresh : es.all (fun x => x.code != e.code) = true ↔ e.code ∉ es.map (·.code) := by simp
    rw [codesDistinct, Bool.and_eq_true, head_fresh, ih, List.map_cons, List.nodup_cons]

/-- The five command codes R10 constrains; `CMD_PAGE` is not among them. -/
def GivenParams.checkedCodes (g : GivenParams) : List Byte :=
  [g.capability, g.query, g.voutMode, g.coefficients, g.pmbusRevision]

/-- R10: what `commandCodesOk` checks of the five codes. -/
def GivenParams.CodesOk (g : GivenParams) : Prop := g.checkedCodes.Nodup ∧ ∀ c ∈ g.checkedCodes, c.toNat ≤ 0xFD

theorem commandCodesOk_iff_codesOk (g : GivenParams) :
    commandCodesOk g.capability g.query g.voutMode g.coefficients g.pmbusRevision = true ↔ g.CodesOk := by
  rw [commandCodesOk, Bool.and_eq_true, List.all_eq_true, decide_eq_true_eq, and_comm]
  simp only [decide_eq_true_eq, GivenParams.CodesOk, GivenParams.checkedCodes]

theorem dataSizeOk_iff (n : Nat) : dataSizeOk n = true ↔ 255 ≤ n := by simp [dataSizeOk]

/-! ## What `powerOn` answers -/

section PowerOn

variable {g : GivenParams}

theorem powerOn_of_duplicate_codes (hdup : ¬((beforeSentinel g.catalog).map (·.code)).Nodup) :
    powerOn g = .refused .duplicateCatalogCode := by
  rw [← codesDistinct_iff_nodup] at hdup
  rw [powerOn, dif_neg hdup]

theorem powerOn_of_bad_codes (hcat : ((beforeSentinel g.catalog).map (·.code)).Nodup) (hbad : ¬g.CodesOk) :
    powerOn g = .refused .badCommandCodes := by
  rw [← codesDistinct_iff_nodup] at hcat
  rw [← commandCodesOk_iff_codesOk] at hbad
  rw [powerOn, dif_pos hcat, dif_neg hbad]

theorem powerOn_of_small_data (hcat : ((beforeSentinel g.catalog).map (·.code)).Nodup) (hcodes : g.CodesOk)
    (hsmall : g.dataSize < 255) : powerOn g = .refused .dataTooSmall := by
  have hdata : ¬dataSizeOk g.dataSize = true := by rw [dataSizeOk_iff]; omega
  rw [← codesDistinct_iff_nodup] at hcat
  rw [← commandCodesOk_iff_codesOk] at hcodes
  rw [powerOn, dif_pos hcat, dif_pos hcodes, dif_neg hdata]

/-- The parameters of the instance, each as given, together with the proofs that the three checks passed. -/
def GivenParams.accepted (g : GivenParams) (hcat : ((beforeSentinel g.catalog).map (·.code)).Nodup) (hcodes : g.CodesOk)
    (hdata : 255 ≤ g.dataSize) : Params where
  caps := g.caps
  blockLimit := g.blockLimit
  catalog := { given := g.catalog, distinct := (codesDistinct_iff_nodup _).2 hcat }
  codes :=
    { page := g.page, capability := g.capability, query := g.query, voutMode := g.voutMode
      coefficients := g.coefficients, pmbusRevision := g.pmbusRevision, ok := (commandCodesOk_iff_codesOk g).2 hcodes }
  capPecBit := g.capPecBit
  voutLinearMode := g.voutLinearMode
  num := g.num
  dataSize := { bytes := g.dataSize, ok := (dataSizeOk_iff _).2 hdata }

theorem powerOn_of_accepted (hcat : ((beforeSentinel g.catalog).map (·.code)).Nodup) (hcodes : g.CodesOk)
    (hdata : 255 ≤ g.dataSize) : powerOn g = .next (State.boot (g.accepted hcat hcodes hdata)) := by
  rw [powerOn, dif_pos ((codesDistinct_iff_nodup _).2 hcat), dif_pos ((commandCodesOk_iff_codesOk g).2 hcodes),
    dif_pos ((dataSizeOk_iff _).2 hdata), GivenParams.accepted]

end PowerOn

/-- Settles O8: one lemma for each outcome of the three checks. -/
theorem powerOnRefusesBadParameters : Obligations.PowerOnRefusesBadParameters := by
  intro g codes
  refine ⟨powerOn_of_duplicate_codes, fun hcat => ⟨powerOn_of_bad_codes hcat, powerOn_of_small_data hcat, ?_⟩⟩
  intro hcodes hdata
  exact ⟨g.accepted hcat hcodes hdata, powerOn_of_accepted hcat hcodes hdata, rfl, rfl, rfl, rfl, rfl, rfl, rfl, rfl, rfl⟩

end Sys2Proof.Machine
end

section
/-! O60, O5, O6. The numeric codes; what one step does with a request word, and what the host does between operations. -/

namespace Sys2Proof.Machine

/-- Settles O60: every list of codes is evaluated. -/
theorem registerCodes : Obligations.RegisterCodes := ⟨rfl, rfl, rfl, rfl, rfl, rfl, rfl, rfl⟩

/-! ## Request words -/

/-- A word assembled from its fields decodes to the operation its fields name (30_encoding.md R70, R76). -/
theorem decode_pack {op : Byte} {cmd arg : Word16} {len : BitVec 12} {i : Instr}
    (h : operation op cmd arg len = some i) : decode (pack op cmd arg len) = .ok i := by
  rw [decode, if_pos (rsvField_pack _ _ _ _), opField_pack, cmdField_pack, argField_pack, lenField_pack, h]

/-- The encoder's word decodes to its operation: the three `ARG` forms of R75 are read back, the other fields are taken
whole. -/
theorem decode_encode (i : Instr) : decode (encode i) = .ok i := by
  cases i with
  | openSession a p =>
    refine decode_pack ?_
    simp only [operation, BitVec.reduceToNat, argAddr_openArg, argPec_openArg]
  | pageSelect page => exact decode_pack (congrArg (some ∘ Instr.pageSelect) (argLow_byteArg page))
  | writeByte cmd v => exact decode_pack (congrArg (some ∘ Instr.writeByte cmd) (argLow_byteArg v))
  | _ => exact decode_pack rfl

theorem withFetchWord_eq (i : Instr) (s : State) :
    s.withFetchWord 64 (encode i).toNat = { s with req := some (encode i) } := by
  have hword : BitVec.ofNat 64 ((encode i).toNat % 2 ^ 64) = encode i := by
    rw [Nat.mod_eq_of_lt (encode i).isLt, BitVec.ofNat_toNat, BitVec.setWidth_eq]
  rw [State.withFetchWord, placeRequest, hword]

/-! ## One step -/

theorem step_of_request {s : State} {w : Request} {i : Instr} (hreq : s.req = some w) (hw : decode w = .ok i) :
    step s = exec i { s with req := none } := by
  simp only [step, hreq, hw, consumeRequest]

theorem step_of_no_request {s : State} (hreq : s.req = none) : step s = hostTurn s := by
  simp only [step, hreq]

theorem hostTurn_idle {s : State} (hhost : s.host = []) : hostTurn s = .next s := by
  simp only [hostTurn, hhost]

theorem hostTurn_acts {s : State} {a : HostAction} {rest : List HostAction} (hhost : s.host = a :: rest) :
    hostTurn s = performHostAction a { s with host := rest } := by
  simp only [hostTurn, hhost]

theorem performHostAction_writeData_missing {s : State} {i : Nat} (v : Byte) (hi : s.params.dataSize.bytes ≤ i) :
    performHostAction (.writeData i v) s = .fault .noSuchDataByte :=
  if_neg (Nat.not_lt.2 hi)

theorem performHostAction_writeData {s : State} {i : Nat} (v : Byte) (hi : i < s.params.dataSize.bytes) :
    performHostAction (.writeData i v) s = .next { s with data := Memory.write s.data i v } :=
  if_pos hi

/-- Read after write, at every index. -/
theorem Memory.read?_write (m : Memory) (i j : Nat) (b : Byte) :
    Memory.read? (Memory.write m i b) j = if j = i then some b else Memory.read? m j := by
  split
  · next h => rw [h, Memory.read?_write_same]
  · next h => exact Memory.read?_write_other m h b

/-- Settles O5: the decoder undoes the encoder, and a step runs what the decoder reads. -/
theorem stepRunsTheDecodedRequest : Obligations.StepRunsTheDecodedRequest := by
  refine ⟨fun s w i hreq hw => step_of_request hreq hw, fun i s => ?_⟩
  rw [withFetchWord_eq, step_of_request rfl (decode_encode i)]

/-- Settles O6: one lemma for each kind of action, and read after write. -/
theorem hostActsBetweenOperations : Obligations.HostActsBetweenOperations := by
  intro s hreq
  rw [step_of_no_request hreq]
  refine ⟨hostTurn_idle, fun w rest hhost => hostTurn_acts hhost, fun i v rest hhost => ?_⟩
  rw [hostTurn_acts hhost]
  exact ⟨fun hi => performHostAction_writeData_missing v hi, fun hi =>
    ⟨_, performHostAction_writeData v hi, fun j => Memory.read?_write s.data i j v⟩⟩

end Sys2Proof.Machine
end

section
/-! Parts of the state, the parts of a legal state, and the operations that keep the session's registers: `Plain` is closed
under each small update such an operation makes. -/

namespace Sys2Proof.Machine

/-! ## Parts of the state -/

/-- `s` without what an operation writes that neither starts a session nor discovers: `SESSION_STATE`, `DATA`, the status and
result registers, the hidden registers and the bus side. -/
def forgetOutputs (s : State) : State :=
  { s with
    sessionState := .unopened, data := [], status := .ok, cause := .noCause, result := 0#16, rlen := 0#9
    valueKind := .raw, value := .word 0#64, pecSaved := false, crcAcc := 0#8, answers := [], draws := 0, busLog := [] }

/-- `s` without what discovery writes (41_query.md R150): the table, `NO_QUERY`, `VOUT_MODE_VALID`, `RESULT` and the bus
side. -/
def forgetFindings (s : State) : State :=
  { s with
    noQuery := false, voutModeValid := false, slot := emptySlots, qbyte := emptyQbytes, coef := emptyCoefs
    result := 0#16, crcAcc := 0#8, answers := [], draws := 0, busLog := [] }

/-- Of `s` the table, `NO_QUERY`, `VOUT_MODE_VALID` and the parameters alone. -/
def findings (s : State) : State :=
  { forgetOutputs s with
    addr := 0#7, pecReq := false, pecEn := false, capByte := 0#8, capValid := false, revByte := 0#8, revValid := false
    req := none, host := [] }

theorem findings_of_forgetOutputs {s t : State} (h : forgetOutputs t = forgetOutputs s) : findings t = findings s :=
  show findings (forgetOutputs t) = findings (forgetOutputs s) from congrArg findings h

theorem OnlyBus.forgetOutputs {s t : State} (h : OnlyBus s t) : forgetOutputs t = forgetOutputs s := by
  rw [h]; rfl

theorem OnlyBus.forgetFindings {s t : State} (h : OnlyBus s t) : forgetFindings t = forgetFindings s := by
  rw [h]; rfl

theorem Discovered.forgetFindings {new : List Transaction} {s t : State} (h : Discovered new s t) :
    forgetFindings t = forgetFindings s := by
  rw [h.frame]; rfl

/-! ## The parts of a legal state -/

/-- What `LegalState` says of the session registers, with `x` as the session state. -/
structure SessionLegal (x : SessionState) (s : State) : Prop where
  pec_agreed : s.pecEn = true →
    capPec s.params = true ∧ s.pecReq = true ∧ s.capValid = true ∧ advertisesPec s.params s.capByte = true
  pec_after_scan : s.pecEn = true → x ≠ .unopened ∧ x ≠ .attached
  open_address : inOpenSession x = true → isReservedAddress s.addr = false
  unread_bytes : (s.capValid = false → s.capByte = 0x00#8) ∧ (s.revValid = false → s.revByte = 0x00#8)

/-- What `LegalState` says of the discovered table. -/
structure TableLegal (s : State) : Prop where
  extended_slots : slotAt s 0xFE#8 = .notProbed ∧ slotAt s 0xFF#8 = .notProbed
  resolved_byte : ∀ c, slotAt s c = .resolved ↔ qSupported (qbyteAt s c) = true
  unresolved_byte : ∀ c, slotAt s c ≠ .resolved → qbyteAt s c = 0x00#8
  vout_captured : s.voutModeValid = true → slotAt s s.params.codes.voutMode = .resolved

/-- `VALUE` holds a rational exactly for a REAL value under EXACT (R39). -/
def ValueForm (p : Params) (d : Decoded) : Prop := (∃ q, d.value = .rational q) ↔ d.kind = .real ∧ p.num = .exact

/-- What `LegalState` says of `DATA` and of the result registers. -/
structure OutputLegal (s : State) : Prop where
  data_canonical : Memory.wf s.params.dataSize.bytes s.data = true
  rlen_bound : s.rlen.toNat ≤ 255
  value_form : ValueForm s.params { value := s.value, kind := s.valueKind }

theorem legalState_iff (s : State) :
    LegalState s ↔ SessionLegal s.sessionState s ∧ TableLegal s ∧ OutputLegal s ∧
      (s.status = .transportError ↔ s.cause ≠ .noCause) := by
  constructor
  · intro h
    exact ⟨⟨h.pec_agreed, h.pec_after_scan, h.open_address, h.unread_bytes⟩,
      ⟨h.extended_slots, h.resolved_byte, h.unresolved_byte, h.vout_captured⟩,
      ⟨h.data_canonical, h.rlen_bound, h.value_form⟩, h.cause_of_error⟩
  · rintro ⟨session, table, output, cause⟩
    exact
      { data_canonical := output.data_canonical
        pec_agreed := session.pec_agreed
        pec_after_scan := session.pec_after_scan
        cause_of_error := cause
        extended_slots := table.extended_slots
        resolved_byte := table.resolved_byte
        unresolved_byte := table.unresolved_byte
        vout_captured := table.vout_captured
        open_address := session.open_address
        unread_bytes := session.unread_bytes
        rlen_bound := output.rlen_bound
        value_form := output.value_form }

theorem SessionLegal.of_forgetOutputs {x : SessionState} {s t : State} (hs : SessionLegal x s)
    (h : forgetOutputs t = forgetOutputs s) : SessionLegal x t := by
  have kept : SessionLegal x (forgetOutputs t) := h ▸ ⟨hs.pec_agreed, hs.pec_after_scan, hs.open_address, hs.unread_bytes⟩
  exact ⟨kept.pec_agreed, kept.pec_after_scan, kept.open_address, kept.unread_bytes⟩

theorem SessionLegal.of_forgetFindings {x : SessionState} {s t : State} (hs : SessionLegal x s)
    (h : forgetFindings t = forgetFindings s) : SessionLegal x t := by
  have kept : SessionLegal x (forgetFindings t) :=
    h ▸ ⟨hs.pec_agreed, hs.pec_after_scan, hs.open_address, hs.unread_bytes⟩
  exact ⟨kept.pec_agreed, kept.pec_after_scan, kept.open_address, kept.unread_bytes⟩

theorem TableLegal.of_findings {s t : State} (hs : TableLegal s) (h : findings t = findings s) : TableLegal t := by
  have kept : TableLegal (findings t) :=
    h ▸ ⟨hs.extended_slots, hs.resolved_byte, hs.unresolved_byte, hs.vout_captured⟩
  exact ⟨kept.extended_slots, kept.resolved_byte, kept.unresolved_byte, kept.vout_captured⟩

theorem OutputLegal.of_forgetFindings {s t : State} (hs : OutputLegal s) (h : forgetFindings t = forgetFindings s) :
    OutputLegal t := by
  have kept : OutputLegal (forgetFindings t) := h ▸ ⟨hs.data_canonical, hs.rlen_bound, hs.value_form⟩
  exact ⟨kept.data_canonical, kept.rlen_bound, kept.value_form⟩

/-! ## Values -/

theorem valueForm_word (p : Params) (w : BitVec 64) {k : ValueKind} (hk : k ≠ .real) :
    ValueForm p { value := .word w, kind := k } :=
  ⟨fun ⟨_, h⟩ => Value.noConfusion h, fun h => absurd h.1 hk⟩

/-- A REAL value has the form of the parameter `NUM` (43_codec.md R180). -/
theorem valueForm_real (p : Params) (f : ∀ {α : Type}, Arithmetic α → α) :
    ValueForm p { value := realValue p f, kind := .real } := by
  cases hnum : p.num <;> simp [ValueForm, realValue, hnum]

theorem valueForm_rawAs (p : Params) (raw : Word16) {k : ValueKind} (hk : k ≠ .real) : ValueForm p (rawAs k raw) :=
  valueForm_word p _ hk

theorem valueForm_decodedDirect (s : State) (c : Byte) (raw : Word16) : ValueForm s.params (decodedDirect s c raw) := by
  unfold decodedDirect
  dsimp only
  split
  · exact valueForm_rawAs _ raw (by decide)
  · exact valueForm_real _ _

theorem valueForm_decodedAs (k : ValueClass) (s : State) (c : Byte) (raw : Word16) :
    ValueForm s.params (decodedAs k s c raw) := by
  cases k with
  | voutRelative | linearFloat => exact valueForm_real _ _
  | directFloat => exact valueForm_decodedDirect s c raw
  | bitmap | unsignedInt16 | unsignedInt8 | vidCode | manufacturerSpecific | unknown =>
    exact valueForm_word _ _ (by decide)

/-! ## Operations that keep the session's registers -/

/-- The moves of `SESSION_STATE` but those of OPEN and of a completed SCAN (44_session.md R220). -/
def SessionMoves (x y : SessionState) : Prop := y = x ∨ y = .closed ∨ (x = .scanned ∧ y = .reporting)

theorem SessionLegal.moves {x y : SessionState} {s : State} (hs : SessionLegal x s) (h : SessionMoves x y) :
    SessionLegal y s := by
  rcases h with rfl | rfl | ⟨rfl, rfl⟩
  · exact hs
  · exact ⟨hs.pec_agreed, fun _ => by decide, fun h => absurd h (by decide), hs.unread_bytes⟩
  · exact ⟨hs.pec_agreed, fun _ => by decide, fun _ => hs.open_address rfl, hs.unread_bytes⟩

/-- Everything operation `i` can do between `s` and `t` where it neither starts a session nor discovers. -/
structure Plain (i : Instr) (s t : State) : Prop where
  log     : s.busLog <+: t.busLog
  frame   : forgetOutputs t = forgetOutputs s
  session : SessionMoves s.sessionState t.sessionState
  saved   : isReadBlock i = false → t.pecSaved = s.pecSaved
  output  : OutputLegal s → OutputLegal t

section Plain

variable {i : Instr} {s t : State}

theorem Plain.refl (i : Instr) (s : State) : Plain i s s := ⟨⟨[], List.append_nil _⟩, rfl, .inl rfl, fun _ => rfl, id⟩

theorem Plain.call (h : Plain i s t) {r : BusReq} {u : State} (hcall : OneCall r t u) : Plain i s u := by
  obtain ⟨new, traffic, honly, _⟩ := hcall
  exact
    { log := h.log.trans ⟨new, traffic.log.symm⟩
      frame := honly.forgetOutputs.trans h.frame
      session := by rw [honly]; exact h.session
      saved := by rw [honly]; exact h.saved
      output := fun hs => (h.output hs).of_forgetFindings honly.forgetFindings }

theorem Plain.dataRead (h : Plain i s t) : Plain i s (afterDataRead t) :=
  ⟨h.log, h.frame, h.session, h.saved, fun hs => (h.output hs).of_forgetFindings rfl⟩

theorem Plain.result (h : Plain i s t) (r : Word16) : Plain i s { t with result := r } :=
  ⟨h.log, h.frame, h.session, h.saved, fun hs => (h.output hs).of_forgetFindings rfl⟩

theorem Plain.value (h : Plain i s t) {d : Decoded} (hd : ValueForm t.params d) : Plain i s (writeDecoded d t) :=
  ⟨h.log, h.frame, h.session, h.saved, fun hs => ⟨(h.output hs).data_canonical, (h.output hs).rlen_bound, hd⟩⟩

theorem Plain.save (h : Plain i s t) (hi : isReadBlock i = true) (b : Bool) : Plain i s { t with pecSaved := b } :=
  ⟨h.log, h.frame, h.session, by simp [hi],
    fun hs => ⟨(h.output hs).data_canonical, (h.output hs).rlen_bound, (h.output hs).value_form⟩⟩

/-- Delivery of at most 255 bytes (40_transport.md R114) fits in `DATA` and in `RLEN`. -/
theorem Plain.deliver (h : Plain i s t) {bs : List Byte} (hbs : bs.length ≤ 255) (n : Nat) (r : Word16) :
    Plain i s { t with
      data := Memory.writeFrom t.data 0 (bs.take n), result := r, rlen := BitVec.ofNat 9 (min bs.length n) } := by
  refine ⟨h.log, h.frame, h.session, h.saved, fun hs => ⟨?_, ?_, (h.output hs).value_form⟩⟩
  · have hsize := dataSize_spec t.params.dataSize
    have hfits : 0 + (bs.take n).length ≤ t.params.dataSize.bytes := by
      rw [List.length_take]
      omega
    exact Memory.wf_writeFrom (h.output hs).data_canonical hfits
  · rw [BitVec.toNat_ofNat]
    omega

theorem Plain.close (h : Plain i s t) : Plain i s (closeState t) :=
  ⟨h.log, h.frame, .inr (.inl rfl), h.saved,
    fun hs => ⟨(h.output hs).data_canonical, (h.output hs).rlen_bound, (h.output hs).value_form⟩⟩

theorem Plain.report (i : Instr) (hs : s.sessionState = .scanned) : Plain i s { s with sessionState := .reporting } :=
  ⟨⟨[], List.append_nil _⟩, rfl, .inr (.inr ⟨hs, rfl⟩), fun _ => rfl,
    fun ho => ⟨ho.data_canonical, ho.rlen_bound, ho.value_form⟩⟩

end Plain

end Sys2Proof.Machine
end

section
/-! What every operation does to the registers that last a session (10_state.md §1, §2), said once (`exec_does`): it starts
a session, or it scans, or it fills the discovered table, or it touches none of them but `SESSION_STATE`. -/

namespace Sys2Proof.Machine

/-! ## Discovery -/

/-- Everything an operation within a session does to the table and the flags of discovery, with `new` put on the bus:
10_state.md R26, R29, R31, R34, and that a legal table stays legal. -/
structure Advances (new : List Transaction) (s t : State) : Prop where
  log      : t.busLog = s.busLog ++ new
  params   : t.params = s.params
  bound    : ∀ c, slotAt s c ≠ .notProbed → slotAt t c = slotAt s c ∧ qbyteAt t c = qbyteAt s c
  sticky   : s.noQuery = true → t.noQuery = true
  captured : s.voutModeValid = true → t.voutModeValid = true
  valid    : ∀ c d, (coefAt s c d).v = true → (coefAt t c d).v = true
  exchange : ∀ c d, (coefAt t c d).v = true →
    (coefAt s c d).v = true ∨ ∃ x ∈ new, FiveByteExchange s.params c d x
  legal    : TableLegal s → TableLegal t

theorem Advances.trans {n₁ n₂ : List Transaction} {s t u : State} (h₁ : Advances n₁ s t) (h₂ : Advances n₂ t u) :
    Advances (n₁ ++ n₂) s u where
  log := by rw [h₂.log, h₁.log, List.append_assoc]
  params := h₂.params.trans h₁.params
  bound := by
    intro c hc
    obtain ⟨hslot, hbyte⟩ := h₁.bound c hc
    obtain ⟨hslot', hbyte'⟩ := h₂.bound c (hslot ▸ hc)
    exact ⟨hslot'.trans hslot, hbyte'.trans hbyte⟩
  sticky := h₂.sticky ∘ h₁.sticky
  captured := h₂.captured ∘ h₁.captured
  valid := fun c d => h₂.valid c d ∘ h₁.valid c d
  exchange := by
    intro c d hv
    rcases h₂.exchange c d hv with hv | ⟨x, hx, hfive⟩
    · exact (h₁.exchange c d hv).imp_right fun ⟨x, hx, hfive⟩ => ⟨x, List.mem_append_left _ hx, hfive⟩
    · exact .inr ⟨x, List.mem_append_right _ hx, h₁.params ▸ hfive⟩
  legal := h₂.legal ∘ h₁.legal

theorem slotAt_of_slot {s t : State} (h : t.slot = s.slot) (c : Byte) : slotAt t c = slotAt s c := by
  rw [slotAt, h, slotAt]

theorem qbyteAt_of_qbyte {s t : State} (h : t.qbyte = s.qbyte) (c : Byte) : qbyteAt t c = qbyteAt s c := by
  rw [qbyteAt, h, qbyteAt]

theorem coefAt_of_coef {s t : State} (h : t.coef = s.coef) (c : Byte) (d : Direction) : coefAt t c d = coefAt s c d := by
  rw [coefAt, coefPairAt, h, coefAt, coefPairAt]

theorem Advances.of_findings {new : List Transaction} {s t : State} (hlog : t.busLog = s.busLog ++ new)
    (h : findings t = findings s) : Advances new s t := by
  have hslot (c : Byte) : slotAt t c = slotAt s c := slotAt_of_slot (congrArg (·.slot) h) c
  have hbyte (c : Byte) : qbyteAt t c = qbyteAt s c := qbyteAt_of_qbyte (congrArg (·.qbyte) h) c
  have hcoef (c : Byte) (d : Direction) : coefAt t c d = coefAt s c d := coefAt_of_coef (congrArg (·.coef) h) c d
  have hnoQuery : t.noQuery = s.noQuery := congrArg (·.noQuery) h
  have hvout : t.voutModeValid = s.voutModeValid := congrArg (·.voutModeValid) h
  exact
    { log := hlog
      params := congrArg (·.params) h
      bound := fun c _ => ⟨hslot c, hbyte c⟩
      sticky := fun hs => hnoQuery.trans hs
      captured := fun hs => hvout.trans hs
      valid := fun c d hv => hcoef c d ▸ hv
      exchange := fun c d hv => .inl (hcoef c d ▸ hv)
      legal := fun hs => hs.of_findings h }

/-- `Advances` does not look at the other registers. -/
theorem Advances.congr {new : List Transaction} {s t u : State} (h : Advances new s t) (hlog : u.busLog = t.busLog)
    (hu : findings u = findings t) : Advances new s u := by
  have rest : Advances [] t u := .of_findings (by rw [hlog, List.append_nil]) hu
  have both := h.trans rest
  rwa [List.append_nil] at both

theorem Plain.advances {i : Instr} {s t : State} (h : Plain i s t) : ∃ new, Advances new s t := by
  obtain ⟨new, hlog⟩ := h.log
  exact ⟨new, .of_findings hlog.symm (findings_of_forgetOutputs h.frame)⟩

/-- A slot that discovery changed was NotProbed, so in a legal table its query byte was 0x00 (R31, R32). -/
theorem Discovered.tableLegal {new : List Transaction} {s t : State} (h : Discovered new s t) (hs : TableLegal s) :
    TableLegal t := by
  have unread (c : Byte) (hc : slotAt s c = .notProbed) : qbyteAt s c = 0x00#8 :=
    hs.unresolved_byte c (by rw [hc]; decide)
  have slots (c : Byte) : (slotAt t c = slotAt s c ∧ qbyteAt t c = qbyteAt s c) ∨
      (c.toNat ≤ 0xFD ∧ ((slotAt t c = .unsupported ∧ qbyteAt t c = 0x00#8) ∨
        (slotAt t c = .resolved ∧ qSupported (qbyteAt t c) = true))) := by
    by_cases hsame : slotAt t c = slotAt s c ∧ qbyteAt t c = qbyteAt s c
    · exact .inl hsame
    · obtain ⟨hcore, hfound⟩ := h.fresh c (by tauto)
      have hfree : slotAt s c = .notProbed := by
        by_contra hbound
        exact hsame (h.bound c hbound)
      exact .inr ⟨hcore, hfound.imp_left fun ⟨hslot, hbyte⟩ => ⟨hslot, hbyte.trans (unread c hfree)⟩⟩
  have extended (c : Byte) (hc : 0xFD < c.toNat) (hfree : slotAt s c = .notProbed) : slotAt t c = .notProbed := by
    rcases slots c with ⟨hslot, _⟩ | ⟨hcore, _⟩
    · rw [hslot, hfree]
    · omega
  exact
    { extended_slots := ⟨extended _ (by decide) hs.extended_slots.1, extended _ (by decide) hs.extended_slots.2⟩
      resolved_byte := by
        intro c
        rcases slots c with ⟨hslot, hbyte⟩ | ⟨_, ⟨hslot, hbyte⟩ | ⟨hslot, hsup⟩⟩
        · rw [hslot, hbyte]
          exact hs.resolved_byte c
        · simp [hslot, hbyte, qSupported]
        · simp [hslot, hsup]
      unresolved_byte := by
        intro c hc
        rcases slots c with ⟨hslot, hbyte⟩ | ⟨_, ⟨_, hbyte⟩ | ⟨hslot, _⟩⟩
        · rw [hbyte]
          exact hs.unresolved_byte c (hslot ▸ hc)
        · exact hbyte
        · exact absurd hslot hc
      vout_captured := by
        intro hv
        rw [h.params]
        rcases h.capture hv with hv | hres
        · have hres := hs.vout_captured hv
          rw [(h.bound _ (by rw [hres]; decide)).1, hres]
        · exact hres }

theorem Discovered.advances {new : List Transaction} {s t : State} (h : Discovered new s t) : Advances new s t :=
  ⟨h.traffic.log, h.params, h.bound, h.sticky, h.captured, h.valid, h.exchange, h.tableLegal⟩

/-! ## SCAN -/

/-- The effect of a PMBUS_REVISION byte `v` (44_session.md R226). -/
def captureRevision (v : Byte) (s : State) : State := { s with revByte := v, revValid := true }

/-- The registers beside discovery's after steps (c) and (d) of SCAN (44_session.md R225, R226), each of which may fail. -/
inductive Captures (s t : State) : Prop
  | neither (frame : forgetFindings t = forgetFindings s)
  | capability (u : Byte) (frame : forgetFindings t = forgetFindings (captureCapability u s))
  | revision (v : Byte) (frame : forgetFindings t = forgetFindings (captureRevision v s))
  | both (u v : Byte) (frame : forgetFindings t = forgetFindings (captureRevision v (captureCapability u s)))

theorem forgetFindings_captureCapability {s t : State} (u : Byte) (h : forgetFindings t = forgetFindings s) :
    forgetFindings (captureCapability u t) = forgetFindings (captureCapability u s) := by
  have inside (x : State) : forgetFindings (captureCapability u x) =
      forgetFindings (captureCapability u (forgetFindings x)) := rfl
  rw [inside t, h, inside s]

theorem forgetFindings_captureRevision {s t : State} (v : Byte) (h : forgetFindings t = forgetFindings s) :
    forgetFindings (captureRevision v t) = forgetFindings (captureRevision v s) := by
  have inside (x : State) : forgetFindings (captureRevision v x) =
      forgetFindings (captureRevision v (forgetFindings x)) := rfl
  rw [inside t, h, inside s]

theorem Captures.before {r s t : State} (h : Captures s t) (hs : forgetFindings s = forgetFindings r) : Captures r t := by
  cases h with
  | neither frame => exact .neither (frame.trans hs)
  | capability u frame => exact .capability u (frame.trans (forgetFindings_captureCapability u hs))
  | revision v frame => exact .revision v (frame.trans (forgetFindings_captureRevision v hs))
  | both u v frame =>
    exact .both u v (frame.trans (forgetFindings_captureRevision v (forgetFindings_captureCapability u hs)))

/-- Step (c): the table as it was, and the CAPABILITY byte where the read gave one. -/
theorem readCapability_does {s t : State} (h : readCapability s = .ok ((), t)) :
    (∃ new, Advances new s t) ∧ (forgetFindings t = forgetFindings s ∨
      ∃ u, forgetFindings t = forgetFindings (captureCapability u s)) := by
  obtain ⟨new, u, traffic, honly, hnew, hcap⟩ := readCapability_cases h
  have read : Advances new s u := (Discovered.of_call traffic honly hnew (.inl rfl)).advances
  rcases hcap with rfl | ⟨b, rfl, _⟩
  · exact ⟨⟨new, read⟩, .inl honly.forgetFindings⟩
  · exact ⟨⟨new, read.congr rfl rfl⟩, .inr ⟨b, forgetFindings_captureCapability b honly.forgetFindings⟩⟩

/-- Step (d): the table as it was, and the revision byte where the read gave one. -/
theorem readRevision_does {s t : State} (h : readRevision s = .ok ((), t)) :
    (∃ new, Advances new s t) ∧ (forgetFindings t = forgetFindings s ∨
      ∃ v, forgetFindings t = forgetFindings (captureRevision v s)) := by
  obtain ⟨new, u, traffic, honly, hnew, hrev⟩ := readRevision_cases h
  have read : Advances new s u := (Discovered.of_call traffic honly hnew (.inl rfl)).advances
  rcases hrev with rfl | ⟨b, rfl⟩
  · exact ⟨⟨new, read⟩, .inl honly.forgetFindings⟩
  · exact ⟨⟨new, read.congr rfl rfl⟩, .inr ⟨b, forgetFindings_captureRevision b honly.forgetFindings⟩⟩

/-- Steps (b) to (e) of SCAN: discovery of the table, and the two captures. -/
theorem discover_does {s t : State} (h : discover s = .ok ((), t)) : (∃ new, Advances new s t) ∧ Captures s t := by
  obtain ⟨s₁, s₂, s₃, hprobe, hcap, hrev, hsweep⟩ := discover_cases h
  obtain ⟨n₁, probed, _⟩ := probe_discovered hprobe
  obtain ⟨⟨n₂, capability⟩, hcap⟩ := readCapability_does hcap
  obtain ⟨⟨n₃, revision⟩, hrev⟩ := readRevision_does hrev
  obtain ⟨n₄, swept, _⟩ := sweep_discovered hsweep
  refine ⟨⟨_, ((probed.advances.trans capability).trans revision).trans swept.advances⟩, ?_⟩
  refine Captures.before ?_ probed.forgetFindings
  have after := swept.forgetFindings
  rcases hcap with hcap | ⟨u, hcap⟩ <;> rcases hrev with hrev | ⟨v, hrev⟩
  · exact .neither (after.trans (hrev.trans hcap))
  · exact .revision v (after.trans (hrev.trans (forgetFindings_captureRevision v hcap)))
  · exact .capability u (after.trans (hrev.trans hcap))
  · exact .both u v (after.trans (hrev.trans (forgetFindings_captureRevision v hcap)))

/-! ## Every operation -/

/-- Discovery without a query (42_coefficients.md R160): the coefficient sets alone. -/
def SameSlots (s t : State) : Prop :=
  t.slot = s.slot ∧ t.qbyte = s.qbyte ∧ t.noQuery = s.noQuery ∧ t.voutModeValid = s.voutModeValid

/-- What operation `i` does to the registers that last a session. -/
inductive Does (i : Instr) (s t : State) : Prop
  /-- OPEN (44_session.md R221). -/
  | opens (a : BitVec 7) (p : Bool) (op : isOpen i = true) (closed : whereNoSession s.sessionState = true)
      (address : isReservedAddress a = false) (state : t = openState a p s)
  /-- SCAN that ends in Scanned (R222). -/
  | scans (new : List Transaction) (x : State) (op : i = .scan) (attached : s.sessionState = .attached)
      (table : Advances new s x) (captures : Captures s x) (state : t = { x with sessionState := .scanned })
  /-- CHECK_SUPPORT (41_query.md R140) and FETCH_COEFFICIENTS (42_coefficients.md R160). -/
  | fills (new : List Transaction) (op : fetches i = true) (table : Advances new s t)
      (frame : forgetFindings t = forgetFindings s) (slots : discovers i = false → SameSlots s t)
  /-- Everything else, a failed SCAN and an operation that a check turned away among it. -/
  | keeps (plain : Plain i s t)

theorem OnlyBus.sameSlots {s t : State} (h : OnlyBus s t) : SameSlots s t := by
  rw [h]; exact ⟨rfl, rfl, rfl, rfl⟩

theorem whereNoSession_iff (x : SessionState) : whereNoSession x = true ↔ x ∈ [SessionState.unopened, .closed] := by
  cases x <;> simp [whereNoSession]

/-- FETCH_COEFFICIENTS. -/
theorem fetchCoefficientsCore_does {c : Byte} {d : Direction} {s t : State} {e : Exit}
    (h : fetchCoefficientsCore c d s = .ok (e, t)) : (∃ new, Discovered new s t) ∧ SameSlots s t := by
  obtain ⟨new, found, _, _, ⟨_, honly⟩ | ⟨_, bs, u, honly, rfl⟩⟩ := fetchCoefficientsCore_cases h
  · exact ⟨⟨new, found⟩, honly.sameSlots⟩
  · exact ⟨⟨new, found⟩, honly.sameSlots⟩

/-- SCAN. -/
theorem scan_does {s t : State} {e : Exit} (hs : s.sessionState = .attached) (h : Effect .scan s e t) :
    Does .scan s t := by
  rcases h with ⟨_, rfl⟩ | ⟨w, hcall, ⟨_, _, rfl⟩ | ⟨x, hx, _, rfl⟩⟩
  · exact .keeps (Plain.refl _ s).close
  · exact .keeps ((Plain.refl _ s).call hcall).close
  · obtain ⟨n₀, traffic, honly, hnew⟩ := hcall
    have quick : Discovered n₀ s w := .of_call traffic honly hnew (.inr (.inl rfl))
    obtain ⟨⟨n₁, table⟩, captures⟩ := discover_does hx
    exact .scans _ x rfl hs (quick.advances.trans table) (captures.before quick.forgetFindings) rfl

/-- Everything the effect of an operation can be. -/
theorem effect_does {i : Instr} {s t : State} {e : Exit} (hstate : s.sessionState ∈ runsIn i) (harg : ¬BadArgument i)
    (h : Effect i s e t) : Does i s t := by
  have same := Plain.refl i s
  cases i with
  | openSession a p =>
    obtain ⟨_, rfl⟩ := h
    refine .opens a p rfl ?_ ?_ rfl
    · exact (whereNoSession_iff _).2 hstate
    · exact Bool.eq_false_iff.2 fun hr => harg ((isReservedAddress_iff a).1 hr)
  | scan => exact scan_does (by simpa [runsIn] using hstate) h
  | pageSelect page =>
    obtain ⟨w, hcall, ⟨_, rfl⟩ | ⟨_, _, rfl⟩⟩ := h
    · exact .keeps (same.call hcall)
    · exact .keeps (same.call hcall).close
  | report =>
    obtain ⟨_, rfl⟩ := h
    exact .keeps (.report _ (by simpa [runsIn] using hstate))
  | closeSession =>
    obtain ⟨_, rfl⟩ := h
    exact .keeps same.close
  | getSession =>
    obtain ⟨_, rfl⟩ := h
    exact .keeps ((same.value (valueForm_word _ _ (by decide))).result _)
  | quickPresence =>
    obtain ⟨_, rfl⟩ | ⟨w, hcall, ⟨r, _, rfl⟩ | ⟨_, _, rfl⟩⟩ := h
    · exact .keeps same
    · exact .keeps ((same.call hcall).result r)
    · exact .keeps (same.call hcall)
  | readByte cmd | readWord cmd =>
    obtain ⟨w, hcall, ⟨r, _, rfl⟩ | ⟨_, _, rfl⟩⟩ := h
    · exact .keeps ((same.call hcall).result r)
    · exact .keeps (same.call hcall)
  | readBlock cmd n =>
    obtain ⟨w, hcall, h⟩ := h
    have length := (same.call hcall).save rfl s.pecEn
    obtain ⟨_, _, rfl⟩ | ⟨_, rfl⟩ | ⟨r, x, _, hcall, ⟨_, rfl⟩ | ⟨bs, hbs, _, rfl⟩⟩ := h
    · exact .keeps length
    · exact .keeps length
    · exact .keeps (length.call hcall)
    · exact .keeps ((length.call hcall).deliver hbs _ _)
  | writeByte cmd v | writeWord cmd v => exact .keeps (same.call h.1)
  | writeBlock cmd n =>
    obtain ⟨_, rfl⟩ | ⟨r, bs, _, hcall, _⟩ := h
    · exact .keeps same.dataRead
    · exact .keeps (same.dataRead.call hcall)
  | checkSupport cmd =>
    obtain ⟨v, x, hx, _, rfl⟩ := h
    obtain ⟨new, found, _⟩ := checkSupportCore_discovered hx
    exact .fills new rfl (found.advances.congr rfl rfl) found.forgetFindings (by simp [discovers])
  | fetchCoefficients cmd arg =>
    obtain ⟨d, _, hx, _⟩ := h
    obtain ⟨⟨new, found⟩, slots⟩ := fetchCoefficientsCore_does hx
    exact .fills new rfl found.advances found.forgetFindings fun _ => slots
  | getSlot cmd | classify cmd =>
    obtain ⟨_, rfl⟩ := h
    exact .keeps (same.result _)
  | getCoef cmd arg =>
    obtain ⟨d, _, _, rfl⟩ := h
    exact .keeps ((same.value (valueForm_word _ _ (by decide))).result _)
  | decodeValue cmd raw =>
    obtain ⟨_, rfl⟩ := h
    exact .keeps ((same.value (valueForm_decodedAs _ s _ raw)).result _)
  | decodeLinear11 raw =>
    obtain ⟨_, rfl⟩ := h
    exact .keeps (same.value (valueForm_real _ _))
  | decodeDirect cmd raw =>
    obtain ⟨_, rfl⟩ := h
    exact .keeps (same.value (valueForm_decodedDirect s _ raw))
  | decodeVout raw =>
    obtain ⟨_, rfl⟩ := h
    split
    · exact .keeps (same.value (valueForm_real _ _))
    · exact .keeps (same.value (valueForm_rawAs _ raw (by decide)))
  | decodeBitmap raw =>
    obtain ⟨_, rfl⟩ := h
    exact .keeps ((same.value (valueForm_rawAs _ raw (by decide))).result _)

/-- Everything an operation can do: one of the four, and its end. -/
theorem exec_does {i : Instr} {s t : State} (h : exec i s = .next t) : ∃ e u, t = endOperation e u ∧ Does i s u := by
  obtain ⟨e, u, rfl, ⟨rfl, _⟩ | ⟨hstate, harg, _, effect⟩⟩ := exec_next h
  · exact ⟨e, u, rfl, .keeps (.refl i u)⟩
  · exact ⟨e, u, rfl, effect_does hstate harg effect⟩

end Sys2Proof.Machine
end

section
/-! O16, O17. Within a session the table only advances. -/

namespace Sys2Proof.Machine

/-! ## One operation -/

/-- Every operation but a successful OPEN advances the table. -/
theorem exec_advances {i : Instr} {s t : State} (h : exec i s = .next t) :
    (whereNoSession s.sessionState = true ∧ ∃ e a p, t = endOperation e (openState a p s)) ∨
      ∃ new, Advances new s t := by
  obtain ⟨e, u, rfl, does⟩ := exec_does h
  cases does with
  | opens a p op closed address state => exact .inl ⟨closed, e, a, p, state ▸ rfl⟩
  | scans new x op attached table captures state => exact .inr ⟨new, state ▸ table.congr rfl rfl⟩
  | fills new op table frame slots => exact .inr ⟨new, table.congr rfl rfl⟩
  | keeps plain =>
    obtain ⟨new, table⟩ := plain.advances
    exact .inr ⟨new, table.congr rfl rfl⟩

theorem newTransactions_eq {new : List Transaction} {s t : State} (h : t.busLog = s.busLog ++ new) :
    newTransactions s t = new := by
  rw [newTransactions, h, List.drop_left]

/-- R34, one operation: a validity flag rises only with its five-byte exchange. -/
theorem exec_valid_exchange {i : Instr} {s t : State} (h : exec i s = .next t) {c : Byte} {d : Direction}
    (hclear : (coefAt s c d).v = false) (hset : (coefAt t c d).v = true) :
    ∃ x ∈ newTransactions s t, FiveByteExchange s.params c d x := by
  rcases exec_advances h with ⟨_, e, a, p, rfl⟩ | ⟨new, table⟩
  · have cleared : (coefAt (openState a p s) c d).v = false := by rw [coefAt_openState, CoefSet.cleared]
    exact absurd hset (Bool.eq_false_iff.1 cleared)
  · rw [newTransactions_eq table.log]
    exact (table.exchange c d hset).resolve_left (Bool.eq_false_iff.1 hclear)

/-! ## The steps of a session -/

theorem hostTurn_findings {s t : State} (h : hostTurn s = .next t) : findings t = findings s ∧ t.busLog = s.busLog := by
  rcases hostTurn_next h with ⟨_, rfl⟩ | ⟨i, v, rest, _, _, rfl⟩ | ⟨w, rest, _, rfl⟩ <;> exact ⟨rfl, rfl⟩

/-- Every step that starts no session advances the table. -/
theorem step_advances {s t : State} (h : step s = .next t)
    (hsession : ¬(whereNoSession s.sessionState = true ∧ t.sessionState = .attached)) : ∃ new, Advances new s t := by
  have taken : Advances [] s (consumeRequest s) := .of_findings (List.append_nil _).symm rfl
  rcases step_next h with ⟨_, host⟩ | ⟨w, _, ⟨i, _, op⟩ | ⟨_, rfl⟩⟩
  · obtain ⟨frame, log⟩ := hostTurn_findings host
    exact ⟨[], .of_findings (by rw [log, List.append_nil]) frame⟩
  · rcases exec_advances op with ⟨closed, e, a, p, rfl⟩ | ⟨new, table⟩
    · exact absurd ⟨closed, rfl⟩ hsession
    · exact ⟨_, taken.trans table⟩
  · exact ⟨[], taken.congr rfl rfl⟩

theorem withinSession_advances {s t : State} (h : WithinSession s t) : ∃ new, Advances new s t := by
  induction h with
  | refl => exact ⟨[], .of_findings (List.append_nil _).symm rfl⟩
  | step _ hstep hsession ih =>
    obtain ⟨n₁, before⟩ := ih
    obtain ⟨n₂, after⟩ := step_advances hstep hsession
    exact ⟨_, before.trans after⟩

/-- Settles O16. -/
theorem slotsBindOnce : Obligations.SlotsBindOnce := by
  intro s t h
  obtain ⟨new, table⟩ := withinSession_advances h
  exact ⟨table.bound, table.sticky⟩

/-- Settles O17. -/
theorem validityNeedsAFiveByteExchange : Obligations.ValidityNeedsAFiveByteExchange := by
  refine ⟨fun i s t h c d hclear hset => exec_valid_exchange h hclear hset, fun s t h => ?_⟩
  obtain ⟨new, table⟩ := withinSession_advances h
  exact table.valid

end Sys2Proof.Machine
end

section
/-! O15. The writers of each session register, by what an operation can do (`Does`). -/

namespace Sys2Proof.Machine

/-! ## Registers that discovery, or any operation but OPEN, leaves alone -/

/-- A register that the two reads of SCAN do not write. -/
theorem Captures.unchanged {α : Type} (f : State → α) (hfind : ∀ x, f (forgetFindings x) = f x)
    (hcap : ∀ u x, f (captureCapability u x) = f x) (hrev : ∀ v x, f (captureRevision v x) = f x) {s t : State}
    (h : Captures s t) : f t = f s := by
  have of_frame {x : State} (frame : forgetFindings t = forgetFindings x) : f t = f x := by rw [← hfind, frame, hfind]
  cases h with
  | neither frame => exact of_frame frame
  | capability u frame => rw [of_frame frame, hcap]
  | revision v frame => rw [of_frame frame, hrev]
  | both u v frame => rw [of_frame frame, hrev, hcap]

/-- A flag that the two reads of SCAN only raise. -/
theorem Captures.raises (f : State → Bool) (hfind : ∀ x, f (forgetFindings x) = f x)
    (hcap : ∀ u x, f x = true → f (captureCapability u x) = true)
    (hrev : ∀ v x, f x = true → f (captureRevision v x) = true) {s t : State} (h : Captures s t) (hs : f s = true) :
    f t = true := by
  have of_frame {x : State} (frame : forgetFindings t = forgetFindings x) : f t = f x := by rw [← hfind, frame, hfind]
  cases h with
  | neither frame => rw [of_frame frame, hs]
  | capability u frame => rw [of_frame frame, hcap u s hs]
  | revision v frame => rw [of_frame frame, hrev v s hs]
  | both u v frame => rw [of_frame frame, hrev v _ (hcap u s hs)]

theorem eq_true_of_raised {a b : Bool} (hraise : a = true → b = true) (hne : b ≠ a) : b = true := by
  by_contra hb
  have ha : a = false := Bool.eq_false_iff.2 fun ha => hb (hraise ha)
  exact hne ((Bool.eq_false_iff.2 hb).trans ha.symm)

section Writers

variable {i : Instr} {s t : State}

/-- A register that only OPEN and the reads of SCAN write. -/
theorem Does.writer_of_capture {α : Type} (f : State → α) (hfind : ∀ x, f (forgetFindings x) = f x)
    (hout : ∀ x, f (forgetOutputs x) = f x) (h : Does i s t) (hne : f t ≠ f s) : isOpen i = true ∨ i = .scan := by
  cases h with
  | opens a p op closed address state => exact .inl op
  | scans new x op attached table captures state => exact .inr op
  | fills new op table frame slots => exact absurd (by rw [← hfind, frame, hfind]) hne
  | keeps plain => exact absurd (by rw [← hout, plain.frame, hout]) hne

/-- A flag that OPEN clears and the reads of SCAN raise (R44). -/
theorem Does.writer_of_captureFlag (f : State → Bool) (hfind : ∀ x, f (forgetFindings x) = f x)
    (hout : ∀ x, f (forgetOutputs x) = f x) (hopen : ∀ a p x, f (openState a p x) = false)
    (hscan : ∀ x y, Captures x y → f x = true → f y = true) (h : Does i s t) (hne : f t ≠ f s) :
    (isOpen i = true ∧ f t = false) ∨ (i = .scan ∧ f t = true) := by
  cases h with
  | opens a p op closed address state => exact .inl ⟨op, state ▸ hopen a p s⟩
  | scans new x op attached table captures state =>
    have same : f t = f x := by
      rw [← hout, state]
      exact hout x
    exact .inr ⟨op, eq_true_of_raised (fun hs => same.trans (hscan s x captures hs)) hne⟩
  | fills new op table frame slots => exact absurd (by rw [← hfind, frame, hfind]) hne
  | keeps plain => exact absurd (by rw [← hout, plain.frame, hout]) hne

/-- A flag that OPEN clears and discovery raises (R44). -/
theorem Does.writer_of_discoveryFlag (f : State → Bool) (hout : ∀ x, f (forgetOutputs x) = f x)
    (hopen : ∀ a p x, f (openState a p x) = false) (hslots : ∀ x y, SameSlots x y → f y = f x)
    (hadv : ∀ new x y, Advances new x y → f x = true → f y = true) (h : Does i s t) (hne : f t ≠ f s) :
    (isOpen i = true ∧ f t = false) ∨ (discovers i = true ∧ f t = true) := by
  cases h with
  | opens a p op closed address state => exact .inl ⟨op, state ▸ hopen a p s⟩
  | scans new x op attached table captures state =>
    have same : f t = f x := by
      rw [← hout, state]
      exact hout x
    exact .inr ⟨op ▸ rfl, eq_true_of_raised (fun hs => same.trans (hadv new s x table hs)) hne⟩
  | fills new op table frame slots =>
    have discovering : discovers i = true := by
      by_contra hd
      exact hne (hslots s t (slots (Bool.eq_false_iff.2 hd)))
    exact .inr ⟨discovering, eq_true_of_raised (hadv new s t table) hne⟩
  | keeps plain => exact absurd (by rw [← hout, plain.frame, hout]) hne

theorem Does.writer_of_valid (h : Does i s t) {c : Byte} {d : Direction} (hne : (coefAt t c d).v ≠ (coefAt s c d).v) :
    (isOpen i = true ∧ (coefAt t c d).v = false) ∨ (fetches i = true ∧ (coefAt t c d).v = true) := by
  cases h with
  | opens a p op closed address state => exact .inl ⟨op, by rw [state, coefAt_openState, CoefSet.cleared]⟩
  | scans new x op attached table captures state =>
    subst state
    exact .inr ⟨op ▸ rfl, eq_true_of_raised (table.valid c d) hne⟩
  | fills new op table frame slots => exact .inr ⟨op, eq_true_of_raised (table.valid c d) hne⟩
  | keeps plain =>
    have same : coefAt t c d = coefAt s c d := coefAt_of_coef (congrArg (·.coef) plain.frame) c d
    exact absurd (congrArg (·.v) same) hne

theorem Does.writer_of_address (h : Does i s t) (hne : t.pecReq ≠ s.pecReq ∨ t.addr ≠ s.addr) : isOpen i = true := by
  have unless_open : isOpen i = true ∨ (t.pecReq = s.pecReq ∧ t.addr = s.addr) := by
    cases h with
    | opens a p op closed address state => exact .inl op
    | scans new x op attached table captures state =>
      have hreq : x.pecReq = s.pecReq :=
        captures.unchanged (·.pecReq) (fun _ => rfl) (fun _ _ => rfl) (fun _ _ => rfl)
      have haddr : x.addr = s.addr := captures.unchanged (·.addr) (fun _ => rfl) (fun _ _ => rfl) (fun _ _ => rfl)
      subst state
      exact .inr ⟨hreq, haddr⟩
    | fills new op table frame slots => exact .inr ⟨congrArg (·.pecReq) frame, congrArg (·.addr) frame⟩
    | keeps plain => exact .inr ⟨congrArg (·.pecReq) plain.frame, congrArg (·.addr) plain.frame⟩
  tauto

theorem Does.writer_of_slots (h : Does i s t) (hne : t.slot ≠ s.slot ∨ t.qbyte ≠ s.qbyte) :
    isOpen i = true ∨ discovers i = true := by
  cases h with
  | opens a p op closed address state => exact .inl op
  | scans new x op attached table captures state => exact .inr (op ▸ rfl)
  | fills new op table frame slots =>
    refine .inr ?_
    by_contra hd
    obtain ⟨hslot, hbyte, _⟩ := slots (Bool.eq_false_iff.2 hd)
    tauto
  | keeps plain =>
    have hslot : t.slot = s.slot := congrArg (·.slot) plain.frame
    have hbyte : t.qbyte = s.qbyte := congrArg (·.qbyte) plain.frame
    tauto

theorem Does.writer_of_coef (h : Does i s t) (hne : t.coef ≠ s.coef) : isOpen i = true ∨ fetches i = true := by
  cases h with
  | opens a p op closed address state => exact .inl op
  | scans new x op attached table captures state => exact .inr (op ▸ rfl)
  | fills new op table frame slots => exact .inr op
  | keeps plain => exact absurd (congrArg (·.coef) plain.frame) hne

theorem Does.writer_of_pecSaved (h : Does i s t) (hne : t.pecSaved ≠ s.pecSaved) : isReadBlock i = true := by
  have unless_read : isReadBlock i = false → t.pecSaved = s.pecSaved := by
    intro hi
    cases h with
    | opens a p op closed address state => exact state ▸ rfl
    | scans new x op attached table captures state =>
      subst state
      exact captures.unchanged (·.pecSaved) (fun _ => rfl) (fun _ _ => rfl) (fun _ _ => rfl)
    | fills new op table frame slots => exact congrArg (·.pecSaved) frame
    | keeps plain => exact plain.saved hi
  exact not_imp_comm.1 (unless_read ∘ Bool.eq_false_iff.2) hne

theorem Does.writer_of_pecEn (h : Does i s t) :
    t.pecEn ≠ s.pecEn → (isOpen i = true ∧ t.pecEn = false) ∨ (i = .scan ∧ t.pecEn = true) :=
  h.writer_of_captureFlag (·.pecEn) (fun _ => rfl) (fun _ => rfl) (fun _ _ _ => rfl)
    fun _ _ captures => captures.raises (·.pecEn) (fun _ => rfl) (fun _ x hx => by simp [captureCapability, hx])
      (fun _ _ hx => hx)

theorem Does.writer_of_capValid (h : Does i s t) :
    t.capValid ≠ s.capValid → (isOpen i = true ∧ t.capValid = false) ∨ (i = .scan ∧ t.capValid = true) :=
  h.writer_of_captureFlag (·.capValid) (fun _ => rfl) (fun _ => rfl) (fun _ _ _ => rfl)
    fun _ _ captures => captures.raises (·.capValid) (fun _ => rfl) (fun _ _ _ => rfl) (fun _ _ hx => hx)

theorem Does.writer_of_revValid (h : Does i s t) :
    t.revValid ≠ s.revValid → (isOpen i = true ∧ t.revValid = false) ∨ (i = .scan ∧ t.revValid = true) :=
  h.writer_of_captureFlag (·.revValid) (fun _ => rfl) (fun _ => rfl) (fun _ _ _ => rfl)
    fun _ _ captures => captures.raises (·.revValid) (fun _ => rfl) (fun _ _ hx => hx) (fun _ _ _ => rfl)

theorem Does.writer_of_noQuery (h : Does i s t) :
    t.noQuery ≠ s.noQuery → (isOpen i = true ∧ t.noQuery = false) ∨ (discovers i = true ∧ t.noQuery = true) :=
  h.writer_of_discoveryFlag (·.noQuery) (fun _ => rfl) (fun _ _ _ => rfl) (fun _ _ ⟨_, _, same, _⟩ => same)
    fun _ _ _ table => table.sticky

theorem Does.writer_of_voutModeValid (h : Does i s t) :
    t.voutModeValid ≠ s.voutModeValid →
      (isOpen i = true ∧ t.voutModeValid = false) ∨ (discovers i = true ∧ t.voutModeValid = true) :=
  h.writer_of_discoveryFlag (·.voutModeValid) (fun _ => rfl) (fun _ _ _ => rfl) (fun _ _ ⟨_, _, _, same⟩ => same)
    fun _ _ _ table => table.captured

theorem Does.writer_of_bytes (h : Does i s t) (hne : t.capByte ≠ s.capByte ∨ t.revByte ≠ s.revByte) :
    isOpen i = true ∨ i = .scan :=
  hne.elim (h.writer_of_capture (·.capByte) (fun _ => rfl) (fun _ => rfl))
    (h.writer_of_capture (·.revByte) (fun _ => rfl) (fun _ => rfl))

end Writers

/-- Settles O15: the end of an operation writes none of these registers, and each has its lemma. -/
theorem flagsHaveTheirWriters : Obligations.FlagsHaveTheirWriters := by
  intro i s t h
  obtain ⟨e, u, rfl, does⟩ := exec_does h
  exact ⟨does.writer_of_pecEn, does.writer_of_noQuery, does.writer_of_capValid, does.writer_of_revValid,
    does.writer_of_voutModeValid, fun _ _ => does.writer_of_valid, does.writer_of_address, does.writer_of_bytes,
    does.writer_of_slots, does.writer_of_coef, does.writer_of_pecSaved⟩

end Sys2Proof.Machine
end

section
/-! O10. Every step keeps the parts of a legal state. -/

namespace Sys2Proof.Machine

/-! ## The session registers -/

theorem SessionLegal.captureRevision {x : SessionState} {s : State} (h : SessionLegal x s) (v : Byte) :
    SessionLegal x (captureRevision v s) :=
  ⟨h.pec_agreed, h.pec_after_scan, h.open_address, h.unread_bytes.1, fun hv => Bool.noConfusion hv⟩

/-- PEC is off before step (c) of SCAN, so where it is on after it, adapter, device and operator agreed (R225). -/
theorem SessionLegal.captureCapability {s : State} (h : SessionLegal .scanned s) (hoff : s.pecEn = false) (u : Byte) :
    SessionLegal .scanned (captureCapability u s) := by
  refine ⟨fun hon => ?_, fun _ => by decide, h.open_address, fun hv => Bool.noConfusion hv, h.unread_bytes.2⟩
  have agreed : pecAgreed s u = true := by simpa [captureCapability, hoff] using hon
  simp only [pecAgreed, Bool.and_eq_true] at agreed
  obtain ⟨⟨adapter, device⟩, operator⟩ := agreed
  exact ⟨adapter, operator, rfl, device⟩

/-- SCAN, from Attached to Scanned. -/
theorem SessionLegal.captures {s t : State} (h : SessionLegal .attached s) (hc : Captures s t) :
    SessionLegal .scanned t := by
  have off : s.pecEn = false := Bool.eq_false_iff.2 fun hon => absurd rfl (h.pec_after_scan hon).2
  have scanned : SessionLegal .scanned s :=
    ⟨h.pec_agreed, fun _ => by decide, fun _ => h.open_address rfl, h.unread_bytes⟩
  cases hc with
  | neither frame => exact scanned.of_forgetFindings frame
  | capability u frame => exact (scanned.captureCapability off u).of_forgetFindings frame
  | revision v frame => exact (scanned.captureRevision v).of_forgetFindings frame
  | both u v frame => exact ((scanned.captureCapability off u).captureRevision v).of_forgetFindings frame

theorem Does.sessionLegal {i : Instr} {s t : State} (h : Does i s t) (hs : SessionLegal s.sessionState s) :
    SessionLegal t.sessionState t := by
  cases h with
  | opens a p op closed address state =>
    subst state
    exact ⟨fun hon => Bool.noConfusion hon, fun hon => Bool.noConfusion hon, fun _ => address, fun _ => rfl, fun _ => rfl⟩
  | scans new x op attached table captures state =>
    subst state
    exact ((attached ▸ hs).captures captures).of_forgetOutputs rfl
  | fills new op table frame slots =>
    have same : t.sessionState = s.sessionState := congrArg (·.sessionState) frame
    exact same ▸ hs.of_forgetFindings frame
  | keeps plain => exact (hs.moves plain.session).of_forgetOutputs plain.frame

/-! ## The table and the outputs -/

theorem tableLegal_openState (a : BitVec 7) (p : Bool) (s : State) : TableLegal (openState a p s) where
  extended_slots := ⟨slotAt_openState a p s _, slotAt_openState a p s _⟩
  resolved_byte c := by simp [qSupported]
  unresolved_byte c _ := qbyteAt_openState a p s c
  vout_captured hv := Bool.noConfusion hv

theorem Does.tableLegal {i : Instr} {s t : State} (h : Does i s t) (hs : TableLegal s) : TableLegal t := by
  cases h with
  | opens a p op closed address state => exact state ▸ tableLegal_openState a p s
  | scans new x op attached table captures state =>
    subst state
    exact (table.legal hs).of_findings rfl
  | fills new op table frame slots => exact table.legal hs
  | keeps plain => exact hs.of_findings (findings_of_forgetOutputs plain.frame)

theorem OutputLegal.captures {s t : State} (h : OutputLegal s) (hc : Captures s t) : OutputLegal t := by
  cases hc with
  | neither frame | capability _ frame | revision _ frame | both _ _ frame =>
    refine OutputLegal.of_forgetFindings ?_ frame
    exact ⟨h.data_canonical, h.rlen_bound, h.value_form⟩

theorem Does.outputLegal {i : Instr} {s t : State} (h : Does i s t) (hs : OutputLegal s) : OutputLegal t := by
  cases h with
  | opens a p op closed address state =>
    subst state
    exact ⟨hs.data_canonical, hs.rlen_bound, hs.value_form⟩
  | scans new x op attached table captures state =>
    have hx := hs.captures captures
    subst state
    exact ⟨hx.data_canonical, hx.rlen_bound, hx.value_form⟩
  | fills new op table frame slots => exact hs.of_forgetFindings frame
  | keeps plain => exact plain.output hs

/-! ## The machine -/

/-- The end of an operation gives `CAUSE` as `STATUS` asks for it (60_exceptions.md R252, R254) and writes nothing else. -/
theorem legalState_endOperation {s : State} (e : Exit) (session : SessionLegal s.sessionState s) (table : TableLegal s)
    (output : OutputLegal s) : LegalState (endOperation e s) := by
  rw [legalState_iff]
  exact ⟨session.of_forgetOutputs rfl, table.of_findings rfl,
    ⟨output.data_canonical, output.rlen_bound, output.value_form⟩, exitStatus_transportError_iff e⟩

theorem exec_keeps_legal {i : Instr} {s t : State} (hs : LegalState s) (h : exec i s = .next t) : LegalState t := by
  obtain ⟨e, u, rfl, does⟩ := exec_does h
  obtain ⟨session, table, output, _⟩ := (legalState_iff s).1 hs
  exact legalState_endOperation e (does.sessionLegal session) (does.tableLegal table) (does.outputLegal output)

theorem illegalRequest_keeps_legal {s : State} (hs : LegalState s) : LegalState (illegalRequest s) := by
  obtain ⟨session, table, output, _⟩ := (legalState_iff s).1 hs
  exact legalState_endOperation .illegalOp session table output

theorem consumeRequest_keeps_legal {s : State} (hs : LegalState s) : LegalState (consumeRequest s) := { hs with }

theorem hostTurn_keeps_legal {s t : State} (hs : LegalState s) (h : hostTurn s = .next t) : LegalState t := by
  rcases hostTurn_next h with ⟨_, rfl⟩ | ⟨i, v, rest, _, hi, rfl⟩ | ⟨w, rest, _, rfl⟩
  · exact hs
  · exact { hs with data_canonical := Memory.wf_write v hs.data_canonical hi }
  · exact { hs with }

/-- Settles O10: the three kinds of step. -/
theorem stepKeepsLegalStates : Obligations.StepKeepsLegalStates := by
  intro s t hs h
  rcases step_next h with ⟨_, host⟩ | ⟨w, _, ⟨i, _, op⟩ | ⟨_, rfl⟩⟩
  · exact hostTurn_keeps_legal hs host
  · exact exec_keeps_legal (consumeRequest_keeps_legal hs) op
  · exact illegalRequest_keeps_legal (consumeRequest_keeps_legal hs)

end Sys2Proof.Machine
end

section
/-! O18. The bus log, the answers and the draw counter across an operation, SCAN (which turns PEC on half way) included. -/

namespace Sys2Proof.Machine

/-! ## Runs of transactions -/

/-- What O18 accounts for: the bus side but for the CRC accumulator, the parameters, and the host's side. -/
def ledger (s : State) : List Transaction × List BusAnswer × Nat × Params × Option Request × List HostAction :=
  (s.busLog, s.answers, s.draws, s.params, s.req, s.host)

/-- Part of operation `i` put `new` on the bus between `s` and `t`: one answer for each (40_transport.md R108), every one to
`ADDR` (20_memory.md R51) and permitted (R101). PEC, which `Traffic` bounds by `PEC_EN` at its start, is left out. -/
structure Sends (i : Instr) (new : List Transaction) (s t : State) : Prop where
  log     : t.busLog = s.busLog ++ new
  allowed : ∀ x ∈ new, x.addr = s.addr ∧ permitted s.params x.req = true
  answers : t.answers = s.answers.drop new.length
  draws   : s.draws + new.length ≤ t.draws
  no_read : isWriteBlock i = false → t.draws = s.draws + new.length
  params  : t.params = s.params
  req     : t.req = s.req
  host    : t.host = s.host

section Sends

variable {i : Instr} {new n₁ n₂ : List Transaction} {s t u : State}

theorem Sends.congr (h : Sends i new s t) (hu : ledger u = ledger t) : Sends i new s u := by
  simp only [ledger, Prod.mk.injEq] at hu
  obtain ⟨hlog, hanswers, hdraws, hparams, hreq, hhost⟩ := hu
  exact ⟨hlog ▸ h.log, h.allowed, hanswers ▸ h.answers, hdraws ▸ h.draws, hdraws ▸ h.no_read, hparams ▸ h.params,
    hreq ▸ h.req, hhost ▸ h.host⟩

theorem Sends.of_traffic (h : Traffic new s t) (hparams : t.params = s.params) (hreq : t.req = s.req)
    (hhost : t.host = s.host) : Sends i new s t := by
  refine ⟨h.log, fun x hx => ?_, h.answers, h.draws.ge, fun _ => h.draws, hparams, hreq, hhost⟩
  obtain ⟨haddr, hpermitted, _⟩ := h.allowed x hx
  exact ⟨haddr, hpermitted⟩

theorem Sends.none (i : Instr) (h : ledger t = ledger s) : Sends i [] s t :=
  Sends.congr (.of_traffic (.none s) rfl rfl rfl) h

/-- A second run after a first one that left `ADDR` alone. -/
theorem Sends.append (h₁ : Sends i n₁ s t) (haddr : t.addr = s.addr) (h₂ : Sends i n₂ t u) :
    Sends i (n₁ ++ n₂) s u where
  log := by rw [h₂.log, h₁.log, List.append_assoc]
  allowed := by
    intro x hx
    rcases List.mem_append.1 hx with hx | hx
    · exact h₁.allowed x hx
    · exact haddr ▸ h₁.params ▸ h₂.allowed x hx
  answers := by rw [h₂.answers, h₁.answers, List.drop_drop, List.length_append]
  draws := by
    have := h₁.draws
    have := h₂.draws
    rw [List.length_append]
    omega
  no_read hi := by rw [h₂.no_read hi, h₁.no_read hi, List.length_append, Nat.add_assoc]
  params := h₂.params.trans h₁.params
  req := h₂.req.trans h₁.req
  host := h₂.host.trans h₁.host

theorem OnlyBus.addr (h : OnlyBus s t) : t.addr = s.addr := by rw [h]

theorem OnlyBus.sends (h : OnlyBus s t) (traffic : Traffic new s t) : Sends i new s t :=
  .of_traffic traffic (by rw [h]) (by rw [h]) (by rw [h])

theorem OneCall.sends {r : BusReq} (h : OneCall r s t) (i : Instr) : (∃ new, Sends i new s t) ∧ t.addr = s.addr := by
  obtain ⟨new, traffic, honly, _⟩ := h
  exact ⟨⟨new, honly.sends traffic⟩, honly.addr⟩

theorem Discovered.sends (h : Discovered new s t) : Sends i new s t :=
  .of_traffic h.traffic h.params (by rw [h.frame]) (by rw [h.frame])

/-- The read of `DATA` in a WRITE_BLOCK is a draw without a transaction (log 10). -/
theorem afterDataRead_sends (cmd : Word16) (n : BitVec 12) (s : State) :
    Sends (.writeBlock cmd n) [] s (afterDataRead s) where
  log := (List.append_nil _).symm
  allowed := by simp
  answers := rfl
  draws := Nat.le_succ _
  no_read hi := Bool.noConfusion hi
  params := rfl
  req := rfl
  host := rfl

/-! ## SCAN -/

theorem readCapability_sends (h : readCapability s = .ok ((), t)) : (∃ new, Sends i new s t) ∧ t.addr = s.addr := by
  obtain ⟨new, u, traffic, honly, _, rfl | ⟨b, rfl, _⟩⟩ := readCapability_cases h
  · exact ⟨⟨new, honly.sends traffic⟩, honly.addr⟩
  · exact ⟨⟨new, (honly.sends traffic).congr rfl⟩, honly.addr⟩

theorem readRevision_sends (h : readRevision s = .ok ((), t)) : (∃ new, Sends i new s t) ∧ t.addr = s.addr := by
  obtain ⟨new, u, traffic, honly, _, rfl | ⟨b, rfl⟩⟩ := readRevision_cases h
  · exact ⟨⟨new, honly.sends traffic⟩, honly.addr⟩
  · exact ⟨⟨new, (honly.sends traffic).congr rfl⟩, honly.addr⟩

/-- Steps (b) to (e): four runs, each to the address the ones before it left. -/
theorem discover_sends (h : discover s = .ok ((), t)) : ∃ new, Sends i new s t := by
  obtain ⟨s₁, s₂, s₃, hprobe, hcap, hrev, hsweep⟩ := discover_cases h
  obtain ⟨n₁, probed, _⟩ := probe_discovered hprobe
  obtain ⟨⟨n₂, capability⟩, haddr₂⟩ := readCapability_sends (i := i) hcap
  obtain ⟨⟨n₃, revision⟩, haddr₃⟩ := readRevision_sends (i := i) hrev
  obtain ⟨n₄, swept, _⟩ := sweep_discovered hsweep
  exact ⟨_, probed.sends.append probed.addr (capability.append haddr₂ (revision.append haddr₃ swept.sends))⟩

/-! ## Every operation -/

/-- What the effect of any operation puts on the bus. -/
theorem effect_sends {e : Exit} (h : Effect i s e t) : ∃ new, Sends i new s t := by
  cases i with
  | openSession | report | closeSession | getSession | getSlot | classify | decodeValue | decodeLinear11 | decodeDirect
  | decodeVout | decodeBitmap =>
    obtain ⟨_, rfl⟩ := h
    exact ⟨[], .none _ rfl⟩
  | getCoef cmd arg =>
    obtain ⟨_, _, _, rfl⟩ := h
    exact ⟨[], .none _ rfl⟩
  | scan =>
    obtain ⟨_, rfl⟩ | ⟨w, hcall, h⟩ := h
    · exact ⟨[], .none _ rfl⟩
    obtain ⟨⟨n₀, quick⟩, haddr⟩ := hcall.sends .scan
    obtain ⟨_, _, rfl⟩ | ⟨x, hx, _, rfl⟩ := h
    · exact ⟨n₀, quick.congr rfl⟩
    · obtain ⟨n₁, discovery⟩ := discover_sends (i := .scan) hx
      exact ⟨n₀ ++ n₁, (quick.append haddr discovery).congr rfl⟩
  | pageSelect page =>
    obtain ⟨w, hcall, h⟩ := h
    obtain ⟨⟨new, sent⟩, _⟩ := hcall.sends (.pageSelect page)
    obtain ⟨_, rfl⟩ | ⟨_, _, rfl⟩ := h <;> exact ⟨new, sent.congr rfl⟩
  | quickPresence =>
    obtain ⟨_, rfl⟩ | ⟨w, hcall, h⟩ := h
    · exact ⟨[], .none _ rfl⟩
    obtain ⟨⟨new, sent⟩, _⟩ := hcall.sends .quickPresence
    obtain ⟨_, _, rfl⟩ | ⟨_, _, rfl⟩ := h <;> exact ⟨new, sent.congr rfl⟩
  | readByte cmd | readWord cmd =>
    obtain ⟨w, hcall, h⟩ := h
    obtain ⟨⟨new, sent⟩, _⟩ := hcall.sends _
    obtain ⟨_, _, rfl⟩ | ⟨_, _, rfl⟩ := h <;> exact ⟨new, sent.congr rfl⟩
  | readBlock cmd n =>
    obtain ⟨w, hcall, h⟩ := h
    obtain ⟨⟨n₁, first⟩, haddr⟩ := hcall.sends (.readBlock cmd n)
    have length : Sends (.readBlock cmd n) n₁ s { w with pecSaved := s.pecEn } := first.congr rfl
    obtain ⟨_, _, rfl⟩ | ⟨_, rfl⟩ | ⟨r, x, _, hcall, h⟩ := h
    · exact ⟨n₁, length⟩
    · exact ⟨n₁, length⟩
    obtain ⟨⟨n₂, block⟩, _⟩ := hcall.sends (.readBlock cmd n)
    have both := length.append haddr block
    obtain ⟨_, rfl⟩ | ⟨_, _, _, rfl⟩ := h <;> exact ⟨n₁ ++ n₂, both.congr rfl⟩
  | writeByte cmd v | writeWord cmd v =>
    obtain ⟨hcall, _⟩ := h
    obtain ⟨sent, _⟩ := hcall.sends _
    exact sent
  | writeBlock cmd n =>
    have data := afterDataRead_sends cmd n s
    obtain ⟨_, rfl⟩ | ⟨r, bs, _, hcall, _⟩ := h
    · exact ⟨[], data⟩
    · obtain ⟨⟨new, sent⟩, _⟩ := hcall.sends (.writeBlock cmd n)
      exact ⟨[] ++ new, data.append rfl sent⟩
  | checkSupport cmd =>
    obtain ⟨v, x, hx, _, rfl⟩ := h
    obtain ⟨new, found, _⟩ := checkSupportCore_discovered hx
    exact ⟨new, found.sends.congr rfl⟩
  | fetchCoefficients cmd arg =>
    obtain ⟨d, _, hx, _⟩ := h
    obtain ⟨⟨new, found⟩, _⟩ := fetchCoefficientsCore_does hx
    exact ⟨new, found.sends⟩

theorem exec_sends (h : exec i s = .next t) : ∃ new, Sends i new s t := by
  obtain ⟨e, u, rfl, ⟨rfl, _⟩ | ⟨_, _, _, effect⟩⟩ := exec_next h
  · exact ⟨[], .none i rfl⟩
  · obtain ⟨new, sent⟩ := effect_sends effect
    exact ⟨new, sent.congr rfl⟩

end Sends

/-- Settles O18: what an operation sends is what is new in its log. -/
theorem everyTransactionIsPermitted : Obligations.EveryTransactionIsPermitted := by
  intro i s t h
  obtain ⟨new, sent⟩ := exec_sends h
  rw [newTransactions_eq sent.log]
  exact ⟨sent.log, sent.allowed, sent.answers, sent.draws, sent.no_read, sent.params, sent.req, sent.host⟩

end Sys2Proof.Machine
end

section
/-! O20. What an operation writes to `DATA` and the result registers. -/

namespace Sys2Proof.Machine

/-- `DATA` and the result registers are unchanged. -/
def SameOutputs (s t : State) : Prop := t.data = s.data ∧ SameResults s t

/-- What operation `i`, which ends with `e`, writes to `DATA` and the result registers. -/
inductive Writes (i : Instr) (e : Exit) (s t : State) : Prop
  /-- Nothing: every failure among it (60_exceptions.md R254). -/
  | nothing (same : SameOutputs s t)
  /-- `RESULT`, `VALUE` or `VALUE_KIND`, with OK. -/
  | results (ended : e = .ok) (data : t.data = s.data) (rlen : t.rlen = s.rlen)
  /-- READ_BLOCK of the device's bytes `bs` (40_transport.md R114). -/
  | delivers (cmd : Word16) (n : BitVec 12) (bs : List Byte) (op : i = .readBlock cmd n) (fits : bs.length ≤ 255)
      (ended : e = .ok ∨ e = .sizeExceeded) (data : t.data = Memory.writeFrom s.data 0 (bs.take n.toNat))
      (rlen : t.rlen = BitVec.ofNat 9 (min bs.length n.toNat))

/-! ## Parts of an operation that write nothing -/

theorem SameOutputs.refl (s : State) : SameOutputs s s := ⟨rfl, rfl, rfl, rfl, rfl⟩

theorem SameOutputs.trans {s t u : State} (h₁ : SameOutputs s t) (h₂ : SameOutputs t u) : SameOutputs s u := by
  obtain ⟨hdata, hresult, hrlen, hkind, hvalue⟩ := h₁
  obtain ⟨hdata', hresult', hrlen', hkind', hvalue'⟩ := h₂
  exact ⟨hdata'.trans hdata, hresult'.trans hresult, hrlen'.trans hrlen, hkind'.trans hkind, hvalue'.trans hvalue⟩

theorem OneCall.sameOutputs {r : BusReq} {s t : State} (h : OneCall r s t) : SameOutputs s t := by
  obtain ⟨_, _, honly, _⟩ := h
  rw [honly]
  exact .refl s

theorem Discovered.sameOutputs {new : List Transaction} {s t : State} (h : Discovered new s t) : SameOutputs s t := by
  rw [h.frame]
  exact .refl s

/-! ## Every operation -/

theorem effect_writes {i : Instr} {e : Exit} {s t : State} (h : Effect i s e t) : Writes i e s t := by
  cases i with
  | openSession | report | closeSession =>
    obtain ⟨_, rfl⟩ := h
    exact .nothing (.refl s)
  | getSession | getSlot | classify | decodeValue | decodeLinear11 | decodeDirect | decodeVout | decodeBitmap =>
    obtain ⟨rfl, rfl⟩ := h
    exact .results rfl rfl rfl
  | getCoef cmd arg =>
    obtain ⟨_, _, rfl, rfl⟩ := h
    exact .results rfl rfl rfl
  | scan =>
    obtain ⟨_, rfl⟩ | ⟨w, hcall, ⟨_, _, rfl⟩ | ⟨x, hx, rfl, rfl⟩⟩ := h
    · exact .nothing (.refl s)
    · exact .nothing hcall.sameOutputs
    · obtain ⟨_, captures⟩ := discover_does hx
      obtain ⟨hdata, _, hrlen, _⟩ := hcall.sameOutputs
      exact .results rfl
        ((captures.unchanged (·.data) (fun _ => rfl) (fun _ _ => rfl) (fun _ _ => rfl)).trans hdata)
        ((captures.unchanged (·.rlen) (fun _ => rfl) (fun _ _ => rfl) (fun _ _ => rfl)).trans hrlen)
  | pageSelect page =>
    obtain ⟨w, hcall, ⟨_, rfl⟩ | ⟨_, _, rfl⟩⟩ := h <;> exact .nothing hcall.sameOutputs
  | quickPresence =>
    obtain ⟨_, rfl⟩ | ⟨w, hcall, h⟩ := h
    · exact .nothing (.refl _)
    obtain ⟨hdata, _, hrlen, _⟩ := hcall.sameOutputs
    obtain ⟨_, rfl, rfl⟩ | ⟨_, _, rfl⟩ := h
    · exact .results rfl hdata hrlen
    · exact .nothing hcall.sameOutputs
  | readByte cmd | readWord cmd =>
    obtain ⟨w, hcall, h⟩ := h
    obtain ⟨hdata, _, hrlen, _⟩ := hcall.sameOutputs
    obtain ⟨_, rfl, rfl⟩ | ⟨_, _, rfl⟩ := h
    · exact .results rfl hdata hrlen
    · exact .nothing hcall.sameOutputs
  | readBlock cmd n =>
    obtain ⟨w, hcall, h⟩ := h
    have length : SameOutputs s { w with pecSaved := s.pecEn } := hcall.sameOutputs
    obtain ⟨_, _, rfl⟩ | ⟨_, rfl⟩ | ⟨r, x, _, hcall, h⟩ := h
    · exact .nothing length
    · exact .nothing length
    have both := length.trans hcall.sameOutputs
    obtain ⟨_, rfl⟩ | ⟨bs, hbs, ended, rfl⟩ := h
    · exact .nothing both
    · obtain ⟨hdata, _⟩ := both
      exact .delivers cmd n bs rfl hbs ended (by rw [hdata]) rfl
  | writeByte cmd v | writeWord cmd v =>
    obtain ⟨hcall, _⟩ := h
    exact .nothing hcall.sameOutputs
  | writeBlock cmd n =>
    obtain ⟨_, rfl⟩ | ⟨r, bs, _, hcall, _⟩ := h
    · exact .nothing (.refl s)
    · have sent : SameOutputs s t := hcall.sameOutputs
      exact .nothing sent
  | checkSupport cmd =>
    obtain ⟨v, x, hx, rfl, rfl⟩ := h
    obtain ⟨_, found, _⟩ := checkSupportCore_discovered hx
    obtain ⟨hdata, _, hrlen, _⟩ := found.sameOutputs
    exact .results rfl hdata hrlen
  | fetchCoefficients cmd arg =>
    obtain ⟨d, _, hx, _⟩ := h
    obtain ⟨⟨_, found⟩, _⟩ := fetchCoefficientsCore_does hx
    exact .nothing found.sameOutputs

/-- The end of an operation writes `STATUS` and `CAUSE` alone (R254). -/
theorem Writes.atEnd {i : Instr} {e : Exit} {s t : State} (h : Writes i e s t) : Writes i e s (endOperation e t) := by
  cases h with
  | nothing same => exact .nothing same
  | results ended data rlen => exact .results ended data rlen
  | delivers cmd n bs op fits ended data rlen => exact .delivers cmd n bs op fits ended data rlen

theorem exec_writes {i : Instr} {s t : State} (h : exec i s = .next t) :
    ∃ e, t.status = exitStatus e ∧ Writes i e s t := by
  obtain ⟨e, u, rfl, ⟨rfl, _⟩ | ⟨_, _, _, effect⟩⟩ := exec_next h
  · exact ⟨e, rfl, .nothing (.refl u)⟩
  · exact ⟨e, rfl, (effect_writes effect).atEnd⟩

/-- What stands past the last byte written is left alone. -/
theorem Memory.read?_writeFrom_past {bs : List Byte} {j : Nat} (m : Memory) (h : bs.length ≤ j) :
    Memory.read? (Memory.writeFrom m 0 bs) j = Memory.read? m j := by
  rw [Memory.read?_writeFrom, if_neg (by omega)]

/-- Settles O20: the three kinds of `Writes`. -/
theorem dataAndResultsHaveTheirWriters : Obligations.DataAndResultsHaveTheirWriters := by
  intro i s t h
  obtain ⟨e, hstatus, writes⟩ := exec_writes h
  cases writes with
  | nothing same =>
    obtain ⟨hdata, hresults⟩ := same
    have ⟨_, hrlen, _⟩ := hresults
    exact ⟨fun _ => ⟨hdata, hrlen⟩, fun _ _ _ _ _ => by rw [hdata], by rw [hdata], fun _ _ => ⟨hdata, hresults⟩⟩
  | results ended data rlen =>
    subst ended
    exact ⟨fun _ => ⟨data, rlen⟩, fun _ _ _ _ _ => by rw [data], by rw [data], fun hok => absurd hstatus hok⟩
  | delivers cmd n bs op fits ended data rlen =>
    subst op
    have written : (bs.take n.toNat).length = min n.toNat bs.length := List.length_take
    refine ⟨Bool.noConfusion, ?_, ?_, fun hok hsize => ?_⟩
    · intro cmd' n' hop j hj
      cases hop
      rw [rlen, BitVec.toNat_ofNat] at hj
      rw [data, Memory.read?_writeFrom_past _ (by omega)]
    · rw [data, Memory.read?_writeFrom_past _ (by omega)]
    · rcases ended with rfl | rfl
      · exact absurd hstatus hok
      · exact absurd hstatus hsize

end Sys2Proof.Machine
end

section
/-! O1 to O4. Request words: the three answers of the decoder, by `RSV` and `OP` (30_encoding.md R73), and the operand
fields each row of R75 reads. -/

namespace Sys2Proof.Machine

/-- Settles O1. -/
theorem decodeOfEncode : Obligations.DecodeOfEncode := decode_encode

/-- Settles O4: each word is the encoder's word for its operation. -/
theorem sampleRequestsDecode : Obligations.SampleRequestsDecode :=
  ⟨decode_encode (.openSession 0x40#7 true), decode_encode .scan, decode_encode (.pageSelect 0x01#8),
    decode_encode (.readByte 0x0098#16), decode_encode (.readBlock 0x00A0#16 20#12),
    decode_encode (.writeWord 0x0021#16 0x0C00#16), decode_encode (.checkSupport 0x008B#16),
    decode_encode (.fetchCoefficients 0x008B#16 1#16), decode_encode (.decodeValue 0x008B#16 0xE8C8#16),
    decode_encode (.decodeBitmap 0x8041#16)⟩

/-! ## The fields of a word -/

/-- R70: a word whose `RSV` is zero is its other four fields, assembled. -/
theorem pack_fields {w : Request} (h : rsvField w = 0#12) :
    pack (opField w) (cmdField w) (argField w) (lenField w) = w := by
  have hrsv : (rsvField w).toNat = 0 := by rw [h]; rfl
  have hw := w.isLt
  apply BitVec.eq_of_toNat_eq
  simp only [pack_toNat, opField, cmdField, argField, lenField, rsvField, BitVec.extractLsb'_toNat,
    Nat.shiftRight_eq_div_pow] at hrsv ⊢
  omega

theorem opField_and (w m : Request) : opField (w &&& m) = opField w &&& opField m := BitVec.extractLsb'_and ..

theorem rsvField_and (w m : Request) : rsvField (w &&& m) = rsvField w &&& rsvField m := BitVec.extractLsb'_and ..

/-- A byte operand of `ARG` is `ARG` with its ignored bits cleared (R72, R76). -/
theorem byteArg_argLow (arg : Word16) : byteArg (argLow arg) = arg &&& 0x00FF#16 := by
  apply BitVec.eq_of_toNat_eq
  rw [byteArg_toNat, argLow, BitVec.extractLsb'_toNat, BitVec.toNat_and]
  exact (Nat.and_two_pow_sub_one_eq_mod _ 8).symm

/-- The two operands of OPEN are the low byte of `ARG` (R75). -/
theorem openArg_operands (arg : Word16) : openArg (argAddr arg) (argPec arg) = byteArg (argLow arg) := by
  have of_low : ∀ b : Byte, openArg (b.extractLsb' 0 7) (b.getLsbD 7) = byteArg b := by decide
  have addr_of_low : argAddr arg = (argLow arg).extractLsb' 0 7 := by
    apply BitVec.eq_of_toNat_eq
    simp only [argAddr, argLow, BitVec.extractLsb'_toNat, Nat.shiftRight_zero]
    omega
  have pec_of_low : argPec arg = (argLow arg).getLsbD 7 := by simp [argPec, argLow]
  rw [addr_of_low, pec_of_low, of_low]

/-! ## The fields a row of R75 reads -/

/-- The bits `OP` and `RSV`, and of the operand fields the bits of `c`, `a` and `l`. -/
def fieldMask (c a : Word16) (l : BitVec 12) : Request := BitVec.allOnes 12 ++ l ++ a ++ c ++ BitVec.allOnes 8

/-- A mask on an assembled word is a mask on each of its operand fields. -/
theorem pack_eq_and {op : Byte} {cmd c cmd' arg a arg' : Word16} {len l len' : BitVec 12} {m : Request}
    (hcmd : cmd &&& c = cmd') (harg : arg &&& a = arg') (hlen : len &&& l = len') (hm : m = fieldMask c a l) :
    pack op cmd' arg' len' = pack op cmd arg len &&& m := by
  have by_fields : (0#12 ++ len ++ arg ++ cmd ++ op : BitVec (12 + 12 + 16 + 16 + 8)) &&&
      (BitVec.allOnes 12 ++ l ++ a ++ c ++ BitVec.allOnes 8) = 0#12 ++ len' ++ arg' ++ cmd' ++ op := by
    simp only [BitVec.and_append, BitVec.and_allOnes, hcmd, harg, hlen]
  rw [hm]
  exact by_fields.symm

section Rows

variable {op : Byte} {cmd arg : Word16} {len : BitVec 12}

theorem pack_none_eq_and : pack op 0 0 0 = pack op cmd arg len &&& 0xFFF00000000000FF#64 :=
  pack_eq_and BitVec.and_zero BitVec.and_zero BitVec.and_zero (by decide)

theorem pack_argLow_eq_and : pack op 0 (byteArg (argLow arg)) 0 = pack op cmd arg len &&& 0xFFF00000FF0000FF#64 :=
  pack_eq_and BitVec.and_zero (byteArg_argLow arg).symm BitVec.and_zero (by decide)

theorem pack_openArg_eq_and :
    pack op 0 (openArg (argAddr arg) (argPec arg)) 0 = pack op cmd arg len &&& 0xFFF00000FF0000FF#64 := by
  rw [openArg_operands, pack_argLow_eq_and]

theorem pack_arg_eq_and : pack op 0 arg 0 = pack op cmd arg len &&& 0xFFF000FFFF0000FF#64 :=
  pack_eq_and BitVec.and_zero BitVec.and_allOnes BitVec.and_zero (by decide)

theorem pack_cmd_eq_and : pack op cmd 0 0 = pack op cmd arg len &&& 0xFFF0000000FFFFFF#64 :=
  pack_eq_and BitVec.and_allOnes BitVec.and_zero BitVec.and_zero (by decide)

theorem pack_cmd_argLow_eq_and :
    pack op cmd (byteArg (argLow arg)) 0 = pack op cmd arg len &&& 0xFFF00000FFFFFFFF#64 :=
  pack_eq_and BitVec.and_allOnes (byteArg_argLow arg).symm BitVec.and_zero (by decide)

theorem pack_cmd_arg_eq_and : pack op cmd arg 0 = pack op cmd arg len &&& 0xFFF000FFFFFFFFFF#64 :=
  pack_eq_and BitVec.and_allOnes BitVec.and_allOnes BitVec.and_zero (by decide)

theorem pack_cmd_len_eq_and : pack op cmd 0 len = pack op cmd arg len &&& 0xFFFFFF0000FFFFFF#64 :=
  pack_eq_and BitVec.and_allOnes BitVec.and_zero BitVec.and_allOnes (by decide)

end Rows

/-- The tables of R71 and R75, row by row: the operation `OP` names, and that it encodes to the bits its row reads. -/
theorem operation_of_defined (cmd arg : Word16) (len : BitVec 12) : ∀ op ∈ definedOps,
    ∃ i, operation op cmd arg len = some i ∧ encode i = pack op cmd arg len &&& readBits op := by
  simp only [definedOps, List.forall_mem_cons]
  exact ⟨⟨.openSession _ _, rfl, pack_openArg_eq_and⟩, ⟨.scan, rfl, pack_none_eq_and⟩,
    ⟨.pageSelect _, rfl, pack_argLow_eq_and⟩, ⟨.report, rfl, pack_none_eq_and⟩,
    ⟨.closeSession, rfl, pack_none_eq_and⟩, ⟨.getSession, rfl, pack_none_eq_and⟩,
    ⟨.quickPresence, rfl, pack_none_eq_and⟩, ⟨.readByte _, rfl, pack_cmd_eq_and⟩,
    ⟨.readWord _, rfl, pack_cmd_eq_and⟩, ⟨.readBlock _ _, rfl, pack_cmd_len_eq_and⟩,
    ⟨.writeByte _ _, rfl, pack_cmd_argLow_eq_and⟩, ⟨.writeWord _ _, rfl, pack_cmd_arg_eq_and⟩,
    ⟨.writeBlock _ _, rfl, pack_cmd_len_eq_and⟩, ⟨.checkSupport _, rfl, pack_cmd_eq_and⟩,
    ⟨.fetchCoefficients _ _, rfl, pack_cmd_arg_eq_and⟩, ⟨.getSlot _, rfl, pack_cmd_eq_and⟩,
    ⟨.getCoef _ _, rfl, pack_cmd_arg_eq_and⟩, ⟨.classify _, rfl, pack_cmd_eq_and⟩,
    ⟨.decodeValue _ _, rfl, pack_cmd_arg_eq_and⟩, ⟨.decodeLinear11 _, rfl, pack_arg_eq_and⟩,
    ⟨.decodeDirect _ _, rfl, pack_cmd_arg_eq_and⟩, ⟨.decodeVout _, rfl, pack_arg_eq_and⟩,
    ⟨.decodeBitmap _, rfl, pack_arg_eq_and⟩, List.forall_mem_nil _⟩

theorem operation_of_undefined {op : Byte} (h : op ∉ definedOps) (cmd arg : Word16) (len : BitVec 12) :
    operation op cmd arg len = none := by
  have not_row : ∀ n ∈ definedOps.map BitVec.toNat, op.toNat ≠ n := by
    rintro _ hn rfl
    exact h ((List.mem_map_of_injective fun _ _ => BitVec.eq_of_toNat_eq).1 hn)
  unfold operation
  split
  case h_24 => rfl
  all_goals next hop => exact absurd hop (not_row _ (by decide))

/-! ## The three answers of the decoder (R73) -/

theorem decode_of_reserved {w : Request} (h : rsvField w ≠ 0#12) : decode w = .error .reservedNotZero := by
  rw [decode, if_neg h]

theorem decode_of_undefined {w : Request} (hrsv : rsvField w = 0#12) (hop : opField w ∉ definedOps) :
    decode w = .error .undefinedOp := by
  rw [decode, if_pos hrsv, operation_of_undefined hop]

theorem decode_of_legal {w : Request} (hrsv : rsvField w = 0#12) (hop : opField w ∈ definedOps) :
    ∃ i, decode w = .ok i ∧ encode i = w &&& readBits (opField w) := by
  obtain ⟨i, named, bits⟩ := operation_of_defined (cmdField w) (argField w) (lenField w) (opField w) hop
  rw [pack_fields hrsv] at bits
  exact ⟨i, by rw [decode, if_pos hrsv, named], bits⟩

theorem decode_of_illegal {w : Request} (h : opField w ∉ definedOps ∨ rsvField w ≠ 0#12) :
    ∃ e, decode w = .error e := by
  by_cases hrsv : rsvField w = 0#12
  · exact ⟨_, decode_of_undefined hrsv (h.resolve_right (not_not_intro hrsv))⟩
  · exact ⟨_, decode_of_reserved hrsv⟩

/-- What the decoder answers encodes back to the bits of the word its row reads. -/
theorem encode_of_decode {w : Request} {i : Instr} (h : decode w = .ok i) : encode i = w &&& readBits (opField w) := by
  by_cases legal : opField w ∈ definedOps ∧ rsvField w = 0#12
  · obtain ⟨j, decoded, bits⟩ := decode_of_legal legal.2 legal.1
    cases h.symm.trans decoded
    exact bits
  · obtain ⟨e, illegal⟩ := decode_of_illegal (not_and_or.1 legal)
    cases h.symm.trans illegal

/-! ## The bits of a row -/

/-- Every mask holds `OP` and `RSV`. -/
theorem readBits_op_rsv : ∀ op : Byte, opField (readBits op) = 0xFF#8 ∧ rsvField (readBits op) = 0xFFF#12 := by decide

theorem opField_and_readBits (w : Request) (op : Byte) : opField (w &&& readBits op) = opField w := by
  rw [opField_and, (readBits_op_rsv op).1]
  exact BitVec.and_allOnes

theorem rsvField_and_readBits (w : Request) (op : Byte) : rsvField (w &&& readBits op) = rsvField w := by
  rw [rsvField_and, (readBits_op_rsv op).2]
  exact BitVec.and_allOnes

/-- Clearing the bits the row does not read changes no answer of the decoder. -/
theorem decode_and_readBits (w : Request) : decode (w &&& readBits (opField w)) = decode w := by
  by_cases hrsv : rsvField w = 0#12
  · have hrsv' := (rsvField_and_readBits w (opField w)).trans hrsv
    by_cases hop : opField w ∈ definedOps
    · obtain ⟨i, decoded, bits⟩ := decode_of_legal hrsv hop
      rw [← bits, decode_encode, decoded]
    · have hop' := opField_and_readBits w (opField w) ▸ hop
      rw [decode_of_undefined hrsv hop, decode_of_undefined hrsv' hop']
  · have hrsv' := (rsvField_and_readBits w (opField w)).trans_ne hrsv
    rw [decode_of_reserved hrsv, decode_of_reserved hrsv']

/-- Settles O2: words that agree on the row's bits have the same `OP`, so the same mask, and decode as the masked word. -/
theorem decoderReadsTheFieldsOfItsRow : Obligations.DecoderReadsTheFieldsOfItsRow := by
  refine ⟨fun w w' agree => ?_, fun w i => encode_of_decode⟩
  have same_op : opField w' = opField w := by
    rw [← opField_and_readBits w' (opField w), ← agree, opField_and_readBits]
  calc decode w' = decode (w' &&& readBits (opField w)) := by rw [← same_op, decode_and_readBits]
    _ = decode (w &&& readBits (opField w)) := by rw [agree]
    _ = decode w := decode_and_readBits w

/-! ## Illegal words -/

theorem step_of_illegal {s : State} {w : Request} {e : DecodeError} (hreq : s.req = some w) (hw : decode w = .error e) :
    step s = .next { s with req := none, status := .illegalOp, cause := .noCause } := by
  simp only [step, hreq, hw]
  rfl

/-- Settles O3: the decoder answers an error for exactly the words of R73, and the step ends it with ILLEGAL_OP. -/
theorem illegalRequestsChangeOnlyTheStatus : Obligations.IllegalRequestsChangeOnlyTheStatus := by
  refine fun w => ⟨fun illegal s hreq => ?_, fun hop hrsv => ?_⟩
  · obtain ⟨e, hw⟩ := decode_of_illegal illegal
    exact step_of_illegal hreq hw
  · obtain ⟨i, hw, _⟩ := decode_of_legal hrsv hop
    exact ⟨i, hw⟩

end Sys2Proof.Machine
end

section
/-! O34, O35. The wire frames of completed transactions (30_encoding.md R79 to R89), and the PEC over them (40_transport.md
R103). -/

namespace Sys2Proof.Machine

/-! ## Frames -/

section Frames

variable {a : BitVec 7} {r : BusReq} {device : List Byte} {q : Option Byte}

/-- A frame with no device-driven byte: the block drives it all, the PEC byte included (R81, R83, R86). -/
theorem frameOf_write (h : hasReply r = false) : frameOf ⟨a, r, .completed device q⟩ =
    some (WireEvent.start :: ((addrWrite a :: (outBytes r ++ q.toList)).map WireEvent.m ++ [.stop])) := by
  simp [frameOf, h]

/-- A frame with a repeated start: the device drives what follows `A_R`, the PEC byte included (R82, R84, R85, R87). -/
theorem frameOf_read (h : hasReply r = true) : frameOf ⟨a, r, .completed device q⟩ =
    some (WireEvent.start :: ((addrWrite a :: outBytes r).map WireEvent.m ++
      WireEvent.restart :: WireEvent.m (addrRead a) :: ((device ++ q.toList).map WireEvent.s ++ [.stop]))) := by
  simp [frameOf, h]

end Frames

/-- `A_W` and `A_R` (R80), for every address. -/
theorem addrWrite_toNat : ∀ a : BitVec 7, (addrWrite a).toNat = 2 * a.toNat := by decide

theorem addrRead_toNat : ∀ a : BitVec 7, (addrRead a).toNat = 2 * a.toNat + 1 := by decide

/-- Settles O34: each primitive has one of the two frames. -/
theorem wireFramesOfTheSpec : Obligations.WireFramesOfTheSpec := by
  intro a c v d lo hi w bs ds pec q n
  exact ⟨frameOf_write rfl, frameOf_read rfl, frameOf_read rfl, frameOf_write rfl, frameOf_write rfl, frameOf_read rfl,
    frameOf_read rfl, frameOf_write rfl, frameOf_read rfl,
    by simpa [outBytes, addrWrite, addrRead] using frameOf_read (r := .raw bs (n + 1)) (q := none) rfl,
    by simpa [outBytes, addrWrite] using frameOf_write (r := .raw bs 0) (q := none) rfl, addrWrite_toNat a, addrRead_toNat a⟩

/-! ## The bytes of a frame -/

/-- The byte an event drives, by the block or by the device. -/
def WireEvent.byte? : WireEvent → Option Byte
  | .m x => some x
  | .s x => some x
  | _ => none

@[simp] theorem WireEvent.byte?_comp_m : WireEvent.byte? ∘ WireEvent.m = some := rfl
@[simp] theorem WireEvent.byte?_comp_s : WireEvent.byte? ∘ WireEvent.s = some := rfl

/-- R89: the PEC covers every byte of the frame before it. -/
theorem bytes_of_frame {a : BitVec 7} {r : BusReq} {device : List Byte} {q : Option Byte} {f : List WireEvent}
    (h : frameOf ⟨a, r, .completed device q⟩ = some f) :
    f.filterMap WireEvent.byte? = coveredBytes a r device ++ q.toList := by
  cases reply : hasReply r with
  | false =>
    cases (frameOf_write reply).symm.trans h
    simp [coveredBytes, reply, List.filterMap_cons, WireEvent.byte?]
  | true =>
    cases (frameOf_read reply).symm.trans h
    simp [coveredBytes, reply, List.filterMap_cons, WireEvent.byte?]

/-! ## The CRC (R103) -/

theorem crcByte_eq_iterate (c x : Byte) : crcByte c x = crcShift^[8] (c ^^^ x) := rfl

theorem crc8_append (xs ys : List Byte) : crc8 (xs ++ ys) = ys.foldl crcByte (crc8 xs) := List.foldl_append

theorem crc8_append_byte (bs : List Byte) (x : Byte) : crc8 (bs ++ [x]) = crcShift^[8] (crc8 bs ^^^ x) := by
  rw [crc8_append, List.foldl_cons, List.foldl_nil, crcByte_eq_iterate]

/-- The PEC byte after the bytes it covers clears the accumulator. -/
theorem crc8_append_crc8 (bs : List Byte) : crc8 (bs ++ [crc8 bs]) = 0x00#8 := by
  have zero_fixed : Function.IsFixedPt crcShift 0x00#8 := by decide
  rw [crc8_append_byte, BitVec.xor_self]
  exact zero_fixed.iterate 8

/-- The bit loop's step undone: bit 0 is set exactly where the polynomial was added. -/
def crcUnshift (c : Byte) : Byte := if c.getLsbD 0 then ((c ^^^ 0x07#8) >>> 1) ||| 0x80#8 else c >>> 1

theorem crcUnshift_crcShift : Function.LeftInverse crcUnshift crcShift := by
  unfold Function.LeftInverse
  decide +kernel

theorem crcByte_inj {c d x y : Byte} : crcByte c x = crcByte d y ↔ c ^^^ x = d ^^^ y := by
  rw [crcByte_eq_iterate, crcByte_eq_iterate, (crcUnshift_crcShift.injective.iterate 8).eq_iff]

theorem crcByte_injective (c : Byte) : Function.Injective (crcByte c) := fun _ _ h =>
  (BitVec.xor_right_inj c).1 (crcByte_inj.1 h)

theorem crcByte_injective_acc (x : Byte) : Function.Injective (crcByte · x) := fun _ _ h =>
  (BitVec.xor_left_inj x).1 (crcByte_inj.1 h)

/-- The same bytes after different accumulators leave different accumulators. -/
theorem foldl_crcByte_injective (ys : List Byte) : Function.Injective (ys.foldl crcByte) := by
  induction ys with
  | nil => exact Function.injective_id
  | cons y ys ih => exact ih.comp (crcByte_injective_acc y)

/-- One changed byte changes the CRC, whatever follows it. -/
theorem crc8_ne_of_one_byte_changed (xs ys : List Byte) {x y : Byte} (h : x ≠ y) :
    crc8 (xs ++ x :: ys) ≠ crc8 (xs ++ y :: ys) := by
  rw [crc8_append, crc8_append]
  exact (foldl_crcByte_injective ys).ne ((crcByte_injective (crc8 xs)).ne h)

/-- Settles O35: the CRC's bit loop loses nothing, and the frames are those of R81 to R88. -/
theorem pecCoversAndDetects : Obligations.PecCoversAndDetects := by
  refine ⟨rfl, crc8_append_byte, by decide +kernel, fun a r device q f h => ?_, crc8_append_crc8,
    fun xs ys x y => crc8_ne_of_one_byte_changed xs ys⟩
  exact (List.filterMap_congr fun e _ => by cases e <;> rfl).trans (bytes_of_frame h)

end Sys2Proof.Machine
end

section
/-! O32, O33. One call of the transaction unit for each kind of answer (40_transport.md R100 to R108), and an answer of any
length read as one of exactly the frame's length (log 4). -/

namespace Sys2Proof.Machine

/-! ## What the TU answers -/

theorem transact_of_complete {r : BusReq} {s : State} {bytes : List Byte} (hp : permitted s.params r = true)
    (hn : nextAnswer s = .complete bytes) :
    transact r s = .ok (deliver s r bytes, afterTransaction r (completedEnd s r bytes) s) := by
  simp only [transact, hp, hn, if_true]

theorem transact_of_fail {r : BusReq} {s : State} {k : OracleCause} (hp : permitted s.params r = true)
    (hn : nextAnswer s = .fail k) :
    transact r s = .ok (.fail (.oracle k), afterTransaction r (.failed k) s) := by
  simp only [transact, hp, hn, if_true]

theorem transact_of_never {r : BusReq} {s : State} (hp : permitted s.params r = true) (hn : nextAnswer s = .never) :
    transact r s = .error .busNeverAnswers := by
  simp only [transact, hp, hn, if_true]

theorem transact_of_not_permitted {r : BusReq} {s : State} (hp : permitted s.params r = false) :
    transact r s = .ok (.fail .noCapability, s) := by
  simp only [transact, hp, Bool.false_eq_true, if_false]

/-! ## Frames with the device's bytes in full (R102) -/

/-- The count byte, and where it is within the limit the bytes it counts (R107). -/
theorem deviceCount_of_hasCount {limit : Nat} {r : BusReq} {bytes : List Byte} (hc : hasCount r = true) :
    deviceCount limit r bytes = if overLimit limit r bytes then 1 else 1 + (bytes.headD 0x00#8).toNat := by
  cases r with
  | blockRead | blockProcessCall => rfl
  | _ => cases hc

section Admitted

variable {limit : Nat} {r : BusReq} {device : List Byte}

theorem overLimit_of_admits (h : FrameAdmits limit r device) (rest : List Byte) :
    overLimit limit r (device ++ rest) = false := by
  cases r with
  | blockRead | blockProcessCall =>
    obtain ⟨c, bs, rfl, _, hc⟩ := h
    simpa [overLimit, hasCount] using hc
  | _ => rfl

theorem deviceCount_of_admits (h : FrameAdmits limit r device) (rest : List Byte) :
    deviceCount limit r (device ++ rest) = device.length := by
  have hover := overLimit_of_admits h rest
  cases r with
  | blockRead | blockProcessCall =>
    rw [deviceCount_of_hasCount rfl, hover]
    obtain ⟨c, bs, rfl, hbs, _⟩ := h
    simp [hbs, Nat.add_comm]
  | quick | writeByte | writeWord | blockWrite => exact (congrArg List.length h).symm
  | readByte | readWord | processCall | raw => exact h.symm

theorem deviceBytes_of_admits (h : FrameAdmits limit r device) (rest : List Byte) :
    deviceBytes limit r (device ++ rest) = device := by
  rw [deviceBytes, deviceCount_of_admits h, takeBytes_append_of_length]

theorem pecOnWire_of_no_pec (a : BitVec 7) (bytes : List Byte) (hc : carriesPec r = false) :
    pecOnWire limit a r bytes = none := by
  simp [pecOnWire, hc]

/-- The device's byte after its last one, where the frame has a reply. -/
theorem pecOnWire_of_reply (h : FrameAdmits limit r device) (a : BitVec 7) (p : Byte) (hc : carriesPec r = true)
    (hr : hasReply r = true) : pecOnWire limit a r (device ++ [p]) = some p := by
  have hlast := takeBytes_succ_getLastD device [] p
  simp only [pecOnWire, hc, hr, overLimit_of_admits h, deviceCount_of_admits h, hlast, Bool.not_true, Bool.or_false,
    Bool.false_eq_true, if_false, if_true]

/-- The block's own PEC byte, where it only writes (R105). -/
theorem pecOnWire_of_write (h : FrameAdmits limit r device) (a : BitVec 7) (hc : carriesPec r = true)
    (hr : hasReply r = false) : pecOnWire limit a r device = some (crc8 (coveredBytes a r device)) := by
  have hover : overLimit limit r device = false := by simpa using overLimit_of_admits h []
  simp [pecOnWire, coveredBytes, hc, hr, hover]

end Admitted

/-- A frame with a right PEC byte, or with none, delivers its data; with a wrong one it is a mismatch (R106). -/
theorem deliver_of_admits {s : State} {r : BusReq} {device rest : List Byte}
    (h : FrameAdmits s.params.blockLimit r device) :
    deliver s r (device ++ rest) =
      if pecAgrees s r (device ++ rest) then .ok (payload r device) else .fail .pecMismatch := by
  rw [deliver, overLimit_of_admits h, deviceBytes_of_admits h]
  rfl

/-! ## One call for each kind of answer -/

section Calls

variable {r : BusReq} {s u : State} {device : List Byte} {k : FailCause}

theorem BusOk.transact (h : BusOk r s device u) : transact r s = .ok (.ok (payload r device), u) := by
  obtain ⟨hp, hadmits, hn, rfl⟩ := h
  rw [transact_of_complete hp hn, deliver_of_admits hadmits, completedEnd, deviceBytes_of_admits hadmits]
  cases hc : carriesPec r with
  | false =>
    rw [pecOnWire_of_no_pec _ _ hc, pecAgrees, pecOnWire_of_no_pec _ _ hc]
    simp
  | true =>
    cases hr : hasReply r with
    | false =>
      simp only [Bool.and_false, Bool.false_eq_true, if_false, List.append_nil, if_true, pecAgrees, hr,
        pecOnWire_of_write hadmits _ hc hr]
    | true =>
      have hbytes := deviceBytes_of_admits hadmits [crc8 (coveredBytes s.addr r device)]
      simp only [Bool.and_self, if_true, pecAgrees, hr, pecOnWire_of_reply hadmits _ _ hc hr, hbytes, beq_self_eq_true]

theorem BusFails.transact (h : BusFails r s k u) : transact r s = .ok (.fail k, u) := by
  cases h with
  | noCapability hp => exact transact_of_not_permitted hp
  | oracle k hp hn => exact transact_of_fail hp hn
  | pecMismatch device p hp hc hr hadmits hn hne =>
    rw [transact_of_complete hp hn, deliver_of_admits hadmits, completedEnd]
    simp only [pecAgrees, hr, if_true, deviceBytes_of_admits hadmits, pecOnWire_of_reply hadmits _ _ hc hr, beq_iff_eq,
      hne, if_false]

theorem BusBadCount.transact (h : BusBadCount r s u) : transact r s = .ok (.badCount, u) := by
  obtain ⟨hp, hcount, c, hlimit, hn, rfl⟩ := h
  have hover : overLimit s.params.blockLimit r [c] = true := by simp [overLimit, hcount, hlimit]
  have hone : deviceCount s.params.blockLimit r [c] = 1 := by
    rw [deviceCount_of_hasCount hcount, hover, if_pos rfl]
  rw [transact_of_complete hp hn, deliver, completedEnd, deviceBytes, pecOnWire, hover, hone]
  simp [takeBytes]

end Calls

/-- Settles O32: one lemma for each kind of answer; what a transaction writes is `afterTransaction`. -/
theorem transactionUnitFollowsTheBus : Obligations.TransactionUnitFollowsTheBus := by
  intro r s
  refine ⟨fun _ _ ok => ok.transact, fun _ _ fails => fails.transact, fun _ bad => bad.transact, transact_of_never,
    fun e => ⟨crcAfter s r e, rfl, ?_⟩⟩
  rintro device pec rfl
  rfl

/-! ## Answers of any length (log 4) -/

theorem headD_eq_getD (bs : List Byte) : bs.headD 0x00#8 = bs.getD 0 0x00#8 := by cases bs <;> rfl

theorem takeBytes_eq_map_getD (n : Nat) (bs : List Byte) :
    takeBytes n bs = (List.range n).map fun i => bs.getD i 0x00#8 := by
  induction n generalizing bs with
  | zero => rfl
  | succ n ih =>
    rw [takeBytes, ih, List.range_succ_eq_map, List.map_cons, List.map_map, headD_eq_getD]
    congr 1
    refine List.map_congr_left fun i _ => ?_
    cases bs <;> simp

theorem takeBytes_succ (n : Nat) (bs : List Byte) :
    takeBytes (n + 1) bs = takeBytes n bs ++ [bs.getD n 0x00#8] := by
  rw [takeBytes_eq_map_getD, takeBytes_eq_map_getD, List.range_succ, List.map_append, List.map_singleton]

theorem getD_takeBytes {n i : Nat} (h : i < n) (bs : List Byte) :
    (takeBytes n bs).getD i 0x00#8 = bs.getD i 0x00#8 := by
  simp [takeBytes_eq_map_getD, h]

/-- Reading the first bytes of an answer again reads them as they were. -/
theorem takeBytes_takeBytes {m n : Nat} (h : m ≤ n) (bs : List Byte) : takeBytes m (takeBytes n bs) = takeBytes m bs := by
  rw [takeBytes_eq_map_getD m, takeBytes_eq_map_getD m]
  exact List.map_congr_left fun i hi => getD_takeBytes (Nat.lt_of_lt_of_le (List.mem_range.1 hi) h) bs

/-- How many bytes the device drives in a completed frame, its PEC byte included (R102, R107). -/
def answerLength (limit : Nat) (r : BusReq) (bytes : List Byte) : Nat :=
  deviceCount limit r bytes + if carriesPec r && hasReply r && !overLimit limit r bytes then 1 else 0

/-- The answer cut to its frame, or continued with 0x00 (log 4). -/
def exactAnswer (limit : Nat) (r : BusReq) (bytes : List Byte) : List Byte :=
  takeBytes (answerLength limit r bytes) bytes

section Exact

variable {limit : Nat} {r : BusReq} {bytes : List Byte}

theorem answerLength_eq_of_no_pec (h : (carriesPec r && hasReply r) = false) :
    answerLength limit r bytes = deviceCount limit r bytes := by
  simp [answerLength, h]

theorem answerLength_eq_of_pec (h : (carriesPec r && hasReply r) = true) (ho : overLimit limit r bytes = false) :
    answerLength limit r bytes = deviceCount limit r bytes + 1 := by
  simp [answerLength, h, ho]

/-- The device's bytes of any answer with a count within the limit are those of a frame. -/
theorem deviceBytes_admits (h : overLimit limit r bytes = false) :
    FrameAdmits limit r (deviceBytes limit r bytes) := by
  cases r with
  | blockRead | blockProcessCall =>
    have hlimit : (bytes.headD 0x00#8).toNat ≤ limit := by simpa [overLimit, hasCount] using h
    refine ⟨bytes.headD 0x00#8, takeBytes (bytes.headD 0x00#8).toNat bytes.tail, ?_, takeBytes_length .., hlimit⟩
    simp only [deviceBytes, deviceCount, h, Bool.false_eq_true, if_false, Nat.add_comm 1, takeBytes]
  | quick | writeByte | writeWord | blockWrite => rfl
  | readByte | readWord | processCall | raw => exact takeBytes_length ..

variable (limit r bytes)

theorem deviceCount_le_answerLength : deviceCount limit r bytes ≤ answerLength limit r bytes := Nat.le_add_right ..

theorem headD_exactAnswer (hc : hasCount r = true) : (exactAnswer limit r bytes).headD 0x00#8 = bytes.headD 0x00#8 := by
  have hcount : 0 < deviceCount limit r bytes := by
    rw [deviceCount_of_hasCount hc]
    split <;> omega
  have hlen := deviceCount_le_answerLength limit r bytes
  rw [headD_eq_getD, headD_eq_getD, exactAnswer, getD_takeBytes (by omega)]

theorem overLimit_exactAnswer : overLimit limit r (exactAnswer limit r bytes) = overLimit limit r bytes := by
  cases hc : hasCount r with
  | false => simp [overLimit, hc]
  | true => simp only [overLimit, headD_exactAnswer limit r bytes hc]

theorem deviceCount_exactAnswer : deviceCount limit r (exactAnswer limit r bytes) = deviceCount limit r bytes := by
  cases hc : hasCount r with
  | false =>
    cases r with
    | blockRead | blockProcessCall => cases hc
    | _ => rfl
  | true =>
    rw [deviceCount_of_hasCount hc, deviceCount_of_hasCount hc, overLimit_exactAnswer, headD_exactAnswer limit r bytes hc]

theorem deviceBytes_exactAnswer : deviceBytes limit r (exactAnswer limit r bytes) = deviceBytes limit r bytes := by
  rw [deviceBytes, deviceCount_exactAnswer, exactAnswer, takeBytes_takeBytes (deviceCount_le_answerLength ..), deviceBytes]

theorem pecOnWire_exactAnswer (a : BitVec 7) :
    pecOnWire limit a r (exactAnswer limit r bytes) = pecOnWire limit a r bytes := by
  rw [pecOnWire, pecOnWire, overLimit_exactAnswer, deviceCount_exactAnswer]
  split
  · rfl
  · next hno =>
    simp only [Bool.or_eq_true, Bool.not_eq_true', not_or, Bool.not_eq_false, Bool.not_eq_true] at hno
    obtain ⟨hc, ho⟩ := hno
    split
    · next hr => rw [exactAnswer, answerLength_eq_of_pec (by simp [hc, hr]) ho, takeBytes_takeBytes (Nat.le_refl _)]
    · rfl

end Exact

/-- The cut answer has the outcome of the whole one, and leaves the state it leaves. -/
theorem transact_exactAnswer {r : BusReq} {s : State} {bytes : List Byte} (hp : permitted s.params r = true)
    (hn : nextAnswer s = .complete bytes) :
    transact r s = transact r
      { s with answers := .complete (exactAnswer s.params.blockLimit r bytes) :: s.answers.tail } := by
  have hover := overLimit_exactAnswer s.params.blockLimit r bytes
  have hdevice := deviceBytes_exactAnswer s.params.blockLimit r bytes
  have hpec := pecOnWire_exactAnswer s.params.blockLimit r bytes s.addr
  have hexact := transact_of_complete
    (s := { s with answers := .complete (exactAnswer s.params.blockLimit r bytes) :: s.answers.tail }) hp rfl
  rw [hexact, transact_of_complete hp hn]
  simp only [deliver, pecAgrees, completedEnd, hover, hdevice, hpec]
  rfl

/-- An answer of exactly its frame's length is completed, has a wrong PEC byte, or has a count above the limit. -/
theorem exactAnswer_outcome {r : BusReq} {s : State} {bytes : List Byte} (hp : permitted s.params r = true)
    (hn : nextAnswer s = .complete (exactAnswer s.params.blockLimit r bytes)) :
    (∃ device u, BusOk r s device u) ∨ (∃ u, BusFails r s .pecMismatch u) ∨ ∃ u, BusBadCount r s u := by
  cases ho : overLimit s.params.blockLimit r bytes with
  | true =>
    obtain ⟨hcount, hlimit⟩ : hasCount r = true ∧ s.params.blockLimit < (bytes.headD 0x00#8).toNat := by
      simpa [overLimit] using ho
    have hone : answerLength s.params.blockLimit r bytes = 1 := by
      rw [answerLength, deviceCount_of_hasCount hcount, ho]
      simp
    rw [exactAnswer, hone] at hn
    exact .inr (.inr ⟨_, hp, hcount, _, hlimit, hn, rfl⟩)
  | false =>
    have hadmits := deviceBytes_admits ho
    cases hpec : carriesPec r && hasReply r with
    | false =>
      rw [exactAnswer, answerLength_eq_of_no_pec hpec] at hn
      refine .inl ⟨_, _, hp, hadmits, ?_, rfl⟩
      rw [hn, hpec, deviceBytes]
      simp
    | true =>
      rw [exactAnswer, answerLength_eq_of_pec hpec ho, takeBytes_succ] at hn
      by_cases hcrc : bytes.getD (deviceCount s.params.blockLimit r bytes) 0x00#8 =
          crc8 (coveredBytes s.addr r (deviceBytes s.params.blockLimit r bytes))
      · refine .inl ⟨_, _, hp, hadmits, ?_, rfl⟩
        rw [hn, hpec, hcrc]
        rfl
      · obtain ⟨hc, hr⟩ := Bool.and_eq_true_iff.1 hpec
        exact .inr (.inl ⟨_, .pecMismatch _ _ hp hc hr hadmits hn hcrc⟩)

/-- Settles O33: the answer cut to the length its frame takes, or continued with 0x00. -/
theorem everyAnswerIsReadByTheFrame : Obligations.EveryAnswerIsReadByTheFrame := by
  intro r s bytes hp hn
  refine ⟨exactAnswer s.params.blockLimit r bytes, fun i hi => ?_, transact_exactAnswer hp hn, exactAnswer_outcome hp rfl⟩
  rw [exactAnswer, takeBytes_length] at hi
  exact getD_takeBytes hi bytes

end Sys2Proof.Machine
end

section
/-! O36 to O42. The transport operations (40_transport.md R110 to R117): each is its transactions, one lemma for each kind of
answer, and its end. -/

namespace Sys2Proof.Machine

/-! ## The checks, in an open session -/

section Checks

variable {s : State} {body : StepOutcome}

theorem inOpenSession_of_sessionOpen (h : SessionOpen s) : inOpenSession s.sessionState = true := by
  rcases h with h | h | h <;> rw [h] <;> rfl

theorem whenAllowed_open (h : SessionOpen s) : whenAllowed inOpenSession s body = body :=
  whenAllowed_of (inOpenSession_of_sessionOpen h)

theorem whenCore_core {cmd : Word16} (h : cmd.toNat ≤ 0xFD) : whenCore cmd s body = body :=
  whenCore_of (isExtended_false_iff.2 h)

theorem whenCore_extended {cmd : Word16} (h : 0xFD < cmd.toNat) : whenCore cmd s body = done .notImplemented s := by
  have hext : isExtended cmd = true := decide_eq_true h
  simp only [whenCore, hext, if_true]

theorem whenLength_usable {n : Nat} (h : 1 ≤ n) (h' : n ≤ 255) : whenLength n s body = body := by
  have hgood : badLength n = false := by
    rw [← Bool.not_eq_true, badLength_iff]
    omega
  exact whenLength_of hgood

end Checks

/-! ## Ends -/

section Ends

variable {α : Type} {x : Internal (Reply α)} {u : State}

theorem conclude_of_ok {β : Type} {x : Internal β} {a : β} {k : β → State → StepOutcome} (h : x = .ok (a, u)) :
    x.conclude k = k a u := by
  rw [h, Internal.conclude]

/-- An operation goes on with the value of an Ok reply. -/
theorem onReply_of_ok {a : α} {body : State → α → StepOutcome} (h : x = .ok (.ok a, u)) :
    (x.conclude fun reply s' => onReply reply s' (body s')) = body u a := conclude_of_ok h

/-- A failure ends an operation with TRANSPORT_ERROR and its cause (60_exceptions.md R254). -/
theorem onReply_of_fail {k : FailCause} {body : State → α → StepOutcome} (h : x = .ok (.fail k, u)) :
    (x.conclude fun reply s' => onReply reply s' (body s')) = .next (endsAs .transportError (failCauseValue k) u) :=
  conclude_of_ok h

/-- A count above the limit ends an operation with PROTOCOL_VIOLATION (R107). -/
theorem onReply_of_badCount {body : State → α → StepOutcome} (h : x = .ok (.badCount, u)) :
    (x.conclude fun reply s' => onReply reply s' (body s')) = .next (endsAs .protocolViolation .noCause u) :=
  conclude_of_ok h

end Ends

section Calls

variable {α : Type} {f : List Byte → α} {r : BusReq} {s u : State}

theorem transactAs_of_transact {reply : Reply (List Byte)} (h : transact r s = .ok (reply, u)) :
    transactAs f r s = .ok (mapReply f reply, u) := by
  rw [transactAs, h, Internal.andThen]

theorem BusOk.transactAs {device : List Byte} (h : BusOk r s device u) :
    transactAs f r s = .ok (.ok (f (payload r device)), u) := transactAs_of_transact h.transact

theorem BusFails.transactAs {k : FailCause} (h : BusFails r s k u) : transactAs f r s = .ok (.fail k, u) :=
  transactAs_of_transact h.transact

end Calls

/-! ## QUICK_PRESENCE -/

/-- Settles O36: the four outcomes of R110. -/
theorem quickPresenceReportsTheDevice : Obligations.QuickPresenceReportsTheDevice := by
  intro s hopen
  rw [exec, execQuickPresence, whenAllowed_open hopen]
  refine ⟨fun hcap => ?_, fun u ok => ?_, fun u hcap fails => ?_, fun k u hcap hk fails => ?_⟩
  · rw [hcap]
    rfl
  · obtain ⟨hcap, _⟩ := id ok
    exact (if_pos hcap).trans (conclude_of_ok ok.transactAs)
  · exact (if_pos hcap).trans (conclude_of_ok fails.transactAs)
  · rw [if_pos hcap, quickCore, conclude_of_ok fails.transactAs]
    split
    · contradiction
    · next h => exact absurd (Reply.fail.inj h) hk
    · next h => rw [← Reply.fail.inj h]; rfl
    · contradiction

/-! ## READ_BYTE and READ_WORD -/

section OneTransaction

variable {cmd : Word16} {s : State}

theorem exec_readByte (hopen : SessionOpen s) (hcore : cmd.toNat ≤ 0xFD) :
    exec (.readByte cmd) s = (transactAs byteOfPayload (.readByte (c8 cmd) s.pecEn) s).conclude fun reply s' =>
      onReply reply s' fun d => done .ok { s' with result := d.setWidth 16 } := by
  rw [exec, execReadByte, whenAllowed_open hopen, whenCore_core hcore, readByteCore]

theorem exec_readWord (hopen : SessionOpen s) (hcore : cmd.toNat ≤ 0xFD) :
    exec (.readWord cmd) s = (transactAs wordOfPayload (.readWord (c8 cmd) s.pecEn) s).conclude fun reply s' =>
      onReply reply s' fun w => done .ok { s' with result := w } := by
  rw [exec, execReadWord, whenAllowed_open hopen, whenCore_core hcore]

theorem exec_writeByte (v : Byte) (hopen : SessionOpen s) (hcore : cmd.toNat ≤ 0xFD) :
    exec (.writeByte cmd v) s = (transactAs (fun _ => ()) (.writeByte (c8 cmd) v s.pecEn) s).conclude fun reply s' =>
      onReply reply s' fun _ => done .ok s' := by
  rw [exec, execWriteByte, whenAllowed_open hopen, whenCore_core hcore, writeByteCore]

theorem exec_writeWord (v : Word16) (hopen : SessionOpen s) (hcore : cmd.toNat ≤ 0xFD) :
    exec (.writeWord cmd v) s = (transact (.writeWord (c8 cmd) v s.pecEn) s).conclude fun reply s' =>
      onReply reply s' fun _ => done .ok s' := by
  rw [exec, execWriteWord, whenAllowed_open hopen, whenCore_core hcore]

end OneTransaction

/-- Settles O37: READ_BYTE and READ_WORD each make one read. -/
theorem readByteAndWordResults : Obligations.ReadByteAndWordResults := by
  intro cmd s hopen
  refine ⟨fun hext => ⟨?_, ?_⟩, fun hcore => ?_⟩
  · rw [exec, execReadByte, whenAllowed_open hopen, whenCore_extended hext]
    rfl
  · rw [exec, execReadWord, whenAllowed_open hopen, whenCore_extended hext]
    rfl
  · rw [exec_readByte hopen hcore, exec_readWord hopen hcore]
    exact ⟨fun _ _ ok => onReply_of_ok ok.transactAs, fun _ _ fails => onReply_of_fail fails.transactAs,
      fun _ _ _ ok => onReply_of_ok ok.transactAs, fun _ _ fails => onReply_of_fail fails.transactAs⟩

/-! ## WRITE_BYTE and WRITE_WORD -/

/-- A completed write with PEC is logged with the CRC of the frame as its PEC byte (R105). -/
theorem BusOk.newTransactions_of_pec {r : BusReq} {s u : State} {device : List Byte} (h : BusOk r s device u)
    (hc : carriesPec r = true) :
    newTransactions s u = [⟨s.addr, r, .completed device (some (crc8 (coveredBytes s.addr r device)))⟩] := by
  obtain ⟨_, _, _, rfl⟩ := h
  rw [newTransactions_eq (afterTransaction_busLog _ _ s), if_pos hc]

/-- Settles O41: WRITE_BYTE and WRITE_WORD each make one write. -/
theorem writeByteAndWordFrames : Obligations.WriteByteAndWordFrames := by
  intro cmd v x s hopen
  refine ⟨fun hext => ⟨?_, ?_⟩, fun hcore => ?_⟩
  · rw [exec, execWriteByte, whenAllowed_open hopen, whenCore_extended hext]
    rfl
  · rw [exec, execWriteWord, whenAllowed_open hopen, whenCore_extended hext]
    rfl
  · rw [exec_writeByte x hopen hcore, exec_writeWord v hopen hcore]
    refine ⟨fun u ok => ⟨onReply_of_ok ok.transactAs, fun hpec => ?_⟩, fun _ _ fails => onReply_of_fail fails.transactAs,
      fun u ok => ⟨onReply_of_ok ok.transact, fun hpec => ?_⟩, fun _ _ fails => onReply_of_fail fails.transact⟩
    · rw [hpec] at ok
      exact ok.newTransactions_of_pec rfl
    · rw [hpec] at ok
      exact ok.newTransactions_of_pec rfl

/-! ## READ_BLOCK -/

/-- `CopyOut` (R114), the block that fits and the one that does not said as one. -/
theorem copyOut_eq_delivered (bs : List Byte) (n : Nat) (s : State) : copyOut bs n s = .next (delivered bs n s) := by
  unfold copyOut delivered
  split
  · next hle => rw [List.take_of_length_le hle, Nat.min_eq_left hle]; rfl
  · next hlt => rw [Nat.min_eq_right (by omega)]; rfl

/-- Settles O40: the bytes copied are those written from index 0 on. -/
theorem copyDeliversWhatFits : Obligations.CopyDeliversWhatFits := by
  intro bs n s _
  refine ⟨Memory.writeFrom s.data 0 (bs.take n), copyOut_eq_delivered bs n s, fun j => ?_, copyOut_eq_delivered bs n s⟩
  have hlen : (bs.take n).length = min bs.length n := by rw [List.length_take, Nat.min_comm]
  rw [Memory.read?_writeFrom, hlen]
  by_cases hj : j < min bs.length n
  · rw [if_pos (by omega), if_pos hj, Nat.sub_zero, List.getElem?_take_of_lt (by omega)]
  · rw [if_neg (by omega), if_neg hj]

/-- A transaction neither reads `PEC_EN` nor `PEC_SAVED`: its frame has PEC as its argument says (R104). -/
theorem transact_pec_registers {r : BusReq} {s u : State} {reply : Reply (List Byte)} (b e : Bool)
    (h : transact r s = .ok (reply, u)) :
    transact r { s with pecSaved := b, pecEn := e } = .ok (reply, { u with pecSaved := b, pecEn := e }) := by
  rcases transact_cases h with ⟨hp, rfl, rfl⟩ | ⟨k, hp, hn, rfl, rfl⟩ | ⟨bytes, hp, hn, rfl, rfl⟩
  · exact transact_of_not_permitted hp
  · exact transact_of_fail hp hn
  · exact transact_of_complete hp hn

/-- The length read is a byte read without PEC, whatever `PEC_EN`, which stands in `PEC_SAVED` after it (R113, R119). -/
theorem lengthRead_of_transact {c : Byte} {s u : State} {reply : Reply (List Byte)}
    (h : transact (.readByte c false) s = .ok (reply, u)) :
    lengthRead c s = .ok (mapReply byteOfPayload reply, { u with pecSaved := s.pecEn }) := by
  have hpec : u.pecEn = s.pecEn := by
    obtain ⟨_, _, honly, _⟩ := transact_traffic h (by simp [carriesPec])
    rw [honly]
  rw [lengthRead, readByteCore, transactAs_of_transact (transact_pec_registers s.pecEn false h), ← hpec]
  rfl

section ReadBlock

variable {cmd : Word16} {n : BitVec 12} {s : State}

theorem exec_readBlock (hopen : SessionOpen s) (hcore : cmd.toNat ≤ 0xFD) (hn : 1 ≤ n.toNat) (hn' : n.toNat ≤ 255) :
    exec (.readBlock cmd n) s = (lengthRead (c8 cmd) s).conclude fun reply s' =>
      onReply reply s' fun len => blockAfterLength (c8 cmd) len n.toNat s' := by
  rw [exec, execReadBlock, whenAllowed_open hopen, whenLength_usable hn hn', whenCore_core hcore]

/-- After a length read that gives `l`, READ_BLOCK goes on with `l` from a state that differs in `PEC_SAVED`. -/
theorem exec_readBlock_of_length {l : Byte} {s₁ : State} (hopen : SessionOpen s) (hcore : cmd.toNat ≤ 0xFD)
    (hn : 1 ≤ n.toNat) (hn' : n.toNat ≤ 255) (ok : BusOk (.readByte (c8 cmd) false) s [l] s₁) :
    exec (.readBlock cmd n) s = blockAfterLength (c8 cmd) l n.toNat { s₁ with pecSaved := s.pecEn } := by
  rw [exec_readBlock hopen hcore hn hn']
  exact onReply_of_ok (lengthRead_of_transact ok.transact)

end ReadBlock

theorem BusOk.onlyBus {r : BusReq} {s u : State} {device : List Byte} (h : BusOk r s device u) : OnlyBus s u := by
  obtain ⟨_, _, _, rfl⟩ := h
  exact afterTransaction_onlyBus _ _ _

section AfterLength

variable {c len : Byte} {n : Nat} {s : State}

theorem blockAfterLength_native (hlen : len.toNat ≤ s.params.blockLimit) (hcap : capBlockRead s.params = true) :
    blockAfterLength c len n s = (transact (.blockRead c s.pecEn) s).conclude fun reply s' =>
      onReply reply s' fun bs => copyOut bs n s' := if_pos ⟨hlen, hcap⟩

/-- The raw path is for a length above the limit or an adapter without block reads (R113 (4)). -/
theorem not_native (h : s.params.blockLimit < len.toNat ∨ capBlockRead s.params = false) :
    ¬(len.toNat ≤ s.params.blockLimit ∧ capBlockRead s.params = true) := by
  rintro ⟨hlen, hcap⟩
  rcases h with h | h
  · omega
  · exact Bool.eq_false_iff.1 h hcap

theorem blockAfterLength_raw (hnative : s.params.blockLimit < len.toNat ∨ capBlockRead s.params = false)
    (hraw : capRaw s.params = true) :
    blockAfterLength c len n s = (transact (.raw [c] (len.toNat + 1)) s).conclude fun reply s' =>
      onReply reply s' fun bs =>
        if bs.headD 0x00#8 = len then copyOut bs.tail n s' else done .protocolViolation s' := by
  rw [blockAfterLength, if_neg (not_native hnative), if_pos hraw]

theorem blockAfterLength_neither (hnative : s.params.blockLimit < len.toNat ∨ capBlockRead s.params = false)
    (hraw : capRaw s.params = false) : blockAfterLength c len n s = .next (endsAs .unsupported .noCause s) := by
  rw [blockAfterLength, if_neg (not_native hnative), hraw]
  rfl

end AfterLength

/-- Settles O38: the length read, then a block read. -/
theorem readBlockByTheNativePath : Obligations.ReadBlockByTheNativePath := by
  intro cmd n s l s₁ hopen hcore hn hn' length hlen hcap s₂
  have hparams : s₂.params = s.params := congrArg (·.params) length.onlyBus
  have hpec : s₂.pecEn = s.pecEn := congrArg (·.pecEn) length.onlyBus
  rw [exec_readBlock_of_length hopen hcore hn hn' length,
    blockAfterLength_native (s := s₂) (by rwa [hparams]) (by rwa [hparams]), hpec]
  refine ⟨fun c bs u ok => ?_, fun k u fails => onReply_of_fail fails.transact, fun u bad => onReply_of_badCount bad.transact⟩
  exact (onReply_of_ok ok.transact).trans (copyOut_eq_delivered bs n.toNat u)

/-- Settles O39: the length read that fails; then the raw exchange, or neither path. -/
theorem readBlockByTheRawPath : Obligations.ReadBlockByTheRawPath := by
  intro cmd n s hopen hcore hn hn'
  refine ⟨fun k u fails => ?_, ?_⟩
  · rw [exec_readBlock hopen hcore hn hn']
    exact onReply_of_fail (lengthRead_of_transact fails.transact)
  intro l s₁ length hnative s₂
  have hparams : s₂.params = s.params := congrArg (·.params) length.onlyBus
  rw [← hparams] at hnative ⊢
  rw [exec_readBlock_of_length hopen hcore hn hn' length]
  refine ⟨blockAfterLength_neither (s := s₂) hnative, fun hraw => ?_⟩
  rw [blockAfterLength_raw (s := s₂) hnative hraw]
  refine ⟨fun bs u ok => ?_, fun x bs u hx ok => ?_, fun k u fails => onReply_of_fail fails.transact⟩
  · exact (onReply_of_ok ok.transact).trans ((if_pos rfl).trans (copyOut_eq_delivered bs n.toNat u))
  · exact (onReply_of_ok ok.transact).trans (if_neg hx)

/-! ## WRITE_BLOCK -/

theorem length_dataBytes (s : State) (n : Nat) : (dataBytes s n).length = n := by simp [dataBytes]

theorem getElem?_dataBytes {s : State} {n i : Nat} (h : i < n) :
    (dataBytes s n)[i]? = some ((Memory.read? s.data i).getD (Config.unwrittenByte s.draws i)) := by
  simp [dataBytes, dataByte, h]

section WriteRequest

variable {c : Byte} {bs : List Byte} {s : State}

theorem blockWriteRequest_native (h : bs.length ≤ s.params.blockLimit ∧ capBlockWrite s.params = true) :
    blockWriteRequest c bs s = some (.blockWrite c bs s.pecEn) := if_pos h

theorem blockWriteRequest_raw (h : ¬(bs.length ≤ s.params.blockLimit ∧ capBlockWrite s.params = true))
    (hraw : capRaw s.params = true) :
    blockWriteRequest c bs s = some (.raw (c :: BitVec.ofNat 8 bs.length :: bs) 0) := (if_neg h).trans (if_pos hraw)

theorem blockWriteRequest_neither (h : ¬(bs.length ≤ s.params.blockLimit ∧ capBlockWrite s.params = true))
    (hraw : capRaw s.params = false) : blockWriteRequest c bs s = none :=
  (if_neg h).trans (if_neg (Bool.eq_false_iff.1 hraw))

end WriteRequest

section WriteBlock

variable {cmd : Word16} {n : BitVec 12} {s : State}

theorem exec_writeBlock_of_request {r : BusReq} (hopen : SessionOpen s) (hcore : cmd.toNat ≤ 0xFD) (hn : 1 ≤ n.toNat)
    (hn' : n.toNat ≤ 255) (hr : blockWriteRequest (c8 cmd) (dataBytes s n.toNat) (afterDataRead s) = some r) :
    exec (.writeBlock cmd n) s =
      (transact r (afterDataRead s)).conclude fun reply s' => onReply reply s' fun _ => done .ok s' := by
  rw [exec, execWriteBlock, whenAllowed_open hopen, whenLength_usable hn hn', whenCore_core hcore, hr]

theorem exec_writeBlock_of_no_request (hopen : SessionOpen s) (hcore : cmd.toNat ≤ 0xFD) (hn : 1 ≤ n.toNat)
    (hn' : n.toNat ≤ 255) (hr : blockWriteRequest (c8 cmd) (dataBytes s n.toNat) (afterDataRead s) = none) :
    exec (.writeBlock cmd n) s = .next (endsAs .unsupported .noCause (afterDataRead s)) := by
  rw [exec, execWriteBlock, whenAllowed_open hopen, whenLength_usable hn hn', whenCore_core hcore, hr]
  rfl

end WriteBlock

/-- Settles O42: the payload is `dataBytes`, and the transaction `blockWriteRequest`'s. -/
theorem writeBlockSendsData : Obligations.WriteBlockSendsData := by
  intro cmd n s hopen hcore hn hn'
  have hlen := length_dataBytes s n.toNat
  refine ⟨dataBytes s n.toNat, hlen, fun i b hi hb => ?_, fun i hi hb => ?_, ?_⟩
  · rw [getElem?_dataBytes hi, hb, Option.getD_some]
  · rw [getElem?_dataBytes hi, hb, Option.getD_none]
  intro s₁ native block message
  have by_block (h : native) : blockWriteRequest (c8 cmd) (dataBytes s n.toNat) s₁ = some block :=
    blockWriteRequest_native (by rwa [hlen])
  have by_message (h : ¬native) (hraw : capRaw s.params = true) :
      blockWriteRequest (c8 cmd) (dataBytes s n.toNat) s₁ = some message := by
    rw [blockWriteRequest_raw (s := s₁) (by rwa [hlen]) hraw, hlen, BitVec.ofNat_toNat]
    rfl
  refine ⟨fun h u ok => ?_, fun h k u fails => ?_, fun h hraw u ok => ?_, fun h hraw k u fails => ?_, fun h hraw => ?_⟩
  · exact (exec_writeBlock_of_request hopen hcore hn hn' (by_block h)).trans (onReply_of_ok ok.transact)
  · exact (exec_writeBlock_of_request hopen hcore hn hn' (by_block h)).trans (onReply_of_fail fails.transact)
  · exact (exec_writeBlock_of_request hopen hcore hn hn' (by_message h hraw)).trans (onReply_of_ok ok.transact)
  · exact (exec_writeBlock_of_request hopen hcore hn hn' (by_message h hraw)).trans (onReply_of_fail fails.transact)
  · exact exec_writeBlock_of_no_request hopen hcore hn hn' (blockWriteRequest_neither (by rwa [hlen]) hraw)

end Sys2Proof.Machine
end

section
/-! O22. An operation stops only where the adapter never answers: each internal form, and with it each operation, passes on
the stop of a transaction and has none of its own. -/

namespace Sys2Proof.Machine

/-- An adapter that never answers is among the coming answers: the listed ones, or the free ones from the draw counter on
(log 3). -/
def SilenceAhead (s : State) : Prop :=
  BusAnswer.never ∈ s.answers ∨ ∃ n, s.draws ≤ n ∧ Config.busAnswer n = .never

/-- An internal form from `s` either stops at a silent adapter, or takes none of the answers ahead for one. -/
def StopsAtSilence {α : Type} (s : State) : Internal α → Prop
  | .error f => f = .busNeverAnswers ∧ SilenceAhead s
  | .ok (_, u) => SilenceAhead u → SilenceAhead s

/-- A meaning from `s` completes, or stops at a silent adapter. -/
def EndsOrSilence (s : State) : StepOutcome → Prop
  | .next _ => True
  | .fault f => f = .busNeverAnswers ∧ SilenceAhead s
  | .refused _ => False

/-! ## Composition -/

section Composition

variable {α β : Type} {s u : State} {x : Internal α}

/-- Silence ahead after a part of an internal form was ahead before it. -/
theorem StopsAtSilence.earlier (h : StopsAtSilence u x) (hback : SilenceAhead u → SilenceAhead s) :
    StopsAtSilence s x := by
  rcases x with f | ⟨a, t⟩
  · exact ⟨h.1, hback h.2⟩
  · exact hback ∘ h

theorem StopsAtSilence.andThen {k : α → State → Internal β} (hx : StopsAtSilence s x)
    (hk : ∀ a u, StopsAtSilence u (k a u)) : StopsAtSilence s (x.andThen k) := by
  rcases x with f | ⟨a, u⟩
  · exact hx
  · exact (hk a u).earlier hx

theorem EndsOrSilence.earlier {o : StepOutcome} (h : EndsOrSilence u o) (hback : SilenceAhead u → SilenceAhead s) :
    EndsOrSilence s o := by
  cases o with
  | next t => trivial
  | fault f => exact ⟨h.1, hback h.2⟩
  | refused r => exact h

theorem StopsAtSilence.conclude {k : α → State → StepOutcome} (hx : StopsAtSilence s x)
    (hk : ∀ a u, EndsOrSilence u (k a u)) : EndsOrSilence s (x.conclude k) := by
  rcases x with f | ⟨a, u⟩
  · exact hx
  · exact (hk a u).earlier hx

theorem endsOrSilence_done (e : Exit) (s t : State) : EndsOrSilence s (done e t) := trivial

theorem endsOrSilence_onReply {reply : Reply α} {body : α → StepOutcome} (h : ∀ a, EndsOrSilence s (body a)) :
    EndsOrSilence s (onReply reply u body) := by
  cases reply with
  | ok a => exact h a
  | badCount => exact endsOrSilence_done ..
  | fail k => exact endsOrSilence_done ..

theorem endsOrSilence_whenAllowed {allowed : SessionState → Bool} {body : StepOutcome} (h : EndsOrSilence s body) :
    EndsOrSilence s (whenAllowed allowed s body) := by
  unfold whenAllowed
  split
  · exact h
  · exact endsOrSilence_done ..

theorem endsOrSilence_whenCore {cmd : Word16} {body : StepOutcome} (h : EndsOrSilence s body) :
    EndsOrSilence s (whenCore cmd s body) := by
  unfold whenCore
  split
  · exact endsOrSilence_done ..
  · exact h

theorem endsOrSilence_whenLength {n : Nat} {body : StepOutcome} (h : EndsOrSilence s body) :
    EndsOrSilence s (whenLength n s body) := by
  unfold whenLength
  split
  · exact endsOrSilence_done ..
  · exact h

theorem endsOrSilence_whenDirection {arg : Word16} {body : Direction → StepOutcome}
    (h : ∀ d, EndsOrSilence s (body d)) : EndsOrSilence s (whenDirection arg s body) := by
  unfold whenDirection
  split
  · exact endsOrSilence_done ..
  · exact h _

end Composition

/-! ## Transactions -/

theorem silenceAhead_of_nextAnswer {s : State} (h : nextAnswer s = .never) : SilenceAhead s := by
  unfold nextAnswer at h
  split at h
  · next a rest ha => exact .inl (by simp [ha, h])
  · exact .inr ⟨s.draws, Nat.le_refl _, h⟩

theorem SilenceAhead.before_transaction {r : BusReq} {e : BusEnd} {s : State}
    (h : SilenceAhead (afterTransaction r e s)) : SilenceAhead s := by
  rcases h with hmem | ⟨n, hn, hfree⟩
  · exact .inl (List.mem_of_mem_tail hmem)
  · exact .inr ⟨n, Nat.le_of_succ_le hn, hfree⟩

theorem SilenceAhead.before_dataRead {s : State} (h : SilenceAhead (afterDataRead s)) : SilenceAhead s := by
  rcases h with hmem | ⟨n, hn, hfree⟩
  · exact .inl hmem
  · exact .inr ⟨n, Nat.le_of_succ_le hn, hfree⟩

/-- The one place where an operation stops (40_transport.md R109). -/
theorem transact_stopsAtSilence (r : BusReq) (s : State) : StopsAtSilence s (transact r s) := by
  unfold transact
  split
  · split
    · next hn => exact ⟨rfl, silenceAhead_of_nextAnswer hn⟩
    · exact SilenceAhead.before_transaction
    · exact SilenceAhead.before_transaction
  · exact id

theorem transactAs_stopsAtSilence {α : Type} (f : List Byte → α) (r : BusReq) (s : State) :
    StopsAtSilence s (transactAs f r s) :=
  (transact_stopsAtSilence r s).andThen fun _ _ => id

/-! ## Discovery -/

theorem fetchCoefficientsCore_stopsAtSilence (c : Byte) (d : Direction) (s : State) :
    StopsAtSilence s (fetchCoefficientsCore c d s) := by
  have store (n : Nat) (bs : List Byte) (u : State) :
      StopsAtSilence u (Except.ok (storeCoefficients c d n bs u) : Internal Exit) := by
    unfold storeCoefficients
    split <;> exact id
  unfold fetchCoefficientsCore
  split
  · refine (transact_stopsAtSilence _ s).andThen fun reply u => ?_
    cases reply with
    | ok bs => exact store _ _ u
    | badCount => exact id
    | fail k => exact id
  · split
    · refine (transact_stopsAtSilence _ s).andThen fun reply u => ?_
      cases reply with
      | ok bs => exact store _ _ u
      | badCount => exact id
      | fail k => exact id
    · exact id

theorem enrich_stopsAtSilence (wanted : Bool) (c : Byte) (d : Direction) (s : State) :
    StopsAtSilence s (enrich wanted c d s) := by
  unfold enrich
  split
  · exact (fetchCoefficientsCore_stopsAtSilence c d s).andThen fun _ _ => id
  · exact id

theorem voutModeCapture_stopsAtSilence (s : State) : StopsAtSilence s (voutModeCapture s) := by
  refine (transactAs_stopsAtSilence byteOfPayload _ s).andThen fun reply u => ?_
  cases reply <;> exact id

section Check

variable {ask : State → Internal Verdict} (hask : ∀ s, StopsAtSilence s (ask s))
include hask

theorem directCoefficients_stopsAtSilence (c q : Byte) (s : State) :
    StopsAtSilence s (directCoefficients ask c q s) := by
  unfold directCoefficients
  split
  · refine (hask s).andThen fun verdict u => ?_
    split
    · exact (enrich_stopsAtSilence _ c .read u).andThen fun _ u₁ =>
        (enrich_stopsAtSilence _ c .write u₁).andThen fun _ _ => id
    · exact id
  · exact id

theorem bindSlot_stopsAtSilence (c q : Byte) (s : State) : StopsAtSilence s (bindSlot ask c q s) := by
  unfold bindSlot
  split
  · refine StopsAtSilence.earlier (u := setSlot c .resolved (setQbyte c q s)) ?_ id
    dsimp only
    split
    · exact voutModeCapture_stopsAtSilence _
    · exact directCoefficients_stopsAtSilence hask c q _
  · exact id

theorem checkWith_stopsAtSilence (cmd : Word16) (s : State) : StopsAtSilence s (checkWith ask cmd s) := by
  unfold checkWith
  split
  · exact id
  · split
    · exact id
    · refine (transactAs_stopsAtSilence wordOfPayload _ s).andThen fun reply u => ?_
      split
      · exact bindSlot_stopsAtSilence hask _ _ u
      · exact id

end Check

theorem boundVerdict_stopsAtSilence (s : State) : StopsAtSilence s (boundVerdict s) := id

theorem checkCoefficients_stopsAtSilence (s : State) : StopsAtSilence s (checkCoefficients s) :=
  checkWith_stopsAtSilence boundVerdict_stopsAtSilence _ s

theorem checkSupportCore_stopsAtSilence (cmd : Word16) (s : State) : StopsAtSilence s (checkSupportCore cmd s) :=
  checkWith_stopsAtSilence checkCoefficients_stopsAtSilence cmd s

/-! ## SCAN -/

theorem probe_stopsAtSilence (cmd : Word16) (s : State) : StopsAtSilence s (probe cmd s) :=
  (checkSupportCore_stopsAtSilence cmd s).andThen fun _ _ => id

theorem readCapability_stopsAtSilence (s : State) : StopsAtSilence s (readCapability s) := by
  refine (transactAs_stopsAtSilence byteOfPayload _ s).andThen fun reply u => ?_
  cases reply <;> exact id

theorem readRevision_stopsAtSilence (s : State) : StopsAtSilence s (readRevision s) := by
  refine (transactAs_stopsAtSilence byteOfPayload _ s).andThen fun reply u => ?_
  cases reply <;> exact id

theorem sweep_stopsAtSilence (es : List CatalogEntry) (s : State) : StopsAtSilence s (sweep es s) := by
  induction es generalizing s with
  | nil => exact id
  | cons e es ih => exact (probe_stopsAtSilence e.code s).andThen fun _ u => ih u

theorem discover_stopsAtSilence (s : State) : StopsAtSilence s (discover s) :=
  (probe_stopsAtSilence _ s).andThen fun _ s₁ => (readCapability_stopsAtSilence s₁).andThen fun _ s₂ =>
    (readRevision_stopsAtSilence s₂).andThen fun _ s₃ => sweep_stopsAtSilence _ s₃

theorem execScan_endsOrSilence (s : State) : EndsOrSilence s (execScan s) := by
  refine endsOrSilence_whenAllowed ?_
  split
  · refine (transactAs_stopsAtSilence (fun _ => ()) .quick s).conclude fun reply u => ?_
    cases reply with
    | ok _ => exact (discover_stopsAtSilence u).conclude fun _ _ => endsOrSilence_done ..
    | badCount => exact endsOrSilence_done ..
    | fail k => exact endsOrSilence_done ..
  · exact endsOrSilence_done ..

/-! ## READ_BLOCK -/

theorem lengthRead_stopsAtSilence (c : Byte) (s : State) : StopsAtSilence s (lengthRead c s) := by
  refine StopsAtSilence.earlier (u := { s with pecSaved := s.pecEn, pecEn := false }) ?_ id
  exact (transactAs_stopsAtSilence byteOfPayload _ _).andThen fun _ _ => id

theorem copyOut_endsOrSilence (bs : List Byte) (n : Nat) (s : State) : EndsOrSilence s (copyOut bs n s) := by
  rw [copyOut_eq_delivered]
  trivial

theorem blockAfterLength_endsOrSilence (c len : Byte) (n : Nat) (s : State) :
    EndsOrSilence s (blockAfterLength c len n s) := by
  unfold blockAfterLength
  split
  · exact (transact_stopsAtSilence _ s).conclude fun _ u => endsOrSilence_onReply fun bs => copyOut_endsOrSilence bs n u
  · split
    · refine (transact_stopsAtSilence _ s).conclude fun _ u => endsOrSilence_onReply fun bs => ?_
      split
      · exact copyOut_endsOrSilence bs.tail n u
      · exact endsOrSilence_done ..
    · exact endsOrSilence_done ..

/-! ## Every operation -/

/-- Every operation completes, or stops at a silent adapter. -/
theorem exec_endsOrSilence (i : Instr) (s : State) : EndsOrSilence s (exec i s) := by
  cases i with
  | openSession a p =>
    refine endsOrSilence_whenAllowed ?_
    split <;> exact endsOrSilence_done ..
  | scan => exact execScan_endsOrSilence s
  | report | closeSession | getSession | decodeLinear11 | decodeVout | decodeBitmap =>
    exact endsOrSilence_whenAllowed (endsOrSilence_done ..)
  | getSlot | classify | decodeValue | decodeDirect =>
    exact endsOrSilence_whenAllowed (endsOrSilence_whenCore (endsOrSilence_done ..))
  | getCoef cmd arg =>
    exact endsOrSilence_whenAllowed (endsOrSilence_whenDirection fun _ => endsOrSilence_whenCore (endsOrSilence_done ..))
  | pageSelect page =>
    refine endsOrSilence_whenAllowed ((transactAs_stopsAtSilence _ _ s).conclude fun reply _ => ?_)
    cases reply <;> exact endsOrSilence_done ..
  | quickPresence =>
    refine endsOrSilence_whenAllowed ?_
    split
    · refine (transactAs_stopsAtSilence _ _ s).conclude fun reply _ => ?_
      split <;> exact endsOrSilence_done ..
    · exact endsOrSilence_done ..
  | readByte | readWord | writeByte =>
    exact endsOrSilence_whenAllowed (endsOrSilence_whenCore ((transactAs_stopsAtSilence _ _ s).conclude fun _ _ =>
      endsOrSilence_onReply fun _ => endsOrSilence_done ..))
  | writeWord =>
    exact endsOrSilence_whenAllowed (endsOrSilence_whenCore ((transact_stopsAtSilence _ s).conclude fun _ _ =>
      endsOrSilence_onReply fun _ => endsOrSilence_done ..))
  | readBlock cmd n =>
    exact endsOrSilence_whenAllowed (endsOrSilence_whenLength (endsOrSilence_whenCore
      ((lengthRead_stopsAtSilence _ s).conclude fun _ u =>
        endsOrSilence_onReply fun len => blockAfterLength_endsOrSilence _ len _ u)))
  | writeBlock cmd n =>
    refine endsOrSilence_whenAllowed (endsOrSilence_whenLength (endsOrSilence_whenCore ?_))
    split
    · exact endsOrSilence_done ..
    · refine EndsOrSilence.earlier ?_ SilenceAhead.before_dataRead
      exact (transact_stopsAtSilence _ _).conclude fun _ _ => endsOrSilence_onReply fun _ => endsOrSilence_done ..
  | checkSupport cmd =>
    exact endsOrSilence_whenAllowed ((checkSupportCore_stopsAtSilence cmd s).conclude fun _ _ => endsOrSilence_done ..)
  | fetchCoefficients cmd arg =>
    exact endsOrSilence_whenAllowed (endsOrSilence_whenDirection fun d => endsOrSilence_whenCore
      ((fetchCoefficientsCore_stopsAtSilence _ d s).conclude fun _ _ => endsOrSilence_done ..))

/-- Settles O22: `exec_endsOrSilence`, and READ_BYTE's one transaction. -/
theorem onlyASilentAdapterStopsAnOperation : Obligations.OnlyASilentAdapterStopsAnOperation := by
  refine ⟨fun i s => ?_, fun cmd s hopen hcore hcap hsilent => ?_⟩
  · have ends := exec_endsOrSilence i s
    refine ⟨fun r hr => ?_, fun f hf => ?_⟩
    · rw [hr] at ends
      exact ends
    · rw [hf] at ends
      exact ends
  · have stops := transact_of_never (r := .readByte (c8 cmd) s.pecEn) hcap hsilent
    rw [exec_readByte hopen hcore, transactAs, stops]
    rfl

end Sys2Proof.Machine
end

section
/-! O19. PEC of every transaction (40_transport.md R104): outside SCAN and READ_BLOCK by `PEC_EN`; in READ_BLOCK all but the
length read (R113, R119); in SCAN by the two halves of its run, before and after the read of CAPABILITY (44_session.md
R225). -/

namespace Sys2Proof.Machine

/-! ## Outside SCAN and READ_BLOCK -/

theorem newTransactions_same {s t : State} (h : t.busLog = s.busLog) : newTransactions s t = [] :=
  newTransactions_eq (h.trans (List.append_nil _).symm)

theorem OneCall.newTransactions_cases {r : BusReq} {s u : State} (h : OneCall r s u) :
    newTransactions s u = [] ∨ ∃ e, newTransactions s u = [{ addr := s.addr, req := r, ended := e }] := by
  obtain ⟨new, traffic, _, hnew⟩ := h
  rwa [newTransactions_eq traffic.log]

theorem OneCall.follows_pec {r : BusReq} {s u : State} (h : OneCall r s u) (hr : PecFollows s.pecEn r) :
    ∀ x ∈ newTransactions s u, PecFollows s.pecEn x.req := by
  rcases h.newTransactions_cases with hnew | ⟨e, hnew⟩ <;> rw [hnew]
  · simp
  · simpa using hr

theorem Discovered.follows_pec {new : List Transaction} {s t : State} (h : Discovered new s t) :
    ∀ x ∈ newTransactions s t, PecFollows s.pecEn x.req := by
  rw [newTransactions_eq h.traffic.log]
  exact h.pec

theorem effect_follows_pec {i : Instr} {s t : State} {e : Exit} (hscan : i ≠ .scan) (hblock : isReadBlock i = false)
    (h : Effect i s e t) : ∀ x ∈ newTransactions s t, PecFollows s.pecEn x.req := by
  have none_new {u : State} (hlog : u.busLog = s.busLog) : ∀ x ∈ newTransactions s u, PecFollows s.pecEn x.req := by
    rw [newTransactions_same hlog]
    simp
  cases i with
  | scan => exact absurd rfl hscan
  | readBlock cmd n => cases hblock
  | openSession | report | closeSession | getSession | getSlot | classify | decodeValue | decodeLinear11 | decodeDirect
  | decodeVout | decodeBitmap =>
    obtain ⟨_, rfl⟩ := h
    exact none_new rfl
  | getCoef cmd arg =>
    obtain ⟨_, _, _, rfl⟩ := h
    exact none_new rfl
  | pageSelect page =>
    obtain ⟨w, hcall, ⟨_, rfl⟩ | ⟨_, _, rfl⟩⟩ := h <;> exact hcall.follows_pec (.inl rfl)
  | quickPresence =>
    obtain ⟨_, rfl⟩ | ⟨w, hcall, ⟨_, _, rfl⟩ | ⟨_, _, rfl⟩⟩ := h
    · exact none_new rfl
    · exact hcall.follows_pec (.inr (.inl rfl))
    · exact hcall.follows_pec (.inr (.inl rfl))
  | readByte | readWord =>
    obtain ⟨w, hcall, ⟨_, _, rfl⟩ | ⟨_, _, rfl⟩⟩ := h <;> exact hcall.follows_pec (.inl rfl)
  | writeByte | writeWord =>
    obtain ⟨hcall, _⟩ := h
    exact hcall.follows_pec (.inl rfl)
  | writeBlock cmd n =>
    obtain ⟨_, rfl⟩ | ⟨r, bs, rfl | rfl, hcall, _⟩ := h
    · exact none_new rfl
    · exact hcall.follows_pec (.inl rfl)
    · exact hcall.follows_pec (.inr (.inr ⟨_, _, rfl⟩))
  | checkSupport cmd =>
    obtain ⟨v, x, hx, _, rfl⟩ := h
    obtain ⟨_, found, _⟩ := checkSupportCore_discovered hx
    exact found.follows_pec
  | fetchCoefficients cmd arg =>
    obtain ⟨d, _, hx, _⟩ := h
    obtain ⟨⟨_, found⟩, _⟩ := fetchCoefficientsCore_does hx
    exact found.follows_pec

theorem exec_follows_pec {i : Instr} {s t : State} (hscan : i ≠ .scan) (hblock : isReadBlock i = false)
    (h : exec i s = .next t) : ∀ x ∈ newTransactions s t, PecFollows s.pecEn x.req := by
  obtain ⟨e, u, rfl, ⟨rfl, _⟩ | ⟨_, _, _, effect⟩⟩ := exec_next h
  · rw [newTransactions_same (endOperation_busLog e u)]
    simp
  · have follows := effect_follows_pec hscan hblock effect
    exact follows

/-! ## READ_BLOCK -/

/-- A transaction of READ_BLOCK after its length read: a block read with PEC as `on` says, or a raw exchange. -/
def FetchesBlock (on : Bool) (x : Transaction) : Prop :=
  (∃ c, x.req = .blockRead c on) ∨ ∃ bytes n, x.req = .raw bytes n

/-- A call of the TU that is not turned away puts its frame on the bus. -/
theorem transact_log_of_ok {r : BusReq} {s u : State} {bs : List Byte} (h : transact r s = .ok (.ok bs, u)) :
    ∃ e, u.busLog = s.busLog ++ [{ addr := s.addr, req := r, ended := e }] := by
  rcases transact_cases h with ⟨_, hreply, _⟩ | ⟨_, _, _, hreply, _⟩ | ⟨_, _, _, _, rfl⟩
  · cases hreply
  · cases hreply
  · exact ⟨_, rfl⟩

/-- The end of an operation on a reply leaves the log as it is, where its body does. -/
theorem onReply_busLog {α : Type} {reply : Reply α} {u t : State} {body : α → StepOutcome}
    (hbody : ∀ a, body a = .next t → t.busLog = u.busLog) (h : onReply reply u body = .next t) :
    t.busLog = u.busLog := by
  cases reply with
  | ok a => exact hbody a h
  | badCount => exact done_next.1 h ▸ rfl
  | fail k => exact done_next.1 h ▸ rfl

theorem copyOut_busLog {bs : List Byte} {n : Nat} {u t : State} (h : copyOut bs n u = .next t) : t.busLog = u.busLog := by
  rw [copyOut_eq_delivered] at h
  cases h
  rfl

theorem conclude_onReply_fetchesBlock {r : BusReq} {s t : State} {body : State → List Byte → StepOutcome}
    (hpec : carriesPec r = true → s.pecEn = true) (hr : ∀ x : Transaction, x.req = r → FetchesBlock s.pecEn x)
    (hbody : ∀ u a, body u a = .next t → t.busLog = u.busLog)
    (h : ((transact r s).conclude fun reply s' => onReply reply s' (body s')) = .next t) :
    ∃ new, t.busLog = s.busLog ++ new ∧ ∀ x ∈ new, FetchesBlock s.pecEn x := by
  obtain ⟨reply, u, hx, hend⟩ := Internal.conclude_next.1 h
  obtain ⟨new, traffic, _, hnew⟩ := transact_traffic hx hpec
  refine ⟨new, (onReply_busLog (hbody u) hend).trans traffic.log, ?_⟩
  rcases hnew with rfl | ⟨e, rfl⟩
  · simp
  · simpa using hr _ rfl

/-- What READ_BLOCK puts on the bus after its length read. -/
theorem blockAfterLength_fetchesBlock {c len : Byte} {n : Nat} {s t : State}
    (h : blockAfterLength c len n s = .next t) :
    ∃ new, t.busLog = s.busLog ++ new ∧ ∀ x ∈ new, FetchesBlock s.pecEn x := by
  unfold blockAfterLength at h
  split at h
  · exact conclude_onReply_fetchesBlock id (fun _ hx => .inl ⟨c, hx⟩) (fun _ _ => copyOut_busLog) h
  · split at h
    · refine conclude_onReply_fetchesBlock (by simp [carriesPec]) (fun _ hx => .inr ⟨_, _, hx⟩) (fun u bs hend => ?_) h
      split at hend
      · exact copyOut_busLog hend
      · exact done_next.1 hend ▸ rfl
    · exact ⟨[], by rw [done_next.1 h]; simp, by simp⟩

/-- The length read that gives a length has put one byte read without PEC on the bus, and `PEC_EN` is as it was. -/
theorem lengthRead_log_of_ok {c l : Byte} {s u : State} (h : lengthRead c s = .ok (.ok l, u)) :
    u.pecEn = s.pecEn ∧ ∃ e, u.busLog = s.busLog ++ [{ addr := s.addr, req := .readByte c false, ended := e }] := by
  obtain ⟨reply, w, hx, hk⟩ := Internal.andThen_ok.1 h
  obtain ⟨rfl, rfl⟩ := Prod.mk.inj (Except.ok.inj hk)
  obtain ⟨reply, hx, hreply⟩ := transactAs_ok hx
  obtain ⟨_, _, honly, _⟩ := transact_traffic hx id
  cases reply with
  | ok bs =>
    obtain ⟨e, hlog⟩ := transact_log_of_ok hx
    exact ⟨congrArg (·.pecSaved) honly, e, hlog⟩
  | badCount => cases hreply
  | fail k => cases hreply

/-- Nothing was put on the bus, or the length read, and after it at most a fetch of the block. -/
def LengthThenBlock (c : Byte) (s t : State) : Prop :=
  newTransactions s t = [] ∨ ∃ e new,
    newTransactions s t = { addr := s.addr, req := .readByte c false, ended := e } :: new ∧
      ∀ x ∈ new, FetchesBlock s.pecEn x

theorem readBlock_transactions {cmd : Word16} {n : BitVec 12} {s t : State}
    (h : exec (.readBlock cmd n) s = .next t) : LengthThenBlock (c8 cmd) s t := by
  rcases whenAllowed_next h with ⟨_, rfl⟩ | ⟨_, h⟩
  · exact .inl (newTransactions_same rfl)
  rcases whenLength_next h with ⟨_, rfl⟩ | ⟨_, h⟩
  · exact .inl (newTransactions_same rfl)
  rcases whenCore_next h with ⟨_, rfl⟩ | ⟨_, h⟩
  · exact .inl (newTransactions_same rfl)
  obtain ⟨reply, u, hx, h⟩ := Internal.conclude_next.1 h
  have length_alone (hend : t.busLog = u.busLog) : LengthThenBlock (c8 cmd) s t := by
    obtain ⟨_, w, hcall, rfl⟩ := lengthRead_cases hx
    have hlog : newTransactions s t = newTransactions s w := congrArg (List.drop s.busLog.length) hend
    rw [LengthThenBlock, hlog]
    exact hcall.newTransactions_cases.imp_right fun ⟨e, hnew⟩ => ⟨e, [], hnew, by simp⟩
  cases reply with
  | ok l =>
    obtain ⟨hpec, e, hlog⟩ := lengthRead_log_of_ok hx
    obtain ⟨new, hlog', hnew⟩ := blockAfterLength_fetchesBlock h
    refine .inr ⟨e, new, newTransactions_eq ?_, hpec ▸ hnew⟩
    rw [hlog', hlog, List.append_assoc, List.singleton_append]
  | badCount => exact length_alone (done_next.1 h ▸ rfl)
  | fail k => exact length_alone (done_next.1 h ▸ rfl)

/-- R119, R286: `PEC_EN` is off for the length read only. -/
theorem readBlock_pecEn {cmd : Word16} {n : BitVec 12} {s t : State} (h : exec (.readBlock cmd n) s = .next t) :
    t.pecEn = s.pecEn := by
  obtain ⟨e, u, rfl, does⟩ := exec_does h
  by_contra hne
  rcases does.writer_of_pecEn hne with ⟨hop, _⟩ | ⟨hop, _⟩
  · cases hop
  · cases hop

/-! ## SCAN -/

/-- A run that put `new` on the bus, every frame with PEC as `PEC_EN` says, and kept `PEC_EN` and `CAP_BYTE`. -/
structure KeepsPec (new : List Transaction) (s t : State) : Prop where
  log     : t.busLog = s.busLog ++ new
  frames  : ∀ x ∈ new, PecFollows s.pecEn x.req
  pecEn   : t.pecEn = s.pecEn
  capByte : t.capByte = s.capByte

theorem KeepsPec.trans {n₁ n₂ : List Transaction} {s t u : State} (h₁ : KeepsPec n₁ s t) (h₂ : KeepsPec n₂ t u) :
    KeepsPec (n₁ ++ n₂) s u where
  log := by rw [h₂.log, h₁.log, List.append_assoc]
  frames := List.forall_mem_append.2 ⟨h₁.frames, h₁.pecEn ▸ h₂.frames⟩
  pecEn := h₂.pecEn.trans h₁.pecEn
  capByte := h₂.capByte.trans h₁.capByte

theorem Discovered.keepsPec {new : List Transaction} {s t : State} (h : Discovered new s t) : KeepsPec new s t :=
  ⟨h.traffic.log, h.pec, h.pecEn, by rw [h.frame]⟩

theorem pecFollows_off {r : BusReq} (h : PecFollows false r) : carriesPec r = false := by
  rcases h with h | rfl | ⟨_, _, rfl⟩
  · exact h
  · rfl
  · rfl

/-- With PEC off no frame of such a run carries PEC. -/
theorem KeepsPec.no_pec {new : List Transaction} {s t : State} (h : KeepsPec new s t) (hoff : s.pecEn = false) :
    ∀ x ∈ new, carriesPec x.req = false := fun x hx => pecFollows_off (hoff ▸ h.frames x hx)

/-- A run without PEC. -/
def PecStaysOff (s t : State) : Prop :=
  t.pecEn = false ∧ ∃ new, t.busLog = s.busLog ++ new ∧ ∀ x ∈ new, carriesPec x.req = false

/-- Step (c) with PEC off: PEC stays off, or the read of the CAPABILITY byte has turned it on. -/
theorem readCapability_pec {s t : State} (hoff : s.pecEn = false) (h : readCapability s = .ok ((), t)) :
    PecStaysOff s t ∨
      (t.pecEn = true ∧ t.busLog = s.busLog ++
        [⟨s.addr, .readByte s.params.codes.capability false, .completed [t.capByte] none⟩]) := by
  obtain ⟨new, u, traffic, honly, hnew, hcap⟩ := readCapability_cases h
  have read := (Discovered.of_call traffic honly hnew (.inl rfl)).keepsPec
  rcases hcap with rfl | ⟨b, rfl, hframe⟩
  · exact .inl ⟨read.pecEn.trans hoff, new, read.log, read.no_pec hoff⟩
  · cases hpec : (captureCapability b u).pecEn with
    | false => exact .inl ⟨hpec, new, read.log, read.no_pec hoff⟩
    | true => exact .inr ⟨rfl, hframe hoff ▸ read.log⟩

theorem readRevision_keepsPec {s t : State} (h : readRevision s = .ok ((), t)) : ∃ new, KeepsPec new s t := by
  obtain ⟨new, u, traffic, honly, hnew, hrev⟩ := readRevision_cases h
  obtain ⟨hlog, hframes, hpec, hcap⟩ := (Discovered.of_call traffic honly hnew (.inl rfl)).keepsPec
  rcases hrev with rfl | ⟨b, rfl⟩ <;> exact ⟨new, hlog, hframes, hpec, hcap⟩

/-- A run in which the read of the CAPABILITY byte turned PEC on: no frame before it carries PEC, and every later one that
can does (R225). -/
def PecTurnsOn (s t : State) : Prop :=
  t.pecEn = true ∧ ∃ early late,
    t.busLog = s.busLog ++
      (early ++ ⟨s.addr, .readByte s.params.codes.capability false, .completed [t.capByte] none⟩ :: late) ∧
    (∀ x ∈ early, carriesPec x.req = false) ∧ ∀ x ∈ late, PecFollows true x.req

/-- Steps (b) to (e) of SCAN with PEC off at their start. -/
theorem discover_pec {s t : State} (hoff : s.pecEn = false) (h : discover s = .ok ((), t)) :
    PecStaysOff s t ∨ PecTurnsOn s t := by
  obtain ⟨s₁, s₂, s₃, hprobe, hcap, hrev, hsweep⟩ := discover_cases h
  obtain ⟨n₁, probed, _⟩ := probe_discovered hprobe
  obtain ⟨n₃, revision⟩ := readRevision_keepsPec hrev
  obtain ⟨n₄, swept, _⟩ := sweep_discovered hsweep
  have after := revision.trans swept.keepsPec
  have before := probed.keepsPec.no_pec hoff
  rcases readCapability_pec (probed.pecEn.trans hoff) hcap with ⟨hpec, n₂, hlog, hframes⟩ | ⟨hpec, hlog⟩
  · refine .inl ⟨after.pecEn.trans hpec, n₁ ++ (n₂ ++ (n₃ ++ n₄)), ?_, ?_⟩
    · rw [after.log, hlog, probed.traffic.log]
      simp only [List.append_assoc]
    · exact List.forall_mem_append.2 ⟨before, List.forall_mem_append.2 ⟨hframes, after.no_pec hpec⟩⟩
  · refine .inr ⟨after.pecEn.trans hpec, n₁, n₃ ++ n₄, ?_, before, hpec ▸ after.frames⟩
    rw [after.log, hlog, probed.traffic.log, probed.addr, probed.params, after.capByte]
    simp only [List.append_assoc, List.singleton_append]

/-- The presence probe of step (a), which carries no PEC, before discovery. -/
theorem OneCall.quick_then {s w t : State} (hcall : OneCall .quick s w) (h : PecStaysOff w t ∨ PecTurnsOn w t) :
    PecStaysOff s t ∨ PecTurnsOn s t := by
  obtain ⟨n₀, traffic, honly, hnew⟩ := hcall
  have quick : ∀ x ∈ n₀, carriesPec x.req = false := by
    rcases hnew with rfl | ⟨e, rfl⟩ <;> simp [carriesPec]
  have hparams : w.params = s.params := congrArg (·.params) honly
  rcases h with ⟨hpec, new, hlog, hframes⟩ | ⟨hpec, early, late, hlog, hearly, hlate⟩
  · refine .inl ⟨hpec, n₀ ++ new, ?_, List.forall_mem_append.2 ⟨quick, hframes⟩⟩
    rw [hlog, traffic.log, List.append_assoc]
  · refine .inr ⟨hpec, n₀ ++ early, late, ?_, List.forall_mem_append.2 ⟨quick, hearly⟩, hlate⟩
    rw [hlog, traffic.log, honly.addr, hparams]
    simp only [List.append_assoc]

/-- R225: SCAN from PEC off leaves PEC off and unused, or turns it on half way. -/
theorem scan_pec {s t : State} (hoff : s.pecEn = false) (h : exec .scan s = .next t) :
    PecStaysOff s t ∨ PecTurnsOn s t := by
  have stays : PecStaysOff s s := ⟨hoff, [], (List.append_nil _).symm, by simp⟩
  obtain ⟨e, u, rfl, ⟨rfl, _⟩ | ⟨_, _, _, effect⟩⟩ := exec_next h
  · exact .inl stays
  rcases effect with ⟨_, rfl⟩ | ⟨w, hcall, effect⟩
  · exact .inl stays
  have hw : w.pecEn = false := by
    obtain ⟨_, _, honly, _⟩ := hcall
    exact (congrArg (·.pecEn) honly).trans hoff
  rcases effect with ⟨_, _, rfl⟩ | ⟨x, hx, _, rfl⟩
  · exact hcall.quick_then (.inl ⟨hw, [], (List.append_nil _).symm, by simp⟩)
  · have scanned := hcall.quick_then (discover_pec hw hx)
    exact scanned

/-- Settles O19: one lemma for each of the three kinds of operation. -/
theorem pecOfEveryTransaction : Obligations.PecOfEveryTransaction := by
  intro i s t h
  refine ⟨fun hscan hblock => exec_follows_pec hscan hblock h, fun hblock => ?_, ?_⟩
  · cases i with
    | readBlock cmd n =>
      refine ⟨readBlock_pecEn h, fun x xs hx => ?_⟩
      rcases readBlock_transactions h with hnone | ⟨e, new, hnew, hfetch⟩
      · rw [hnone] at hx
        cases hx
      · rw [hnew] at hx
        obtain ⟨rfl, rfl⟩ := List.cons.inj hx
        exact ⟨⟨_, rfl⟩, hfetch⟩
    | _ => cases hblock
  · rintro rfl hoff
    rcases scan_pec hoff h with ⟨hpec, new, hlog, hframes⟩ | ⟨hpec, early, late, hlog, hearly, hlate⟩
    · rw [newTransactions_eq hlog]
      exact ⟨fun _ => hframes, fun hon => absurd hon (Bool.eq_false_iff.1 hpec)⟩
    · rw [newTransactions_eq hlog]
      exact ⟨fun hoff' => absurd hpec (Bool.eq_false_iff.1 hoff'), fun _ => ⟨early, _, late, rfl, rfl, hearly, hlate⟩⟩

end Sys2Proof.Machine
end

section
/-! O43 to O45. CHECK_SUPPORT of an open session step by step (41_query.md R141 to R149): what each step answers where
its condition holds. -/

namespace Sys2Proof.Machine

/-! ## Steps 1 to 4: verdicts that need no bus activity -/

section Known

variable {c : Byte} {s : State}

theorem knownVerdict_of_unsupported (h : slotAt s c = .unsupported) : knownVerdict c s = some .unsupported := by
  rw [knownVerdict, h]

theorem knownVerdict_of_resolved (h : slotAt s c = .resolved) : knownVerdict c s = some .supported := by
  rw [knownVerdict, h]

/-- No negotiation: the QUERY command is Unsupported (R143), or an earlier negotiation failed (R144). -/
theorem knownVerdict_of_unanswerable (h : slotAt s c = .notProbed)
    (hno : slotAt s s.params.codes.query = .unsupported ∨ s.noQuery = true) : knownVerdict c s = some .unknown := by
  rcases hno with hquery | hno
  · simp [knownVerdict, h, hquery]
  · simp [knownVerdict, h, hno]

theorem knownVerdict_of_negotiable (h : slotAt s c = .notProbed) (hquery : slotAt s s.params.codes.query ≠ .unsupported)
    (hno : s.noQuery = false) : knownVerdict c s = none := by
  simp [knownVerdict, h, hquery, hno]

end Known

section Check

variable {ask : State → Internal Verdict} {cmd : Word16} {s : State}

theorem checkWith_of_extended (h : 0xFD < cmd.toNat) : checkWith ask cmd s = .ok (.unknown, s) :=
  if_pos (decide_eq_true h)

theorem checkWith_of_known {v : Verdict} (hcore : cmd.toNat ≤ 0xFD) (h : knownVerdict (c8 cmd) s = some v) :
    checkWith ask cmd s = .ok (v, s) := by
  simp only [checkWith, isExtended_false_iff.2 hcore, h, Bool.false_eq_true, if_false]

theorem checkWith_of_unknown (hcore : cmd.toNat ≤ 0xFD) (h : knownVerdict (c8 cmd) s = none) :
    checkWith ask cmd s = negotiate ask (c8 cmd) s := by
  simp only [checkWith, isExtended_false_iff.2 hcore, h, Bool.false_eq_true, if_false]

end Check

/-- The end of CHECK_SUPPORT: OK, with the verdict in `RESULT` (R140). -/
theorem exec_checkSupport_of_ok {cmd : Word16} {s u : State} {v : Verdict} (hopen : SessionOpen s)
    (h : checkSupportCore cmd s = .ok (v, u)) :
    exec (.checkSupport cmd) s = .next (endsAs .ok .noCause { u with result := verdictCode v }) := by
  rw [exec, execCheckSupport, whenAllowed_open hopen, conclude_of_ok h]
  rfl

/-- Settles O43: steps 1 to 4 of the check. -/
theorem knownVerdictsNeedNoBus : Obligations.KnownVerdictsNeedNoBus := by
  intro cmd s hopen
  refine ⟨fun hext => exec_checkSupport_of_ok hopen (checkWith_of_extended hext), fun hcore => ?_⟩
  have answers {v : Verdict} (h : knownVerdict (c8 cmd) s = some v) :
      exec (.checkSupport cmd) s = .next (endsAs .ok .noCause { s with result := verdictCode v }) :=
    exec_checkSupport_of_ok hopen (checkWith_of_known hcore h)
  exact ⟨fun h => answers (knownVerdict_of_unsupported h), fun h => answers (knownVerdict_of_resolved h),
    fun h hquery => answers (knownVerdict_of_unanswerable h (.inl hquery)),
    fun h hno => answers (knownVerdict_of_unanswerable h (.inr hno))⟩

/-! ## Step 5: the negotiation -/

/-- A response of the QUERY process call gives its query byte where its low byte echoes 1 (R145). -/
theorem queryByteOf_pair (lo q : Byte) :
    queryByteOf (.ok (wordOfPayload [lo, q])) = if lo = 0x01#8 then some q else none := by
  have hword : wordOfPayload [lo, q] = q ++ lo := rfl
  have hlo : loByte (q ++ lo) = lo := BitVec.extractLsb'_append_eq_right
  have hhi : hiByte (q ++ lo) = q := BitVec.extractLsb'_append_eq_left
  rw [hword, queryByteOf, hlo, hhi]

section Negotiate

variable {ask : State → Internal Verdict} {c : Byte} {s u : State}

theorem negotiate_of_fails {k : FailCause}
    (fails : BusFails (.processCall s.params.codes.query (queryWord c) s.pecEn) s k u) :
    negotiate ask c s = .ok (.unknown, { u with noQuery := true }) := by
  rw [negotiate, fails.transactAs]
  rfl

theorem negotiate_of_pair {lo q : Byte}
    (ok : BusOk (.processCall s.params.codes.query (queryWord c) s.pecEn) s [lo, q] u) :
    negotiate ask c s =
      if lo = 0x01#8 then bindSlot ask c q u else .ok (.unknown, { u with noQuery := true }) := by
  have hpayload : payload (.processCall s.params.codes.query (queryWord c) s.pecEn) [lo, q] = [lo, q] := rfl
  rw [negotiate, ok.transactAs, hpayload]
  simp only [Internal.andThen, queryByteOf_pair]
  by_cases hlo : lo = 0x01#8
  · simp only [hlo, if_true]
  · simp only [hlo, if_false]

end Negotiate

/-- Settles O44: the two ways in which step 5 gives no query byte. -/
theorem failedNegotiationIsSticky : Obligations.FailedNegotiationIsSticky := by
  intro cmd s hopen hcore hslot hquery hno
  have reached : checkSupportCore cmd s = negotiate checkCoefficients (c8 cmd) s :=
    checkWith_of_unknown hcore (knownVerdict_of_negotiable hslot hquery hno)
  refine ⟨fun k u fails => exec_checkSupport_of_ok hopen (reached.trans (negotiate_of_fails fails)),
    fun lo q u hlo ok => ?_⟩
  have sticky := (negotiate_of_pair (ask := checkCoefficients) ok).trans (if_neg hlo)
  exact exec_checkSupport_of_ok hopen (reached.trans sticky)

/-! ## Steps 6 to 9: binding the slot -/

section Bind

variable {ask : State → Internal Verdict} {c q : Byte} {s : State}

theorem bindSlot_of_not_supported (h : qSupported q = false) :
    bindSlot ask c q s = .ok (.unsupported, setSlot c .unsupported s) := by
  simp only [bindSlot, h, Bool.false_eq_true, if_false]

theorem bindSlot_of_voutMode (h : qSupported q = true) (hc : c = s.params.codes.voutMode) :
    bindSlot ask c q s = voutModeCapture (setSlot c .resolved (setQbyte c q s)) := by
  simp only [bindSlot, h, if_true]
  exact if_pos hc

theorem bindSlot_of_other (h : qSupported q = true) (hc : c ≠ s.params.codes.voutMode) :
    bindSlot ask c q s = directCoefficients ask c q (setSlot c .resolved (setQbyte c q s)) := by
  simp only [bindSlot, h, if_true]
  exact if_neg hc

theorem directCoefficients_of_other_class (h : qFormat q ≠ 3#3) :
    directCoefficients ask c q s = .ok (.supported, s) := if_neg h

end Bind

/-! ## Step 9: the VOUT_MODE byte -/

/-- The two sets of a code are written independently. -/
theorem setCoef_read_write (c : Byte) (k k' : CoefSet) (s : State) :
    setCoef c .read k (setCoef c .write k' s) = setCoef c .write k' (setCoef c .read k s) := by
  simp only [setCoef, coefPairAt, CoefPair.set, Vector.set_set, Vector.getElem_set_self]

theorem captureVoutMode_eq {c : Byte} {t : State} (hc : c = t.params.codes.voutMode) (x : Byte) :
    captureVoutMode x t =
      { setCoef c .write { coefAt t c .write with r := x } (setCoef c .read { coefAt t c .read with r := x } t) with
        voutModeValid := true } := by
  subst hc
  rw [← setCoef_read_write]
  rfl

section Capture

variable {c : Byte} {pec : Bool} {s t : State} (hc : c = s.params.codes.voutMode) (hpec : pec = s.pecEn)
include hc hpec

theorem voutModeCapture_of_ok {x : Byte} (ok : BusOk (.readByte c pec) s [x] t) :
    voutModeCapture s = .ok (.supported,
      { setCoef c .write { coefAt t c .write with r := x } (setCoef c .read { coefAt t c .read with r := x } t) with
        voutModeValid := true }) := by
  have hparams : t.params = s.params := by rw [ok.onlyBus]
  rw [← captureVoutMode_eq (hparams ▸ hc)]
  subst hc hpec
  rw [voutModeCapture, readByteCore, ok.transactAs]
  rfl

theorem voutModeCapture_of_fails {k : FailCause} (fails : BusFails (.readByte c pec) s k t) :
    voutModeCapture s = .ok (.supported, t) := by
  subst hc hpec
  rw [voutModeCapture, readByteCore, fails.transactAs]
  rfl

end Capture

/-- The check of a NotProbed command goes on with the query byte the negotiation gave. -/
theorem checkSupportCore_of_answer {cmd : Word16} {s u : State} {q : Byte} (hcore : cmd.toNat ≤ 0xFD)
    (hslot : slotAt s (c8 cmd) = .notProbed) (hquery : slotAt s s.params.codes.query ≠ .unsupported)
    (hno : s.noQuery = false)
    (ok : BusOk (.processCall s.params.codes.query (queryWord (c8 cmd)) s.pecEn) s [0x01#8, q] u) :
    checkSupportCore cmd s = bindSlot checkCoefficients (c8 cmd) q u := by
  rw [checkSupportCore, checkWith_of_unknown hcore (knownVerdict_of_negotiable hslot hquery hno), negotiate_of_pair ok,
    if_pos rfl]

/-- Settles O45: the laws of a table write, and one lemma for each way step 6 goes on. -/
theorem negotiationBindsTheSlot : Obligations.NegotiationBindsTheSlot := by
  refine ⟨fun c c' x s => ?_, fun c c' q s => ?_, fun c c' d d' k s => ?_, ?_⟩
  · simp only [slotAt_setSlot, eq_comm]
  · simp only [qbyteAt_setQbyte, eq_comm]
  · simp only [coefAt_setCoef, eq_comm]
  intro cmd s hopen hcore hslot hquery hno c q u ok
  have bound := checkSupportCore_of_answer hcore hslot hquery hno ok
  have hparams : u.params = s.params := by rw [ok.onlyBus]
  have hpec : s.pecEn = u.pecEn := by rw [ok.onlyBus]
  refine ⟨fun hq => exec_checkSupport_of_ok hopen (bound.trans (bindSlot_of_not_supported hq)), fun hq => ⟨?_, ?_⟩⟩
  · intro hc hclass
    have plain := bound.trans (bindSlot_of_other hq (hparams ▸ hc))
    exact exec_checkSupport_of_ok hopen (plain.trans (directCoefficients_of_other_class hclass))
  · intro hc
    have hc' : c = u.params.codes.voutMode := hparams ▸ hc
    have capture := bound.trans (bindSlot_of_voutMode hq hc')
    refine ⟨fun x t read => ?_, fun k t fails => ?_⟩
    · have captured := voutModeCapture_of_ok (s := setSlot c .resolved (setQbyte c q u)) hc' hpec read
      exact exec_checkSupport_of_ok hopen (capture.trans captured)
    · have kept := voutModeCapture_of_fails (s := setSlot c .resolved (setQbyte c q u)) hc' hpec fails
      exact exec_checkSupport_of_ok hopen (capture.trans kept)

end Sys2Proof.Machine
end

section
/-! O46. The nested check of COEFFICIENTS is the same check (41_query.md R148, R151), and the fetches it admits. -/

namespace Sys2Proof.Machine

/-! ## The nesting written out is the recursion -/

section Recursion

variable {ask ask' : State → Internal Verdict} {cmd : Word16} {s : State}

/-- A check reads its nested check only where the slot of its own command is bound. -/
theorem checkWith_congr (h : ∀ t, t.params = s.params → slotAt t (c8 cmd) = .resolved → ask t = ask' t) :
    checkWith ask cmd s = checkWith ask' cmd s := by
  have bind (q : Byte) {u : State} (hu : u.params = s.params) :
      bindSlot ask (c8 cmd) q u = bindSlot ask' (c8 cmd) q u := by
    have same := h (setSlot (c8 cmd) .resolved (setQbyte (c8 cmd) q u)) hu (by rw [slotAt_setSlot, if_pos rfl])
    simp only [bindSlot, directCoefficients, same]
  unfold checkWith negotiate
  cases hcall : transactAs wordOfPayload (.processCall s.params.codes.query (queryWord (c8 cmd)) s.pecEn) s with
  | error f => rfl
  | ok x =>
    obtain ⟨_, _, only, _⟩ := transactAs_traffic hcall (by simp [carriesPec])
    have hparams : x.2.params = s.params := by rw [only]
    simp only [Internal.andThen, bind _ hparams]

theorem boundVerdict_of_resolved (h : slotAt s s.params.codes.coefficients = .resolved) :
    boundVerdict s = .ok (.supported, s) := by
  rw [boundVerdict, h]

theorem coefficients_core (s : State) : (cmdOf s.params.codes.coefficients).toNat ≤ 0xFD := by
  obtain ⟨⟨_, _, _, hcore, _⟩, _⟩ := commandCodes_spec s.params.codes
  exact isExtended_false_iff.1 (cmdOf_core hcore)

/-- A check of COEFFICIENTS that needs no negotiation does not read its nested check. -/
theorem checkWith_coefficients_of_known {v : Verdict} (h : knownVerdict s.params.codes.coefficients s = some v) :
    checkWith ask (cmdOf s.params.codes.coefficients) s = .ok (v, s) :=
  checkWith_of_known (coefficients_core s) (by rwa [c8_cmdOf])

/-- The check of COEFFICIENTS inside any check is the check of COEFFICIENTS (R151): its own nested check finds its slot
bound, whatever depth of nesting is written out. -/
theorem checkCoefficients_eq_checkSupportCore (s : State) :
    checkCoefficients s = checkSupportCore (cmdOf s.params.codes.coefficients) s := by
  refine checkWith_congr fun t hparams hslot => ?_
  rw [c8_cmdOf, ← hparams] at hslot
  exact (boundVerdict_of_resolved hslot).trans
    (checkWith_coefficients_of_known (knownVerdict_of_resolved hslot)).symm

theorem checkSupportCore_unfold (cmd : Word16) (s : State) :
    checkSupportCore cmd s = checkWith (checkSupportCore (cmdOf s.params.codes.coefficients)) cmd s :=
  checkWith_congr fun t hparams _ => hparams ▸ checkCoefficients_eq_checkSupportCore t

end Recursion

/-! ## Step 8: the fetches of a DIRECT code -/

section Direct

variable {ask : State → Internal Verdict} {c q : Byte} {s s₀ : State}

theorem enrich_of_outcome {wanted : Bool} {d : Direction} {t : State} {e : Exit}
    (h : if wanted then fetchCoefficientsCore c d s = .ok (e, t) else t = s) : enrich wanted c d s = .ok ((), t) := by
  cases wanted with
  | true =>
    rw [if_pos rfl] at h
    rw [enrich, if_pos rfl, h, Internal.andThen]
  | false => exact h ▸ rfl

theorem directCoefficients_of_not_available {v : Verdict} (hq : qFormat q = 3#3) (hask : ask s = .ok (v, s₀))
    (hv : v ≠ .supported) : directCoefficients ask c q s = .ok (.supported, s₀) := by
  simp only [directCoefficients, hq, hask, Internal.andThen, hv, if_true, if_false]

theorem directCoefficients_of_available {s₁ s₂ : State} (hq : qFormat q = 3#3) (hask : ask s = .ok (.supported, s₀))
    (read : enrich (qReadable q) c .read s₀ = .ok ((), s₁)) (write : enrich (qWritable q) c .write s₁ = .ok ((), s₂)) :
    directCoefficients ask c q s = .ok (.supported, s₂) := by
  simp only [directCoefficients, hq, hask, read, write, Internal.andThen, if_true]

end Direct

/-- The slots after a negotiation that bound `c`. -/
theorem BusOk.slotAt_bound {r : BusReq} {s u : State} {device : List Byte} (ok : BusOk r s device u) (c q x : Byte) :
    slotAt (setSlot c .resolved (setQbyte c q u)) x = if c = x then .resolved else slotAt s x := by
  have same : slotAt u x = slotAt s x := by rw [ok.onlyBus]; rfl
  rw [slotAt_setSlot, ← same]
  rfl

/-- Settles O46: `checkSupportCore_unfold`, and one lemma for each outcome of the nested check. -/
theorem directCodesFetchTheirCoefficients : Obligations.DirectCodesFetchTheirCoefficients := by
  refine ⟨checkSupportCore_unfold, ?_⟩
  intro cmd s q u hopen hcore c coefficients hslot hquery hno hvout ok hq hclass bound
  have hparams : bound.params = s.params := (congrArg (·.params) ok.onlyBus :)
  have hcoef : bound.params.codes.coefficients = coefficients := congrArg (·.codes.coefficients) hparams
  have slot_bound (x : Byte) : slotAt bound x = if c = x then .resolved else slotAt s x := ok.slotAt_bound c q x
  have direct : checkSupportCore cmd s = directCoefficients checkCoefficients c q bound :=
    (checkSupportCore_of_answer hcore hslot hquery hno ok).trans (bindSlot_of_other hq (hparams ▸ hvout))
  refine ⟨fun h => ?_, fun h => ?_, fun verdict s₀ h => ?_⟩
  · have resolved : slotAt bound coefficients = .resolved := by
      rw [slot_bound]
      rcases h with h | h
      · rw [h, ite_self]
      · rw [if_pos h]
    rw [← hcoef] at resolved ⊢
    exact checkWith_coefficients_of_known (knownVerdict_of_resolved resolved)
  · have hne : c ≠ coefficients := by
      intro heq
      rw [← heq, hslot] at h
      cases h
    have unsupported : slotAt bound coefficients = .unsupported := by rw [slot_bound, if_neg hne, h]
    rw [← hcoef] at unsupported ⊢
    exact checkWith_coefficients_of_known (knownVerdict_of_unsupported unsupported)
  · have nested : checkCoefficients bound = .ok (verdict, s₀) := by
      rw [checkCoefficients_eq_checkSupportCore, hcoef, h]
    refine ⟨fun hv => ?_, ?_⟩
    · exact exec_checkSupport_of_ok hopen (direct.trans (directCoefficients_of_not_available hclass nested hv))
    · rintro rfl e₁ s₁ e₂ s₂ read write
      have fetched := directCoefficients_of_available hclass nested (enrich_of_outcome read) (enrich_of_outcome write)
      exact exec_checkSupport_of_ok hopen (direct.trans fetched)

end Sys2Proof.Machine
end

section
/-! O48. The verdict of a check is the slot it leaves (41_query.md R146, R147, R150). -/

namespace Sys2Proof.Machine

/-- The verdict a slot stands for (R142, R150). -/
def slotVerdict : Slot → Verdict
  | .resolved => .supported
  | .unsupported => .unsupported
  | .notProbed => .unknown

theorem verdictCode_slotVerdict (x : Slot) : verdictCode (slotVerdict x) =
    match x with
    | .resolved => 0#16
    | .unsupported => 1#16
    | .notProbed => 2#16 := by
  cases x <;> rfl

/-- Steps 2 to 4 answer by the slot. -/
theorem knownVerdict_eq_slotVerdict {c : Byte} {s : State} {v : Verdict} (h : knownVerdict c s = some v) :
    v = slotVerdict (slotAt s c) := by
  cases hslot : slotAt s c with
  | unsupported => exact Option.some.inj (h.symm.trans (knownVerdict_of_unsupported hslot))
  | resolved => exact Option.some.inj (h.symm.trans (knownVerdict_of_resolved hslot))
  | notProbed =>
    by_cases hno : slotAt s s.params.codes.query = .unsupported ∨ s.noQuery = true
    · exact Option.some.inj (h.symm.trans (knownVerdict_of_unanswerable hslot hno))
    · push Not at hno
      obtain ⟨hquery, hno⟩ := hno
      rw [knownVerdict_of_negotiable hslot hquery (Bool.eq_false_iff.2 hno)] at h
      cases h

theorem notProbed_of_knownVerdict_none {c : Byte} {s : State} (h : knownVerdict c s = none) :
    slotAt s c = .notProbed := by
  cases hslot : slotAt s c with
  | notProbed => rfl
  | unsupported => rw [knownVerdict_of_unsupported hslot] at h; cases h
  | resolved => rw [knownVerdict_of_resolved hslot] at h; cases h

theorem bindSlot_verdict {c q : Byte} {s t : State} {v : Verdict} (h : bindSlot checkCoefficients c q s = .ok (v, t)) :
    v = slotVerdict (slotAt t c) := by
  have resolved : slotAt (setSlot c .resolved (setQbyte c q s)) c = .resolved := by rw [slotAt_setSlot, if_pos rfl]
  have stays {new : List Transaction} (found : Discovered new (setSlot c .resolved (setQbyte c q s)) t) :
      .supported = slotVerdict (slotAt t c) := by
    obtain ⟨hslot, _⟩ := found.bound c (by rw [resolved]; decide)
    rw [hslot, resolved]
    rfl
  cases hq : qSupported q with
  | false =>
    rw [bindSlot_of_not_supported hq] at h
    obtain ⟨rfl, rfl⟩ := Prod.mk.inj (Except.ok.inj h)
    rw [slotAt_setSlot, if_pos rfl]
    rfl
  | true =>
    by_cases hc : c = s.params.codes.voutMode
    · rw [bindSlot_of_voutMode hq hc] at h
      obtain ⟨rfl, _, found, _⟩ := voutModeCapture_cases h ((congrArg (slotAt _) hc.symm).trans resolved)
      exact stays found
    · rw [bindSlot_of_other hq hc] at h
      obtain ⟨rfl, _, _, found, _⟩ := directCoefficients_discovered (p := Costs 1 2)
        (by simp [Costs, queries]) checkCoefficients_discovered h
      exact stays found

theorem negotiate_verdict {c : Byte} {s t : State} {v : Verdict} (hslot : slotAt s c = .notProbed)
    (h : negotiate checkCoefficients c s = .ok (v, t)) : v = slotVerdict (slotAt t c) := by
  obtain ⟨reply, u, hcall, h⟩ := Internal.andThen_ok.1 h
  split at h
  · exact bindSlot_verdict h
  · obtain ⟨_, _, only, _⟩ := transactAs_traffic hcall (by simp [carriesPec])
    obtain ⟨rfl, rfl⟩ := Prod.mk.inj (Except.ok.inj h)
    have same : slotAt { u with noQuery := true } c = slotAt s c := by rw [only]; rfl
    rw [same, hslot]
    rfl

/-- The verdict of the check of a core command is its slot in the state it leaves. -/
theorem checkSupportCore_verdict {cmd : Word16} {s t : State} {v : Verdict} (hcore : cmd.toNat ≤ 0xFD)
    (h : checkSupportCore cmd s = .ok (v, t)) : v = slotVerdict (slotAt t (c8 cmd)) := by
  cases hknown : knownVerdict (c8 cmd) s with
  | some v' =>
    rw [checkSupportCore, checkWith_of_known hcore hknown] at h
    obtain ⟨rfl, rfl⟩ := Prod.mk.inj (Except.ok.inj h)
    exact knownVerdict_eq_slotVerdict hknown
  | none =>
    rw [checkSupportCore, checkWith_of_unknown hcore hknown] at h
    exact negotiate_verdict (notProbed_of_knownVerdict_none hknown) h

/-- Settles O48: the check answers (`checkSupportCore_answers`), and `checkSupportCore_verdict`. -/
theorem checkSupportAnswersTheSlot : Obligations.CheckSupportAnswersTheSlot := by
  intro cmd s hopen hans
  obtain ⟨v, u, hcheck⟩ := checkSupportCore_answers (cmd := cmd) hans
  refine ⟨_, exec_checkSupport_of_ok hopen hcheck, rfl, rfl, fun hext => ?_, fun hcore => ?_⟩
  · obtain ⟨rfl, _⟩ := Prod.mk.inj (Except.ok.inj (hcheck.symm.trans (checkWith_of_extended hext)))
    rfl
  · exact (congrArg verdictCode (checkSupportCore_verdict hcore hcheck)).trans (verdictCode_slotVerdict _)

end Sys2Proof.Machine
end

section
/-! O47. The kinds of the transactions of a check (41_query.md R151): each form says what it can put on the bus, beside
the count `checkSupportCore_discovered` gives. -/

namespace Sys2Proof.Machine

/-- Which frames a form can put on the bus, by the parameters and by `PEC_EN`. -/
abbrev FrameKind := Params → Bool → BusReq → Prop

/-- A QUERY negotiation (30_encoding.md R91). -/
def Negotiation : FrameKind := fun p pec r => ∃ v, r = .processCall p.codes.query v pec

/-- A coefficient exchange of any code and direction (42_coefficients.md R161, R162). -/
def CoefficientExchange : FrameKind := fun p pec r =>
  ∃ c d, r = .blockProcessCall p.codes.coefficients [c, d] pec ∨ r = .raw [p.codes.coefficients, 0x02#8, c, d] 6

/-- What the check of a command other than VOUT_MODE sends. -/
def AsksOrFetches : FrameKind := fun p pec r => Negotiation p pec r ∨ CoefficientExchange p pec r

/-- What the check of VOUT_MODE sends. -/
def AsksOrReadsMode : FrameKind := fun p pec r => Negotiation p pec r ∨ r = .readByte p.codes.voutMode pec

/-- A run that put only frames of this kind on the bus, and kept what the kind depends on. -/
structure Puts (kind : FrameKind) (s t : State) : Prop where
  params : t.params = s.params
  pecEn  : t.pecEn = s.pecEn
  log    : ∃ new, t.busLog = s.busLog ++ new ∧ ∀ x ∈ new, kind s.params s.pecEn x.req

/-- An internal form from `s` that puts only frames of this kind on the bus. -/
def Emits {α : Type} (kind : FrameKind) (s : State) : Internal α → Prop
  | .error _ => True
  | .ok (_, u) => Puts kind s u

/-! ## Composition -/

section Composition

variable {α β : Type} {kind kind' : FrameKind} {s t u : State} {x : Internal α}

theorem Puts.of_same (hparams : t.params = s.params) (hpec : t.pecEn = s.pecEn) (hlog : t.busLog = s.busLog) :
    Puts kind s t := ⟨hparams, hpec, [], by rw [hlog, List.append_nil], by simp⟩

theorem Puts.refl (s : State) : Puts kind s s := .of_same rfl rfl rfl

theorem Puts.trans (h : Puts kind s t) (h' : Puts kind t u) : Puts kind s u := by
  obtain ⟨hparams, hpec, new, hlog, hnew⟩ := h
  obtain ⟨hparams', hpec', new', hlog', hnew'⟩ := h'
  rw [hparams, hpec] at hnew'
  exact ⟨hparams'.trans hparams, hpec'.trans hpec, new ++ new', by rw [hlog', hlog, List.append_assoc],
    List.forall_mem_append.2 ⟨hnew, hnew'⟩⟩

theorem Emits.after (h : Emits kind u x) (hu : Puts kind s u) : Emits kind s x := by
  rcases x with f | ⟨a, t⟩
  · trivial
  · exact hu.trans h

theorem Emits.andThen {k : α → State → Internal β} (hx : Emits kind s x)
    (hk : ∀ a u, u.params = s.params → Emits kind u (k a u)) : Emits kind s (x.andThen k) := by
  rcases x with f | ⟨a, u⟩
  · trivial
  · exact (hk a u hx.params).after hx

theorem Emits.mono (h : Emits kind s x) (hkind : ∀ p pec r, kind p pec r → kind' p pec r) : Emits kind' s x := by
  rcases x with f | ⟨a, t⟩
  · trivial
  · obtain ⟨hparams, hpec, new, hlog, hnew⟩ := h
    exact ⟨hparams, hpec, new, hlog, fun y hy => hkind _ _ _ (hnew y hy)⟩

end Composition

/-! ## Transactions and fetches -/

theorem transact_emits {kind : FrameKind} {r : BusReq} {s : State} (hr : kind s.params s.pecEn r) :
    Emits kind s (transact r s) := by
  cases hx : transact r s with
  | error f => trivial
  | ok x =>
    obtain ⟨reply, u⟩ := x
    rcases transact_cases hx with ⟨_, _, rfl⟩ | ⟨_, _, _, _, rfl⟩ | ⟨_, _, _, _, rfl⟩
    · exact Puts.refl u
    · exact ⟨rfl, rfl, _, rfl, by simpa using hr⟩
    · exact ⟨rfl, rfl, _, rfl, by simpa using hr⟩

theorem transactAs_emits {α : Type} {kind : FrameKind} {f : List Byte → α} {r : BusReq} {s : State}
    (hr : kind s.params s.pecEn r) : Emits kind s (transactAs f r s) :=
  (transact_emits hr).andThen fun _ u _ => Puts.refl u

theorem fetchCoefficientsCore_emits (c : Byte) (d : Direction) (s : State) :
    Emits CoefficientExchange s (fetchCoefficientsCore c d s) := by
  have store (n : Nat) (bs : List Byte) (u : State) :
      Emits CoefficientExchange u (Except.ok (storeCoefficients c d n bs u) : Internal Exit) := by
    unfold storeCoefficients
    split <;> exact .of_same rfl rfl rfl
  unfold fetchCoefficientsCore
  split
  · refine (transact_emits ⟨_, _, .inl rfl⟩).andThen fun reply u _ => ?_
    cases reply with
    | ok bs => exact store _ _ u
    | badCount => exact Puts.refl u
    | fail k => exact Puts.refl u
  · split
    · refine (transact_emits ⟨_, _, .inr rfl⟩).andThen fun reply u _ => ?_
      cases reply with
      | ok bs => exact store _ _ u
      | badCount => exact Puts.refl u
      | fail k => exact Puts.refl u
    · exact Puts.refl s

theorem enrich_emits (wanted : Bool) (c : Byte) (d : Direction) (s : State) :
    Emits CoefficientExchange s (enrich wanted c d s) := by
  unfold enrich
  split
  · exact (fetchCoefficientsCore_emits c d s).andThen fun _ u _ => Puts.refl u
  · exact Puts.refl s

theorem voutModeCapture_emits (s : State) : Emits AsksOrReadsMode s (voutModeCapture s) := by
  refine (transactAs_emits (.inr rfl)).andThen fun reply u _ => ?_
  cases reply with
  | ok x => exact Puts.of_same rfl rfl rfl
  | badCount => exact Puts.refl u
  | fail k => exact Puts.refl u

/-! ## The check -/

section Check

variable {kind : FrameKind} {ask : State → Internal Verdict} {cmd : Word16} {s : State}

/-- A check sends its negotiation and what binding the slot sends. -/
theorem checkWith_emits (hcall : ∀ p pec r, Negotiation p pec r → kind p pec r)
    (hbind : cmd.toNat ≤ 0xFD → ∀ q u, u.params = s.params → Emits kind u (bindSlot ask (c8 cmd) q u)) :
    Emits kind s (checkWith ask cmd s) := by
  unfold checkWith
  split
  · exact Puts.refl s
  · next hext =>
    have hcore : cmd.toNat ≤ 0xFD := isExtended_false_iff.1 (Bool.eq_false_iff.2 hext)
    split
    · exact Puts.refl s
    · refine (transactAs_emits (hcall _ _ _ ⟨_, rfl⟩)).andThen fun reply u hparams => ?_
      split
      · exact hbind hcore _ u hparams
      · exact Puts.of_same rfl rfl rfl

theorem bindSlot_emits_read {c q : Byte} (hc : c = s.params.codes.voutMode) :
    Emits AsksOrReadsMode s (bindSlot ask c q s) := by
  cases hq : qSupported q with
  | false =>
    rw [bindSlot_of_not_supported hq]
    exact Puts.of_same rfl rfl rfl
  | true =>
    rw [bindSlot_of_voutMode hq hc]
    exact (voutModeCapture_emits _).after (.of_same rfl rfl rfl)

theorem directCoefficients_emits (hask : ∀ u, Emits AsksOrFetches u (ask u)) (c q : Byte) (s : State) :
    Emits AsksOrFetches s (directCoefficients ask c q s) := by
  have fetch (wanted : Bool) (d : Direction) (u : State) : Emits AsksOrFetches u (enrich wanted c d u) :=
    (enrich_emits wanted c d u).mono fun _ _ _ => .inr
  unfold directCoefficients
  split
  · refine (hask s).andThen fun verdict u _ => ?_
    split
    · exact (fetch _ .read u).andThen fun _ u₁ _ => (fetch _ .write u₁).andThen fun _ u₂ _ => Puts.refl u₂
    · exact Puts.refl u
  · exact Puts.refl s

theorem bindSlot_emits_fetch {c q : Byte} (hask : ∀ u, Emits AsksOrFetches u (ask u))
    (hc : c ≠ s.params.codes.voutMode) : Emits AsksOrFetches s (bindSlot ask c q s) := by
  cases hq : qSupported q with
  | false =>
    rw [bindSlot_of_not_supported hq]
    exact Puts.of_same rfl rfl rfl
  | true =>
    rw [bindSlot_of_other hq hc]
    exact (directCoefficients_emits hask c q _).after (.of_same rfl rfl rfl)

theorem cmdOf_c8 (h : cmd.toNat ≤ 0xFD) : cmdOf (c8 cmd) = cmd := by
  apply BitVec.eq_of_toNat_eq
  rw [cmdOf, BitVec.toNat_setWidth, c8_toNat h]
  omega

theorem checkWith_emits_read (hcmd : cmd = cmdOf s.params.codes.voutMode) :
    Emits AsksOrReadsMode s (checkWith ask cmd s) := by
  refine checkWith_emits (fun _ _ _ => .inl) fun _ q u hparams => bindSlot_emits_read ?_
  rw [hcmd, c8_cmdOf, hparams]

theorem checkWith_emits_fetch (hask : ∀ u, Emits AsksOrFetches u (ask u)) (hcmd : cmd ≠ cmdOf s.params.codes.voutMode) :
    Emits AsksOrFetches s (checkWith ask cmd s) := by
  refine checkWith_emits (fun _ _ _ => .inl) fun hcore q u hparams => bindSlot_emits_fetch hask fun hc => hcmd ?_
  rw [← cmdOf_c8 hcore, hc, hparams]

end Check

/-- COEFFICIENTS is not VOUT_MODE (00_scope.md R10), so its nested check reads no byte. -/
theorem checkCoefficients_emits (s : State) : Emits AsksOrFetches s (checkCoefficients s) := by
  refine checkWith_emits_fetch (fun u => Puts.refl u) fun heq => ?_
  obtain ⟨_, hne, _⟩ := commandCodes_spec s.params.codes
  refine hne ?_
  rw [← c8_cmdOf s.params.codes.voutMode, ← heq, c8_cmdOf]

/-! ## The bound -/

/-- The transactions of one CHECK_SUPPORT, by number and kind (R151). -/
structure CheckTraffic (cmd : Word16) (s : State) (new : List Transaction) : Prop where
  bound : Costs 2 4 new
  other : cmd ≠ cmdOf s.params.codes.voutMode → ∀ x ∈ new, AsksOrFetches s.params s.pecEn x.req
  mode  : cmd = cmdOf s.params.codes.voutMode → Costs 1 1 new ∧ ∀ x ∈ new, AsksOrReadsMode s.params s.pecEn x.req

theorem CheckTraffic.none (cmd : Word16) (s : State) : CheckTraffic cmd s [] where
  bound := by simp [Costs, queries]
  other := by simp
  mode := by simp [Costs, queries]

theorem Emits.newTransactions {α : Type} {kind : FrameKind} {s t : State} {a : α} {x : Internal α} (h : Emits kind s x)
    (hx : x = .ok (a, t)) : ∀ y ∈ newTransactions s t, kind s.params s.pecEn y.req := by
  subst hx
  obtain ⟨_, _, new, hlog, hnew⟩ := h
  rwa [newTransactions_eq hlog]

theorem checkSupportCore_traffic {cmd : Word16} {s t : State} {v : Verdict} (h : checkSupportCore cmd s = .ok (v, t)) :
    CheckTraffic cmd s (newTransactions s t) := by
  obtain ⟨new, found, hbound, hmode⟩ := checkSupportCore_discovered h
  have hnew := newTransactions_eq found.traffic.log
  exact
    { bound := hnew ▸ hbound
      other := fun hcmd => (checkWith_emits_fetch checkCoefficients_emits hcmd).newTransactions h
      mode := fun hcmd => ⟨hnew ▸ hmode hcmd, (checkWith_emits_read hcmd).newTransactions h⟩ }

theorem exec_checkSupport_traffic {cmd : Word16} {s t : State} (h : exec (.checkSupport cmd) s = .next t) :
    CheckTraffic cmd s (newTransactions s t) := by
  obtain ⟨e, u, rfl, ⟨rfl, _⟩ | ⟨_, _, _, v, x, hcheck, _, rfl⟩⟩ := exec_next h
  · rw [newTransactions_same (endOperation_busLog e u)]
    exact .none cmd u
  · have traffic := checkSupportCore_traffic hcheck
    exact traffic

/-- Transactions other than process calls number what `Costs` allows beside the negotiations. -/
theorem Costs.others_le {k n : Nat} {new : List Transaction} (h : Costs k n new) :
    (new.filter fun x => !isProcessCall x).length ≤ n := by
  have parts := List.length_eq_length_filter_add (l := new) isProcessCall
  have total : new.length ≤ (new.filter isProcessCall).length + n := h.2
  omega

theorem not_negotiation {p : Params} {pec : Bool} {x : Transaction} (h : isProcessCall x = false) :
    ¬Negotiation p pec x.req := by
  rintro ⟨v, hreq⟩
  rw [isProcessCall, hreq] at h
  cases h

/-- Settles O47: `exec_checkSupport_traffic`, process calls and the others apart. -/
theorem checkSupportIsBounded : Obligations.CheckSupportIsBounded := by
  intro cmd s t h calls others
  obtain ⟨hbound, hother, hmode⟩ := exec_checkSupport_traffic h
  have hothers : others = (newTransactions s t).filter fun x => !isProcessCall x :=
    List.filter_congr fun x _ => by
      unfold isProcessCall
      cases x.req <;> rfl
  have mem_others {x : Transaction} (hx : x ∈ others) : x ∈ newTransactions s t ∧ isProcessCall x = false := by
    rw [hothers] at hx
    simpa using hx
  refine ⟨hbound.1, hothers ▸ hbound.others_le, fun hcmd x hx => ?_, fun hcmd => ?_⟩
  · obtain ⟨hmem, hnot⟩ := mem_others hx
    exact (hother hcmd x hmem).resolve_left (not_negotiation hnot)
  · obtain ⟨hcost, hkind⟩ := hmode hcmd
    refine ⟨hcost.1, hothers ▸ hcost.others_le, fun x hx => ?_⟩
    obtain ⟨hmem, hnot⟩ := mem_others hx
    exact (hkind x hmem).resolve_left (not_negotiation hnot)

end Sys2Proof.Machine
end

section
/-! O23. Every operation completes where its answers come (41_query.md R151): the checks and ends complete, and each call
of the TU takes one of the answers left. -/

namespace Sys2Proof.Machine

/-- A meaning gives a next state. -/
def Completes (o : StepOutcome) : Prop := ∃ t, o = .next t

/-! ## Composition -/

section Composition

variable {α : Type} {s : State} {body : StepOutcome}

theorem completes_done (e : Exit) (s : State) : Completes (done e s) := ⟨_, rfl⟩

theorem completes_whenAllowed {allowed : SessionState → Bool} (h : Completes body) :
    Completes (whenAllowed allowed s body) := by
  unfold whenAllowed
  split
  · exact h
  · exact completes_done ..

theorem completes_whenCore {cmd : Word16} (h : Completes body) : Completes (whenCore cmd s body) := by
  unfold whenCore
  split
  · exact completes_done ..
  · exact h

theorem completes_whenLength {n : Nat} (h : Completes body) : Completes (whenLength n s body) := by
  unfold whenLength
  split
  · exact completes_done ..
  · exact h

theorem completes_whenDirection {arg : Word16} {body : Direction → StepOutcome} (h : ∀ d, Completes (body d)) :
    Completes (whenDirection arg s body) := by
  unfold whenDirection
  split
  · exact completes_done ..
  · exact h _

theorem completes_onReply {reply : Reply α} {body : α → StepOutcome} (h : ∀ a, Completes (body a)) :
    Completes (onReply reply s body) := by
  cases reply with
  | ok a => exact h a
  | badCount => exact completes_done ..
  | fail k => exact completes_done ..

theorem completes_conclude {x : Internal α} {k : α → State → StepOutcome} (hx : ∃ a u, x = .ok (a, u))
    (hk : ∀ a u, x = .ok (a, u) → Completes (k a u)) : Completes (x.conclude k) := by
  obtain ⟨a, u, hx⟩ := hx
  rw [conclude_of_ok hx]
  exact hk a u hx

end Composition

/-! ## Calls of the TU -/

section Calls

variable {α : Type} {r : BusReq} {s : State}

theorem completes_transact {k : Reply (List Byte) → State → StepOutcome} (h : Answered 1 s)
    (hk : ∀ reply u, Completes (k reply u)) : Completes ((transact r s).conclude k) :=
  completes_conclude (transact_answers h.nextAnswer_ne) fun reply u _ => hk reply u

theorem completes_transactAs {f : List Byte → α} {k : Reply α → State → StepOutcome} (h : Answered 1 s)
    (hk : ∀ reply u, Completes (k reply u)) : Completes ((transactAs f r s).conclude k) :=
  completes_conclude (transactAs_answers h.nextAnswer_ne) fun reply u _ => hk reply u

/-- One call leaves all but one of the answers. -/
theorem OneCall.answered {n : Nat} {u : State} (h : OneCall r s u) (hs : Answered (n + 1) s) : Answered n u := by
  obtain ⟨new, traffic, _, hnew⟩ := h
  refine hs.after traffic ?_
  rcases hnew with rfl | ⟨e, rfl⟩ <;> simp

end Calls

/-! ## READ_BLOCK and SCAN -/

theorem lengthRead_answers {c : Byte} {s : State} (h : Answered 1 s) : ∃ reply u, lengthRead c s = .ok (reply, u) := by
  obtain ⟨reply, u, hx⟩ := transact_answers (r := .readByte c false) h.nextAnswer_ne
  exact ⟨_, _, lengthRead_of_transact hx⟩

theorem completes_blockAfterLength {c len : Byte} {n : Nat} {s : State} (h : Answered 1 s) :
    Completes (blockAfterLength c len n s) := by
  have copy (bs : List Byte) (u : State) : Completes (copyOut bs n u) := ⟨_, copyOut_eq_delivered bs n u⟩
  unfold blockAfterLength
  split
  · exact completes_transact h fun _ u => completes_onReply fun bs => copy bs u
  · split
    · refine completes_transact h fun _ u => completes_onReply fun bs => ?_
      split
      · exact copy bs.tail u
      · exact completes_done ..
    · exact completes_done ..

theorem completes_execScan {s : State} (h : Answered (9 + 6 * s.params.catalog.entries.length) s) :
    Completes (execScan s) := by
  refine completes_whenAllowed ?_
  split
  · have first : Answered 1 s := h.mono (by omega)
    refine completes_conclude (transactAs_answers first.nextAnswer_ne) fun reply u hx => ?_
    have call : OneCall .quick s u := quickCore_traffic hx
    have hparams : u.params = s.params := by
      obtain ⟨_, _, only, _⟩ := call
      rw [only]
    have left : Answered (8 + 6 * u.params.catalog.entries.length) u := by
      rw [hparams]
      exact call.answered (h.mono (by omega))
    cases reply with
    | ok _ =>
      obtain ⟨t, ht⟩ := discover_answers left
      exact completes_conclude ⟨_, t, ht⟩ fun _ _ _ => completes_done ..
    | badCount => exact completes_done ..
    | fail k => exact completes_done ..
  · exact completes_done ..

/-! ## Every operation -/

/-- Settles O23: the operations by the calls they make. -/
theorem everyOperationCompletes : Obligations.EveryOperationCompletes := by
  intro i s h
  have one (hans : Answered 2 s) : Answered 1 s := hans.mono (by decide)
  cases i with
  | openSession a p =>
    refine completes_whenAllowed ?_
    split <;> exact completes_done ..
  | scan => exact completes_execScan h
  | report | closeSession | getSession | decodeLinear11 | decodeVout | decodeBitmap =>
    exact completes_whenAllowed (completes_done ..)
  | getSlot | classify | decodeValue | decodeDirect =>
    exact completes_whenAllowed (completes_whenCore (completes_done ..))
  | getCoef cmd arg =>
    exact completes_whenAllowed (completes_whenDirection fun _ => completes_whenCore (completes_done ..))
  | pageSelect page =>
    refine completes_whenAllowed (completes_transactAs (one h) fun reply _ => ?_)
    cases reply <;> exact completes_done ..
  | quickPresence =>
    refine completes_whenAllowed ?_
    split
    · refine completes_transactAs (one h) fun reply _ => ?_
      split <;> exact completes_done ..
    · exact completes_done ..
  | readByte | readWord | writeByte =>
    exact completes_whenAllowed (completes_whenCore (completes_transactAs (one h) fun _ _ =>
      completes_onReply fun _ => completes_done ..))
  | writeWord =>
    exact completes_whenAllowed (completes_whenCore (completes_transact (one h) fun _ _ =>
      completes_onReply fun _ => completes_done ..))
  | readBlock cmd n =>
    refine completes_whenAllowed (completes_whenLength (completes_whenCore ?_))
    refine completes_conclude (lengthRead_answers (one h)) fun reply u hx => completes_onReply fun len => ?_
    obtain ⟨_, w, call, rfl⟩ := lengthRead_cases hx
    exact completes_blockAfterLength ((call.answered h).congr rfl)
  | writeBlock cmd n =>
    refine completes_whenAllowed (completes_whenLength (completes_whenCore ?_))
    split
    · exact completes_done ..
    · exact completes_transact ((one h).congr rfl) fun _ _ => completes_onReply fun _ => completes_done ..
  | checkSupport cmd =>
    exact completes_whenAllowed (completes_conclude (checkSupportCore_answers h) fun _ _ _ => completes_done ..)
  | fetchCoefficients cmd arg =>
    exact completes_whenAllowed (completes_whenDirection fun d => completes_whenCore
      (completes_conclude (fetchCoefficientsCore_answers (one h)) fun _ _ _ => completes_done ..))

end Sys2Proof.Machine
end

section
/-! O49 to O51. FETCH_COEFFICIENTS and the read-back of the discovered table (42_coefficients.md R160 to R167): the one
request a fetch makes, one lemma for each kind of answer to it, and the fields of the two views. -/

namespace Sys2Proof.Machine

/-! ## The request of a coefficient fetch -/

/-- The transaction a fetch makes (R161, R162): the block process call, the raw exchange of an adapter without it, or none
where neither path exists. -/
def fetchRequest (c : Byte) (d : Direction) (s : State) : Option BusReq :=
  if capBlockProcCall s.params then
    some (.blockProcessCall s.params.codes.coefficients [c, directionByte d] s.pecEn)
  else if capRaw s.params then some (.raw [s.params.codes.coefficients, 0x02#8, c, directionByte d] 6)
  else none

section Request

variable {c : Byte} {d : Direction} {s : State} {r : BusReq}

theorem fetchRequest_call (h : capBlockProcCall s.params = true) :
    fetchRequest c d s = some (.blockProcessCall s.params.codes.coefficients [c, directionByte d] s.pecEn) := if_pos h

theorem fetchRequest_message (h : capBlockProcCall s.params = false) (hraw : capRaw s.params = true) :
    fetchRequest c d s = some (.raw [s.params.codes.coefficients, 0x02#8, c, directionByte d] 6) :=
  (if_neg (Bool.eq_false_iff.1 h)).trans (if_pos hraw)

theorem fetchRequest_cases (h : fetchRequest c d s = some r) :
    (capBlockProcCall s.params = true ∧
      r = .blockProcessCall s.params.codes.coefficients [c, directionByte d] s.pecEn) ∨
    (capBlockProcCall s.params ≠ true ∧ capRaw s.params = true ∧
      r = .raw [s.params.codes.coefficients, 0x02#8, c, directionByte d] 6) := by
  unfold fetchRequest at h
  split at h
  · next hcall => exact .inl ⟨hcall, (Option.some.inj h).symm⟩
  · next hcall =>
    split at h
    · next hraw => exact .inr ⟨hcall, hraw, (Option.some.inj h).symm⟩
    · cases h

end Request

/-! ## The fetch for each kind of answer -/

section Fetch

variable {c : Byte} {d : Direction} {s u : State} {r : BusReq}

/-- A completed exchange declares its length `n` in the first byte the device drives, on either path (R161, R162). -/
theorem fetchCoefficientsCore_of_ok {n : Byte} {bs : List Byte} (hr : fetchRequest c d s = some r)
    (ok : BusOk r s (n :: bs) u) : fetchCoefficientsCore c d s = .ok (storeCoefficients c d n.toNat bs u) := by
  have answered := ok.transact
  rcases fetchRequest_cases hr with ⟨hcall, rfl⟩ | ⟨hcall, hraw, rfl⟩
  · obtain ⟨_, ⟨_, _, hdevice, hlength, _⟩, _⟩ := ok
    cases hdevice
    rw [fetchCoefficientsCore, if_pos hcall, answered, ← hlength]
    rfl
  · rw [fetchCoefficientsCore, if_neg hcall, if_pos hraw, answered]
    rfl

theorem fetchCoefficientsCore_of_fails {k : FailCause} (hr : fetchRequest c d s = some r) (fails : BusFails r s k u) :
    fetchCoefficientsCore c d s = .ok (.transportError k, u) := by
  rcases fetchRequest_cases hr with ⟨hcall, rfl⟩ | ⟨hcall, hraw, rfl⟩
  · rw [fetchCoefficientsCore, if_pos hcall, fails.transact]
    rfl
  · rw [fetchCoefficientsCore, if_neg hcall, if_pos hraw, fails.transact]
    rfl

theorem fetchCoefficientsCore_of_badCount (hr : fetchRequest c d s = some r) (bad : BusBadCount r s u) :
    fetchCoefficientsCore c d s = .ok (.protocolViolation, u) := by
  rcases fetchRequest_cases hr with ⟨hcall, rfl⟩ | ⟨hcall, hraw, rfl⟩
  · rw [fetchCoefficientsCore, if_pos hcall, bad.transact]
    rfl
  · rw [fetchCoefficientsCore, if_neg hcall, if_pos hraw, bad.transact]
    rfl

theorem fetchCoefficientsCore_of_neither (hcall : capBlockProcCall s.params = false) (hraw : capRaw s.params = false) :
    fetchCoefficientsCore c d s = .ok (.unsupported, s) := by
  rw [fetchCoefficientsCore, hcall, hraw]
  rfl

theorem storeCoefficients_of_five {bs : List Byte} :
    storeCoefficients c d (0x05#8).toNat bs s = (.ok, setCoef c d (coefOfBytes bs) s) := rfl

theorem storeCoefficients_of_other_length {n : Byte} {bs : List Byte} (hn : n ≠ 0x05#8) :
    storeCoefficients c d n.toNat bs s = (.protocolViolation, s) :=
  if_neg fun h => hn (BitVec.eq_of_toNat_eq h)

end Fetch

/-! ## FETCH_COEFFICIENTS -/

/-- A set stored after transactions is the one change of the coefficient table. -/
theorem OnlyBus.coefAt_setCoef {s u : State} (h : OnlyBus s u) (c : Byte) (d : Direction) (k : CoefSet) (c' : Byte)
    (d' : Direction) : coefAt (setCoef c d k u) c' d' = if c' = c ∧ d' = d then k else coefAt s c' d' := by
  have kept : coefAt u c' d' = coefAt s c' d' := by
    rw [h]
    rfl
  simp only [Machine.coefAt_setCoef, kept, eq_comm]

section Exec

variable {cmd arg : Word16} {d : Direction} {s t u : State}

/-- In an open session, with good operands, the operation ends as the fetch does (R160). -/
theorem exec_fetchCoefficients_of_ok {e : Exit} (hopen : SessionOpen s) (hcore : cmd.toNat ≤ 0xFD)
    (hd : directionOf arg = some d) (h : fetchCoefficientsCore (c8 cmd) d s = .ok (e, u)) :
    exec (.fetchCoefficients cmd arg) s = .next (endOperation e u) := by
  rw [exec, execFetchCoefficients, whenAllowed_open hopen, whenDirection_of hd, whenCore_core hcore,
    conclude_of_ok h, done]

theorem exitStatus_eq_ok_iff (e : Exit) : exitStatus e = .ok ↔ e = .ok := by cases e <;> simp [exitStatus]

/-- A check turns an operation away with a status of its own (R253). -/
theorem TurnedAway.exit_ne_ok {i : Instr} {e : Exit} (h : TurnedAway i s e) : e ≠ .ok := by
  rcases h with ⟨_, rfl⟩ | ⟨_, _, rfl⟩ | ⟨_, _, _, rfl⟩ <;> simp

/-- Everything FETCH_COEFFICIENTS does to the coefficient table (R161 to R164): nothing, or it stores one set and ends
OK. -/
theorem exec_fetchCoefficients_table (h : exec (.fetchCoefficients cmd arg) s = .next t) :
    (t.status ≠ .ok ∧ t.coef = s.coef) ∨
      (t.status = .ok ∧ ∃ d bs, directionOf arg = some d ∧ ∀ c' d',
        coefAt t c' d' = if c' = c8 cmd ∧ d' = d then coefOfBytes bs else coefAt s c' d') := by
  obtain ⟨e, u, rfl, ⟨rfl, away⟩ | ⟨_, _, _, d, hd, hx, _⟩⟩ := exec_next h
  · exact .inl ⟨mt (exitStatus_eq_ok_iff e).1 away.exit_ne_ok, rfl⟩
  · obtain ⟨_, _, _, _, ⟨hne, honly⟩ | ⟨rfl, bs, w, honly, rfl⟩⟩ := fetchCoefficientsCore_cases hx
    · exact .inl ⟨mt (exitStatus_eq_ok_iff e).1 hne, congrArg (·.coef) honly⟩
    · exact .inr ⟨rfl, d, bs, hd, honly.coefAt_setCoef (c8 cmd) d (coefOfBytes bs)⟩

end Exec

/-- Settles O50: what a fetch does to the table, and one lemma for each kind of answer to its request. -/
theorem failedFetchKeepsTheSet : Obligations.FailedFetchKeepsTheSet := by
  constructor
  · intro cmd arg s t h
    rcases exec_fetchCoefficients_table h with ⟨hne, same⟩ | ⟨hok, d, bs, hd, table⟩
    · exact ⟨fun _ => same, fun hok => absurd hok hne⟩
    · refine ⟨fun hne => absurd hok hne, fun _ => ⟨d, hd, ?_, fun c' d' hother => ?_⟩⟩
      · exact congrArg (·.v) ((table (c8 cmd) d).trans (if_pos ⟨rfl, rfl⟩))
      · exact (table c' d').trans (if_neg hother)
  · intro cmd d s hopen hcore c arg dir call message ends
    have harg : directionOf arg = some d := by cases d <;> rfl
    have ended {e : Exit} {u : State} (h : fetchCoefficientsCore c d s = .ok (e, u)) :
        exec (.fetchCoefficients cmd arg) s = .next (endOperation e u) :=
      exec_fetchCoefficients_of_ok hopen hcore harg h
    have other_length {r : BusReq} {n : Byte} {bs : List Byte} {u : State} (hr : fetchRequest c d s = some r)
        (hn : n ≠ 0x05#8) (ok : BusOk r s (n :: bs) u) : ends .protocolViolation .noCause u :=
      ended ((fetchCoefficientsCore_of_ok hr ok).trans (congrArg Except.ok (storeCoefficients_of_other_length hn)))
    refine ⟨fun hcall => ?_, fun hcall hraw => ?_,
      fun hcall hraw => ended (fetchCoefficientsCore_of_neither hcall hraw)⟩
    · have hr : fetchRequest c d s = some call := by cases d <;> exact fetchRequest_call hcall
      exact ⟨fun _ _ _ => other_length hr, fun _ bad => ended (fetchCoefficientsCore_of_badCount hr bad),
        fun _ _ fails => ended (fetchCoefficientsCore_of_fails hr fails)⟩
    · have hr : fetchRequest c d s = some message := by cases d <;> exact fetchRequest_message hcall hraw
      exact ⟨fun _ _ _ => other_length hr, fun _ _ fails => ended (fetchCoefficientsCore_of_fails hr fails)⟩

/-- Settles O49: a completed exchange of either path, with a declared length of 5. -/
theorem fetchStoresFiveBytes : Obligations.FetchStoresFiveBytes := by
  intro cmd d s m₀ m₁ b₀ b₁ r u hopen hcore c arg dir response stores
  have harg : directionOf arg = some d := by cases d <;> rfl
  have stored {q : BusReq} (hq : fetchRequest c d s = some q) (ok : BusOk q s response u) : stores := by
    have fetched := (fetchCoefficientsCore_of_ok hq ok).trans (congrArg Except.ok storeCoefficients_of_five)
    exact ⟨_, exec_fetchCoefficients_of_ok hopen hcore harg fetched, rfl,
      ok.onlyBus.coefAt_setCoef c d (coefOfBytes [m₀, m₁, b₀, b₁, r])⟩
  refine ⟨fun ok => ?_, fun hcall ok => ?_⟩
  · obtain ⟨hcall, _⟩ := id ok
    exact stored (by cases d <;> exact fetchRequest_call hcall) ok
  · obtain ⟨hraw, _⟩ := id ok
    exact stored (by cases d <;> exact fetchRequest_message hcall hraw) ok

/-! ## GET_SLOT and GET_COEF -/

section ReadBack

variable {cmd arg : Word16} {d : Direction} (s : State)

theorem exec_getSlot (hcore : cmd.toNat ≤ 0xFD) :
    exec (.getSlot cmd) s = .next (endsAs .ok .noCause { s with result := slotView s (c8 cmd) }) := by
  rw [exec, execGetSlot, whenAllowed_of (inEveryState_iff _), whenCore_core hcore]
  rfl

theorem exec_getSlot_of_extended (hext : 0xFD < cmd.toNat) :
    exec (.getSlot cmd) s = .next (endsAs .notImplemented .noCause s) := by
  rw [exec, execGetSlot, whenAllowed_of (inEveryState_iff _), whenCore_extended hext]
  rfl

theorem exec_getCoef (hd : directionOf arg = some d) (hcore : cmd.toNat ≤ 0xFD) :
    exec (.getCoef cmd arg) s = .next (endsAs .ok .noCause
      { s with
        result := (coefAt s (c8 cmd) d).r.setWidth 16, value := .word (coefView (coefAt s (c8 cmd) d))
        valueKind := .uint }) := by
  rw [exec, execGetCoef, whenAllowed_of (inEveryState_iff _), whenDirection_of hd, whenCore_core hcore]
  rfl

/-- The direction is checked before the code (60_exceptions.md R255 (3), (4)). -/
theorem exec_getCoef_of_bad_direction (harg : 1 < arg.toNat) :
    exec (.getCoef cmd arg) s = .next (endsAs .invalidArgument .noCause s) := by
  rw [exec, execGetCoef, whenAllowed_of (inEveryState_iff _), whenDirection, directionOf_none.2 harg]
  rfl

theorem exec_getCoef_of_extended (harg : arg.toNat ≤ 1) (hext : 0xFD < cmd.toNat) :
    exec (.getCoef cmd arg) s = .next (endsAs .notImplemented .noCause s) := by
  have usable : directionOf arg ≠ none := fun h => by
    have := directionOf_none.1 h
    omega
  obtain ⟨d, hd⟩ := Option.ne_none_iff_exists'.1 usable
  rw [exec, execGetCoef, whenAllowed_of (inEveryState_iff _), whenDirection_of hd, whenCore_extended hext]
  rfl

end ReadBack

/-- The fields of GET_SLOT's `RESULT` (R166). -/
theorem slotView_fields (s : State) (c : Byte) :
    (slotView s c).extractLsb' 8 8 = qbyteAt s c ∧ (slotView s c).extractLsb' 2 6 = 0#6 ∧
      (slotView s c).extractLsb' 0 2 = slotCode (slotAt s c) := by
  unfold slotView
  refine ⟨?_, ?_, BitVec.extractLsb'_append_eq_right⟩
  · rw [BitVec.extractLsb'_append_eq_of_le (by decide)]
    exact BitVec.extractLsb'_append_eq_left
  · rw [BitVec.extractLsb'_append_eq_of_le (by decide)]
    exact BitVec.extractLsb'_append_eq_right

theorem coefView_eq_append (k : CoefSet) : coefView k = 0#23 ++ (BitVec.ofBool k.v ++ k.r ++ k.b ++ k.m) :=
  BitVec.setWidth_eq_append (by decide)

/-- The fields of GET_COEF's `VALUE` (R167). -/
theorem coefView_fields (k : CoefSet) :
    (coefView k).extractLsb' 0 16 = k.m ∧ (coefView k).extractLsb' 16 16 = k.b ∧ (coefView k).extractLsb' 32 8 = k.r ∧
      (coefView k).getLsbD 40 = k.v ∧ (coefView k).extractLsb' 41 23 = 0#23 := by
  rw [coefView_eq_append]
  refine ⟨?_, ?_, ?_, ?_, BitVec.extractLsb'_append_eq_left⟩
  · rw [BitVec.extractLsb'_append_eq_of_add_le (by decide)]
    exact BitVec.extractLsb'_append_eq_right
  · rw [BitVec.extractLsb'_append_eq_of_add_le (by decide), BitVec.extractLsb'_append_eq_of_le (by decide)]
    exact BitVec.extractLsb'_append_eq_right
  · rw [BitVec.extractLsb'_append_eq_of_add_le (by decide), BitVec.extractLsb'_append_eq_of_le (by decide),
      BitVec.extractLsb'_append_eq_of_le (by decide)]
    exact BitVec.extractLsb'_append_eq_right
  · simp only [BitVec.getLsbD_append, BitVec.getLsbD_ofBool]
    rfl

/-- Settles O51: the ends of the two operations, and the fields of the views they read back. -/
theorem slotAndCoefficientsReadBack : Obligations.SlotAndCoefficientsReadBack := by
  intro cmd arg s c
  refine ⟨exec_getSlot_of_extended s, exec_getCoef_of_bad_direction s, exec_getCoef_of_extended s, fun hcore => ?_⟩
  refine ⟨⟨slotView s c, exec_getSlot s hcore, slotView_fields s c⟩, fun d harg => ?_⟩
  have hd : directionOf arg = some d := by
    rw [harg]
    cases d <;> rfl
  exact ⟨coefView (coefAt s c d), exec_getCoef s hd hcore, coefView_fields (coefAt s c d)⟩

end Sys2Proof.Machine
end

section
/-! Binary64 (43_codec.md R180): each operation is one rounding of the exact result, and what a rounding keeps: the numbers of
binary64 themselves, and the bounds that are such numbers. -/

namespace Sys2Proof.Machine

/-! ## Numbers of binary64 -/

/-- The sign of a binary64 value as a factor. -/
abbrev signFactor (neg : Bool) : ℚ := if neg then -1 else 1

theorem signFactor_bne (a b : Bool) : signFactor (a != b) = signFactor a * signFactor b := by
  cases a <;> cases b <;> simp [signFactor]

theorem signFactor_not (a : Bool) : signFactor (!a) = -signFactor a := by cases a <;> simp [signFactor]

theorem signFactor_inv (a : Bool) : (signFactor a)⁻¹ = signFactor a := by cases a <;> simp [signFactor]

theorem abs_signFactor (a : Bool) : |signFactor a| = 1 := by cases a <;> simp [signFactor]

theorem signFactor_mul_natAbs (i : Int) : signFactor (decide (i < 0)) * (i.natAbs : ℚ) = i := by
  rw [Nat.cast_natAbs]
  rcases lt_or_ge i 0 with h | h
  · simp [signFactor, abs_of_neg h, h]
  · simp [signFactor, abs_of_nonneg h, h.not_gt]

/-- The binary64 value `z` is the number `q`, with its significand and exponent in normal form. -/
def IsNumber (z : B64) (q : ℚ) : Prop := ∃ neg m e, z = .finite neg m e ∧ Normal m e ∧ ratOf z = some q

section IsNumber

variable {z : B64} {q : ℚ}

theorem IsNumber.ratOf_eq (h : IsNumber z q) : ratOf z = some q := by
  obtain ⟨_, _, _, _, _, hq⟩ := h
  exact hq

theorem IsNumber.patternValue_eq (h : IsNumber z q) : patternValue (patternOf z) = some q := by
  obtain ⟨neg, m, e, rfl, hnormal, hq⟩ := h
  rw [(pattern_of_normal hnormal).1, hq]

theorem isNumber_finite {neg : Bool} {m : Nat} {e : Int} (h : Normal m e) :
    IsNumber (.finite neg m e) (signFactor neg * (m * (2 : ℚ) ^ e)) :=
  ⟨neg, m, e, rfl, h, ratOf_finite neg m e⟩

end IsNumber

/-- Zero with a sign, as every operation gives it. -/
def zeroB64 (neg : Bool) : B64 := .finite neg 0 (-1074)

theorem roundB64_zero (neg : Bool) (d : Nat) : roundB64 neg 0 d = zeroB64 neg := by simp [roundB64, zeroB64]

theorem isNumber_zeroB64 (neg : Bool) : IsNumber (zeroB64 neg) 0 := by
  have normal : Normal 0 (-1074) := ⟨by norm_num, le_rfl, by norm_num, .inr rfl⟩
  simpa [zeroB64] using isNumber_finite (neg := neg) normal

/-- `q` is a significand below 2^53 times a power of two that binary64 has. -/
def Representable (q : ℚ) : Prop :=
  ∃ (neg : Bool) (m : Nat) (e : Int), m < 2 ^ 53 ∧ -1074 ≤ e ∧ e ≤ 971 ∧ q = signFactor neg * ((m : ℚ) * (2 : ℚ) ^ e)

section Representable

variable {q p : ℚ}

theorem representable_of_int {i : Int} {e : Int} (hi : i.natAbs < 2 ^ 53) (he : -1074 ≤ e) (he' : e ≤ 971) :
    Representable (i * (2 : ℚ) ^ e) :=
  ⟨decide (i < 0), i.natAbs, e, hi, he, he', by rw [← mul_assoc, signFactor_mul_natAbs]⟩

theorem representable_two_pow {k : Int} (hk : -1074 ≤ k) (hk' : k ≤ 971) : Representable ((2 : ℚ) ^ k) := by
  simpa using representable_of_int (i := 1) (by norm_num) hk hk'

theorem Representable.neg (h : Representable q) : Representable (-q) := by
  obtain ⟨s, m, e, hm, he, he', rfl⟩ := h
  exact ⟨!s, m, e, hm, he, he', by rw [signFactor_not, neg_mul]⟩

/-- A small significand is doubled, and its exponent lowered, until the form is normal. -/
theorem exists_normal {m : Nat} (n : Nat) (hm : m < 2 ^ 53) (hn : n ≤ 2045) :
    ∃ m' e', Normal m' e' ∧ (m' : ℚ) * (2 : ℚ) ^ e' = m * (2 : ℚ) ^ ((n : Int) - 1074) := by
  induction n generalizing m with
  | zero => exact ⟨m, -1074, ⟨hm, le_rfl, by norm_num, .inr rfl⟩, by simp⟩
  | succ n ih =>
    rcases lt_or_ge m (2 ^ 52) with hlt | hge
    · obtain ⟨m', e', hnormal, hvalue⟩ := ih (m := 2 * m) (by omega) (by omega)
      refine ⟨m', e', hnormal, hvalue.trans ?_⟩
      rw [show ((n + 1 : Nat) : Int) - 1074 = (n : Int) - 1074 + 1 by push_cast; ring, zpow_add_one₀ two_ne_zero]
      push_cast
      ring
    · exact ⟨m, _, ⟨hm, by omega, by omega, .inl hge⟩, rfl⟩

theorem Representable.exists_number (h : Representable q) : ∃ z, IsNumber z q := by
  obtain ⟨s, m, e, hm, he, he', rfl⟩ := h
  obtain ⟨m', e', hnormal, hvalue⟩ := exists_normal (e + 1074).toNat hm (by omega)
  rw [show (((e + 1074).toNat : Nat) : Int) - 1074 = e by omega] at hvalue
  exact ⟨_, hvalue ▸ isNumber_finite hnormal⟩

theorem Representable.inRange (h : Representable q) : InRange q := by
  obtain ⟨s, m, e, hm, _, he', rfl⟩ := h
  have habs : |signFactor s * ((m : ℚ) * (2 : ℚ) ^ e)| = m * (2 : ℚ) ^ e := by
    rw [abs_mul, abs_signFactor, one_mul, abs_of_nonneg (by positivity)]
  have hm' : (m : ℚ) ≤ 2 ^ 53 - 1 := by
    have : m + 1 ≤ 2 ^ 53 := hm
    have : (m : ℚ) + 1 ≤ 2 ^ 53 := by exact_mod_cast this
    linarith
  have hpow : (2 : ℚ) ^ e ≤ 2 ^ 971 := by
    rw [← zpow_natCast]
    exact zpow_le_zpow_right₀ (by norm_num) he'
  unfold InRange
  rw [habs]
  calc (m : ℚ) * (2 : ℚ) ^ e ≤ (2 ^ 53 - 1) * 2 ^ 971 := mul_le_mul hm' hpow (by positivity) (by norm_num)
    _ < 2 ^ 1024 - 2 ^ 970 := by
      rw [show (2 : ℚ) ^ 971 = 2 ^ 970 * 2 by rw [← pow_succ], show (2 : ℚ) ^ 1024 = 2 ^ 970 * 2 ^ 54 by rw [← pow_add]]
      have hpos : (0 : ℚ) < 2 ^ 970 := by positivity
      generalize (2 : ℚ) ^ 970 = p at hpos
      linarith

theorem InRange.of_abs_le (hp : InRange p) (h : |q| ≤ p) : InRange q := h.trans_lt ((le_abs_self p).trans_lt hp)

end Representable

/-! ## Rounding to nearest -/

/-- `z` is what binary64 gives for the exact result `q`: one rounding of it (R180). -/
def IsRounding (q : ℚ) (z : B64) : Prop :=
  ∃ neg n d, 0 < d ∧ z = roundB64 neg n d ∧ signFactor neg * ((n : ℚ) / d) = q

section IsRounding

variable {z : B64} {q r b : ℚ}

theorem IsRounding.spec (h : IsRounding q z) (hq : InRange q) : (∃ r, IsNumber z r) ∧ RoundsTo q (patternOf z) := by
  obtain ⟨neg, n, d, hd, rfl, rfl⟩ := h
  rcases Nat.eq_zero_or_pos n with rfl | hn
  · have zero := isNumber_zeroB64 neg
    rw [roundB64_zero]
    refine ⟨⟨0, zero⟩, 0, zero.patternValue_eq, fun _ r' _ hne => .inl ?_⟩
    simpa using hne
  · have hq' : InRange ((n : ℚ) / d) := by
      unfold InRange at hq ⊢
      rwa [abs_mul, abs_signFactor, one_mul] at hq
    obtain ⟨m, e, hround, hnormal, hto⟩ := roundB64_spec neg hn hd hq'
    exact ⟨⟨_, hround ▸ isNumber_finite hnormal⟩, hto⟩

/-- No representable number is nearer to the exact result than its rounding. -/
theorem IsRounding.nearest (h : IsRounding q z) (hq : InRange q) (hz : IsNumber z r) (hb : Representable b) :
    |q - r| ≤ |q - b| := by
  obtain ⟨z', hz'⟩ := hb.exists_number
  obtain ⟨_, r', hr', near⟩ := h.spec hq
  obtain rfl : r' = r := Option.some.inj (hr'.symm.trans hz.patternValue_eq)
  by_cases hne : b = r'
  · rw [hne]
  · rcases near _ b hz'.patternValue_eq hne with hlt | ⟨heq, _⟩
    · exact hlt.le
    · exact heq.le

/-- A representable result is exact. -/
theorem IsRounding.exact (h : IsRounding q z) (hq : Representable q) : IsNumber z q := by
  obtain ⟨⟨r, hz⟩, _⟩ := h.spec hq.inRange
  have near := h.nearest hq.inRange hz hq
  rw [sub_self, abs_zero, abs_nonpos_iff, sub_eq_zero] at near
  rwa [near]

/-- Rounding keeps an upper bound that is representable. -/
theorem IsRounding.keeps_upper (h : IsRounding q z) (hb : Representable b) (hq : |q| ≤ b) (hz : IsNumber z r) :
    |r| ≤ b := by
  have range := hb.inRange.of_abs_le hq
  obtain ⟨hq₁, hq₂⟩ := abs_le.1 hq
  by_contra hr
  rcases lt_abs.1 (not_le.1 hr) with hgt | hlt
  · have near := h.nearest range hz hb
    rw [abs_of_neg (by linarith), abs_of_nonpos (by linarith)] at near
    linarith
  · have near := h.nearest range hz hb.neg
    rw [abs_of_pos (by linarith), abs_of_nonneg (by linarith)] at near
    linarith

/-- Rounding keeps a lower bound that is representable. -/
theorem IsRounding.keeps_lower (h : IsRounding q z) (range : InRange q) (hb : Representable b) (hq : b ≤ |q|)
    (hz : IsNumber z r) : b ≤ |r| := by
  by_contra hr
  obtain ⟨hr₁, hr₂⟩ := abs_lt.1 (not_le.1 hr)
  rcases le_abs.1 hq with hpos | hneg
  · have near := h.nearest range hz hb
    rw [abs_of_pos (by linarith), abs_of_nonneg (by linarith)] at near
    linarith
  · have near := h.nearest range hz hb.neg
    rw [abs_of_neg (by linarith), abs_of_nonpos (by linarith)] at near
    linarith

end IsRounding

/-! ## The operations -/

theorem finite_of_ratOf {x : B64} {a : ℚ} (h : ratOf x = some a) :
    ∃ neg m e, x = .finite neg m e ∧ a = signFactor neg * ((m : ℚ) * (2 : ℚ) ^ e) := by
  cases x with
  | finite neg m e => exact ⟨neg, m, e, rfl, Option.some.inj (h.symm.trans (ratOf_finite neg m e))⟩
  | inf neg => cases h
  | nan => cases h

theorem intToB64_isRounding (i : Int) : IsRounding i (intToB64 i) :=
  ⟨_, _, 1, one_pos, rfl, by rw [Nat.cast_one, div_one, signFactor_mul_natAbs]⟩

/-- Integers of at most 53 bits convert exactly. -/
theorem intToB64_isNumber {i : Int} (hi : i.natAbs < 2 ^ 53) : IsNumber (intToB64 i) i :=
  (intToB64_isRounding i).exact (by simpa using representable_of_int (e := 0) hi (by norm_num) (by norm_num))

section Operations

variable {x y : B64} {a b : ℚ}

theorem mulB64_isRounding (hx : ratOf x = some a) (hy : ratOf y = some b) : IsRounding (a * b) (mulB64 x y) := by
  obtain ⟨sx, mx, ex, rfl, rfl⟩ := finite_of_ratOf hx
  obtain ⟨sy, my, ey, rfl, rfl⟩ := finite_of_ratOf hy
  refine ⟨_, _, _, Nat.mul_pos (fraction_den_pos mx ex) (fraction_den_pos my ey), rfl, ?_⟩
  rw [signFactor_bne, Nat.cast_mul, Nat.cast_mul, mul_div_mul_comm, fraction_eq, fraction_eq]
  ring

theorem divB64_isRounding (hx : ratOf x = some a) (hy : ratOf y = some b) (hb : b ≠ 0) :
    IsRounding (a / b) (divB64 x y) := by
  obtain ⟨sx, mx, ex, rfl, rfl⟩ := finite_of_ratOf hx
  obtain ⟨sy, my, ey, rfl, rfl⟩ := finite_of_ratOf hy
  have hmy : my ≠ 0 := by
    rintro rfl
    simp at hb
  have hnum : 0 < (fraction my ey).1 := by
    unfold fraction
    split <;> simp <;> omega
  refine ⟨sx != sy, _, _, Nat.mul_pos (fraction_den_pos mx ex) hnum, by rw [divB64, if_neg hmy], ?_⟩
  rw [signFactor_bne, Nat.cast_mul, Nat.cast_mul, ← div_div_div_eq, fraction_eq, fraction_eq,
    mul_div_mul_comm (signFactor sx), div_eq_mul_inv (signFactor sx), signFactor_inv]

/-- The numerator of a difference over the product of the denominators. -/
theorem signed_sub_div (sx sy : Bool) (mx my : Nat) (ex ey : Int) :
    (signed sx ((fraction mx ex).1 * (fraction my ey).2) - signed sy ((fraction my ey).1 * (fraction mx ex).2) : ℚ) /
        ((fraction mx ex).2 * (fraction my ey).2 : ℕ) =
      signFactor sx * ((mx : ℚ) * (2 : ℚ) ^ ex) - signFactor sy * ((my : ℚ) * (2 : ℚ) ^ ey) := by
  have hdx : ((fraction mx ex).2 : ℚ) ≠ 0 := by exact_mod_cast (fraction_den_pos mx ex).ne'
  have hdy : ((fraction my ey).2 : ℚ) ≠ 0 := by exact_mod_cast (fraction_den_pos my ey).ne'
  rw [signed_cast, signed_cast, ← fraction_eq, ← fraction_eq]
  push_cast
  field_simp

theorem subB64_isRounding (hx : ratOf x = some a) (hy : ratOf y = some b) : IsRounding (a - b) (subB64 x y) := by
  obtain ⟨sx, mx, ex, rfl, rfl⟩ := finite_of_ratOf hx
  obtain ⟨sy, my, ey, rfl, rfl⟩ := finite_of_ratOf hy
  rw [← signed_sub_div]
  simp only [subB64]
  split
  · next heq => exact ⟨_, 0, 1, one_pos, (roundB64_zero _ 1).symm, by rw [heq]; simp⟩
  · refine ⟨_, _, _, Nat.mul_pos (fraction_den_pos mx ex) (fraction_den_pos my ey), rfl, ?_⟩
    rw [← mul_div_assoc, ← Int.cast_sub, ← signFactor_mul_natAbs]
    simp only [sub_neg]

end Operations

end Sys2Proof.Machine
end

section
/-! O55, O57. Scaling by repeated steps (43_codec.md R187, R192, R195), exactly and in binary64; LINEAR11 and VOUT-relative
values are exact (R181 (1)), and no DIRECT value overflows (R181 (3)). -/

namespace Sys2Proof.Machine

/-! ## Repeated steps -/

section RepeatTimes

variable {α : Type} {f : α → α} {x : α}

theorem repeatTimes_succ (n : Nat) (f : α → α) (x : α) : repeatTimes (n + 1) f x = f (repeatTimes n f x) := by
  induction n generalizing x with
  | zero => rfl
  | succ n ih => exact ih (f x)

/-- What holds at the start and is kept by each of the `n` steps holds after them. -/
theorem repeatTimes_induction (P : Nat → α → Prop) {n : Nat} (start : P 0 x)
    (step : ∀ i z, i < n → P i z → P (i + 1) (f z)) : P n (repeatTimes n f x) := by
  induction n with
  | zero => exact start
  | succ n ih =>
    rw [repeatTimes_succ]
    exact step n _ n.lt_succ_self (ih fun i z hi => step i z (hi.trans n.lt_succ_self))

end RepeatTimes

/-- One step of a scaling by a power of two (R187, R195). -/
def stepByTwo {α : Type} (A : Arithmetic α) (e : Int) : α → α := if 0 < e then A.mul2 else A.div2

/-- One step of a scaling by a power of ten (R192). -/
def stepByTen {α : Type} (A : Arithmetic α) (r : Int) : α → α := if 0 < r then A.div10 else A.mul10

section Scale

variable {α : Type} (A : Arithmetic α) (e : Int) (x : α)

/-- A signed exponent as a number of steps in one direction. -/
theorem scale_eq (up down : α → α) :
    (if 0 < e then repeatTimes e.toNat up x else if e < 0 then repeatTimes (-e).toNat down x else x) =
      repeatTimes e.natAbs (if 0 < e then up else down) x := by
  split
  · rw [show e.toNat = e.natAbs by omega]
  · split
    · rw [show (-e).toNat = e.natAbs by omega]
    · rw [show e.natAbs = 0 by omega]
      rfl

theorem scaleByTwo_eq : scaleByTwo A e x = repeatTimes e.natAbs (stepByTwo A e) x := scale_eq e x A.mul2 A.div2

theorem scaleByTen_eq : scaleByTen A e x = repeatTimes e.natAbs (stepByTen A e) x := scale_eq e x A.div10 A.mul10

end Scale

/-! ## Exact scaling -/

section Exact

variable {e : Int} (q : ℚ)

theorem sign_cases (he : e ≠ 0) : (0 < e ∧ e.sign = 1) ∨ (¬0 < e ∧ e.sign = -1) := by
  rcases lt_or_gt_of_ne he with h | h
  · exact .inr ⟨h.not_gt, Int.sign_eq_neg_one_of_neg h⟩
  · exact .inl ⟨h, Int.sign_eq_one_of_pos h⟩

theorem stepByTwo_exact (he : e ≠ 0) : stepByTwo exactArithmetic e q = q * (2 : ℚ) ^ e.sign := by
  rcases sign_cases he with ⟨h, hs⟩ | ⟨h, hs⟩
  · simp [stepByTwo, h, hs, exactArithmetic]
  · simp [stepByTwo, h, hs, exactArithmetic, div_eq_mul_inv]

theorem stepByTen_exact (he : e ≠ 0) : stepByTen exactArithmetic e q = q * (10⁻¹ : ℚ) ^ e.sign := by
  rcases sign_cases he with ⟨h, hs⟩ | ⟨h, hs⟩
  · simp [stepByTen, h, hs, exactArithmetic, div_eq_mul_inv]
  · simp [stepByTen, h, hs, exactArithmetic]

theorem sign_mul_succ (e : Int) (i : Nat) : e.sign * ((i + 1 : Nat) : Int) = e.sign * i + e.sign := by
  push_cast
  ring

/-- Steps that multiply by a base, or divide by it where the exponent is negative, multiply by its power. -/
theorem repeatTimes_exact {c : ℚ} {f : ℚ → ℚ} (hc : c ≠ 0) (e : Int) (hf : ∀ z, e ≠ 0 → f z = z * c ^ e.sign) :
    repeatTimes e.natAbs f q = q * c ^ e := by
  have all := repeatTimes_induction (n := e.natAbs) (f := f) (x := q) (fun i z => z = q * c ^ (e.sign * i)) (by simp)
    fun i z hi hz => by rw [hf z (by omega), hz, sign_mul_succ, zpow_add₀ hc, mul_assoc]
  rwa [Int.sign_mul_natAbs] at all

theorem scaleByTwo_exact (e : Int) : scaleByTwo exactArithmetic e q = q * (2 : ℚ) ^ e := by
  rw [scaleByTwo_eq]
  exact repeatTimes_exact q two_ne_zero e stepByTwo_exact

theorem scaleByTen_exact (e : Int) : scaleByTen exactArithmetic e q = q / (10 : ℚ) ^ e := by
  rw [scaleByTen_eq, div_eq_mul_inv, ← inv_zpow]
  exact repeatTimes_exact q (by norm_num) e stepByTen_exact

theorem linear11_exact (w : Word16) : linear11 exactArithmetic w = (mantissa11 w : ℚ) * (2 : ℚ) ^ exponent5 w :=
  scaleByTwo_exact _ _

theorem voutValue_exact (u : Byte) (raw : Word16) :
    voutValue exactArithmetic u raw = (raw.toNat : ℚ) * (2 : ℚ) ^ voutExponent u := scaleByTwo_exact _ _

theorem direct_exact (raw : Word16) (k : CoefSet) : direct exactArithmetic raw k =
    ((raw.toInt : ℚ) / (10 : ℚ) ^ k.r.toInt - (k.b.toInt : ℚ)) / (k.m.toInt : ℚ) := by
  unfold direct
  rw [scaleByTen_exact]
  rfl

end Exact

/-! ## Steps in binary64 -/

section Steps

variable {z : B64} {q : ℚ}

theorem stepByTwo_isRounding {e : Int} (h : IsNumber z q) (he : e ≠ 0) :
    IsRounding (q * (2 : ℚ) ^ e.sign) (stepByTwo binary64Arithmetic e z) := by
  have two : ratOf (intToB64 2) = some 2 := (intToB64_isNumber (i := 2) (by norm_num)).ratOf_eq
  rcases sign_cases he with ⟨hpos, hs⟩ | ⟨hneg, hs⟩
  · rw [hs, zpow_one, stepByTwo, if_pos hpos]
    exact mulB64_isRounding h.ratOf_eq two
  · rw [hs, zpow_neg_one, ← div_eq_mul_inv, stepByTwo, if_neg hneg]
    exact divB64_isRounding h.ratOf_eq two two_ne_zero

theorem stepByTen_isRounding (h : IsNumber z q) (r : Int) :
    IsRounding (if 0 < r then q / 10 else q * 10) (stepByTen binary64Arithmetic r z) := by
  have ten : ratOf (intToB64 10) = some 10 := (intToB64_isNumber (i := 10) (by norm_num)).ratOf_eq
  unfold stepByTen
  split
  · exact divB64_isRounding h.ratOf_eq ten (by norm_num)
  · exact mulB64_isRounding h.ratOf_eq ten

/-! ## Zeros -/

theorem roundB64_sign {neg s : Bool} {n d m : Nat} {e : Int} (h : roundB64 neg n d = .finite s m e) : s = neg := by
  unfold roundB64 packB64 at h
  split_ifs at h <;> exact (B64.finite.inj h).1.symm

theorem intToB64_finite {i : Int} (hi : i.natAbs < 2 ^ 53) :
    ∃ m e, intToB64 i = .finite (decide (i < 0)) m e ∧ (i ≠ 0 → m ≠ 0) := by
  obtain ⟨s, m, e, hz, _, hq⟩ := intToB64_isNumber hi
  refine ⟨m, e, by rw [← roundB64_sign hz, hz], ?_⟩
  rintro hne rfl
  rw [hz, ratOf_finite] at hq
  simp at hq
  exact hne (by exact_mod_cast hq.symm)

theorem mulB64_zero_int {i : Int} (hi : i.natAbs < 2 ^ 53) (neg : Bool) :
    mulB64 (zeroB64 neg) (intToB64 i) = zeroB64 (neg != decide (i < 0)) := by
  obtain ⟨m, e, hz, _⟩ := intToB64_finite hi
  rw [hz, zeroB64, mulB64, show (fraction 0 (-1074)).1 = 0 from rfl, Nat.zero_mul, roundB64_zero]

theorem divB64_zero_int {i : Int} (hi : i.natAbs < 2 ^ 53) (hne : i ≠ 0) (neg : Bool) :
    divB64 (zeroB64 neg) (intToB64 i) = zeroB64 (neg != decide (i < 0)) := by
  obtain ⟨m, e, hz, hm⟩ := intToB64_finite hi
  rw [hz, zeroB64, divB64, if_neg (hm hne), show (fraction 0 (-1074)).1 = 0 from rfl, Nat.zero_mul, roundB64_zero]

theorem intToB64_zero : intToB64 0 = zeroB64 false := roundB64_zero false 1

theorem stepByTwo_zero (e : Int) : stepByTwo binary64Arithmetic e (zeroB64 false) = zeroB64 false := by
  unfold stepByTwo
  split
  · exact mulB64_zero_int (i := 2) (by norm_num) false
  · exact divB64_zero_int (i := 2) (by norm_num) (by norm_num) false

theorem stepByTen_zero (r : Int) : stepByTen binary64Arithmetic r (zeroB64 false) = zeroB64 false := by
  unfold stepByTen
  split
  · exact divB64_zero_int (i := 10) (by norm_num) (by norm_num) false
  · exact mulB64_zero_int (i := 10) (by norm_num) false

/-- Scaling leaves +0 as it is (R188). -/
theorem scaleByTwo_zero (e : Int) : scaleByTwo binary64Arithmetic e (intToB64 0) = zeroB64 false := by
  rw [scaleByTwo_eq, intToB64_zero]
  exact repeatTimes_induction (fun _ z => z = zeroB64 false) rfl fun i z _ hz => by rw [hz, stepByTwo_zero]

end Steps

/-! ## LINEAR11 and VOUT-relative values (R181 (1)) -/

/-- Every doubling and halving of a small integer is exact. -/
theorem scaleByTwo_isNumber {i e : Int} (hi : i.natAbs < 2 ^ 53) (he : e.natAbs ≤ 971) :
    IsNumber (scaleByTwo binary64Arithmetic e (intToB64 i)) (i * (2 : ℚ) ^ e) := by
  rw [scaleByTwo_eq]
  have all := repeatTimes_induction (n := e.natAbs) (f := stepByTwo binary64Arithmetic e) (x := intToB64 i)
    (fun j z => IsNumber z (i * (2 : ℚ) ^ (e.sign * j))) (by simpa using intToB64_isNumber hi) fun j z hj hz => by
      have hne : e ≠ 0 := by omega
      have hround := stepByTwo_isRounding hz hne
      rw [mul_assoc, ← zpow_add₀ two_ne_zero, ← sign_mul_succ] at hround
      have hexp : (e.sign * ((j + 1 : Nat) : Int)).natAbs ≤ 971 := by
        rw [Int.natAbs_mul, Int.natAbs_sign_of_ne_zero hne]
        omega
      exact hround.exact (representable_of_int hi (by omega) (by omega))
  rwa [Int.sign_mul_natAbs] at all

theorem linear11_isNumber (w : Word16) :
    IsNumber (linear11 binary64Arithmetic w) ((mantissa11 w : ℚ) * (2 : ℚ) ^ exponent5 w) := by
  have := (w.extractLsb' 0 11).toInt_lt
  have := (w.extractLsb' 0 11).le_toInt
  have := (w.extractLsb' 11 5).toInt_lt
  have := (w.extractLsb' 11 5).le_toInt
  exact scaleByTwo_isNumber (by unfold mantissa11; omega) (by unfold exponent5; omega)

theorem voutValue_isNumber (u : Byte) (raw : Word16) :
    IsNumber (voutValue binary64Arithmetic u raw) ((raw.toNat : ℚ) * (2 : ℚ) ^ voutExponent u) := by
  have := raw.isLt
  have := (u.extractLsb' 0 5).toInt_lt
  have := (u.extractLsb' 0 5).le_toInt
  exact scaleByTwo_isNumber (i := raw.toNat) (by omega) (by unfold voutExponent; omega)

/-- Settles O55: both values are the same multiple of a power of two in either arithmetic. -/
theorem binary64ScalingIsExact : Obligations.Binary64ScalingIsExact := by
  refine ⟨fun w => ?_, fun u raw => ?_⟩
  · rw [linear11_exact]
    exact ⟨(linear11_isNumber w).ratOf_eq, (linear11_isNumber w).patternValue_eq⟩
  · rw [voutValue_exact]
    exact ⟨(voutValue_isNumber u raw).ratOf_eq, (voutValue_isNumber u raw).patternValue_eq⟩

end Sys2Proof.Machine
end

section
/-! O57. DIRECT in binary64 (43_codec.md R192): what the scaled raw word, the difference and the quotient are and how large
they can be (R181 (3), (4)). -/

namespace Sys2Proof.Machine

/-! ## The scaled raw word -/

/-- After `i` steps by ten: a number of bounded size, +0 or away from zero. -/
def ScaledBy (i : Nat) (z : B64) : Prop :=
  ∃ q, IsNumber z q ∧ |q| ≤ (2 : ℚ) ^ (15 + 4 * i : Int) ∧ (z = zeroB64 false ∨ (2 : ℚ) ^ (-4 * i : Int) ≤ |q|)

theorem abs_intCast_le {i : Int} {n : Nat} (hi : i.natAbs ≤ 2 ^ n) : |(i : ℚ)| ≤ (2 : ℚ) ^ (n : Int) := by
  rw [← Int.cast_abs, Int.abs_eq_natAbs, zpow_natCast]
  exact_mod_cast hi

theorem word_natAbs_le (w : Word16) : w.toInt.natAbs ≤ 2 ^ 15 := by
  have := w.toInt_lt
  have := w.le_toInt
  omega

theorem word_isNumber (w : Word16) : IsNumber (intToB64 w.toInt) w.toInt := by
  have := word_natAbs_le w
  exact intToB64_isNumber (by omega)

theorem scaledBy_raw (raw : Word16) : ScaledBy 0 (intToB64 raw.toInt) := by
  refine ⟨_, word_isNumber raw, by simpa using abs_intCast_le (word_natAbs_le raw), ?_⟩
  rcases eq_or_ne raw.toInt 0 with hzero | hne
  · exact .inl (by rw [hzero, intToB64_zero])
  · exact .inr (by simpa using mod_cast Int.one_le_abs hne)

/-- One step by ten moves a number by less than four binary places. -/
theorem abs_byTen {q : ℚ} (r : Int) :
    |if 0 < r then q / 10 else q * 10| ≤ |q| * 2 ^ 4 ∧ |q| / 2 ^ 4 ≤ |if 0 < r then q / 10 else q * 10| := by
  have := abs_nonneg q
  split
  · rw [abs_div, abs_of_pos (by norm_num : (0 : ℚ) < 10)]
    constructor <;> linarith
  · rw [abs_mul, abs_of_pos (by norm_num : (0 : ℚ) < 10)]
    constructor <;> linarith

section Step

variable {i : Nat} {z : B64} {q : ℚ}

/-- The exact result of one more step is in the next step's bound, and so in range. -/
theorem abs_byTen_le (hq : |q| ≤ (2 : ℚ) ^ (15 + 4 * i : Int)) (r : Int) :
    |if 0 < r then q / 10 else q * 10| ≤ (2 : ℚ) ^ (15 + 4 * (i + 1 : Nat) : Int) := by
  rw [show (15 + 4 * (i + 1 : Nat) : Int) = 15 + 4 * i + (4 : Nat) by push_cast; ring, zpow_add₀ two_ne_zero, zpow_natCast]
  exact (abs_byTen r).1.trans (mul_le_mul_of_nonneg_right hq (by norm_num))

theorem representable_bound (hi : i ≤ 128) : Representable ((2 : ℚ) ^ (15 + 4 * i : Int)) :=
  representable_two_pow (by omega) (by omega)

theorem ScaledBy.step (h : ScaledBy i z) (hi : i < 128) (r : Int) :
    ScaledBy (i + 1) (stepByTen binary64Arithmetic r z) := by
  obtain ⟨q, hz, hupper, hlower⟩ := h
  have hround := stepByTen_isRounding hz r
  have hbound := representable_bound (i := i + 1) hi
  have hupper' := abs_byTen_le hupper r
  have range := hbound.inRange.of_abs_le hupper'
  obtain ⟨q', hz'⟩ := (hround.spec range).1
  refine ⟨q', hz', hround.keeps_upper hbound hupper' hz', ?_⟩
  rcases hlower with hzero | hlower
  · exact .inl (by rw [hzero, stepByTen_zero])
  · refine .inr (hround.keeps_lower range (representable_two_pow (by omega) (by omega)) (le_trans ?_ (abs_byTen r).2) hz')
    rw [show (-4 * (i + 1 : Nat) : Int) = -4 * i - (4 : Nat) by push_cast; ring, zpow_sub₀ two_ne_zero, zpow_natCast]
    exact div_le_div_of_nonneg_right hlower (by norm_num)

theorem scaledBy_steps (raw : Word16) (r : Int) {n : Nat} (hn : n ≤ 128) :
    ScaledBy n (repeatTimes n (stepByTen binary64Arithmetic r) (intToB64 raw.toInt)) :=
  repeatTimes_induction ScaledBy (scaledBy_raw raw) fun _ _ hi h => h.step (by omega) r

theorem rExponent_natAbs_le (r : Byte) : r.toInt.natAbs ≤ 128 := by
  have := r.toInt_lt
  have := r.le_toInt
  omega

/-- The scaled raw word: a number, not large, and +0 where it is zero. -/
theorem scaleByTen_number (raw : Word16) (r : Byte) :
    ∃ q, IsNumber (scaleByTen binary64Arithmetic r.toInt (intToB64 raw.toInt)) q ∧ |q| ≤ (2 : ℚ) ^ (527 : Int) ∧
      (q = 0 → scaleByTen binary64Arithmetic r.toInt (intToB64 raw.toInt) = zeroB64 false) := by
  have hr := rExponent_natAbs_le r
  rw [scaleByTen_eq]
  obtain ⟨q, hz, hupper, hlower⟩ := scaledBy_steps raw r.toInt hr
  refine ⟨q, hz, hupper.trans (zpow_le_zpow_right₀ (by norm_num) (by omega)), ?_⟩
  rintro rfl
  rcases hlower with hzero | hlower
  · exact hzero
  · rw [abs_zero] at hlower
    exact absurd hlower (not_le.2 (by positivity))

end Step

/-! ## The difference -/

section Difference

variable {x y : B64} {a b : ℚ}

/-- Numbers of binary64 are multiples of the smallest one. -/
theorem IsNumber.multiple (h : IsNumber x a) : ∃ i : Int, a = i * (2 : ℚ) ^ (-1074 : Int) := by
  obtain ⟨s, m, e, rfl, ⟨_, he, _, _⟩, ha⟩ := h
  refine ⟨signed s (m * 2 ^ (e + 1074).toNat), ?_⟩
  rw [ratOf_finite] at ha
  rw [← Option.some.inj ha, signed_cast, mul_assoc, Nat.cast_mul, Nat.cast_pow, Nat.cast_ofNat,
    ← zpow_natCast, mul_assoc, ← zpow_add₀ two_ne_zero, show ((e + 1074).toNat : Int) + -1074 = e by omega]

/-- A difference that is not zero is not rounded to zero. -/
theorem IsNumber.le_abs_sub (hx : IsNumber x a) (hy : IsNumber y b) (hne : a ≠ b) :
    (2 : ℚ) ^ (-1074 : Int) ≤ |a - b| := by
  obtain ⟨i, rfl⟩ := hx.multiple
  obtain ⟨j, rfl⟩ := hy.multiple
  have hij : i - j ≠ 0 := fun h => hne (by rw [sub_eq_zero.1 h])
  have one : (1 : ℚ) ≤ |((i - j : Int) : ℚ)| := by exact_mod_cast Int.one_le_abs hij
  have hpos : (0 : ℚ) < (2 : ℚ) ^ (-1074 : Int) := by positivity
  rw [← sub_mul, ← Int.cast_sub, abs_mul, abs_of_pos hpos]
  exact le_mul_of_one_le_left hpos.le one

/-- An exact difference of zero is +0, but for (-0) - (+0). -/
theorem subB64_self (hx : IsNumber x a) (hy : IsNumber y a) (hpos : a = 0 → x = zeroB64 false) :
    subB64 x y = zeroB64 false := by
  obtain ⟨sx, mx, ex, rfl, ha⟩ := finite_of_ratOf hx.ratOf_eq
  obtain ⟨sy, my, ey, rfl, hb⟩ := finite_of_ratOf hy.ratOf_eq
  have heq := signed_sub_div sx sy mx my ex ey
  have hden : ((((fraction mx ex).2 * (fraction my ey).2 : ℕ)) : ℚ) ≠ 0 := by
    exact_mod_cast (Nat.mul_pos (fraction_den_pos mx ex) (fraction_den_pos my ey)).ne'
  rw [← ha, ← hb, sub_self, div_eq_zero_iff, or_iff_left hden, sub_eq_zero] at heq
  have hsign : mx = 0 → sx = false := by
    rintro rfl
    exact (B64.finite.inj (hpos (by simp [ha]))).1
  simp only [subB64]
  rw [if_pos (by exact_mod_cast heq), zeroB64]
  congr 1
  by_cases hmx : mx = 0
  · simp [hsign hmx]
  · simp [hmx]

/-- A difference of numbers is zero only as +0. -/
theorem subB64_eq_zero {r : ℚ} (hx : IsNumber x a) (hy : IsNumber y b) (range : InRange (a - b))
    (hpos : a = 0 → x = zeroB64 false) (hr : IsNumber (subB64 x y) r) (hzero : r = 0) : subB64 x y = zeroB64 false := by
  by_cases hne : a = b
  · exact subB64_self hx (hne ▸ hy) hpos
  · have hlower := (subB64_isRounding hx.ratOf_eq hy.ratOf_eq).keeps_lower range
      (representable_two_pow (by norm_num) (by norm_num)) (hx.le_abs_sub hy hne) hr
    rw [hzero, abs_zero] at hlower
    exact absurd hlower (not_le.2 (by positivity))

end Difference

/-- The scaled raw word less `b` (R192). -/
def directDifference (raw : Word16) (k : CoefSet) : B64 :=
  subB64 (scaleByTen binary64Arithmetic k.r.toInt (intToB64 raw.toInt)) (intToB64 k.b.toInt)

theorem direct_eq (raw : Word16) (k : CoefSet) :
    direct binary64Arithmetic raw k = divB64 (directDifference raw k) (intToB64 k.m.toInt) := rfl

theorem directDifference_spec (raw : Word16) (k : CoefSet) :
    ∃ q r, IsNumber (scaleByTen binary64Arithmetic k.r.toInt (intToB64 raw.toInt)) q ∧ InRange (q - k.b.toInt) ∧
      IsRounding (q - k.b.toInt) (directDifference raw k) ∧ IsNumber (directDifference raw k) r ∧
      |r| ≤ (2 : ℚ) ^ (528 : Int) ∧ (r = 0 → directDifference raw k = zeroB64 false) := by
  obtain ⟨q, hz, hupper, hzero⟩ := scaleByTen_number raw k.r
  have hb := word_isNumber k.b
  have hround := subB64_isRounding hz.ratOf_eq hb.ratOf_eq
  have hbound : Representable ((2 : ℚ) ^ (528 : Int)) := representable_two_pow (by norm_num) (by norm_num)
  have hdiff : |q - k.b.toInt| ≤ (2 : ℚ) ^ (528 : Int) := by
    have hle : |(k.b.toInt : ℚ)| ≤ (2 : ℚ) ^ (527 : Int) :=
      (abs_intCast_le (word_natAbs_le k.b)).trans (zpow_le_zpow_right₀ (by norm_num) (by norm_num))
    rw [show (528 : Int) = 527 + 1 from rfl, zpow_add_one₀ two_ne_zero, mul_two]
    exact (abs_sub q _).trans (add_le_add hupper hle)
  have range := hbound.inRange.of_abs_le hdiff
  obtain ⟨r, hr⟩ := (hround.spec range).1
  exact ⟨q, r, hz, range, hround, hr, hround.keeps_upper hbound hdiff hr, subB64_eq_zero hz hb range hzero hr⟩

/-! ## The quotient -/

section Quotient

variable {raw : Word16} {k : CoefSet} {r : ℚ}

theorem slope_ne_zero (hm : k.m ≠ 0x0000#16) : k.m.toInt ≠ 0 := fun h => hm (BitVec.eq_of_toInt_eq h)

theorem direct_isRounding (hm : k.m ≠ 0x0000#16) (hr : IsNumber (directDifference raw k) r) :
    IsRounding (r / k.m.toInt) (direct binary64Arithmetic raw k) :=
  divB64_isRounding hr.ratOf_eq (word_isNumber k.m).ratOf_eq (by exact_mod_cast slope_ne_zero hm)

theorem quotient_inRange (hm : k.m ≠ 0x0000#16) (hr : |r| ≤ (2 : ℚ) ^ (528 : Int)) : InRange (r / k.m.toInt) := by
  have hbound : Representable ((2 : ℚ) ^ (528 : Int)) := representable_two_pow (by norm_num) (by norm_num)
  have hslope : (1 : ℚ) ≤ |(k.m.toInt : ℚ)| := by exact_mod_cast Int.one_le_abs (slope_ne_zero hm)
  refine hbound.inRange.of_abs_le (le_trans ?_ hr)
  rw [abs_div]
  exact div_le_self (abs_nonneg r) hslope

/-- The quotient of +0 has the sign of the slope (R181 (4)). -/
theorem direct_of_zero (hm : k.m ≠ 0x0000#16) (hzero : directDifference raw k = zeroB64 false) :
    direct binary64Arithmetic raw k = zeroB64 (decide (k.m.toInt < 0)) := by
  have := word_natAbs_le k.m
  rw [direct_eq, hzero, divB64_zero_int (by omega) (slope_ne_zero hm), Bool.false_bne]

end Quotient

/-- R181 (3). -/
theorem direct_isNumber (raw : Word16) {k : CoefSet} (hm : k.m ≠ 0x0000#16) :
    ∃ q, IsNumber (direct binary64Arithmetic raw k) q := by
  obtain ⟨_, r, _, _, _, hr, hupper, _⟩ := directDifference_spec raw k
  exact ((direct_isRounding hm hr).spec (quotient_inRange hm hupper)).1

/-- Settles O57: each operation is one rounding, and DIRECT's three operations stay in range. -/
theorem binary64RoundsAndDirectNeverOverflows : Obligations.Binary64RoundsAndDirectNeverOverflows := by
  refine ⟨fun x y a b hx hy => ⟨?_, ?_, ?_⟩, fun i hi => ?_, fun raw k hm => ?_⟩
  · exact fun range => ((mulB64_isRounding hx hy).spec range).2
  · exact fun range => ((subB64_isRounding hx hy).spec range).2
  · exact fun hb range => ((divB64_isRounding hx hy hb).spec range).2
  · exact (intToB64_isNumber (hi.trans (by norm_num))).patternValue_eq
  · obtain ⟨q, hq⟩ := direct_isNumber raw hm
    obtain ⟨neg, m, e, hfinite, _⟩ := id hq
    exact ⟨⟨neg, m, e, hfinite⟩, q, hq.ratOf_eq, hq.patternValue_eq⟩

end Sys2Proof.Machine
end

section
/-! O21, O54, O59. What every codec and read-back operation leaves unchanged (43_codec.md R204, 42_coefficients.md R168), the
fields of a LINEAR11 word (R189), and the count of a mask's bits (R201). -/

namespace Sys2Proof.Machine

/-! ## Operations that write results only -/

/-- A meaning that completes and writes nothing but `RESULT`, `VALUE`, `VALUE_KIND`, `STATUS` and `CAUSE`. -/
def WritesResults (s : State) (o : StepOutcome) : Prop :=
  ∃ t, o = .next t ∧
    t = { s with
      result := t.result, value := t.value, valueKind := t.valueKind, status := t.status, cause := t.cause }

section WritesResults

variable {s : State} {body : StepOutcome}

/-- An operation that ends after writing its results. -/
theorem writesResults_done (e : Exit) (s : State) (result : Word16) (value : Value) (kind : ValueKind) :
    WritesResults s (done e { s with result := result, value := value, valueKind := kind }) := ⟨_, rfl, rfl⟩

theorem writesResults_whenAllowed {allowed : SessionState → Bool} (h : WritesResults s body) :
    WritesResults s (whenAllowed allowed s body) := by
  unfold whenAllowed
  split
  · exact h
  · exact writesResults_done ..

theorem writesResults_whenCore {cmd : Word16} (h : WritesResults s body) : WritesResults s (whenCore cmd s body) := by
  unfold whenCore
  split
  · exact writesResults_done ..
  · exact h

theorem writesResults_whenDirection {arg : Word16} {body : Direction → StepOutcome} (h : ∀ d, WritesResults s (body d)) :
    WritesResults s (whenDirection arg s body) := by
  unfold whenDirection
  split
  · exact writesResults_done ..
  · exact h _

end WritesResults

/-- Settles O21: each of the nine operations is some of the checks and an end that wrote results only. -/
theorem codecAndReadBackWriteOnlyResults : Obligations.CodecAndReadBackWriteOnlyResults := by
  intro i s hi
  change WritesResults s (exec i s)
  cases i with
  | getSession | decodeLinear11 | decodeVout | decodeBitmap => exact writesResults_whenAllowed (writesResults_done ..)
  | getSlot | classify | decodeValue | decodeDirect =>
    exact writesResults_whenAllowed (writesResults_whenCore (writesResults_done ..))
  | getCoef =>
    exact writesResults_whenAllowed
      (writesResults_whenDirection fun _ => writesResults_whenCore (writesResults_done ..))
  | _ => simp [isCodec, isReadBack] at hi

/-! ## The fields of a LINEAR11 word -/

theorem encodeLinear11_fields (w : Word16) : encodeLinear11 (mantissa11 w) (exponent5 w) = w := by
  unfold encodeLinear11 mantissa11 exponent5
  rw [BitVec.ofInt_toInt, BitVec.ofInt_toInt]
  exact (BitVec.extractLsb'_append_extractLsb'_eq_extractLsb' rfl).trans BitVec.extractLsb'_eq_self

theorem mantissa11_encodeLinear11 {n : Int} (y : Int) (hlo : -1024 ≤ n) (hhi : n ≤ 1023) :
    mantissa11 (encodeLinear11 n y) = n := by
  unfold mantissa11 encodeLinear11
  rw [BitVec.extractLsb'_append_eq_right]
  exact BitVec.toInt_ofInt_eq_self (by decide) hlo (by omega)

theorem exponent5_encodeLinear11 {y : Int} (n : Int) (hlo : -16 ≤ y) (hhi : y ≤ 15) :
    exponent5 (encodeLinear11 n y) = y := by
  unfold exponent5 encodeLinear11
  rw [BitVec.extractLsb'_append_eq_left]
  exact BitVec.toInt_ofInt_eq_self (by decide) hlo (by omega)

theorem mantissa11_bounds (w : Word16) : -1024 ≤ mantissa11 w ∧ mantissa11 w ≤ 1023 := by
  have := (w.extractLsb' 0 11).toInt_lt
  have := (w.extractLsb' 0 11).le_toInt
  unfold mantissa11
  omega

theorem exponent5_bounds (w : Word16) : -16 ≤ exponent5 w ∧ exponent5 w ≤ 15 := by
  have := (w.extractLsb' 11 5).toInt_lt
  have := (w.extractLsb' 11 5).le_toInt
  unfold exponent5
  omega

/-- Settles O54: encoding the fields of a word gives the word, and the fields of an encoding are what was encoded. -/
theorem linear11FieldsAreABijection : Obligations.Linear11FieldsAreABijection := by
  refine ⟨fun w => ?_, fun n y hn hn' hy hy' => ⟨mantissa11_encodeLinear11 y hn hn', exponent5_encodeLinear11 n hy hy'⟩⟩
  obtain ⟨hm, hm'⟩ := mantissa11_bounds w
  obtain ⟨he, he'⟩ := exponent5_bounds w
  exact ⟨hm, hm', he, he', encodeLinear11_fields w⟩

/-! ## DECODE_BITMAP -/

theorem popcount_eq_card (raw : Word16) :
    popcount raw = (Finset.univ.filter fun i : Fin 16 => raw.getLsbD i.val = true).card := by
  rw [Finset.card_filter, Fin.sum_univ_eq_sum_range (fun i => if raw.getLsbD i = true then 1 else 0) 16,
    ← Finset.card_filter]
  simp only [popcount, Finset.card_def, Finset.filter_val, Finset.range_val, Multiset.range, Multiset.filter_coe,
    Multiset.coe_card, Bool.decide_eq_true]

/-- Settles O59: the operation has no check, and counting over the list of positions counts the set of them. -/
theorem bitmapCountsItsBits : Obligations.BitmapCountsItsBits := by
  intro raw s
  refine ⟨popcount raw, ?_, popcount_eq_card raw, ?_⟩
  · rw [exec, execDecodeBitmap, whenAllowed_of (inEveryState_iff _)]
    rfl
  · rw [popcount_eq_card]
    exact (Finset.card_le_univ _).trans_eq (Fintype.card_fin 16)

end Sys2Proof.Machine
end

section
/-! O52, O53, O56, O58. The decoding operations of an open session (43_codec.md R182 to R203). -/

namespace Sys2Proof.Machine

/-! ## Values in the arithmetic of the parameters (R180) -/

section Values

variable {p : Params} {f : ∀ {α : Type}, Arithmetic α → α}

theorem realValue_exact (h : p.num = .exact) : realValue p f = .rational (f exactArithmetic) := by
  rw [realValue, h]

theorem realValue_binary64 (h : p.num = .binary64) : realValue p f = .word (patternOf (f binary64Arithmetic)) := by
  rw [realValue, h]

end Values

theorem patternOf_zeroB64 (neg : Bool) :
    patternOf (zeroB64 neg) = if neg then 0x8000000000000000#64 else 0#64 := by cases neg <;> rfl

/-! ## DECODE_LINEAR11 -/

/-- R188: a mantissa of 0 is +0. -/
theorem linear11_zero {raw : Word16} (h : raw.extractLsb' 0 11 = 0#11) :
    linear11 binary64Arithmetic raw = zeroB64 false := by
  unfold linear11
  rw [show mantissa11 raw = 0 by rw [mantissa11, h]; rfl]
  exact scaleByTwo_zero _

/-- Settles O53: the operation has no check, and its value is the scaled mantissa in either arithmetic. -/
theorem linear11IsMantissaTimesPower : Obligations.Linear11IsMantissaTimesPower := by
  intro raw s
  refine ⟨(decodedLinear11 s.params raw).value, ?_, fun hexact => ?_, fun hbinary => ?_⟩
  · rw [exec, execDecodeLinear11, whenAllowed_of (inEveryState_iff _)]
    rfl
  · rw [decodedLinear11, realValue_exact hexact, linear11_exact]
    rfl
  · rw [decodedLinear11, realValue_binary64 hbinary]
    refine ⟨rfl, _, rfl, (linear11_isNumber raw).patternValue_eq, fun hzero => ?_⟩
    rw [linear11_zero hzero]
    exact patternOf_zeroB64 false

/-! ## DECODE_VOUT -/

/-- "VOUT_MODE indicates linear encoding" (R183). -/
theorem voutLinear_iff (s : State) : voutLinear s = true ↔
    slotAt s s.params.codes.voutMode = .resolved ∧ s.voutModeValid = true ∧
      (coefAt s s.params.codes.voutMode .read).r.extractLsb' 5 3 = s.params.voutLinearMode := by
  simp only [voutLinear, Bool.and_eq_true, decide_eq_true_eq, and_assoc]
  rfl

theorem exec_decodeVout {s : State} (raw : Word16) (hopen : SessionOpen s) : exec (.decodeVout raw) s =
    done .ok (writeDecoded (if voutLinear s then decodedVout s raw else rawAs .raw raw) s) := by
  rw [exec, execDecodeVout, whenAllowed_open hopen]

/-- Settles O58: the scaled raw word in either arithmetic where the mode is linear, and the raw word where it is not. -/
theorem voutIsScaledByTheModeByte : Obligations.VoutIsScaledByTheModeByte := by
  intro raw s hopen vm u linear
  rw [exec_decodeVout raw hopen]
  have hlinear : voutLinear s = true ↔ linear := voutLinear_iff s
  refine ⟨fun hnot => ?_, fun hlin => ⟨(decodedVout s raw).value, ?_, fun hexact => ?_, fun hbinary => ?_⟩⟩
  · rw [if_neg (mt hlinear.1 hnot)]
    rfl
  · rw [if_pos (hlinear.2 hlin)]
    rfl
  · rw [decodedVout, realValue_exact hexact, voutValue_exact]
    rfl
  · rw [decodedVout, realValue_binary64 hbinary]
    refine ⟨rfl, _, rfl, (voutValue_isNumber u raw).patternValue_eq, ?_⟩
    rintro rfl
    exact (congrArg patternOf (scaleByTwo_zero (voutExponent u))).trans (patternOf_zeroB64 false)

/-! ## DECODE_DIRECT -/

section Direct

variable {cmd : Word16} {s : State} (raw : Word16)

theorem exec_decodeDirect_of_extended (hopen : SessionOpen s) (hext : 0xFD < cmd.toNat) :
    exec (.decodeDirect cmd raw) s = .next (endsAs .notImplemented .noCause s) := by
  rw [exec, execDecodeDirect, whenAllowed_open hopen, whenCore_extended hext]
  rfl

theorem exec_decodeDirect (hopen : SessionOpen s) (hcore : cmd.toNat ≤ 0xFD) :
    exec (.decodeDirect cmd raw) s = done .ok (writeDecoded (decodedDirect s (c8 cmd) raw) s) := by
  rw [exec, execDecodeDirect, whenAllowed_open hopen, whenCore_core hcore]

/-- R193: neither invalid coefficients nor a slope of 0 is an error. -/
theorem decodedDirect_of_unusable {c : Byte} (h : (coefAt s c .read).v = false ∨ (coefAt s c .read).m = 0x0000#16) :
    decodedDirect s c raw = rawAs .raw raw := if_pos h

theorem decodedDirect_of_usable {c : Byte} (hv : (coefAt s c .read).v = true) (hm : (coefAt s c .read).m ≠ 0x0000#16) :
    decodedDirect s c raw = { value := realValue s.params fun A => direct A raw (coefAt s c .read), kind := .real } :=
  if_neg (by simp [hv, hm])

end Direct

/-- The chain of roundings of R192: the scaling's steps, the difference, the quotient. -/
theorem direct_chain (raw : Word16) {k : CoefSet} (hm : k.m ≠ 0x0000#16) :
    ∃ (x : Nat → BitVec 64) (y : BitVec 64), patternValue (x 0) = some (raw.toInt : ℚ) ∧
      (∀ i, i < k.r.toInt.natAbs → ∃ q, patternValue (x i) = some q ∧
        RoundsTo (if 0 < k.r.toInt then q / 10 else q * 10) (x (i + 1))) ∧
      (∃ q, patternValue (x k.r.toInt.natAbs) = some q ∧ RoundsTo (q - (k.b.toInt : ℚ)) y) ∧
      ∃ q, patternValue y = some q ∧ RoundsTo (q / (k.m.toInt : ℚ)) (patternOf (direct binary64Arithmetic raw k)) ∧
        (q = 0 → y = 0#64 ∧ patternOf (direct binary64Arithmetic raw k) =
          if k.m.toInt < 0 then 0x8000000000000000#64 else 0#64) := by
  have hr := rExponent_natAbs_le k.r
  obtain ⟨q, d, hq, range, hround, hd, hupper, hzero⟩ := directDifference_spec raw k
  rw [scaleByTen_eq] at hq
  refine ⟨fun i => patternOf (repeatTimes i (stepByTen binary64Arithmetic k.r.toInt) (intToB64 raw.toInt)),
    patternOf (directDifference raw k), (word_isNumber raw).patternValue_eq, fun i hi => ?_,
    ⟨q, hq.patternValue_eq, (hround.spec range).2⟩, d, hd.patternValue_eq,
    ((direct_isRounding hm hd).spec (quotient_inRange hm hupper)).2, fun hd0 => ?_⟩
  · obtain ⟨a, ha, hle, _⟩ := scaledBy_steps raw k.r.toInt (n := i) (by omega)
    have range := (representable_bound (i := i + 1) (by omega)).inRange.of_abs_le (abs_byTen_le hle k.r.toInt)
    simp only [repeatTimes_succ]
    exact ⟨a, ha.patternValue_eq, ((stepByTen_isRounding ha k.r.toInt).spec range).2⟩
  · rw [direct_of_zero hm (hzero hd0), hzero hd0, patternOf_zeroB64, patternOf_zeroB64]
    simp

/-- Settles O56: the checks, then the linear transform in either arithmetic. -/
theorem directIsTheLinearTransform : Obligations.DirectIsTheLinearTransform := by
  intro cmd raw s hopen
  refine ⟨exec_decodeDirect_of_extended raw hopen, fun hcore => ?_⟩
  intro k
  rw [exec_decodeDirect raw hopen hcore]
  refine ⟨fun hunusable => ?_, fun hv hm => ?_⟩
  · rw [decodedDirect_of_unusable (c := c8 cmd) raw hunusable]
    rfl
  · rw [decodedDirect_of_usable (c := c8 cmd) raw hv hm]
    refine ⟨_, rfl, fun hexact => ?_, fun hbinary => ?_⟩
    · rw [realValue_exact hexact, direct_exact]
      rfl
    · rw [realValue_binary64 hbinary]
      obtain ⟨x, y, start, steps, difference, quotient⟩ := direct_chain raw hm
      exact ⟨rfl, x, y, _, rfl, start, steps, difference, quotient⟩

/-! ## CLASSIFY and DECODE -/

/-- In a list with no two entries of one code, the entry found for a code is the one that has it. -/
theorem lookup_of_mem {es : List CatalogEntry} {e : CatalogEntry} (hdistinct : codesDistinct es = true) (he : e ∈ es) :
    lookup e.code es = e := by
  have hinj := List.inj_on_of_nodup_map ((codesDistinct_iff_nodup es).1 hdistinct)
  have hfound : (es.find? fun x => decide (x.code = e.code)).isSome = true :=
    List.find?_isSome.2 ⟨e, he, by simp⟩
  obtain ⟨x, hx⟩ := Option.isSome_iff_exists.1 hfound
  have hcode : x.code = e.code := by simpa using List.find?_some hx
  rw [lookup, hx, Option.getD_some]
  exact hinj (List.mem_of_find?_eq_some hx) he hcode

theorem lookup_of_not_mem {es : List CatalogEntry} {cmd : Word16} (h : ∀ e ∈ es, e.code ≠ cmd) :
    lookup cmd es = defaultEntry cmd := by
  rw [lookup, List.find?_eq_none.2 (by simpa using h), Option.getD_none]

section Classify

variable {cmd : Word16} {s : State}

/-- The unit and the flags `classify` looks at (R182). -/
theorem lookup_fields {unit : Units} {flags : BitVec 3}
    (h : (∃ e ∈ s.params.catalog.entries, e.code = cmd ∧ unit = e.unit ∧ flags = e.flags) ∨
      ((∀ e ∈ s.params.catalog.entries, e.code ≠ cmd) ∧ unit = .none ∧ flags = 0#3)) :
    (lookup cmd s.params.catalog.entries).unit = unit ∧ (lookup cmd s.params.catalog.entries).flags = flags := by
  rcases h with ⟨e, he, rfl, rfl, rfl⟩ | ⟨hnone, rfl, rfl⟩
  · rw [lookup_of_mem (es := s.params.catalog.entries) s.params.catalog.distinct he]
    exact ⟨rfl, rfl⟩
  · rw [lookup_of_not_mem hnone]
    exact ⟨rfl, rfl⟩

/-! Each row of the table (R184), after the rows before it have failed. -/

theorem classOf_bitmap (h : (lookup cmd s.params.catalog.entries).unit = .bits) : classOf cmd s = .bitmap := by
  simp [classOf, h]

variable (hunit : (lookup cmd s.params.catalog.entries).unit ≠ .bits)
include hunit

theorem classOf_voutRelative (hflag : (lookup cmd s.params.catalog.entries).flags.getLsbD 2 = true)
    (hlinear : voutLinear s = true) : classOf cmd s = .voutRelative := by
  simp only [classOf, if_neg hunit, hflag, hlinear, Bool.and_self, if_true]

variable (hvout : ¬((lookup cmd s.params.catalog.entries).flags.getLsbD 2 = true ∧ voutLinear s = true))
include hvout

theorem classOf_unresolved (hslot : slotAt s (c8 cmd) ≠ .resolved) : classOf cmd s = .unknown := by
  rw [classOf, if_neg hunit, if_neg (by simpa using hvout), if_neg hslot]

theorem classOf_resolved (hslot : slotAt s (c8 cmd) = .resolved) :
    classOf cmd s = formatClass (qFormat (qbyteAt s (c8 cmd))) := by
  rw [classOf, if_neg hunit, if_neg (by simpa using hvout), if_pos hslot]

end Classify

section Exec

variable {cmd : Word16} {s : State} (raw : Word16)

theorem exec_classify_of_extended (hopen : SessionOpen s) (hext : 0xFD < cmd.toNat) :
    exec (.classify cmd) s = .next (endsAs .notImplemented .noCause s) := by
  rw [exec, execClassify, whenAllowed_open hopen, whenCore_extended hext]
  rfl

theorem exec_decodeValue_of_extended (hopen : SessionOpen s) (hext : 0xFD < cmd.toNat) :
    exec (.decodeValue cmd raw) s = .next (endsAs .notImplemented .noCause s) := by
  rw [exec, execDecode, whenAllowed_open hopen, whenCore_extended hext]
  rfl

/-- Both operations report the class; DECODE also decodes by it (R185, R203). -/
theorem exec_of_class {k : ValueClass} (hopen : SessionOpen s) (hcore : cmd.toNat ≤ 0xFD) (hclass : classOf cmd s = k) :
    exec (.classify cmd) s = .next (endsAs .ok .noCause { s with result := classCode k }) ∧
    exec (.decodeValue cmd raw) s = .next (endsAs .ok .noCause
      { s with
        result := classCode k, value := (decodedAs k s (c8 cmd) raw).value
        valueKind := (decodedAs k s (c8 cmd) raw).kind }) := by
  subst hclass
  constructor
  · rw [exec, execClassify, whenAllowed_open hopen, whenCore_core hcore]
    rfl
  · rw [exec, execDecode, whenAllowed_open hopen, whenCore_core hcore]
    rfl

end Exec

/-- Settles O52: the row of the table that holds gives the class, and the class what the two operations report. -/
theorem classifyAndDecode : Obligations.ClassifyAndDecode := by
  intro cmd raw s hopen
  refine ⟨fun hext => ⟨exec_classify_of_extended hopen hext, exec_decodeValue_of_extended raw hopen hext⟩, ?_⟩
  intro hcore unit flags hentry c vm linear classed word row2 format
  obtain ⟨rfl, rfl⟩ := lookup_fields hentry
  have ofClass {k : ValueClass} : classOf cmd s = k → classed (classCode k) (decodedAs k s c raw) :=
    exec_of_class raw hopen hcore
  have hlinear : voutLinear s = true ↔ linear := voutLinear_iff s
  have hrow2 (h : ¬row2) : ¬(_ ∧ voutLinear s = true) := fun hv => h ⟨hv.1, hlinear.1 hv.2⟩
  refine ⟨fun hunit => ofClass (classOf_bitmap hunit),
    fun hunit h => ofClass (classOf_voutRelative hunit h.1 (hlinear.2 h.2)),
    fun hunit h hslot => ofClass (classOf_unresolved hunit (hrow2 h) hslot), fun hunit h hslot => ?_⟩
  have ofFormat {f : BitVec 3} (hf : format = f) :
      classed (classCode (formatClass f)) (decodedAs (formatClass f) s c raw) :=
    ofClass ((classOf_resolved hunit (hrow2 h) hslot).trans (congrArg formatClass hf))
  exact ⟨ofFormat, ofFormat, ofFormat, ofFormat, ofFormat, ofFormat, ofFormat, ofFormat⟩

end Sys2Proof.Machine
end

section
/-! O11, O14. The session-state check of every operation (44_session.md R232) and the session state it leaves (R220). -/

namespace Sys2Proof.Machine

/-! ## The session-state check -/

/-- The check each meaning starts with (60_exceptions.md R255 (2)). -/
def allowedIn : Instr → SessionState → Bool
  | .openSession _ _ => whereNoSession
  | .scan => inAttached
  | .pageSelect _ | .report => inScanned
  | .closeSession | .getSession | .getSlot _ | .getCoef _ _ | .decodeLinear11 _ | .decodeBitmap _ => inEveryState
  | _ => inOpenSession

theorem inAttached_iff (x : SessionState) : inAttached x = true ↔ x ∈ [SessionState.attached] := by
  cases x <;> simp [inAttached]

theorem inScanned_iff (x : SessionState) : inScanned x = true ↔ x ∈ [SessionState.scanned] := by
  cases x <;> simp [inScanned]

/-- The checks are the rows of R232. -/
theorem allowedIn_iff (i : Instr) (x : SessionState) : allowedIn i x = true ↔ x ∈ runsIn i := by
  cases i with
  | openSession a p => exact whereNoSession_iff x
  | scan => exact inAttached_iff x
  | pageSelect | report => exact inScanned_iff x
  | closeSession | getSession | getSlot | getCoef | decodeLinear11 | decodeBitmap =>
    exact iff_of_true (inEveryState_iff x) (mem_every x)
  | _ => exact inOpenSession_iff x

theorem exec_of_not_mem_runsIn {i : Instr} {s : State} (h : s.sessionState ∉ runsIn i) :
    exec i s = .next (endsAs .illegalState .noCause s) := by
  have refused : allowedIn i s.sessionState = false := Bool.eq_false_iff.2 fun ha => h ((allowedIn_iff i _).1 ha)
  cases i <;> exact whenAllowed_not refused

/-! ## How an operation ends -/

/-- The ends that no check of R255 gives. -/
def pastChecks : Exit → Bool
  | .ok | .transportError _ | .protocolViolation | .unsupported | .sizeExceeded => true
  | .notImplemented | .invalidArgument | .illegalOp | .illegalState => false

theorem Effect.pastChecks {i : Instr} {s u : State} {e : Exit} (h : Effect i s e u) : pastChecks e = true := by
  cases i with
  | openSession | report | closeSession | getSession | getSlot | classify | decodeValue | decodeLinear11 | decodeDirect
  | decodeVout | decodeBitmap =>
    obtain ⟨rfl, _⟩ := h
    rfl
  | getCoef =>
    obtain ⟨_, _, rfl, _⟩ := h
    rfl
  | scan => obtain ⟨rfl, _⟩ | ⟨_, _, ⟨_, rfl, _⟩ | ⟨_, _, rfl, _⟩⟩ := h <;> rfl
  | pageSelect => obtain ⟨_, _, ⟨rfl, _⟩ | ⟨_, rfl, _⟩⟩ := h <;> rfl
  | quickPresence => obtain ⟨rfl, _⟩ | ⟨_, _, ⟨_, rfl, _⟩ | ⟨_, rfl, _⟩⟩ := h <;> rfl
  | readByte | readWord => obtain ⟨_, _, ⟨_, rfl, _⟩ | ⟨_, rfl, _⟩⟩ := h <;> rfl
  | readBlock =>
    obtain ⟨_, _, ⟨_, rfl, _⟩ | ⟨rfl, _⟩ |
      ⟨_, _, _, _, ⟨⟨_, rfl⟩ | rfl, _⟩ | ⟨_, _, rfl | rfl, _⟩⟩⟩ := h <;> rfl
  | writeByte | writeWord => obtain ⟨_, rfl | ⟨_, rfl⟩⟩ := h <;> rfl
  | writeBlock => obtain ⟨rfl, _⟩ | ⟨_, _, _, _, rfl | ⟨_, rfl⟩⟩ := h <;> rfl
  | checkSupport =>
    obtain ⟨_, _, _, rfl, _⟩ := h
    rfl
  | fetchCoefficients => obtain ⟨_, _, _, rfl | rfl | rfl | ⟨_, rfl⟩⟩ := h <;> rfl

theorem TurnedAway.pastChecks {i : Instr} {s : State} {e : Exit} (h : TurnedAway i s e) : pastChecks e = false := by
  obtain ⟨_, rfl⟩ | ⟨_, _, rfl⟩ | ⟨_, _, _, rfl⟩ := h <;> rfl

/-- Operands that pass leave only the session-state check. -/
theorem TurnedAway.not_mem_runsIn {i : Instr} {s : State} {e : Exit} (h : TurnedAway i s e) (harg : ¬BadArgument i)
    (hwf : i.wellFormed = true) : s.sessionState ∉ runsIn i := by
  obtain ⟨hstate, _⟩ | ⟨_, hbad, _⟩ | ⟨_, _, hbad, _⟩ := h
  · exact hstate
  · exact absurd hbad harg
  · exact absurd hwf (Bool.eq_false_iff.1 hbad)

theorem eq_illegalState_of_exitStatus {e : Exit} (h : exitStatus e = .illegalState) : e = .illegalState := by
  cases e with
  | illegalState => rfl
  | _ => cases h

/-- In an allowed state no check and no effect ends with ILLEGAL_STATE. -/
theorem exec_status_ne_illegalState {i : Instr} {s t : State} (hstate : s.sessionState ∈ runsIn i)
    (h : exec i s = .next t) : t.status ≠ .illegalState := by
  obtain ⟨e, u, rfl, ⟨_, turned⟩ | ⟨_, _, _, effect⟩⟩ := exec_next h
  · obtain ⟨hout, _⟩ | ⟨_, _, rfl⟩ | ⟨_, _, _, rfl⟩ := turned
    · exact absurd hstate hout
    · exact Status.noConfusion
    · exact Status.noConfusion
  · intro hstatus
    have past := effect.pastChecks
    rw [eq_illegalState_of_exitStatus hstatus] at past
    exact Bool.noConfusion past

/-- Settles O11: the check of each operation is its row. -/
theorem operationsRunOnlyInTheirStates : Obligations.OperationsRunOnlyInTheirStates :=
  fun _ _ => ⟨exec_of_not_mem_runsIn, fun hstate _ => exec_status_ne_illegalState hstate⟩

/-! ## The session state after an operation -/

theorem OneCall.sessionState {r : BusReq} {s u : State} (h : OneCall r s u) : u.sessionState = s.sessionState := by
  obtain ⟨_, _, only, _⟩ := h
  exact congrArg (·.sessionState) only

/-- An operation turned away stays where it is (R220). -/
theorem TurnedAway.sessionState {i : Instr} {s : State} {e : Exit} (h : TurnedAway i s e) :
    sessionAfter i s.sessionState (exitStatus e) = s.sessionState := by
  have outside := h.not_mem_runsIn
  obtain ⟨notOk, notError⟩ : exitStatus e ≠ .ok ∧ exitStatus e ≠ .transportError := by
    obtain ⟨_, rfl⟩ | ⟨_, _, rfl⟩ | ⟨_, _, _, rfl⟩ := h <;> exact ⟨Status.noConfusion, Status.noConfusion⟩
  cases i with
  | openSession => exact if_neg notOk
  | scan => exact if_neg fun hs => outside id rfl (List.mem_singleton.2 hs)
  | pageSelect => exact if_neg fun ⟨_, hs⟩ => notError hs
  | report => exact if_neg fun hs => outside id rfl (List.mem_singleton.2 hs)
  | closeSession => exact absurd (mem_every _) (outside id rfl)
  | _ => rfl

/-- The effect of an operation moves the session as R220 says. -/
theorem Effect.sessionState {i : Instr} {s u : State} {e : Exit} (hstate : s.sessionState ∈ runsIn i)
    (h : Effect i s e u) : u.sessionState = sessionAfter i s.sessionState (exitStatus e) := by
  cases i with
  | openSession | closeSession | getSession | getSlot | classify | decodeValue | decodeLinear11 | decodeDirect
  | decodeVout | decodeBitmap =>
    obtain ⟨rfl, rfl⟩ := h
    rfl
  | getCoef =>
    obtain ⟨_, _, rfl, rfl⟩ := h
    rfl
  | report =>
    obtain ⟨rfl, rfl⟩ := h
    exact (if_pos (List.mem_singleton.1 hstate)).symm
  | scan =>
    have moved : sessionAfter .scan s.sessionState (exitStatus e) = if exitStatus e = .ok then .scanned else .closed :=
      if_pos (List.mem_singleton.1 hstate)
    rw [moved]
    obtain ⟨rfl, rfl⟩ | ⟨w, _, ⟨k, rfl, rfl⟩ | ⟨x, _, rfl, rfl⟩⟩ := h <;> rfl
  | pageSelect =>
    obtain ⟨w, hcall, ⟨rfl, rfl⟩ | ⟨k, rfl, rfl⟩⟩ := h
    · exact hcall.sessionState.trans (if_neg fun ⟨_, hs⟩ => Status.noConfusion hs).symm
    · exact (if_pos ⟨List.mem_singleton.1 hstate, rfl⟩).symm
  | quickPresence =>
    obtain ⟨_, rfl⟩ | ⟨w, hcall, ⟨_, _, rfl⟩ | ⟨_, _, rfl⟩⟩ := h
    · rfl
    · exact hcall.sessionState
    · exact hcall.sessionState
  | readByte | readWord => obtain ⟨w, hcall, ⟨_, _, rfl⟩ | ⟨_, _, rfl⟩⟩ := h <;> exact hcall.sessionState
  | readBlock =>
    obtain ⟨w, hlength, ⟨_, _, rfl⟩ | ⟨_, rfl⟩ | ⟨r, x, _, hblock, ⟨_, rfl⟩ | ⟨_, _, _, rfl⟩⟩⟩ := h
    · exact hlength.sessionState
    · exact hlength.sessionState
    · exact hblock.sessionState.trans hlength.sessionState
    · exact hblock.sessionState.trans hlength.sessionState
  | writeByte | writeWord =>
    obtain ⟨hcall, _⟩ := h
    exact hcall.sessionState
  | writeBlock =>
    obtain ⟨_, rfl⟩ | ⟨_, _, _, hcall, _⟩ := h
    · rfl
    · exact hcall.sessionState
  | checkSupport =>
    obtain ⟨v, x, hx, _, rfl⟩ := h
    obtain ⟨_, found, _⟩ := checkSupportCore_discovered hx
    exact found.sessionState
  | fetchCoefficients =>
    obtain ⟨d, _, hx, _⟩ := h
    obtain ⟨⟨_, found⟩, _⟩ := fetchCoefficientsCore_does hx
    exact found.sessionState

/-- Settles O14: turned away, or the effect. -/
theorem sessionStateFollowsItsTable : Obligations.SessionStateFollowsItsTable := by
  intro i s t h
  obtain ⟨e, u, rfl, ⟨rfl, turned⟩ | ⟨hstate, _, _, effect⟩⟩ := exec_next h
  · exact turned.sessionState.symm
  · have moved := effect.sessionState hstate
    exact moved

end Sys2Proof.Machine
end

section
/-! O24, O29, O30, O31. OPEN, PAGE_SELECT, REPORT, CLOSE and GET_SESSION (44_session.md R221, R228 to R231): each past
its session-state check. -/

namespace Sys2Proof.Machine

/-! ## OPEN -/

/-- OPEN runs where no session is open (R232). -/
theorem mem_runsIn_openSession (a : BitVec 7) (p : Bool) (s : State) :
    s.sessionState ∈ runsIn (.openSession a p) ↔ ¬SessionOpen s := by
  unfold SessionOpen runsIn
  cases s.sessionState <;> simp

section Open

variable {a : BitVec 7} {s : State} (p : Bool)

theorem exec_openSession (hopen : ¬SessionOpen s) :
    exec (.openSession a p) s =
      if isReservedAddress a then done .invalidArgument s else done .ok (openState a p s) :=
  whenAllowed_of ((whereNoSession_iff _).2 ((mem_runsIn_openSession a p s).2 hopen))

theorem exec_openSession_of_reserved (hopen : ¬SessionOpen s) (haddr : ReservedAddress a) :
    exec (.openSession a p) s = .next (endsAs .invalidArgument .noCause s) :=
  (exec_openSession p hopen).trans (if_pos ((isReservedAddress_iff a).2 haddr))

theorem exec_openSession_of_usable (hopen : ¬SessionOpen s) (haddr : ¬ReservedAddress a) :
    exec (.openSession a p) s = .next (endsAs .ok .noCause (openState a p s)) :=
  (exec_openSession p hopen).trans (if_neg fun hr => haddr ((isReservedAddress_iff a).1 hr))

end Open

/-- Settles O24: the two checks, and the emptied table. -/
theorem openStartsAnEmptySession : Obligations.OpenStartsAnEmptySession := by
  intro a p s
  refine ⟨fun hopen => ?_, exec_openSession_of_reserved p, fun hopen haddr => ?_⟩
  · exact exec_of_not_mem_runsIn fun hstate => (mem_runsIn_openSession a p s).1 hstate hopen
  · exact ⟨_, exec_openSession_of_usable p hopen haddr, rfl, fun c =>
      ⟨slotAt_openState a p s c, qbyteAt_openState a p s c, coefAt_openState a p s c⟩⟩

/-! ## PAGE_SELECT -/

section PageSelect

variable {page : Byte} {s u : State} (hstate : s.sessionState = .scanned)
include hstate

theorem exec_pageSelect_of_ok (ok : BusOk (.writeByte s.params.codes.page page s.pecEn) s [] u) :
    exec (.pageSelect page) s = .next (endsAs .ok .noCause u) := by
  rw [exec, execPageSelect, whenAllowed_of (hstate ▸ rfl), writeByteCore, conclude_of_ok ok.transactAs]
  rfl

theorem exec_pageSelect_of_fails {k : FailCause}
    (fails : BusFails (.writeByte s.params.codes.page page s.pecEn) s k u) :
    exec (.pageSelect page) s =
      .next (endsAs .transportError (failCauseValue k) { u with sessionState := .closed }) := by
  rw [exec, execPageSelect, whenAllowed_of (hstate ▸ rfl), writeByteCore, conclude_of_ok fails.transactAs]
  rfl

end PageSelect

/-- An operation that runs in Scanned only (R232). -/
theorem exec_of_not_scanned {i : Instr} {s : State} (hi : runsIn i = [.scanned]) (h : s.sessionState ≠ .scanned) :
    exec i s = .next (endsAs .illegalState .noCause s) :=
  exec_of_not_mem_runsIn fun hstate => h (List.mem_singleton.1 (hi ▸ hstate))

/-- Settles O29: the one write, for each kind of answer. -/
theorem pageSelectWritesPage : Obligations.PageSelectWritesPage :=
  fun _ _ => ⟨exec_of_not_scanned rfl, fun hstate =>
    ⟨fun _ => exec_pageSelect_of_ok hstate, fun _ _ => exec_pageSelect_of_fails hstate⟩⟩

/-! ## REPORT and CLOSE -/

/-- Settles O30: past the check each is one write of `SESSION_STATE`. -/
theorem reportAndCloseMoveTheSession : Obligations.ReportAndCloseMoveTheSession := by
  intro s
  refine ⟨exec_of_not_scanned rfl, fun hstate => ?_, ?_⟩
  · rw [exec, execReport, whenAllowed_of (hstate ▸ rfl)]
    rfl
  · rw [exec, execClose, whenAllowed_of (inEveryState_iff _)]
    rfl

/-! ## GET_SESSION -/

theorem exec_getSession (s : State) : exec .getSession s = .next (endsAs .ok .noCause
    { s with result := sessionView s, value := .word (identityView s), valueKind := .uint }) := by
  rw [exec, execGetSession, whenAllowed_of (inEveryState_iff _)]
  rfl

/-- The fields of GET_SESSION's `RESULT` (R230). -/
theorem sessionView_fields (s : State) :
    (sessionView s).extractLsb' 0 3 = sessionCode s.sessionState ∧ (sessionView s).getLsbD 3 = s.pecEn ∧
      (sessionView s).getLsbD 4 = s.noQuery ∧ (sessionView s).getLsbD 5 = s.capValid ∧
      (sessionView s).getLsbD 6 = s.revValid ∧ (sessionView s).getLsbD 7 = s.voutModeValid ∧
      (sessionView s).getLsbD 8 = s.pecReq ∧ (sessionView s).extractLsb' 9 7 = 0#7 := by
  unfold sessionView
  refine ⟨BitVec.extractLsb'_append_eq_right, ?_, ?_, ?_, ?_, ?_, ?_, ?_⟩
  case refine_7 =>
    iterate 6 rw [BitVec.extractLsb'_append_eq_of_le (by decide)]
    exact BitVec.extractLsb'_append_eq_left
  all_goals
    simp only [BitVec.getLsbD_append, BitVec.getLsbD_ofBool]
    rfl

theorem identityView_eq_append (s : State) : identityView s = 0#41 ++ (s.addr ++ s.revByte ++ s.capByte) :=
  BitVec.setWidth_eq_append (by decide)

/-- The fields of GET_SESSION's `VALUE` (R230). -/
theorem identityView_fields (s : State) :
    (identityView s).extractLsb' 0 8 = s.capByte ∧ (identityView s).extractLsb' 8 8 = s.revByte ∧
      (identityView s).extractLsb' 16 7 = s.addr ∧ (identityView s).extractLsb' 23 41 = 0#41 := by
  rw [identityView_eq_append]
  refine ⟨?_, ?_, ?_, BitVec.extractLsb'_append_eq_left⟩
  · rw [BitVec.extractLsb'_append_eq_of_add_le (by decide)]
    exact BitVec.extractLsb'_append_eq_right
  · rw [BitVec.extractLsb'_append_eq_of_add_le (by decide), BitVec.extractLsb'_append_eq_of_le (by decide)]
    exact BitVec.extractLsb'_append_eq_right
  · rw [BitVec.extractLsb'_append_eq_of_add_le (by decide), BitVec.extractLsb'_append_eq_of_le (by decide)]
    exact BitVec.extractLsb'_append_eq_left

/-- Settles O31: the two views and their fields. -/
theorem getSessionPacksTheRegisters : Obligations.GetSessionPacksTheRegisters := by
  intro s
  obtain ⟨hstate, hpec, hquery, hcap, hrev, hvout, hreq, hzero⟩ := sessionView_fields s
  exact ⟨sessionView s, identityView s, exec_getSession s, hstate, hpec, hquery, hcap, hrev, hvout, hreq, hzero,
    identityView_fields s⟩

end Sys2Proof.Machine
end

section
/-! O25 to O28. SCAN (44_session.md R222 to R227, R234): its steps in order, each for each kind of answer, what a
completed SCAN leaves unchanged, and what it has settled about PEC and about the codes of the catalog. -/

namespace Sys2Proof.Machine

/-! ## The two byte reads -/

section Reads

variable {s t : State}

theorem readCapability_of_ok {u : Byte} (ok : BusOk (.readByte s.params.codes.capability s.pecEn) s [u] t) :
    readCapability s = .ok ((), captureCapability u t) := by
  rw [readCapability, readByteCore, ok.transactAs]
  rfl

theorem readCapability_of_fails {k : FailCause} (fails : BusFails (.readByte s.params.codes.capability s.pecEn) s k t) :
    readCapability s = .ok ((), t) := by
  rw [readCapability, readByteCore, fails.transactAs]
  rfl

theorem readRevision_of_ok {u : Byte} (ok : BusOk (.readByte s.params.codes.pmbusRevision s.pecEn) s [u] t) :
    readRevision s = .ok ((), captureRevision u t) := by
  rw [readRevision, readByteCore, ok.transactAs]
  rfl

theorem readRevision_of_fails {k : FailCause}
    (fails : BusFails (.readByte s.params.codes.pmbusRevision s.pecEn) s k t) :
    readRevision s = .ok ((), t) := by
  rw [readRevision, readByteCore, fails.transactAs]
  rfl

/-- The PEC decision reads registers that the transaction left alone (R225). -/
theorem OnlyBus.captureCapability (h : OnlyBus s t) (u : Byte) : captureCapability u t =
    { t with
      capByte := u, capValid := true
      pecEn := s.pecEn || (capPec s.params && u.getLsbD s.params.capPecBit.val && s.pecReq) } := by
  rw [h]
  rfl

end Reads

/-- Settles O26: each read for each kind of answer. -/
theorem scanReadsTwoBytes : Obligations.ScanReadsTwoBytes :=
  fun _ => ⟨fun u _ ok => (readCapability_of_ok ok).trans (by rw [ok.onlyBus.captureCapability u]),
    fun _ _ => readCapability_of_fails, fun _ _ => readRevision_of_ok, fun _ _ => readRevision_of_fails⟩

/-! ## The steps in order -/

section Steps

variable {s u x : State}

theorem probe_of_ok {cmd : Word16} {v : Verdict} (h : checkSupportCore cmd s = .ok (v, u)) :
    probe cmd s = .ok ((), u) := by
  rw [probe, h]
  rfl

theorem probe_of_error {cmd : Word16} {f : Fault} (h : checkSupportCore cmd s = .error f) : probe cmd s = .error f := by
  rw [probe, h]
  rfl

/-- Steps (b) to (e), each on the state the one before it left. -/
theorem discover_of_steps {s₁ s₂ s₃ : State} (query : probe (cmdOf s.params.codes.query) s = .ok ((), s₁))
    (capability : readCapability s₁ = .ok ((), s₂)) (revision : readRevision s₂ = .ok ((), s₃))
    (swept : sweep s.params.catalog.entries s₃ = .ok ((), x)) : discover s = .ok ((), x) := by
  obtain ⟨_, found, _⟩ := probe_discovered query
  obtain ⟨⟨_, third⟩, _⟩ := readCapability_does capability
  obtain ⟨⟨_, fourth⟩, _⟩ := readRevision_does revision
  have hparams : s₃.params = s.params := fourth.params.trans (third.params.trans found.params)
  simp only [discover, query, capability, revision, hparams, swept, Internal.andThen]

variable (hstate : s.sessionState = .attached)
include hstate

theorem exec_scan_of_no_quick (hcap : capQuick s.params = false) :
    exec .scan s = .next (endsAs .unsupported .noCause { s with sessionState := .closed }) := by
  rw [exec, execScan, whenAllowed_of (hstate ▸ rfl), hcap]
  rfl

section Quick

variable (hcap : capQuick s.params = true)
include hcap

theorem exec_scan_of_absent {k : FailCause} (h : quickCore s = .ok (.fail k, u)) :
    exec .scan s = .next (endsAs .transportError (failCauseValue k) { u with sessionState := .closed }) := by
  rw [exec, execScan, whenAllowed_of (hstate ▸ rfl), if_pos hcap, conclude_of_ok h]
  rfl

theorem exec_scan_of_discover (h : quickCore s = .ok (.ok (), u)) (found : discover u = .ok ((), x)) :
    exec .scan s = .next (endsAs .ok .noCause { x with sessionState := .scanned }) := by
  rw [exec, execScan, whenAllowed_of (hstate ▸ rfl), if_pos hcap, conclude_of_ok h]
  exact conclude_of_ok found

end Quick

end Steps

/-- Settles O25: the sweep's recursion, and one lemma for each way SCAN goes on. -/
theorem scanRunsItsStepsInOrder : Obligations.ScanRunsItsStepsInOrder := by
  refine ⟨fun s => rfl, fun e es s v t h => ?_, fun e es s f h => ?_, fun s hstate => ?_⟩
  · rw [sweep, probe_of_ok h]
    rfl
  · rw [sweep, probe_of_error h]
    rfl
  refine ⟨exec_scan_of_no_quick hstate, fun hcap => ⟨fun k u fails => ?_, ?_⟩⟩
  · exact exec_scan_of_absent hstate hcap fails.transactAs
  · intro u ok v₁ s₁ query s₂ capability s₃ revision s₄ swept
    have hparams : u.params = s.params := congrArg (·.params) ok.onlyBus
    rw [← hparams] at query swept
    exact exec_scan_of_discover hstate hcap ok.transactAs
      (discover_of_steps (probe_of_ok query) capability revision swept)

/-! ## What SCAN leaves unchanged -/

/-- `s` without what steps (a) to (e) of SCAN write. -/
def forgetScan (s : State) : State :=
  { forgetFindings s with
    result := s.result, pecEn := false, capByte := 0#8, capValid := false, revByte := 0#8, revValid := false }

section Unchanged

variable {s t : State}

theorem OnlyBus.forgetScan (h : OnlyBus s t) : forgetScan t = forgetScan s := by
  rw [h]
  rfl

theorem Discovered.forgetScan {new : List Transaction} (h : Discovered new s t) : forgetScan t = forgetScan s := by
  rw [h.frame]
  rfl

theorem readCapability_forgetScan (h : readCapability s = .ok ((), t)) : forgetScan t = forgetScan s := by
  obtain ⟨_, u, _, only, _, rfl | ⟨b, rfl, _⟩⟩ := readCapability_cases h <;> exact only.forgetScan

theorem readRevision_forgetScan (h : readRevision s = .ok ((), t)) : forgetScan t = forgetScan s := by
  obtain ⟨_, u, _, only, _, rfl | ⟨b, rfl⟩⟩ := readRevision_cases h <;> exact only.forgetScan

theorem discover_forgetScan (h : discover s = .ok ((), t)) : forgetScan t = forgetScan s := by
  obtain ⟨s₁, s₂, s₃, query, capability, revision, swept⟩ := discover_cases h
  obtain ⟨_, probed, _⟩ := probe_discovered query
  obtain ⟨_, rest, _⟩ := sweep_discovered swept
  calc forgetScan t = forgetScan s₃ := rest.forgetScan
    _ = forgetScan s₂ := readRevision_forgetScan revision
    _ = forgetScan s₁ := readCapability_forgetScan capability
    _ = forgetScan s := probed.forgetScan

/-- A device that acknowledges its address is present, whatever bytes the answer lists (log 4). -/
theorem quickCore_of_complete {bytes : List Byte} (hcap : capQuick s.params = true)
    (hn : nextAnswer s = .complete bytes) :
    ∃ u, quickCore s = .ok (.ok (), u) :=
  ⟨_, transactAs_of_transact (transact_of_complete (r := .quick) hcap hn)⟩

end Unchanged

/-- Settles O27: discovery completes where its answers come (`discover_answers`), and writes none of these registers. -/
theorem scanReachesScanned : Obligations.ScanReachesScanned := by
  intro s bytes rest hstate hcap hanswers hans
  have hn : nextAnswer s = .complete bytes := by rw [nextAnswer, hanswers]
  obtain ⟨u, present⟩ := quickCore_of_complete hcap hn
  have call : OneCall .quick s u := quickCore_traffic present
  have ⟨_, _, only, _⟩ := call
  have hparams : u.params = s.params := congrArg (·.params) only
  have left : Answered (8 + 6 * u.params.catalog.entries.length) u :=
    call.answered (hparams ▸ hans.mono (by rw [answersNeeded]; omega))
  obtain ⟨x, found⟩ := discover_answers left
  have same : forgetScan x = forgetScan s := (discover_forgetScan found).trans only.forgetScan
  refine ⟨_, exec_scan_of_discover hstate hcap present found, rfl, rfl, rfl, ?_⟩
  have hdata : x.data = s.data := congrArg (·.data) same
  exact ⟨congrArg (·.addr) same, congrArg (·.pecReq) same, congrArg (·.pecSaved) same,
    ⟨congrArg (·.result) same, congrArg (·.rlen) same, congrArg (·.valueKind) same, congrArg (·.value) same⟩,
    congrArg (·.params) same, congrArg (·.req) same, congrArg (·.host) same,
    fun i => congrArg (Memory.read? · i) hdata⟩

/-! ## A SCAN that ended OK -/

/-- Only a SCAN that ran its steps ends with OK (R222). -/
theorem exec_scan_ok {s t : State} (h : exec .scan s = .next t) (hok : t.status = .ok) :
    ∃ w x, OneCall .quick s w ∧ discover w = .ok ((), x) ∧
      t = endsAs .ok .noCause { x with sessionState := .scanned } := by
  obtain ⟨e, u, rfl, ⟨_, turned⟩ | ⟨_, _, _, effect⟩⟩ := exec_next h
  · obtain ⟨_, rfl⟩ | ⟨_, _, rfl⟩ | ⟨_, _, _, rfl⟩ := turned <;> cases hok
  · obtain ⟨rfl, _⟩ | ⟨w, call, ⟨_, rfl, _⟩ | ⟨x, found, rfl, rfl⟩⟩ := effect
    · cases hok
    · cases hok
    · exact ⟨w, x, call, found, rfl⟩

/-! ## PEC -/

/-- PEC is on exactly where the CAPABILITY byte was read and adapter, device and operator agree (R225). -/
def PecAsAgreed (s : State) : Prop :=
  s.pecEn = (s.capValid && capPec s.params && s.capByte.getLsbD s.params.capPecBit.val && s.pecReq)

section Pec

variable {s t : State}

theorem PecAsAgreed.of_forgetFindings (hs : PecAsAgreed s) (h : forgetFindings t = forgetFindings s) :
    PecAsAgreed t := by
  have kept : PecAsAgreed (forgetFindings t) := h ▸ hs
  exact kept

theorem pecAsAgreed_captureCapability (hoff : s.pecEn = false) (u : Byte) : PecAsAgreed (captureCapability u s) := by
  simp [PecAsAgreed, pecAgreed, advertisesPec, hoff]

theorem Captures.pecAsAgreed (h : Captures s t) (hoff : s.pecEn = false) (hunread : s.capValid = false) :
    PecAsAgreed t := by
  have before : PecAsAgreed s := by simp [PecAsAgreed, hoff, hunread]
  cases h with
  | neither frame => exact before.of_forgetFindings frame
  | capability u frame => exact (pecAsAgreed_captureCapability hoff u).of_forgetFindings frame
  | revision v frame => exact PecAsAgreed.of_forgetFindings (s := captureRevision v s) before frame
  | both u v frame =>
    exact PecAsAgreed.of_forgetFindings (s := captureRevision v (captureCapability u s))
      (pecAsAgreed_captureCapability hoff u) frame

end Pec

/-! ## The sweep -/

/-- The code `c` is bound, or negotiation is impossible (41_query.md R143, R144). -/
def Settled (c : Byte) (s : State) : Prop :=
  slotAt s c ≠ .notProbed ∨ s.noQuery = true ∨ slotAt s s.params.codes.query = .unsupported

section Sweep

variable {c : Byte} {s t : State}

/-- What is settled stays so (R26, R31). -/
theorem Advances.settled {new : List Transaction} (h : Advances new s t) (hs : Settled c s) : Settled c t := by
  obtain hbound | hno | hquery := hs
  · obtain ⟨hslot, _⟩ := h.bound c hbound
    exact .inl (hslot ▸ hbound)
  · exact .inr (.inl (h.sticky hno))
  · obtain ⟨hslot, _⟩ := h.bound _ (by rw [hquery]; decide)
    exact .inr (.inr (by rw [h.params, hslot, hquery]))

/-- Steps 2 to 4 answer for a bound code, or where negotiation is impossible. -/
theorem settled_of_knownVerdict {v : Verdict} (h : knownVerdict c s = some v) : Settled c s := by
  by_contra hopen
  simp only [Settled, not_or, ne_eq, not_not] at hopen
  obtain ⟨hslot, hno, hquery⟩ := hopen
  rw [knownVerdict_of_negotiable hslot hquery (Bool.eq_false_iff.2 hno)] at h
  cases h

theorem voutModeCapture_supported {v : Verdict} (h : voutModeCapture s = .ok (v, t)) : v = .supported := by
  obtain ⟨reply, u, _, h⟩ := Internal.andThen_ok.1 h
  cases reply <;> cases h <;> rfl

/-- A query byte leads to a verdict (R146, R147). -/
theorem bindSlot_ne_unknown {q : Byte} {v : Verdict} (h : bindSlot checkCoefficients c q s = .ok (v, t)) :
    v ≠ .unknown := by
  cases hq : qSupported q with
  | false =>
    rw [bindSlot_of_not_supported hq] at h
    cases h
    exact Verdict.noConfusion
  | true =>
    have supported : v = .supported := by
      by_cases hc : c = s.params.codes.voutMode
      · rw [bindSlot_of_voutMode hq hc] at h
        exact voutModeCapture_supported h
      · rw [bindSlot_of_other hq hc] at h
        obtain ⟨hv, _⟩ := directCoefficients_discovered (p := Costs 1 2) (by simp [Costs, queries])
          checkCoefficients_discovered h
        exact hv
    rw [supported]
    exact Verdict.noConfusion

/-- A negotiation binds the slot or sets `NO_QUERY` (R145 to R147). -/
theorem settled_of_negotiate {v : Verdict} (h : negotiate checkCoefficients c s = .ok (v, t)) : Settled c t := by
  obtain ⟨reply, u, _, h⟩ := Internal.andThen_ok.1 h
  split at h
  · have verdict := bindSlot_verdict h
    refine .inl fun hslot => bindSlot_ne_unknown h ?_
    rw [verdict, hslot, slotVerdict]
  · cases h
    exact .inr (.inl rfl)

/-- The check of a core command settles its code. -/
theorem settled_of_checkSupportCore {cmd : Word16} {v : Verdict} (hcore : cmd.toNat ≤ 0xFD)
    (h : checkSupportCore cmd s = .ok (v, t)) : Settled (c8 cmd) t := by
  cases hknown : knownVerdict (c8 cmd) s with
  | some v' =>
    rw [checkSupportCore, checkWith_of_known hcore hknown] at h
    cases h
    exact settled_of_knownVerdict hknown
  | none =>
    rw [checkSupportCore, checkWith_of_unknown hcore hknown] at h
    exact settled_of_negotiate h

/-- The sweep settles every core code it checks: each by its own check, and the later ones undo nothing (R227). -/
theorem settled_of_sweep {es : List CatalogEntry} {e : CatalogEntry} (he : e ∈ es) (hcore : e.code.toNat ≤ 0xFD)
    (h : sweep es s = .ok ((), t)) : Settled (c8 e.code) t := by
  induction es generalizing s with
  | nil => cases he
  | cons e' es ih =>
    obtain ⟨_, u, checked, swept⟩ := Internal.andThen_ok.1 h
    obtain rfl | he := List.mem_cons.1 he
    · obtain ⟨v, u', answered, same⟩ := Internal.andThen_ok.1 checked
      cases same
      obtain ⟨_, rest, _⟩ := sweep_discovered swept
      exact rest.advances.settled (settled_of_checkSupportCore hcore answered)
    · exact ih he swept

/-- Step (e) takes the entries of the catalog. -/
theorem settled_of_discover {e : CatalogEntry} (he : e ∈ s.params.catalog.entries) (hcore : e.code.toNat ≤ 0xFD)
    (h : discover s = .ok ((), t)) : Settled (c8 e.code) t := by
  obtain ⟨s₁, s₂, s₃, _, _, _, swept⟩ := discover_cases h
  obtain ⟨_, rest, _⟩ := sweep_discovered swept
  have hparams : s₃.params = s.params :=
    rest.params.symm.trans (congrArg (·.params) (discover_forgetScan h))
  exact settled_of_sweep (hparams ▸ he) hcore swept

end Sweep

/-- Settles O28: `Captures.pecAsAgreed` for PEC, `settled_of_discover` for the sweep. -/
theorem scanAgreesOnPecAndSweeps : Obligations.ScanAgreesOnPecAndSweeps := by
  intro s t h hok
  obtain ⟨w, x, ⟨_, _, only, _⟩, found, rfl⟩ := exec_scan_ok h hok
  have same : forgetScan x = forgetScan s := (discover_forgetScan found).trans only.forgetScan
  have hparams : x.params = s.params := congrArg (·.params) same
  have hreq : x.pecReq = s.pecReq := congrArg (·.pecReq) same
  have hquick : w.params = s.params := congrArg (·.params) only
  refine ⟨fun hoff hunread => ?_, fun e he hcore => ?_⟩
  · obtain ⟨_, captures⟩ := discover_does found
    have agreed : PecAsAgreed x :=
      captures.pecAsAgreed ((congrArg (·.pecEn) only).trans hoff) ((congrArg (·.capValid) only).trans hunread)
    rw [PecAsAgreed, hparams, hreq] at agreed
    exact agreed
  · have settled : Settled (c8 e.code) x := settled_of_discover (hquick ▸ he) hcore found
    rw [Settled, hparams] at settled
    exact settled

end Sys2Proof.Machine
end

section
/-! O12, O13. The operand checks of every operation (60_exceptions.md R255) and the statuses each can end with (R252 to
R254). -/

namespace Sys2Proof.Machine

/-! ## Operands in range -/

theorem openableAddress_iff (a : BitVec 7) : openableAddress a = true ↔ ¬ReservedAddress a := by
  rw [← isReservedAddress_iff, isReservedAddress_openable, Bool.not_eq_true', Bool.not_eq_false]

theorem usableLength_iff (n : BitVec 12) : usableLength n = true ↔ ¬(n.toNat = 0 ∨ 255 < n.toNat) := by
  simp only [usableLength, Bool.and_eq_true, decide_eq_true_eq]
  omega

theorem usableDirection_iff (d : Word16) : usableDirection d = true ↔ ¬1 < d.toNat := by
  simp only [usableDirection, decide_eq_true_eq, Nat.not_lt]

theorem not_badArgument_of_wellFormed {i : Instr} (h : i.wellFormed = true) : ¬BadArgument i := by
  cases i with
  | openSession a => exact (openableAddress_iff a).1 h
  | readBlock _ n | writeBlock _ n => exact (usableLength_iff n).1 (Bool.and_eq_true_iff.1 h).1
  | fetchCoefficients _ d | getCoef _ d => exact (usableDirection_iff d).1 (Bool.and_eq_true_iff.1 h).1
  | _ => exact id

/-! ## The checks -/

section Checks

variable {s : State} {body : StepOutcome}

theorem whenLength_bad {n : Nat} (h : n = 0 ∨ 255 < n) : whenLength n s body = done .invalidArgument s :=
  if_pos ((badLength_iff n).2 h)

theorem whenCore_bad {cmd : Word16} (h : coreCode cmd = false) : whenCore cmd s body = done .notImplemented s :=
  if_pos (by rw [isExtended_coreCode, h, Bool.not_false])

theorem whenDirection_bad {arg : Word16} {body : Direction → StepOutcome} (h : 1 < arg.toNat) :
    whenDirection arg s body = done .invalidArgument s := by
  rw [whenDirection, directionOf_none.2 h]

/-- A length in range leaves an extended command to be turned away (R255 (3), (4)). -/
theorem whenLength_whenCore_bad {n : BitVec 12} {cmd : Word16} (hlen : ¬(n.toNat = 0 ∨ 255 < n.toNat))
    (hwf : (usableLength n && coreCode cmd) = false) :
    whenLength n.toNat s (whenCore cmd s body) = done .notImplemented s := by
  rw [(usableLength_iff n).2 hlen, Bool.true_and] at hwf
  rw [whenLength_of (Bool.eq_false_iff.2 fun hbad => hlen ((badLength_iff _).1 hbad)), whenCore_bad hwf]

/-- A direction in range leaves an extended command to be turned away (R255 (3), (4)). -/
theorem whenDirection_whenCore_bad {arg cmd : Word16} {body : Direction → StepOutcome} (hdir : ¬1 < arg.toNat)
    (hwf : (usableDirection arg && coreCode cmd) = false) :
    whenDirection arg s (fun d => whenCore cmd s (body d)) = done .notImplemented s := by
  rw [(usableDirection_iff arg).2 hdir, Bool.true_and] at hwf
  obtain ⟨d, hd⟩ := Option.ne_none_iff_exists'.1 fun hnone => hdir (directionOf_none.1 hnone)
  rw [whenDirection_of hd, whenCore_bad hwf]

end Checks

section Exec

variable {i : Instr} {s : State} (hstate : s.sessionState ∈ runsIn i)
include hstate

/-- R255 (3), in an allowed state. -/
theorem exec_of_badArgument (hbad : BadArgument i) : exec i s = .next (endsAs .invalidArgument .noCause s) := by
  have allowed := (allowedIn_iff i _).2 hstate
  cases i with
  | openSession a p => exact exec_openSession_of_reserved p ((mem_runsIn_openSession a p s).1 hstate) hbad
  | readBlock | writeBlock => exact (whenAllowed_of allowed).trans (whenLength_bad hbad)
  | fetchCoefficients | getCoef => exact (whenAllowed_of allowed).trans (whenDirection_bad hbad)
  | _ => exact hbad.elim

/-- R255 (4), in an allowed state: past the ranges, an operand can only be bad as an extended command. -/
theorem exec_of_extended (harg : ¬BadArgument i) (hwf : i.wellFormed = false) :
    exec i s = .next (endsAs .notImplemented .noCause s) := by
  have allowed := (allowedIn_iff i _).2 hstate
  cases i with
  | openSession a =>
    have usable := (openableAddress_iff a).2 harg
    exact absurd usable (Bool.eq_false_iff.1 hwf)
  | readByte | readWord | writeByte | writeWord | getSlot | classify | decodeValue | decodeDirect =>
    exact (whenAllowed_of allowed).trans (whenCore_bad hwf)
  | readBlock | writeBlock => exact (whenAllowed_of allowed).trans (whenLength_whenCore_bad harg hwf)
  | fetchCoefficients | getCoef => exact (whenAllowed_of allowed).trans (whenDirection_whenCore_bad harg hwf)
  | _ => exact Bool.noConfusion hwf

/-- Good operands in an allowed state: the operation has its effect, which ends with no status of a check. -/
theorem exec_status_of_wellFormed {t : State} (hwf : i.wellFormed = true) (h : exec i s = .next t) :
    t.status ≠ .invalidArgument ∧ t.status ≠ .notImplemented := by
  obtain ⟨e, u, rfl, ⟨_, turned⟩ | ⟨_, _, _, effect⟩⟩ := exec_next h
  · exact absurd hstate (turned.not_mem_runsIn (not_badArgument_of_wellFormed hwf) hwf)
  · have past := effect.pastChecks
    cases e with
    | invalidArgument | notImplemented => exact Bool.noConfusion past
    | _ => exact ⟨Status.noConfusion, Status.noConfusion⟩

end Exec

/-- Settles O12: the two operand checks in their order, and operands that pass both. -/
theorem badOperandsEndBeforeAnyEffect : Obligations.BadOperandsEndBeforeAnyEffect :=
  fun _ _ hstate => ⟨exec_of_badArgument hstate, exec_of_extended hstate, fun hwf =>
    ⟨not_badArgument_of_wellFormed hwf, fun _ => exec_status_of_wellFormed hstate hwf⟩⟩

/-! ## The statuses of each operation -/

theorem illegalState_mem_endStatuses {i : Instr} {x : SessionState} (h : x ∉ runsIn i) :
    .illegalState ∈ endStatuses i := by
  cases i with
  | closeSession | getSession | getSlot | getCoef | decodeLinear11 | decodeBitmap => exact absurd (mem_every x) h
  | _ => exact .tail _ (.head _)

theorem invalidArgument_mem_endStatuses {i : Instr} (h : BadArgument i) : .invalidArgument ∈ endStatuses i := by
  cases i with
  | openSession | readBlock | writeBlock | fetchCoefficients | getCoef => simp [endStatuses]
  | _ => exact h.elim

theorem notImplemented_mem_endStatuses {i : Instr} (harg : ¬BadArgument i) (hwf : i.wellFormed = false) :
    .notImplemented ∈ endStatuses i := by
  cases i with
  | openSession a =>
    have usable := (openableAddress_iff a).2 harg
    exact absurd usable (Bool.eq_false_iff.1 hwf)
  | scan | pageSelect | report | closeSession | getSession | quickPresence | checkSupport | decodeLinear11 | decodeVout
  | decodeBitmap => exact Bool.noConfusion hwf
  | _ => simp [endStatuses]

theorem TurnedAway.status_mem {i : Instr} {s : State} {e : Exit} (h : TurnedAway i s e) :
    exitStatus e ∈ endStatuses i := by
  obtain ⟨hstate, rfl⟩ | ⟨_, hbad, rfl⟩ | ⟨_, harg, hwf, rfl⟩ := h
  · exact illegalState_mem_endStatuses hstate
  · exact invalidArgument_mem_endStatuses hbad
  · exact notImplemented_mem_endStatuses harg hwf

/-- The ends of each effect are in the operation's row (R253). -/
theorem Effect.status_mem {i : Instr} {s u : State} {e : Exit} (h : Effect i s e u) :
    exitStatus e ∈ endStatuses i := by
  cases i with
  | openSession | report | closeSession | getSession | getSlot | classify | decodeValue | decodeLinear11 | decodeDirect
  | decodeVout | decodeBitmap =>
    obtain ⟨rfl, _⟩ := h
    exact .head _
  | getCoef =>
    obtain ⟨_, _, rfl, _⟩ := h
    exact .head _
  | checkSupport =>
    obtain ⟨_, _, _, rfl, _⟩ := h
    exact .head _
  | scan => obtain ⟨rfl, _⟩ | ⟨_, _, ⟨_, rfl, _⟩ | ⟨_, _, rfl, _⟩⟩ := h <;> simp [exitStatus, endStatuses]
  | pageSelect => obtain ⟨_, _, ⟨rfl, _⟩ | ⟨_, rfl, _⟩⟩ := h <;> simp [exitStatus, endStatuses]
  | quickPresence =>
    obtain ⟨rfl, _⟩ | ⟨_, _, ⟨_, rfl, _⟩ | ⟨_, rfl, _⟩⟩ := h <;> simp [exitStatus, endStatuses]
  | readByte | readWord => obtain ⟨_, _, ⟨_, rfl, _⟩ | ⟨_, rfl, _⟩⟩ := h <;> simp [exitStatus, endStatuses]
  | readBlock =>
    obtain ⟨_, _, ⟨_, rfl, _⟩ | ⟨rfl, _⟩ |
      ⟨_, _, _, _, ⟨⟨_, rfl⟩ | rfl, _⟩ | ⟨_, _, rfl | rfl, _⟩⟩⟩ := h <;> simp [exitStatus, endStatuses]
  | writeByte | writeWord => obtain ⟨_, rfl | ⟨_, rfl⟩⟩ := h <;> simp [exitStatus, endStatuses]
  | writeBlock => obtain ⟨rfl, _⟩ | ⟨_, _, _, _, rfl | ⟨_, rfl⟩⟩ := h <;> simp [exitStatus, endStatuses]
  | fetchCoefficients =>
    obtain ⟨_, _, _, rfl | rfl | rfl | ⟨_, rfl⟩⟩ := h <;> simp [exitStatus, endStatuses]

/-- Settles O13: the status is the end's, turned away or past the checks, and only a transport error has a cause. -/
theorem statusAndCauseOfEachOperation : Obligations.StatusAndCauseOfEachOperation := by
  intro i s t h
  obtain ⟨e, u, rfl, outcome⟩ := exec_next h
  refine ⟨?_, exitStatus_transportError_iff e⟩
  obtain ⟨_, turned⟩ | ⟨_, _, _, effect⟩ := outcome
  · exact turned.status_mem
  · exact effect.status_mem

end Sys2Proof.Machine
end

section
/-! O7, O9. The state after power-on reset (70_reset_and_hazards.md R280): its values, and that it is legal. Its discovered
table is the one OPEN starts a session with (R281), so what is known of that table is used again. -/

namespace Sys2Proof.Machine

/-! ## The values of R280 -/

@[simp] theorem coefAt_boot (p : Params) (c : Byte) (d : Direction) : coefAt (State.boot p) c d = CoefSet.cleared :=
  calc coefAt (State.boot p) c d
    _ = coefAt (openState 0#7 false (State.boot p)) c d := coefAt_of_coef rfl c d
    _ = CoefSet.cleared := coefAt_openState 0#7 false (State.boot p) c d

theorem dataByte_of_data_nil {s : State} (h : s.data = []) (i : Nat) : dataByte s i = Config.unwrittenByte s.draws i := by
  rw [dataByte, h, Memory.read?, Option.getD_none]

/-- Settles O7: the registers by `State.boot`, the table code by code, and a `DATA` nobody has written. -/
theorem powerOnResetValues : Obligations.PowerOnResetValues := by
  intro p
  refine ⟨rfl, rfl, rfl, rfl, rfl, rfl, rfl, rfl, rfl, rfl, fun c => ?table,
    rfl, rfl, rfl, rfl, rfl, rfl, rfl, dataByte_of_data_nil rfl⟩
  case table => exact ⟨slotAt_boot p c, qbyteAt_boot p c, coefAt_boot p c⟩

/-! ## The reset state is legal -/

/-- No session is open, PEC is off and no byte has been read. -/
theorem sessionLegal_boot (p : Params) : SessionLegal .unopened (State.boot p) where
  pec_agreed hon := Bool.noConfusion hon
  pec_after_scan hon := Bool.noConfusion hon
  open_address hopen := Bool.noConfusion hopen
  unread_bytes := ⟨fun _ => rfl, fun _ => rfl⟩

theorem tableLegal_boot (p : Params) : TableLegal (State.boot p) :=
  (tableLegal_openState 0#7 false (State.boot p)).of_findings rfl

/-- `DATA` is unwritten, `RLEN` is 0 and `VALUE` is a RAW word. -/
theorem outputLegal_boot (p : Params) : OutputLegal (State.boot p) where
  data_canonical := rfl
  rlen_bound := Nat.zero_le 255
  value_form := valueForm_word p 0#64 (k := .raw) (by decide)

theorem legalState_boot (p : Params) : LegalState (State.boot p) := by
  have no_cause : (State.boot p).status = .transportError ↔ (State.boot p).cause ≠ .noCause :=
    ⟨fun h => Status.noConfusion h, fun h => absurd rfl h⟩
  exact (legalState_iff _).2 ⟨sessionLegal_boot p, tableLegal_boot p, outputLegal_boot p, no_cause⟩

/-- Settles O9: `State.reset` is the instance with the parameters `Config.params`. -/
theorem resetIsLegal : Obligations.ResetIsLegal := ⟨legalState_boot Config.params, legalState_boot⟩

end Sys2Proof.Machine
end
